-- ==== Sys2Proof/Word.lean ====
section
/-! DEFINITION. The two element widths of CORE (`10_state.md` R21, R24): 32-bit registers and `i32`
elements, 8-bit `u8` elements. Signed values are read with `BitVec.toInt`. -/

namespace Sys2Proof

/-- A 32-bit register or an `i32` buffer element. -/
abbrev Word := BitVec 32

/-- A `u8` buffer element. -/
abbrev Byte := BitVec 8

end Sys2Proof
end

