-- ==== Sys2Proof/Syntax.lean ====
section
/-! DEFINITION. The 28 commands of `30_encoding.md` R82, one constructor per row of the opcode table.
A command has no register field, no immediate and no mode bit (R80), so no constructor has an argument. -/

namespace Sys2Proof

/-- The commands, in the order of the opcode table (R82). -/
inductive Instr where
  | reset
  | ldrgb
  | ldcont
  | rgb2ycc
  | ycc2rgb
  | fdct
  | idct
  | quant
  | dequant
  | zigzag
  | dezigzag
  | rleenc
  | rledec
  | hfreq
  | htree
  | hcodes
  | henc
  | hdec
  | ser
  | deser
  | pxembed
  | pxextract
  | cfembed
  | cfextract
  | runenc
  | runencm
  | rundec
  | rundecm
deriving DecidableEq, Repr

end Sys2Proof
end

