-- ==== Sys2Proof/WellFormed.lean ====
section
/-! DEFINITION. Well-formedness of command words (`30_encoding.md` R80, R84) and of commands. -/

namespace Sys2Proof

/-- Field `zero` (bits 31:8) must be 0 (R80). -/
def highFieldZero (w : Word) : Bool := w >>> 8 == 0#32

/-- The low bytes R84 leaves unassigned. -/
def lowByteReserved (op : Nat) : Bool :=
  op == 0x00 || (0x04 ≤ op && op ≤ 0x0F) || op == 0x1F || (0x22 ≤ op && op ≤ 0x2F)
    || (0x34 ≤ op && op ≤ 0x3F) || (0x44 ≤ op && op ≤ 0xFF)

/-- A command word is well formed when its high field is 0 and its low byte is assigned (R80, R84). -/
def commandWordWellFormed (w : Word) : Bool :=
  highFieldZero w && !lowByteReserved (w.setWidth 8).toNat

/-- A command has no operand, so every command is well formed (R80: nothing to sign-extend, scale or
assemble). -/
def Instr.wellFormed (_ : Instr) : Bool := true

end Sys2Proof
end

