-- ==== Sys2Proof/Decode.lean ====
section
/-! DEFINITION. The decoder of command words, total on every 32-bit word (`30_encoding.md` R81, R82,
R84), and the encoder. -/

namespace Sys2Proof

/-- Why a command word is illegal (R84). Both kinds end in the one diagnostic `E_ILLEGAL`. -/
inductive DecodeError where
  /-- a non-zero bit in 31:8 -/
  | highFieldNonzero
  /-- a low byte that R82 assigns to no command -/
  | unassignedOpcode
deriving DecidableEq, Repr

/-- The opcode map of R82, on the low byte of a command word. -/
def decodeOpcode (op : Nat) : Option Instr :=
  match op with
  | 0x01 => some .reset
  | 0x02 => some .ldrgb
  | 0x03 => some .ldcont
  | 0x10 => some .rgb2ycc
  | 0x11 => some .ycc2rgb
  | 0x12 => some .fdct
  | 0x13 => some .idct
  | 0x14 => some .quant
  | 0x15 => some .dequant
  | 0x16 => some .zigzag
  | 0x17 => some .dezigzag
  | 0x18 => some .rleenc
  | 0x19 => some .rledec
  | 0x1A => some .hfreq
  | 0x1B => some .htree
  | 0x1C => some .hcodes
  | 0x1D => some .henc
  | 0x1E => some .hdec
  | 0x20 => some .ser
  | 0x21 => some .deser
  | 0x30 => some .pxembed
  | 0x31 => some .pxextract
  | 0x32 => some .cfembed
  | 0x33 => some .cfextract
  | 0x40 => some .runenc
  | 0x41 => some .runencm
  | 0x42 => some .rundec
  | 0x43 => some .rundecm
  | _ => none

/-- Decoding of a command word: first the field `zero`, then the opcode (R80, R81). -/
def decodeWord (w : Word) : Except DecodeError Instr :=
  if highFieldZero w then
    match decodeOpcode (w.setWidth 8).toNat with
    | some i => .ok i
    | none => .error .unassignedOpcode
  else .error .highFieldNonzero

/-- The opcode of a command (R82). -/
def opcode : Instr → Nat
  | .reset => 0x01
  | .ldrgb => 0x02
  | .ldcont => 0x03
  | .rgb2ycc => 0x10
  | .ycc2rgb => 0x11
  | .fdct => 0x12
  | .idct => 0x13
  | .quant => 0x14
  | .dequant => 0x15
  | .zigzag => 0x16
  | .dezigzag => 0x17
  | .rleenc => 0x18
  | .rledec => 0x19
  | .hfreq => 0x1A
  | .htree => 0x1B
  | .hcodes => 0x1C
  | .henc => 0x1D
  | .hdec => 0x1E
  | .ser => 0x20
  | .deser => 0x21
  | .pxembed => 0x30
  | .pxextract => 0x31
  | .cfembed => 0x32
  | .cfextract => 0x33
  | .runenc => 0x40
  | .runencm => 0x41
  | .rundec => 0x42
  | .rundecm => 0x43

/-- The command word of a command: its opcode zero-extended to 32 bits (R82). -/
def encode (i : Instr) : Word := BitVec.ofNat 32 (opcode i)

/-- The word that the low `nbits` bits of `w` make, zero above them (a command word has 32 bits, R80). -/
def tableWord (nbits w : Nat) : Word := BitVec.ofNat 32 (w % 2 ^ nbits)

/-- The command the decoder reads from an instruction whose bits are `w`. -/
def decodeTableWord (nbits w : Nat) : Option Instr :=
  match decodeWord (tableWord nbits w) with
  | .ok i => some i
  | .error _ => none

end Sys2Proof
end

