-- ==== Sys2Proof/Config.lean ====
section
/-! DEFINITION. The parameters of `00_scope.md` R8 that the model fixes at the spec's default
(log 7), the defaults of the OPEN ones (log 6), and the free values of U1, U3 and U4
(`93_implementation_defined.md`; logs 3, 4, 5, 11). A free value is an opaque constant: nothing in
Lean can evaluate it, so what is proved holds whatever it is. -/

namespace Sys2Proof.Config

/-- The rounding functions `00_scope.md` R13 names. -/
inductive RoundMode where
  /-- add 1/2, floor -/
  | rhu
  /-- nearest, ties away from zero -/
  | rha
  /-- add 1/2, truncate -/
  | rtz
deriving DecidableEq, Repr

/-- The two values of `BYTE_ORDER` (R8). -/
inductive ByteOrder where
  | little
  | big
deriving DecidableEq, Repr

/-- `MAX_W` (R8). -/
def maxW : Nat := 16384

/-- `MAX_H` (R8). -/
def maxH : Nat := 16384

/-- `ZZ_CAP = 3 * MAX_W * MAX_H` (R8). -/
def zzCap : Nat := 3 * maxW * maxH

/-- `RLE_CAP = 2 * ZZ_CAP` (R8). -/
def rleCap : Nat := 2 * zzCap

/-- Default of the OPEN parameter `MSG_CAP` (R8). -/
def msgCapDefault : Nat := 2 ^ 24

/-- Default of the OPEN parameter `CONT_CAP` (R8). -/
def contCapDefault : Nat := 2 ^ 31 - 1

/-- Default of the OPEN parameter `FREQ_CAP` (R8). -/
def freqCapDefault : Nat := 2 ^ 20

/-- Default of the OPEN parameter `PAY_CAP` (R8). -/
def payCapDefault : Nat := 2 ^ 31 - 1

/-- `BYTE_ORDER` (R8, R65). -/
def byteOrder : ByteOrder := .little

/-- `ROUND_DCT` (R8, `90_conflicts.md` C1). -/
def roundDct : RoundMode := .rhu

/-- `ROUND_NEAREST` (R8). -/
def roundNearest : RoundMode := .rha

/-- FREE VALUE (U1, U4; log 3): what a never-written `u8` element holds. The arguments are the number
of resets so far, the buffer id and the element index. -/
opaque freeByte : Nat → Nat → Nat → Byte

/-- FREE VALUE (U1, U4; log 3): what a never-written `i32` element holds; arguments as `freeByte`. -/
opaque freeWord : Nat → Nat → Nat → Word

/-- FREE VALUE (U4; log 11): what a code-store entry holds that `HCODES` has not written since reset.
The arguments are the number of resets so far and the entry. -/
opaque freeCode : Nat → Nat → List Bool

/-- FREE VALUE (R72, U1; log 4): what the host reads at or beyond a buffer's valid extent. The arguments
are the number of resets so far, the buffer id, the valid extent, the element index and what the model
holds there. -/
opaque freeRead : Nat → Nat → Nat → Nat → Word → Word

/-- FREE VALUE (U3; log 5): the least significant bit of a slot after a `CFEMBED` that ran out of
carrier. The arguments are the running number of the draw and the element index. -/
opaque freeLsb : Nat → Nat → Bool

end Sys2Proof.Config
end

