-- ==== Sys2Proof/Machine/State.lean ====
section
/-! DEFINITION. The state of CORE as plain data (`10_state.md` R21, R24, R26, R27, R34), the host's
actions (`20_memory.md` R72), the names of the stage flags and diagnostics, and the state after reset
(`70_reset_and_hazards.md` R330). -/

namespace Sys2Proof.Machine

/-- The ten buffers (`10_state.md` R24); their ids are `BufId.num` in Machine/Ops.lean. -/
inductive BufId where
  | rgb | ycc | dctb | qb | zz | rle | freq | pay | cont | msg
deriving DecidableEq, Repr

/-- The bits of register `STAGE` (`10_state.md` R30); their positions are `Flag.bit` in
Machine/Flags.lean. -/
inductive Flag where
  | rgbLoaded | yccValid | dctValid | qValid | embedded | zzValid | rleValid
  | freqValid | treeValid | codesValid | bitsValid | contValid | msgValid | success
deriving DecidableEq, Repr

/-- The diagnostics (`60_exceptions.md` R302) other than `OK`; their codes are `Diag.code` in
Machine/Ops.lean. -/
inductive Diag where
  | illegal | precond | param | capacity | rleMalformed | container | huffBadcode
  | huffShort | noTerminator | overflow | noSymbol | emptyFreq
deriving DecidableEq, Repr

/-- A Huffman tree node (`10_state.md` R26): a leaf holds a symbol and its frequency, an internal node
the accumulated frequency and its children, `none` being NIL (log 14). -/
inductive Node where
  | leaf (sym : Word) (freq : Int)
  | internal (freq : Int) (first second : Option Nat)
deriving DecidableEq, Repr

/-- A sparse store: the listed indices, strictly rising, each with what was last written there. An
unlisted index has been written by nobody since reset (log 3). -/
abbrev Store (α : Type) := List (Nat × α)

/-- A buffer of `n`-bit elements; a `Buf 8` is a list of `Host.Cell`. -/
abbrev Buf (n : Nat) := Store (BitVec n)

/-- The ten buffer spaces (`10_state.md` R24). -/
structure Memory where
  rgb : Buf 8
  ycc : Buf 8
  dctb : Buf 32
  qb : Buf 32
  zz : Buf 32
  rle : Buf 32
  freq : Buf 32
  pay : Buf 8
  cont : Buf 8
  msg : Buf 8
deriving DecidableEq, Repr

/-- The OPEN capacities (`00_scope.md` R8, log 6). -/
structure Capacities where
  msgCap : Nat
  contCap : Nat
  freqCap : Nat
  payCap : Nat
deriving DecidableEq, Repr

/-- The actions of the host, each one step (`20_memory.md` R72). Offsets are byte offsets in the
register space (R60). -/
inductive HostAction where
  | writeReg (off : Nat) (v : Word)
  | readReg (off : Nat)
  | writeBuf (id : BufId) (i : Nat) (v : Byte)
  | readBuf (id : BufId) (i : Nat)
deriving DecidableEq, Repr

/-- CORE has no fatal condition and no trap (`60_exceptions.md` R301, R303): there is no fault, and
nothing raises one. -/
inductive Fault : Type
deriving DecidableEq, Repr

/-- Why a step has no meaning. -/
inductive Refusal where
  /-- An arm of `exec` whose command has no meaning yet; safe. No arm answers with it. -/
  | notModelled (mnemonic : String)
  /-- A host access to a buffer index at or above the buffer's capacity, which the spec refuses
  (`20_memory.md` R61, U8); raised by the step on `readBuf` and `writeBuf`; safe (log 9). -/
  | beyondCapacity (id : BufId) (i : Nat)
  /-- A host access to the register space at an offset that is not a multiple of 4 (`20_memory.md` R60
  admits aligned accesses only); raised by the step on `readReg` and `writeReg`; safe (log 10). -/
  | misalignedRegister (off : Nat)
deriving DecidableEq, Repr

/-- The state of the machine. The registers are R21's, `mem` the buffers of R24, `node`, `treeN`,
`treeRoot` the tree pool of R26, `code` the code store of R27. The last five fields are the model's own
(logs 1, 2, 3, 5, 6). -/
structure State where
  stage : Word
  lastdiag : Word
  diagacc : Word
  quality : Word
  imgW : Word
  imgH : Word
  w : Word
  h : Word
  msgLen : Word
  contLen : Word
  zzLen : Word
  rleLen : Word
  rleExp : Word
  freqN : Word
  encBytes : Word
  mem : Memory
  node : List Node
  treeN : Nat
  treeRoot : Option Nat
  code : Store (List Bool)
  cap : Capacities
  epoch : Nat
  draws : Nat
  host : List HostAction
  replies : List Word
deriving DecidableEq, Repr

/-- Every buffer with nothing written: all contents unspecified (R330). -/
def Memory.blank : Memory where
  rgb := []
  ycc := []
  dctb := []
  qb := []
  zz := []
  rle := []
  freq := []
  pay := []
  cont := []
  msg := []

/-- The machine right after power-on reset (`70_reset_and_hazards.md` R330), with the OPEN capacities at
their defaults and no host action pending (logs 1 to 4, 6). -/
def State.reset : State where
  stage := 0x00002000#32
  lastdiag := 0#32
  diagacc := 0#32
  quality := 0#32
  imgW := 0#32
  imgH := 0#32
  w := 0#32
  h := 0#32
  msgLen := 0#32
  contLen := 0#32
  zzLen := 0#32
  rleLen := 0#32
  rleExp := 0#32
  freqN := 0#32
  encBytes := 0#32
  mem := Memory.blank
  node := []
  treeN := 0
  treeRoot := none
  code := []
  cap := ⟨Config.msgCapDefault, Config.contCapDefault, Config.freqCapDefault, Config.payCapDefault⟩
  epoch := 0
  draws := 0
  host := []
  replies := []

end Sys2Proof.Machine
end

