-- ==== Sys2Proof/Machine/Flags.lean ====
section
/-! DEFINITION. The stage flags of register `STAGE` (`10_state.md` R30 to R32). CORE has no arithmetic
condition code (R33). -/

namespace Sys2Proof.Machine

/-- The bit of `STAGE` that holds a flag (R30). -/
def Flag.bit : Flag → Nat
  | .rgbLoaded => 0
  | .yccValid => 1
  | .dctValid => 2
  | .qValid => 3
  | .embedded => 4
  | .zzValid => 5
  | .rleValid => 6
  | .freqValid => 7
  | .treeValid => 8
  | .codesValid => 9
  | .bitsValid => 10
  | .contValid => 11
  | .msgValid => 12
  | .success => 13

/-- The word with only the flag's bit set. -/
def Flag.mask (f : Flag) : Word := 1#32 <<< f.bit

/-- `FLAG(f)`. -/
def getFlag (f : Flag) (s : State) : Bool := s.stage.getLsbD f.bit

/-- `FLAG(f) <- 1`. -/
def setFlag (f : Flag) (s : State) : State := { s with stage := s.stage ||| f.mask }

/-- `FLAG(f) <- 0`; only `SUCCESS` is ever cleared by a command (R31, R32). -/
def clearFlag (f : Flag) (s : State) : State := { s with stage := s.stage &&& ~~~f.mask }

end Sys2Proof.Machine
end

