-- ==== Sys2Proof/Machine/Ops.lean ====
section
/-! DEFINITION. The named operations over buffers and registers, and the diagnostic mechanism
(`60_exceptions.md` R300, R301), which is what CORE has in place of exceptions. There is no return from
a diagnostic (R315). -/

namespace Sys2Proof.Machine

/-! ### Sparse stores -/

/-- What was last written at index `i`, `none` when nothing was. -/
def Store.read? {α : Type} (b : Store α) (i : Nat) : Option α :=
  (b.find? fun c => c.1 == i).map Prod.snd

/-- The cells of the values `vs` at the indices `base`, `base + 1`, ... -/
def Store.cells {α : Type} (base : Nat) : List α → Store α
  | [] => []
  | v :: vs => (base, v) :: Store.cells (base + 1) vs

/-- Write of the values `vs` at the indices `base`, `base + 1`, ...; every other index keeps what it
has. -/
def Store.write {α : Type} (b : Store α) (base : Nat) (vs : List α) : Store α :=
  (b.filter fun c => decide (c.1 < base)) ++ Store.cells base vs
    ++ b.filter fun c => decide (base + vs.length ≤ c.1)

/-- Write of single elements, in the order of the list. -/
def Store.writeEach {α : Type} (b : Store α) (updates : List (Nat × α)) : Store α :=
  updates.foldl (fun b u => Store.write b u.1 [u.2]) b

/-- The canonical form: indices strictly rising. -/
def Store.wf {α : Type} : Store α → Bool
  | [] => true
  | [_] => true
  | c :: d :: rest => decide (c.1 < d.1) && Store.wf (d :: rest)

/-- Every buffer is in canonical form. No entry can equal what an unlisted index reads as, because an
unlisted index holds no value of its own (log 3). -/
def Memory.wf (m : Memory) : Bool :=
  Store.wf m.rgb && Store.wf m.ycc && Store.wf m.dctb && Store.wf m.qb && Store.wf m.zz
    && Store.wf m.rle && Store.wf m.freq && Store.wf m.pay && Store.wf m.cont && Store.wf m.msg

/-! ### Buffers -/

/-- The buffer ids (`10_state.md` R24). -/
def BufId.num : BufId → Nat
  | .rgb => 0
  | .ycc => 1
  | .dctb => 2
  | .qb => 3
  | .zz => 4
  | .rle => 5
  | .freq => 6
  | .pay => 7
  | .cont => 8
  | .msg => 9

/-- The capacities in elements (`10_state.md` R24). -/
def BufId.capacity (cap : Capacities) : BufId → Nat
  | .rgb => 3 * Config.maxW * Config.maxH
  | .ycc => 3 * Config.maxW * Config.maxH
  | .dctb => 3 * Config.maxW * Config.maxH
  | .qb => 3 * Config.maxW * Config.maxH
  | .zz => Config.zzCap
  | .rle => Config.rleCap
  | .freq => 2 * cap.freqCap
  | .pay => cap.payCap
  | .cont => cap.contCap
  | .msg => cap.msgCap

/-- Element `i` of a `u8` buffer; a free value where nothing was written since reset (U1, log 3). -/
def byteElem (s : State) (id : BufId) (b : Buf 8) (i : Nat) : Byte :=
  (Store.read? b i).getD (Config.freeByte s.epoch id.num i)

/-- Element `i` of an `i32` buffer; a free value where nothing was written since reset (U1, log 3). -/
def wordElem (s : State) (id : BufId) (b : Buf 32) (i : Nat) : Word :=
  (Store.read? b i).getD (Config.freeWord s.epoch id.num i)

/-- `RGB[i]` -/
def rgbAt (s : State) (i : Nat) : Byte := byteElem s .rgb s.mem.rgb i
/-- `YCC[i]` -/
def yccAt (s : State) (i : Nat) : Byte := byteElem s .ycc s.mem.ycc i
/-- `PAY[i]` -/
def payAt (s : State) (i : Nat) : Byte := byteElem s .pay s.mem.pay i
/-- `CONT[i]` -/
def contAt (s : State) (i : Nat) : Byte := byteElem s .cont s.mem.cont i
/-- `MSG[i]` -/
def msgAt (s : State) (i : Nat) : Byte := byteElem s .msg s.mem.msg i
/-- `DCTB[i]` -/
def dctbAt (s : State) (i : Nat) : Word := wordElem s .dctb s.mem.dctb i
/-- `QB[i]` -/
def qbAt (s : State) (i : Nat) : Word := wordElem s .qb s.mem.qb i
/-- `ZZ[i]` -/
def zzAt (s : State) (i : Nat) : Word := wordElem s .zz s.mem.zz i
/-- `RLE[i]` -/
def rleAt (s : State) (i : Nat) : Word := wordElem s .rle s.mem.rle i
/-- `FREQ[i]` -/
def freqAt (s : State) (i : Nat) : Word := wordElem s .freq s.mem.freq i

/-- `CODE[k]`; a free value where `HCODES` has written nothing since reset (U4, log 11). -/
def codeAt (s : State) (k : Nat) : List Bool :=
  (Store.read? s.code k).getD (Config.freeCode s.epoch k)

/-- Any element of any buffer as a 32-bit value, a `u8` zero-extended (log 15). -/
def elemAt (s : State) : BufId → Nat → Word
  | .rgb, i => (rgbAt s i).setWidth 32
  | .ycc, i => (yccAt s i).setWidth 32
  | .dctb, i => dctbAt s i
  | .qb, i => qbAt s i
  | .zz, i => zzAt s i
  | .rle, i => rleAt s i
  | .freq, i => freqAt s i
  | .pay, i => (payAt s i).setWidth 32
  | .cont, i => (contAt s i).setWidth 32
  | .msg, i => (msgAt s i).setWidth 32

/-- `RGB[base + k] <- vs[k]` for every `k`; the next nine are alike. -/
def writeRgb (base : Nat) (vs : List Byte) (s : State) : State :=
  { s with mem := { s.mem with rgb := Store.write s.mem.rgb base vs } }
/-- `YCC[base + k] <- vs[k]` -/
def writeYcc (base : Nat) (vs : List Byte) (s : State) : State :=
  { s with mem := { s.mem with ycc := Store.write s.mem.ycc base vs } }
/-- `DCTB[base + k] <- vs[k]` -/
def writeDctb (base : Nat) (vs : List Word) (s : State) : State :=
  { s with mem := { s.mem with dctb := Store.write s.mem.dctb base vs } }
/-- `QB[base + k] <- vs[k]` -/
def writeQb (base : Nat) (vs : List Word) (s : State) : State :=
  { s with mem := { s.mem with qb := Store.write s.mem.qb base vs } }
/-- `QB[i] <- v` for each `(i, v)` of the list -/
def writeQbEach (updates : List (Nat × Word)) (s : State) : State :=
  { s with mem := { s.mem with qb := Store.writeEach s.mem.qb updates } }
/-- `ZZ[base + k] <- vs[k]` -/
def writeZz (base : Nat) (vs : List Word) (s : State) : State :=
  { s with mem := { s.mem with zz := Store.write s.mem.zz base vs } }
/-- `RLE[base + k] <- vs[k]` -/
def writeRle (base : Nat) (vs : List Word) (s : State) : State :=
  { s with mem := { s.mem with rle := Store.write s.mem.rle base vs } }
/-- `FREQ[base + k] <- vs[k]` -/
def writeFreq (base : Nat) (vs : List Word) (s : State) : State :=
  { s with mem := { s.mem with freq := Store.write s.mem.freq base vs } }
/-- `PAY[base + k] <- vs[k]` -/
def writePay (base : Nat) (vs : List Byte) (s : State) : State :=
  { s with mem := { s.mem with pay := Store.write s.mem.pay base vs } }
/-- `CONT[base + k] <- vs[k]` -/
def writeCont (base : Nat) (vs : List Byte) (s : State) : State :=
  { s with mem := { s.mem with cont := Store.write s.mem.cont base vs } }
/-- `MSG[base + k] <- vs[k]` -/
def writeMsg (base : Nat) (vs : List Byte) (s : State) : State :=
  { s with mem := { s.mem with msg := Store.write s.mem.msg base vs } }

/-! ### Diagnostics -/

/-- The diagnostic codes (`60_exceptions.md` R302). -/
def Diag.code : Diag → Nat
  | .illegal => 1
  | .precond => 2
  | .param => 3
  | .capacity => 4
  | .rleMalformed => 5
  | .container => 6
  | .huffBadcode => 7
  | .huffShort => 8
  | .noTerminator => 9
  | .overflow => 10
  | .noSymbol => 11
  | .emptyFreq => 12

/-- `diag(code)` (R301): the code goes to `LASTDIAG`, its bit is set in `DIAGACC`, and nothing else
changes. A command ends by making this its last effect. -/
def diag (d : Diag) (s : State) : State :=
  { s with
    lastdiag := BitVec.ofNat 32 d.code
    diagacc := s.diagacc ||| (1#32 <<< d.code) }

/-- The first effect of every command word: `LASTDIAG <- 0` (R81). -/
def beginCommand (s : State) : State := { s with lastdiag := 0#32 }

/-- Stage preconditions (R81 step 1, R311): all the flags, or `E_PRECOND` and nothing else. -/
def requireFlags (fs : List Flag) (body : State → State) (s : State) : State :=
  if fs.all (fun f => getFlag f s) then body s else diag .precond s

/-- Parameter check (R81 step 2, R312): the condition, or `E_PARAM` and nothing else. -/
def requireParam (ok : State → Bool) (body : State → State) (s : State) : State :=
  if ok s then body s else diag .param s

/-- A command of the opcode table as one step: `LASTDIAG` is cleared, then the command's rule runs
(R81). No command stops the machine (R303). -/
def runCommand (rule : State → State) (s : State) : Host.Outcome State Fault Refusal :=
  .next (rule (beginCommand s))

end Sys2Proof.Machine
end

