-- ==== Sys2Proof/Machine/Operands.lean ====
section
/-! DEFINITION. What the commands compute with: lengths held in registers, the derived quantities
(`10_state.md` R22), rounding and clamping (`00_scope.md` R13), two's-complement least significant bits
(R11), bit order inside bytes (R12), byte order of container integers (`20_memory.md` R65), and 8x8
grids. -/

namespace Sys2Proof.Machine

/-! ### Registers as integers -/

/-- A register that holds a length or a dimension, as a count; a negative value counts as 0 (log 12). -/
def regLen (r : Word) : Nat := r.toInt.toNat

/-- `W` -/
def width (s : State) : Nat := regLen s.w
/-- `H` -/
def height (s : State) : Nat := regLen s.h
/-- `W8 = W - (W mod 8)` (R22) -/
def width8 (s : State) : Nat := width s - width s % 8
/-- `H8 = H - (H mod 8)` (R22) -/
def height8 (s : State) : Nat := height s - height s % 8
/-- `BW = W8 div 8` (R22) -/
def blocksWide (s : State) : Nat := width8 s / 8
/-- `BH = H8 div 8` (R22) -/
def blocksHigh (s : State) : Nat := height8 s / 8
/-- `NB = BW * BH` (R22) -/
def numBlocks (s : State) : Nat := blocksWide s * blocksHigh s

/-! ### Rounding and clamping (R13) -/

/-- `trunc(x)`: toward zero -/
def truncQ (x : ℚ) : Int := if 0 ≤ x then ⌊x⌋ else -⌊-x⌋
/-- `rhu(x)`: nearest, ties toward +infinity -/
def rhu (x : ℚ) : Int := ⌊x + 1 / 2⌋
/-- `rha(x)`: nearest, ties away from zero -/
def rha (x : ℚ) : Int := if 0 ≤ x then ⌊x + 1 / 2⌋ else -⌊-x + 1 / 2⌋
/-- `rtz(x) = trunc(x + 1/2)` -/
def rtz (x : ℚ) : Int := truncQ (x + 1 / 2)

/-- The rounding function a parameter names. -/
def roundBy : Config.RoundMode → ℚ → Int
  | .rhu => rhu
  | .rha => rha
  | .rtz => rtz

/-- `rn`, the rounding of the colour transform and the quantizer (R8) -/
def roundNearest (x : ℚ) : Int := roundBy Config.roundNearest x
/-- `rd`, the rounding of the block transform (R8) -/
def roundDct (x : ℚ) : Int := roundBy Config.roundDct x

/-- `clamp(v, lo, hi)` -/
def clamp (v lo hi : Int) : Int := if v < lo then lo else if hi < v then hi else v

/-- `sat32(v)` -/
def sat32 (v : Int) : Int := clamp v (-2147483648) 2147483647

/-! ### Bits (R11, R12) -/

/-- `lsb(v)` of the two's-complement representation -/
def lsb (v : Word) : Bool := v.getLsbD 0

/-- `setlsb(v, b)`: bit 0 becomes `b`, the others stay -/
def setLsb {n : Nat} (v : BitVec n) (b : Bool) : BitVec n :=
  (v &&& ~~~1#n) ||| BitVec.ofNat n b.toNat

/-- The bits of a byte, most significant first (R12, R240) -/
def bitsOfByte (x : Byte) : List Bool :=
  [x.getLsbD 7, x.getLsbD 6, x.getLsbD 5, x.getLsbD 4,
   x.getLsbD 3, x.getLsbD 2, x.getLsbD 1, x.getLsbD 0]

/-- `(acc << 1) | bit` -/
def shiftIn (acc : Byte) (b : Bool) : Byte := (acc <<< 1) ||| BitVec.ofNat 8 b.toNat

/-- The byte whose bits are `bits`, the first the most significant of eight (R12) -/
def byteOfBits (bits : List Bool) : Byte := bits.foldl shiftIn 0#8

/-! ### Container integers (R14, R65) -/

/-- `le32(v)`: the four bytes of a word in `BYTE_ORDER` -/
def wordBytes (order : Config.ByteOrder) (v : Word) : List Byte :=
  let bytes := [v.extractLsb' 0 8, v.extractLsb' 8 8, v.extractLsb' 16 8, v.extractLsb' 24 8]
  match order with
  | .little => bytes
  | .big => bytes.reverse

/-- `rd_i32` and `rd_u32`: the word assembled from four bytes in `BYTE_ORDER` -/
def wordOfBytes (order : Config.ByteOrder) (b0 b1 b2 b3 : Byte) : Word :=
  match order with
  | .little => b3 ++ b2 ++ b1 ++ b0
  | .big => b0 ++ b1 ++ b2 ++ b3

/-! ### Eight-element vectors and 8x8 grids -/

/-- Eight elements. -/
structure Vec8 (α : Type) where
  e0 : α
  e1 : α
  e2 : α
  e3 : α
  e4 : α
  e5 : α
  e6 : α
  e7 : α
deriving DecidableEq, Repr

/-- A grid is eight rows of eight elements, `[r][c]` (`41_dct.md` R125). -/
abbrev Grid (α : Type) := Vec8 (Vec8 α)

/-- The vector of `f 0` to `f 7` -/
def Vec8.ofFn {α : Type} (f : Nat → α) : Vec8 α := ⟨f 0, f 1, f 2, f 3, f 4, f 5, f 6, f 7⟩

/-- Element `i` (the last one for an index above 7) -/
def Vec8.get {α : Type} (v : Vec8 α) : Nat → α
  | 0 => v.e0
  | 1 => v.e1
  | 2 => v.e2
  | 3 => v.e3
  | 4 => v.e4
  | 5 => v.e5
  | 6 => v.e6
  | _ => v.e7

/-- `f` of every element -/
def Vec8.map {α β : Type} (f : α → β) (v : Vec8 α) : Vec8 β :=
  ⟨f v.e0, f v.e1, f v.e2, f v.e3, f v.e4, f v.e5, f v.e6, f v.e7⟩

/-- `f` of the elements of two vectors at the same place -/
def Vec8.zipWith {α β γ : Type} (f : α → β → γ) (v : Vec8 α) (w : Vec8 β) : Vec8 γ :=
  ⟨f v.e0 w.e0, f v.e1 w.e1, f v.e2 w.e2, f v.e3 w.e3,
   f v.e4 w.e4, f v.e5 w.e5, f v.e6 w.e6, f v.e7 w.e7⟩

/-- The elements in order -/
def Vec8.toList {α : Type} (v : Vec8 α) : List α := [v.e0, v.e1, v.e2, v.e3, v.e4, v.e5, v.e6, v.e7]

/-- The grid with rows and columns exchanged -/
def Grid.transpose {α : Type} (g : Grid α) : Grid α :=
  ⟨g.map Vec8.e0, g.map Vec8.e1, g.map Vec8.e2, g.map Vec8.e3,
   g.map Vec8.e4, g.map Vec8.e5, g.map Vec8.e6, g.map Vec8.e7⟩

/-- The grid of `f r c` -/
def Grid.ofFn {α : Type} (f : Nat → Nat → α) : Grid α := Vec8.ofFn fun r => Vec8.ofFn fun c => f r c

/-- `f` of every element of a grid -/
def Grid.map {α β : Type} (f : α → β) (g : Grid α) : Grid β := Vec8.map (Vec8.map f) g

/-- `f u v x` for the element `x` at every `[u][v]`, where `us` gives the factor of each index -/
def Grid.scale {α β γ : Type} (us : Vec8 α) (f : α → α → β → γ) (g : Grid β) : Grid γ :=
  Vec8.zipWith (fun u row => Vec8.zipWith (fun v x => f u v x) us row) us g

/-- Element `[r][c]` -/
def Grid.at {α : Type} (g : Grid α) (r c : Nat) : α := (g.get r).get c

/-- The 64 elements row by row -/
def Grid.flatten {α : Type} (g : Grid α) : List α := g.toList.flatMap Vec8.toList

end Sys2Proof.Machine
end

