-- ==== Sys2Proof/Machine/Tables.lean ====
section
/-! DEFINITION. The read-only tables of `10_state.md` R28. Their values are those the spec prints
(general-knowledge passages G1 to G4 of `93_implementation_defined.md`; log 7). -/

namespace Sys2Proof.Machine

/-- One row of a colour matrix with its offset. -/
structure ColorRow where
  c0 : ℚ
  c1 : ℚ
  c2 : ℚ
  offset : ℚ
deriving DecidableEq, Repr

/-- `COLOR_FWD`, row Y (`40_color.md` R111) -/
def colorFwdY : ColorRow := ⟨299 / 1000, 587 / 1000, 114 / 1000, 0⟩
/-- `COLOR_FWD`, row Cb (R111) -/
def colorFwdCb : ColorRow := ⟨-(168736 / 1000000), -(331264 / 1000000), 1 / 2, 128⟩
/-- `COLOR_FWD`, row Cr (R111) -/
def colorFwdCr : ColorRow := ⟨1 / 2, -(418688 / 1000000), -(81312 / 1000000), 128⟩

/-- `COLOR_INV`, row R, on (Y, Cb - 128, Cr - 128) (`40_color.md` R113) -/
def colorInvR : ColorRow := ⟨1, 0, 1402 / 1000, 0⟩
/-- `COLOR_INV`, row G (R113) -/
def colorInvG : ColorRow := ⟨1, -(344136 / 1000000), -(714136 / 1000000), 0⟩
/-- `COLOR_INV`, row B (R113) -/
def colorInvB : ColorRow := ⟨1, 1772 / 1000, 0, 0⟩

/-! `AAN_K` (`41_dct.md` R126) -/

/-- `K707` -/
def k707 : ℚ := 707106781 / 1000000000
/-- `K382` -/
def k382 : ℚ := 382683433 / 1000000000
/-- `K541` -/
def k541 : ℚ := 541196100 / 1000000000
/-- `K1306` -/
def k1306 : ℚ := 1306562965 / 1000000000
/-- `K1414` -/
def k1414 : ℚ := 1414213562 / 1000000000
/-- `K1847` -/
def k1847 : ℚ := 1847759065 / 1000000000
/-- `K1082` -/
def k1082 : ℚ := 1082392200 / 1000000000
/-- `K2613` -/
def k2613 : ℚ := 2613125930 / 1000000000

/-- `AAN_S`, the scale factors `S[0]` to `S[7]` (R126) -/
def aanS : Vec8 ℚ :=
  ⟨1, 1387039845 / 1000000000, 1306562965 / 1000000000, 1175875602 / 1000000000,
   1, 785694958 / 1000000000, 541196100 / 1000000000, 275899379 / 1000000000⟩

/-- `BASE_L`, row by row (`42_quantizer.md` R150) -/
def baseL : List Int :=
  [16, 11, 10, 16, 24, 40, 51, 61] ++ [12, 12, 14, 19, 26, 58, 60, 55]
    ++ [14, 13, 16, 24, 40, 57, 69, 56] ++ [14, 17, 22, 29, 51, 87, 80, 62]
    ++ [18, 22, 37, 56, 68, 109, 103, 77] ++ [24, 35, 55, 64, 81, 104, 113, 92]
    ++ [49, 64, 78, 87, 103, 121, 120, 101] ++ [72, 92, 95, 98, 112, 100, 103, 99]

/-- `BASE_C`, row by row (R150) -/
def baseC : List Int :=
  [17, 18, 24, 47, 99, 99, 99, 99] ++ [18, 21, 26, 66, 99, 99, 99, 99]
    ++ [24, 26, 56, 99, 99, 99, 99, 99] ++ [47, 66, 99, 99, 99, 99, 99, 99]
    ++ [99, 99, 99, 99, 99, 99, 99, 99] ++ [99, 99, 99, 99, 99, 99, 99, 99]
    ++ [99, 99, 99, 99, 99, 99, 99, 99] ++ [99, 99, 99, 99, 99, 99, 99, 99]

/-- `ZR[0]` to `ZR[63]` of `ZIGZAG_ROM` (`43_zigzag.md` R165) -/
def zigzagRows : List Nat :=
  [0, 0, 1, 2, 1, 0, 0, 1, 2, 3, 4, 3, 2, 1, 0, 0] ++ [1, 2, 3, 4, 5, 6, 5, 4, 3, 2, 1, 0, 0, 1, 2, 3]
    ++ [4, 5, 6, 7, 7, 6, 5, 4, 3, 2, 1, 2, 3, 4, 5, 6] ++ [7, 7, 6, 5, 4, 3, 4, 5, 6, 7, 7, 6, 5, 6, 7, 7]

/-- `ZC[0]` to `ZC[63]` of `ZIGZAG_ROM` (R165) -/
def zigzagCols : List Nat :=
  [0, 1, 0, 0, 1, 2, 3, 2, 1, 0, 0, 1, 2, 3, 4, 5] ++ [4, 3, 2, 1, 0, 0, 1, 2, 3, 4, 5, 6, 7, 6, 5, 4]
    ++ [3, 2, 1, 0, 1, 2, 3, 4, 5, 6, 7, 7, 6, 5, 4, 3] ++ [2, 3, 4, 5, 6, 7, 7, 6, 5, 4, 5, 6, 7, 7, 6, 7]

/-- The natural index `8 * ZR[k] + ZC[k]` of scan position `k` (R165) -/
def scanIndex (k : Nat) : Nat := 8 * zigzagRows.getD k 0 + zigzagCols.getD k 0

/-- `ZK[r][c]` at the natural index `j = 8 * r + c`: the scan position of a cell (R165) -/
def scanPosition (j : Nat) : Nat := (List.range 64).findIdx fun k => scanIndex k == j

end Sys2Proof.Machine
end

