-- ==== Sys2Proof/Machine/Color.lean ====
section
/-! DEFINITION. Unit 1, the colour transform: `RGB2YCC`, `YCC2RGB` (`40_color.md` R110 to R117). -/

namespace Sys2Proof.Machine

/-- One output channel before rounding: a linear combination plus an offset, exactly (R110). -/
def colorDot (row : ColorRow) (x y z : ℚ) : ℚ := row.c0 * x + row.c1 * y + row.c2 * z + row.offset

/-- Rounding to nearest and clamping to [0, 255] (R110) -/
def toSample (x : ℚ) : Byte := BitVec.ofInt 8 (clamp (roundNearest x) 0 255)

/-- `rgb_to_ycc` (R111) -/
def rgbToYcc (r g b : Byte) : Byte × Byte × Byte :=
  (toSample (colorDot colorFwdY r.toNat g.toNat b.toNat),
   toSample (colorDot colorFwdCb r.toNat g.toNat b.toNat),
   toSample (colorDot colorFwdCr r.toNat g.toNat b.toNat))

/-- `ycc_to_rgb` (R113) -/
def yccToRgb (y cb cr : Byte) : Byte × Byte × Byte :=
  let u : ℚ := cb.toNat - 128
  let v : ℚ := cr.toNat - 128
  (toSample (colorDot colorInvR y.toNat u v),
   toSample (colorDot colorInvG y.toNat u v),
   toSample (colorDot colorInvB y.toNat u v))

/-- The three bytes of a pixel in channel order -/
def pixelBytes (p : Byte × Byte × Byte) : List Byte := [p.1, p.2.1, p.2.2]

/-- `YCC[0 .. 3*W*H)` as `RGB2YCC` writes it, pixel by pixel in row-major order (R63, R112) -/
def yccOfRgb (s : State) : List Byte :=
  (List.range (width s * height s)).flatMap fun p =>
    pixelBytes (rgbToYcc (rgbAt s (3 * p)) (rgbAt s (3 * p + 1)) (rgbAt s (3 * p + 2)))

/-- `RGB[0 .. 3*W*H)` as `YCC2RGB` writes it (R63, R114) -/
def rgbOfYcc (s : State) : List Byte :=
  (List.range (width s * height s)).flatMap fun p =>
    pixelBytes (yccToRgb (yccAt s (3 * p)) (yccAt s (3 * p + 1)) (yccAt s (3 * p + 2)))

/-- `RGB2YCC` (R112) -/
def cmdRgb2ycc : State → State :=
  requireFlags [.rgbLoaded] fun s => setFlag .yccValid (writeYcc 0 (yccOfRgb s) s)

/-- `YCC2RGB` (R114) -/
def cmdYcc2rgb : State → State :=
  requireFlags [.yccValid] fun s => setFlag .rgbLoaded (writeRgb 0 (rgbOfYcc s) s)

/-- Command `RGB2YCC` -/
def execRgb2ycc (s : State) : Host.Outcome State Fault Refusal := runCommand cmdRgb2ycc s
/-- Command `YCC2RGB` -/
def execYcc2rgb (s : State) : Host.Outcome State Fault Refusal := runCommand cmdYcc2rgb s

end Sys2Proof.Machine
end

