-- ==== Sys2Proof/Machine/Container.lean ====
section
/-! DEFINITION. Unit 7, the container serializer: `SER`, `DESER` (`46_container.md` R225 to R232). -/

namespace Sys2Proof.Machine

/-- `le32(v)` (R225, `20_memory.md` R65) -/
def le32 (v : Word) : List Byte := wordBytes Config.byteOrder v

/-- `PAY[0 .. ENC_BYTES)` -/
def payload (s : State) : List Byte := (List.range (regLen s.encBytes)).map (payAt s)

/-- `FREQ[0 .. 2*FREQ_N)` -/
def freqEntries (s : State) : List Word := (List.range (2 * regLen s.freqN)).map (freqAt s)

/-- The container bytes `B` of `SER`, in the order of R225 -/
def containerBytes (s : State) : List Byte :=
  le32 s.quality ++ le32 (BitVec.ofNat 32 (height8 s)) ++ le32 (BitVec.ofNat 32 (width8 s))
    ++ le32 s.freqN ++ (freqEntries s).flatMap le32
    ++ le32 s.encBytes ++ le32 s.rleLen ++ payload s

/-- `SER` (R227) -/
def cmdSer : State → State :=
  requireFlags [.freqValid, .rleValid, .bitsValid] fun s =>
    if s.cap.contCap < 24 + 8 * regLen s.freqN + regLen s.encBytes then diag .overflow s
    else
      setFlag .contValid
        { writeCont 0 (containerBytes s) s with
          contLen := BitVec.ofNat 32 (containerBytes s).length }

/-- `rd_i32(CONT, o)` and `rd_u32(CONT, o)` (`00_scope.md` R14) -/
def contWord (s : State) (o : Nat) : Word :=
  wordOfBytes Config.byteOrder (contAt s o) (contAt s (o + 1)) (contAt s (o + 2)) (contAt s (o + 3))

/-- `N`, the field `frequencyTableSize` of the container -/
def contEntries (s : State) : Nat := (contWord s 12).toNat

/-- `E`, the field `encodedByteLength` -/
def contPayloadBytes (s : State) : Int := (contWord s (16 + 8 * contEntries s)).toInt

/-- The checks of `DESER`, in the order of the rule (R228): each condition is read only when those
before it hold. -/
def containerOk (s : State) : Bool :=
  decide (16 ≤ s.contLen.toInt)
    && decide (contEntries s ≤ s.cap.freqCap)
    && decide (24 + 8 * (contEntries s : Int) ≤ s.contLen.toInt)
    && decide (0 ≤ contPayloadBytes s ∧ contPayloadBytes s ≤ s.cap.payCap)
    && decide (24 + 8 * (contEntries s : Int) + contPayloadBytes s ≤ s.contLen.toInt)
    && decide (0 ≤ (contWord s 4).toInt ∧ (contWord s 4).toInt ≤ Config.maxH
      ∧ 0 ≤ (contWord s 8).toInt ∧ (contWord s 8).toInt ≤ Config.maxW)

/-- What `DESER` writes once every check has passed (R228) -/
def loadContainer (s : State) : State :=
  let n := contEntries s
  let e := contPayloadBytes s
  let t := writePay 0 ((List.range e.toNat).map fun i => contAt s (24 + 8 * n + i))
    (writeFreq 0 ((List.range (2 * n)).map fun i => contWord s (16 + 4 * i)) s)
  setFlag .bitsValid (setFlag .freqValid
    { t with
      quality := contWord s 0
      h := contWord s 4
      w := contWord s 8
      freqN := BitVec.ofNat 32 n
      encBytes := BitVec.ofInt 32 e
      rleExp := contWord s (20 + 8 * n) })

/-- `DESER` (R228) -/
def cmdDeser : State → State :=
  requireFlags [.contValid] fun s => if containerOk s then loadContainer s else diag .container s

/-- Command `SER` -/
def execSer (s : State) : Host.Outcome State Fault Refusal := runCommand cmdSer s
/-- Command `DESER` -/
def execDeser (s : State) : Host.Outcome State Fault Refusal := runCommand cmdDeser s

end Sys2Proof.Machine
end

