-- ==== Sys2Proof/Machine/Dct.lean ====
section
/-! DEFINITION. Unit 2, the block transform: `FDCT`, `IDCT` (`41_dct.md` R125 to R136). -/

namespace Sys2Proof.Machine

/-- The forward butterfly `fb8` (R127), with its even part -/
def forwardButterfly (d : Vec8 ℚ) : Vec8 ℚ :=
  let t0 := d.e0 + d.e7
  let t7 := d.e0 - d.e7
  let t1 := d.e1 + d.e6
  let t6 := d.e1 - d.e6
  let t2 := d.e2 + d.e5
  let t5 := d.e2 - d.e5
  let t3 := d.e3 + d.e4
  let t4 := d.e3 - d.e4
  let e10 := t0 + t3
  let e13 := t0 - t3
  let e11 := t1 + t2
  let e12 := t1 - t2
  let z1 := (e12 + e13) * k707
  let q10 := t4 + t5
  let q11 := t5 + t6
  let q12 := t6 + t7
  let z5 := (q10 - q12) * k382
  let z2 := k541 * q10 + z5
  let z4 := k1306 * q12 + z5
  let z3 := q11 * k707
  let z11 := t7 + z3
  let z13 := t7 - z3
  { e0 := e10 + e11
    e1 := z11 + z4
    e2 := e13 + z1
    e3 := z13 - z2
    e4 := e10 - e11
    e5 := z13 + z2
    e6 := e13 - z1
    e7 := z11 - z4 }

/-- The inverse butterfly `ib8` (R128) -/
def inverseButterfly (i : Vec8 ℚ) : Vec8 ℚ :=
  let e10 := i.e0 + i.e4
  let e11 := i.e0 - i.e4
  let e13 := i.e2 + i.e6
  let e12 := (i.e2 - i.e6) * k1414 - e13
  let a0 := e10 + e13
  let a3 := e10 - e13
  let a1 := e11 + e12
  let a2 := e11 - e12
  let z13 := i.e5 + i.e3
  let z10 := i.e5 - i.e3
  let z11 := i.e1 + i.e7
  let z12 := i.e1 - i.e7
  let b7 := z11 + z13
  let p11 := (z11 - z13) * k1414
  let z5 := (z10 + z12) * k1847
  let p10 := k1082 * z12 - z5
  let p12 := z5 - k2613 * z10
  let b6 := p12 - b7
  let b5 := p11 - b6
  let b4 := p10 + b5
  { e0 := a0 + b7
    e1 := a1 + b6
    e2 := a2 + b5
    e3 := a3 - b4
    e4 := a3 + b4
    e5 := a2 - b5
    e6 := a1 - b6
    e7 := a0 - b7 }

/-- The two passes: every row, then every column of the result (R129) -/
def pass2d (f : Vec8 ℚ → Vec8 ℚ) (m : Grid ℚ) : Grid ℚ :=
  Grid.transpose (Vec8.map f (Grid.transpose (Vec8.map f m)))

/-- `forwardDCT` (R130) -/
def forwardDCT (b : Grid Int) : Grid Int :=
  Grid.scale aanS (fun su sv x => roundDct (x / (8 * su * sv)))
    (pass2d forwardButterfly (Grid.map (fun n : Int => (n : ℚ)) b))

/-- `inverseDCT` (R131) -/
def inverseDCT (c : Grid Int) : Grid Int :=
  Grid.map roundDct
    (pass2d inverseButterfly (Grid.scale aanS (fun su sv (n : Int) => (n : ℚ) * su * sv / 8) c))

/-- The samples of channel `ch` of tile `b`: `YCC[8*by + r][8*bx + c][ch]` with
`b = by * BW + bx` (`20_memory.md` R63, R64) -/
def tileSamples (s : State) (b ch : Nat) : Grid Int :=
  Grid.ofFn fun r c =>
    ((yccAt s (((8 * (b / blocksWide s) + r) * width s + 8 * (b % blocksWide s) + c) * 3 + ch)).toNat : Int)

/-- The block `DCTB[b][ch]` as a grid (R63) -/
def dctBlock (s : State) (b ch : Nat) : Grid Int :=
  Grid.ofFn fun r c => (dctbAt s (((b * 3 + ch) * 8 + r) * 8 + c)).toInt

/-- `DCTB[0 .. 192*NB)` as `FDCT` writes it (R133) -/
def coefficientsOfYcc (s : State) : List Word :=
  (List.range (3 * numBlocks s)).flatMap fun k =>
    (forwardDCT (tileSamples s (k / 3) (k % 3))).flatten.map fun v => BitVec.ofInt 32 v

/-- `FDCT` (R133) -/
def cmdFdct : State → State :=
  requireFlags [.yccValid] fun s => setFlag .dctValid (writeDctb 0 (coefficientsOfYcc s) s)

/-- Every reconstructed block, `inverseDCT(DCTB[b][ch])` at place `3*b + ch` -/
def inverseBlocks (s : State) : List (Grid Int) :=
  (List.range (3 * numBlocks s)).map fun k => inverseDCT (dctBlock s (k / 3) (k % 3))

/-- The reconstruction clamp to [16, 255] (R134, R116) -/
def toReconstructed (v : Int) : Byte := BitVec.ofInt 8 (clamp v 16 255)

/-- The samples of image row `y`, columns 0 to W8 - 1, all three channels, out of the reconstructed
blocks (R134) -/
def reconstructedRow (s : State) (blocks : List (Grid Int)) (y : Nat) : List Byte :=
  (List.range (width8 s)).flatMap fun x => (List.range 3).map fun ch =>
    match blocks[((y / 8) * blocksWide s + x / 8) * 3 + ch]? with
    | some g => toReconstructed (g.at (y % 8) (x % 8))
    | none => 0#8

/-- Block merge: the rows 0 to H8 - 1, each written from its first column up to W8 - 1, so that no
sample outside the W8 x H8 region is written (R134) -/
def mergeBlocks (s : State) : State :=
  let blocks := inverseBlocks s
  (List.range (height8 s)).foldl
    (fun t y => writeYcc (3 * (y * width s)) (reconstructedRow s blocks y) t) s

/-- `IDCT` (R134) -/
def cmdIdct : State → State :=
  requireFlags [.dctValid] fun s => setFlag .yccValid (mergeBlocks s)

/-- Command `FDCT` -/
def execFdct (s : State) : Host.Outcome State Fault Refusal := runCommand cmdFdct s
/-- Command `IDCT` -/
def execIdct (s : State) : Host.Outcome State Fault Refusal := runCommand cmdIdct s

end Sys2Proof.Machine
end

