-- ==== Sys2Proof/Machine/Rle.lean ====
section
/-! DEFINITION. Unit 5, the run-length coder: `RLEENC`, `RLEDEC` (`44_rle.md` R180 to R186). -/

namespace Sys2Proof.Machine

/-- The maximal runs of a sequence, each with its length (R181) -/
def runs : List Word → List (Word × Nat)
  | [] => []
  | x :: xs =>
    match runs xs with
    | [] => [(x, 1)]
    | (v, n) :: rest => if v = x then (x, n + 1) :: rest else (x, 1) :: (v, n) :: rest

/-- `encodeRLE`: value and count of each run, in a flat stream (R180, R181) -/
def encodeRLE (seq : List Word) : List Word :=
  (runs seq).flatMap fun p => [p.1, BitVec.ofNat 32 p.2]

/-- The expansion of `decodeRLE`: each value as often as its count says, a count of zero or less
expanding to nothing (R184) -/
def expandPairs : List Word → List Word
  | v :: n :: rest => List.replicate (regLen n) v ++ expandPairs rest
  | _ => []

/-- The length of the expansion, the sum of the counts (R183) -/
def expandedLength : List Word → Nat
  | _ :: n :: rest => regLen n + expandedLength rest
  | _ => 0

/-- `ZZ[0 .. ZZ_LEN)` -/
def zzSeq (s : State) : List Word := (List.range (regLen s.zzLen)).map (zzAt s)

/-- `RLE[0 .. RLE_LEN)` -/
def rleSeq (s : State) : List Word := (List.range (regLen s.rleLen)).map (rleAt s)

/-- `RLEENC` (R182) -/
def cmdRleenc : State → State :=
  requireFlags [.zzValid] fun s =>
    let p := encodeRLE (zzSeq s)
    setFlag .rleValid { writeRle 0 p s with rleLen := BitVec.ofNat 32 p.length }

/-- The three failures of the decoder: empty or odd stream, or odd expected length (R183, R184) -/
def rleMalformed (s : State) : Bool :=
  decide (regLen s.rleLen = 0 ∨ regLen s.rleLen % 2 = 1 ∨ s.rleExp.toInt % 2 = 1)

/-- `RLEDEC` (R183) -/
def cmdRledec : State → State :=
  requireFlags [.rleValid] fun s =>
    if rleMalformed s then diag .rleMalformed { s with zzLen := 0#32 }
    else if Config.zzCap < expandedLength (rleSeq s) then diag .overflow { s with zzLen := 0#32 }
    else
      setFlag .zzValid
        { writeZz 0 (expandPairs (rleSeq s)) s with
          zzLen := BitVec.ofNat 32 (expandedLength (rleSeq s)) }

/-- Command `RLEENC` -/
def execRleenc (s : State) : Host.Outcome State Fault Refusal := runCommand cmdRleenc s
/-- Command `RLEDEC` -/
def execRledec (s : State) : Host.Outcome State Fault Refusal := runCommand cmdRledec s

end Sys2Proof.Machine
end

