-- ==== Sys2Proof/Machine/Huffman.lean ====
section
/-! DEFINITION. Unit 6, the Huffman tree builder and bit-packer: `HFREQ`, `HTREE`, `HCODES`, `HENC`,
`HDEC` (`45_huffman.md` R195 to R207). -/

namespace Sys2Proof.Machine

/-! ### Frequency table -/

/-- A symbol put into an ascending list of distinct symbols, in signed order -/
def insertSymbol (x : Word) : List Word → List Word
  | [] => [x]
  | y :: ys =>
    if x.toInt < y.toInt then x :: y :: ys
    else if x = y then y :: ys
    else y :: insertSymbol x ys

/-- The distinct symbols of a sequence in ascending signed order (R196) -/
def distinctSymbols (seq : List Word) : List Word := seq.foldr insertSymbol []

/-- The flat table: symbol and count of each entry (R196) -/
def frequencyTable (seq : List Word) : List Word :=
  (distinctSymbols seq).flatMap fun x => [x, BitVec.ofNat 32 (seq.count x)]

/-- `HFREQ` (R196) -/
def cmdHfreq : State → State :=
  requireFlags [.rleValid] fun s =>
    let d := distinctSymbols (rleSeq s)
    if s.cap.freqCap < d.length then diag .overflow s
    else
      setFlag .freqValid
        { writeFreq 0 (frequencyTable (rleSeq s)) s with freqN := BitVec.ofNat 32 d.length }

/-! ### Tree construction -/

/-- The accumulated frequency of a node (R26) -/
def Node.weight : Node → Int
  | .leaf _ f => f
  | .internal f _ _ => f

/-- `NODE[i].freq`, for a node of the pool -/
def poolWeight (pool : List Node) (i : Nat) : Int := (pool[i]?.map Node.weight).getD 0

/-- The queue member with the least (frequency, index) in lexicographic order, `best` being the least
one so far (R198) -/
def leastFrom (pool : List Node) (best : Nat) : List Nat → Nat
  | [] => best
  | i :: rest =>
    if poolWeight pool i < poolWeight pool best
        ∨ (poolWeight pool i = poolWeight pool best ∧ i < best)
    then leastFrom pool i rest else leastFrom pool best rest

/-- The member popped from a queue and the queue without it (R198) -/
def popLeast (pool : List Node) : List Nat → Option (Nat × List Nat)
  | [] => none
  | i :: rest =>
    let x := leastFrom pool i rest
    some (x, (i :: rest).erase x)

/-- The merge loop: as long as the queue has two members, the two least are popped and their parent is
created and queued. Each turn takes one member away, so `fuel`, the length of the queue, is enough
(R198). -/
def mergeNodes : Nat → List Nat → List Node → List Node
  | 0, _, pool => pool
  | fuel + 1, queue, pool =>
    match popLeast pool queue with
    | none => pool
    | some (x, queue') =>
      match popLeast pool queue' with
      | none => pool
      | some (y, queue'') =>
        mergeNodes fuel (queue'' ++ [pool.length])
          (pool ++ [.internal (poolWeight pool x + poolWeight pool y) (some x) (some y)])

/-- The leaves, one for each table entry, in table order (R198) -/
def leafNodes (s : State) : List Node :=
  (List.range (regLen s.freqN)).map fun k => .leaf (freqAt s (2 * k)) (freqAt s (2 * k + 1)).toInt

/-- The node pool built from the leaves; one leaf gives the degenerate tree (R198, R199) -/
def buildTree (leaves : List Node) : List Node :=
  if leaves.length = 1 then leaves ++ [.internal (poolWeight leaves 0) (some 0) none]
  else mergeNodes leaves.length (List.range leaves.length) leaves

/-- `HTREE` (R198) -/
def cmdHtree : State → State :=
  requireFlags [.freqValid] fun s =>
    let n := regLen s.freqN
    if n = 0 then diag .emptyFreq s
    else
      setFlag .treeValid
        { s with
          node := buildTree (leafNodes s)
          treeN := if n = 1 then 2 else 2 * n - 1
          treeRoot := some (if n = 1 then 1 else 2 * n - 2) }

/-! ### Codes -/

/-- The codes that `walk(i, c)` assigns, leaf by leaf, branch '1' before branch '0' (R202). Children lie
below their parent in the pool (R200), so `fuel`, the size of the pool, is enough. -/
def walkCodes (pool : List Node) : Nat → Nat → List Bool → List (Nat × List Bool)
  | 0, _, _ => []
  | fuel + 1, i, c =>
    match pool[i]? with
    | none => []
    | some (.leaf _ _) => [(i, c)]
    | some (.internal _ first second) =>
      (match first with
        | some x => walkCodes pool fuel x (c ++ [true])
        | none => [])
      ++ (match second with
        | some x => walkCodes pool fuel x (c ++ [false])
        | none => [])

/-- All codes of the tree (R202) -/
def treeCodes (s : State) : List (Nat × List Bool) :=
  match s.treeRoot with
  | some r => walkCodes s.node s.treeN r []
  | none => []

/-- `HCODES` (R202) -/
def cmdHcodes : State → State :=
  requireFlags [.treeValid] fun s =>
    setFlag .codesValid { s with code := Store.writeEach s.code (treeCodes s) }

/-! ### Encoding -/

/-- The least entry `k` with `FREQ[2k] = x` (R204) -/
def entryOf (s : State) (x : Word) : Option Nat :=
  (List.range (regLen s.freqN)).find? fun k => freqAt s (2 * k) == x

/-- `code_of(x)`, if `x` has an entry (R204) -/
def codeOf (s : State) (x : Word) : Option (List Bool) := (entryOf s x).map (codeAt s)

/-- The concatenated codes of a sequence; none when a symbol has no entry (R204) -/
def codeSequence (s : State) : List Word → Option (List Bool)
  | [] => some []
  | x :: xs =>
    match codeOf s x, codeSequence s xs with
    | some c, some rest => some (c ++ rest)
    | _, _ => none

/-- The number of bytes for `n` bits, `ceil(n / 8)` (R205) -/
def bytesFor (n : Nat) : Nat := (n + 7) / 8

/-- Bit packing, most significant bit first, the last byte padded with zeros (R205) -/
def packBits (bits : List Bool) : List Byte :=
  (List.range (bytesFor bits.length)).map fun j =>
    byteOfBits ((List.range 8).map fun m => bits.getD (8 * j + m) false)

/-- `HENC` (R204) -/
def cmdHenc : State → State :=
  requireFlags [.rleValid, .codesValid] fun s =>
    match codeSequence s (rleSeq s) with
    | none => diag .noSymbol s
    | some bits =>
      if s.cap.payCap < bytesFor bits.length then diag .overflow s
      else
        setFlag .bitsValid
          { writePay 0 (packBits bits) s with encBytes := BitVec.ofNat 32 (bytesFor bits.length) }

/-! ### Decoding -/

/-- The bits of `PAY[0 .. ENC_BYTES)` in order (R205, R206) -/
def payloadBits (s : State) : List Bool :=
  (List.range (regLen s.encBytes)).flatMap fun j => bitsOfByte (payAt s j)

/-- The child of node `n` that a bit selects: `first` for 1, `second` for 0 (R206); none where there is
no child -/
def childOf (pool : List Node) (n : Nat) (bit : Bool) : Option Nat :=
  match pool[n]? with
  | some (.internal _ first second) => if bit then first else second
  | _ => none

/-- How the decoding loop ended: it stopped at the symbol count or at the end of the bits, or it met a
missing child (R206). -/
inductive DecodeEnd where
  | stopped
  | badCode
deriving DecidableEq, Repr

/-- The decoding loop (R206): `n` is the node reached, `out` the symbols so far, `expected` the number
wanted. -/
def decodeSymbols (pool : List Node) (root : Nat) (expected : Int) :
    List Bool → Nat → List Word → List Word × DecodeEnd
  | [], _, out => (out, .stopped)
  | b :: bits, n, out =>
    if expected ≤ out.length then (out, .stopped)
    else
      match childOf pool n b with
      | none => (out, .badCode)
      | some c =>
        match pool[c]? with
        | some (.leaf sym _) => decodeSymbols pool root expected bits root (out ++ [sym])
        | _ => decodeSymbols pool root expected bits c out

/-- The parameter check of `HDEC` (R206, R312) -/
def hdecParamOk (s : State) : Bool := decide (s.rleExp.toInt ≤ Config.rleCap)

/-- What `HDEC` decodes from the payload, from the root on (R206) -/
def decodePayload (s : State) : List Word × DecodeEnd :=
  let root := s.treeRoot.getD 0
  decodeSymbols s.node root s.rleExp.toInt (payloadBits s) root []

/-- `HDEC` (R206) -/
def cmdHdec : State → State :=
  requireFlags [.treeValid, .bitsValid] <| requireParam hdecParamOk fun s =>
    let d := decodePayload s
    let t := setFlag .rleValid
      { writeRle 0 d.1 s with rleLen := BitVec.ofNat 32 d.1.length }
    match d.2 with
    | .badCode => diag .huffBadcode t
    | .stopped => if d.1.length < s.rleExp.toInt then diag .huffShort t else t

/-- Command `HFREQ` -/
def execHfreq (s : State) : Host.Outcome State Fault Refusal := runCommand cmdHfreq s
/-- Command `HTREE` -/
def execHtree (s : State) : Host.Outcome State Fault Refusal := runCommand cmdHtree s
/-- Command `HCODES` -/
def execHcodes (s : State) : Host.Outcome State Fault Refusal := runCommand cmdHcodes s
/-- Command `HENC` -/
def execHenc (s : State) : Host.Outcome State Fault Refusal := runCommand cmdHenc s
/-- Command `HDEC` -/
def execHdec (s : State) : Host.Outcome State Fault Refusal := runCommand cmdHdec s

end Sys2Proof.Machine
end

