-- ==== Sys2Proof/Machine/LsbPixel.lean ====
section
/-! DEFINITION. Unit 8, the pixel-domain embedder: `PXEMBED`, `PXEXTRACT` (`47_lsb_pixel.md` R240 to
R245), and the message bits and the extractor that both embedders share. -/

namespace Sys2Proof.Machine

/-- `MSG[0 .. MSG_LEN)` -/
def message (s : State) : List Byte := (List.range (regLen s.msgLen)).map (msgAt s)

/-- `msgbits(M)`: the bits of the message and of the all-zero terminator (R240) -/
def msgBits (m : List Byte) : List Bool := (m ++ [0#8]).flatMap bitsOfByte

/-- The parameter check of both embedders (R242, R257, R312) -/
def msgParamOk (s : State) : Bool := decide (0 ≤ s.msgLen.toInt ∧ s.msgLen.toInt ≤ s.cap.msgCap)

/-- The number of slots of the pixel carrier, with the untruncated dimensions (R241) -/
def pixelSlots (s : State) : Nat := 3 * width s * height s

/-- A capacity violation: `SUCCESS <- 0` and `E_CAPACITY` (R242, R257) -/
def capacityFailure (s : State) : State := diag .capacity (clearFlag .success s)

/-- The written slots: slot `j` gets bit `j` as its least significant bit (R242) -/
def embeddedPixels (s : State) (bits : List Bool) : List Byte :=
  (List.range bits.length).map fun j => setLsb (rgbAt s j) (bits.getD j false)

/-- `PXEMBED` (R242) -/
def cmdPxembed : State → State :=
  requireFlags [.rgbLoaded] <| requireParam msgParamOk fun s =>
    let bits := msgBits (message s)
    if pixelSlots s < bits.length then capacityFailure s
    else setFlag .embedded (writeRgb 0 (embeddedPixels s bits) s)

/-- How an extraction ended (R243). -/
inductive ExtractEnd where
  | terminated
  | overflowed
  | exhausted
deriving DecidableEq, Repr

/-- The extraction loop over the carrier's bits (R243): `acc` holds the `nb` bits of the byte being
read, `out` the bytes so far. -/
def extractBytes (msgCap : Nat) : List Bool → Byte → Nat → List Byte → List Byte × ExtractEnd
  | [], _, _, out => (out, .exhausted)
  | b :: bits, acc, nb, out =>
    if nb + 1 = 8 then
      if shiftIn acc b = 0#8 then (out, .terminated)
      else if out.length = msgCap then (out, .overflowed)
      else extractBytes msgCap bits 0#8 0 (out ++ [shiftIn acc b])
    else extractBytes msgCap bits (shiftIn acc b) (nb + 1) out

/-- The message found in a sequence of carrier bits, from a clear accumulator (R243) -/
def extractMessage (msgCap : Nat) (bits : List Bool) : List Byte × ExtractEnd :=
  extractBytes msgCap bits 0#8 0 []

/-- What both extractors write: `MSG`, `MSG_LEN`, `MSG_VALID`, and the diagnostic of an extraction that
met no terminator (R243, R258) -/
def storeMessage (r : List Byte × ExtractEnd) (s : State) : State :=
  let t := setFlag .msgValid { writeMsg 0 r.1 s with msgLen := BitVec.ofNat 32 r.1.length }
  match r.2 with
  | .terminated => t
  | .overflowed => diag .overflow t
  | .exhausted => diag .noTerminator t

/-- The carrier bits of the pixel domain, slot by slot (R241, R243) -/
def pixelBits (s : State) : List Bool :=
  (List.range (pixelSlots s)).map fun i => (rgbAt s i).getLsbD 0

/-- `PXEXTRACT` (R243) -/
def cmdPxextract : State → State :=
  requireFlags [.rgbLoaded] fun s => storeMessage (extractMessage s.cap.msgCap (pixelBits s)) s

/-- Command `PXEMBED` -/
def execPxembed (s : State) : Host.Outcome State Fault Refusal := runCommand cmdPxembed s
/-- Command `PXEXTRACT` -/
def execPxextract (s : State) : Host.Outcome State Fault Refusal := runCommand cmdPxextract s

end Sys2Proof.Machine
end

