-- ==== Sys2Proof/Machine/LsbCoef.lean ====
section
/-! DEFINITION. Unit 9, the coefficient-domain embedder: `CFEMBED`, `CFEXTRACT` (`48_lsb_coef.md` R255
to R260). -/

namespace Sys2Proof.Machine

/-- Eligibility of the element at index `i` with value `v`: no DC term, and neither 0 nor 1 (R255) -/
def slotEligible (i : Nat) (v : Word) : Bool := decide (i % 64 ≠ 0 ∧ v ≠ 0#32 ∧ v ≠ 1#32)

/-- The slots of the coefficient carrier in order, as element indices of `QB` (R255) -/
def coefSlots (s : State) : List Nat :=
  (List.range (192 * numBlocks s)).filter fun i => slotEligible i (qbAt s i)

/-- The elements a successful embed writes: slot `j` gets bit `j` as its least significant bit, up to
the end of the bits (R257) -/
def embeddedSlots (s : State) (bits : List Bool) : List (Nat × Word) :=
  ((coefSlots s).zip bits).map fun p => (p.1, setLsb (qbAt s p.1) p.2)

/-- The elements after an embed that ran out of carrier: every slot holds its value with a FREE least
significant bit (R257, U3, log 5) -/
def disturbedSlots (s : State) : List (Nat × Word) :=
  (coefSlots s).map fun i => (i, setLsb (qbAt s i) (Config.freeLsb s.draws i))

/-- `CFEMBED` (R257) -/
def cmdCfembed : State → State :=
  requireFlags [.qValid] <| requireParam msgParamOk fun s =>
    let bits := msgBits (message s)
    if (coefSlots s).length < bits.length then
      capacityFailure { writeQbEach (disturbedSlots s) s with draws := s.draws + 1 }
    else setFlag .embedded (writeQbEach (embeddedSlots s bits) s)

/-- The carrier bits of the coefficient domain, slot by slot (R258) -/
def coefBits (s : State) : List Bool := (coefSlots s).map fun i => lsb (qbAt s i)

/-- `CFEXTRACT` (R258) -/
def cmdCfextract : State → State :=
  requireFlags [.qValid] fun s => storeMessage (extractMessage s.cap.msgCap (coefBits s)) s

/-- Command `CFEMBED` -/
def execCfembed (s : State) : Host.Outcome State Fault Refusal := runCommand cmdCfembed s
/-- Command `CFEXTRACT` -/
def execCfextract (s : State) : Host.Outcome State Fault Refusal := runCommand cmdCfextract s

end Sys2Proof.Machine
end

