-- ==== Sys2Proof/Machine/Quantizer.lean ====
section
/-! DEFINITION. Unit 3, the quantizer: `QUANT`, `DEQUANT` (`42_quantizer.md` R150 to R158). -/

namespace Sys2Proof.Machine

/-- `scale(q)` (R152) -/
def qualityScale (q : Int) : Int :=
  if q = 100 then 1 else if q < 50 then 5000 / q else 200 - 2 * q

/-- `qtable(base, q)` at the natural index `j = 8*r + c` (R152) -/
def quantEntry (base : List Int) (q : Int) (j : Nat) : Int :=
  max 1 ((qualityScale q * base.getD j 0 + 50) / 100)

/-- The entry for channel `ch`: `TL` for channel 0, `TC` for 1 and 2 (R151) -/
def tableEntry (q : Int) (ch j : Nat) : Int :=
  if ch = 0 then quantEntry baseL q j else quantEntry baseC q j

/-- `qz(v, t)` (R158) -/
def quantize (v t : Int) : Int := roundNearest ((v : ℚ) / (t : ℚ))

/-- `dq(v, t)` (R158) -/
def dequantize (v t : Int) : Int := sat32 (v * t)

/-- The quality check (R155, R312) -/
def qualityOk (s : State) : Bool := decide (1 ≤ s.quality.toInt ∧ s.quality.toInt ≤ 100)

/-- `QB[0 .. 192*NB)` as `QUANT` writes it: element `i` belongs to channel `i div 64 mod 3` and to the
natural index `i mod 64` (R63, R156) -/
def quantized (s : State) : List Word :=
  (List.range (192 * numBlocks s)).map fun i =>
    BitVec.ofInt 32 (quantize (dctbAt s i).toInt (tableEntry s.quality.toInt (i / 64 % 3) (i % 64)))

/-- `QUANT` (R156) -/
def cmdQuant : State → State :=
  requireFlags [.dctValid] <| requireParam qualityOk fun s =>
    setFlag .qValid (writeQb 0 (quantized s) s)

/-- `DCTB[0 .. 192*NB)` as `DEQUANT` writes it (R157) -/
def dequantized (s : State) : List Word :=
  (List.range (192 * numBlocks s)).map fun i =>
    BitVec.ofInt 32 (dequantize (qbAt s i).toInt (tableEntry s.quality.toInt (i / 64 % 3) (i % 64)))

/-- `DEQUANT` (R157) -/
def cmdDequant : State → State :=
  requireFlags [.qValid] <| requireParam qualityOk fun s =>
    setFlag .dctValid (writeDctb 0 (dequantized s) s)

/-- Command `QUANT` -/
def execQuant (s : State) : Host.Outcome State Fault Refusal := runCommand cmdQuant s
/-- Command `DEQUANT` -/
def execDequant (s : State) : Host.Outcome State Fault Refusal := runCommand cmdDequant s

end Sys2Proof.Machine
end

