-- ==== Sys2Proof/Machine/System.lean ====
section
/-! DEFINITION. The system commands `RESET`, `LDRGB`, `LDCONT` (`49_orchestrator.md` R270 to R272,
R285). -/

namespace Sys2Proof.Machine

/-- `RESET` (R270): the effect of power-on reset. Every buffer element and code becomes unspecified
anew, so `epoch` advances; what the model keeps outside the hardware's state stays (log 19). -/
def cmdReset (s : State) : State :=
  { State.reset with
    cap := s.cap
    epoch := s.epoch + 1
    draws := s.draws
    host := s.host
    replies := s.replies }

/-- The parameter check of `LDRGB` (R271, R312) -/
def ldrgbParamOk (s : State) : Bool :=
  decide (0 ≤ s.imgW.toInt ∧ s.imgW.toInt ≤ Config.maxW ∧ 0 ≤ s.imgH.toInt ∧ s.imgH.toInt ≤ Config.maxH)

/-- `LDRGB` (R271) -/
def cmdLdrgb : State → State :=
  requireParam ldrgbParamOk fun s => setFlag .rgbLoaded { s with w := s.imgW, h := s.imgH }

/-- The parameter check of `LDCONT` (R272, R312) -/
def ldcontParamOk (s : State) : Bool := decide (0 ≤ s.contLen.toInt ∧ s.contLen.toInt ≤ s.cap.contCap)

/-- `LDCONT` (R272) -/
def cmdLdcont : State → State := requireParam ldcontParamOk (setFlag .contValid)

/-- Command `RESET` -/
def execReset (s : State) : Host.Outcome State Fault Refusal := runCommand cmdReset s
/-- Command `LDRGB` -/
def execLdrgb (s : State) : Host.Outcome State Fault Refusal := runCommand cmdLdrgb s
/-- Command `LDCONT` -/
def execLdcont (s : State) : Host.Outcome State Fault Refusal := runCommand cmdLdcont s

end Sys2Proof.Machine
end

