-- ==== Sys2Proof/Machine/Zigzag.lean ====
section
/-! DEFINITION. Unit 4, the zigzag scanner: `ZIGZAG`, `DEZIGZAG` (`43_zigzag.md` R165 to R170). -/

namespace Sys2Proof.Machine

/-- `zigzag(B)`: the sequence of a block given by natural index (R167) -/
def zigzagBlock (block : Nat → Word) : List Word :=
  (List.range 64).map fun k => block (scanIndex k)

/-- `dezigzag(seq, n, start)`, row by row: the cell at natural index `j` holds `seq[start + k]` for its
scan position `k` when that is below `n`, and 0 otherwise (R167) -/
def dezigzagBlock (seq : Nat → Word) (n start : Nat) : List Word :=
  (List.range 64).map fun j =>
    if start + scanPosition j < n then seq (start + scanPosition j) else 0#32

/-- `ZZ[0 .. 192*NB)` as `ZIGZAG` writes it (R168) -/
def scanned (s : State) : List Word :=
  (List.range (3 * numBlocks s)).flatMap fun g => zigzagBlock fun j => qbAt s (g * 64 + j)

/-- `ZIGZAG` (R168) -/
def cmdZigzag : State → State :=
  requireFlags [.qValid] fun s =>
    setFlag .zzValid { writeZz 0 (scanned s) s with zzLen := BitVec.ofNat 32 (192 * numBlocks s) }

/-- `QB[0 .. 192*NB)` as `DEZIGZAG` writes it (R169) -/
def unscanned (s : State) : List Word :=
  (List.range (3 * numBlocks s)).flatMap fun g => dezigzagBlock (zzAt s) (regLen s.zzLen) (g * 64)

/-- `DEZIGZAG` (R169) -/
def cmdDezigzag : State → State :=
  requireFlags [.zzValid] fun s => setFlag .qValid (writeQb 0 (unscanned s) s)

/-- Command `ZIGZAG` -/
def execZigzag (s : State) : Host.Outcome State Fault Refusal := runCommand cmdZigzag s
/-- Command `DEZIGZAG` -/
def execDezigzag (s : State) : Host.Outcome State Fault Refusal := runCommand cmdDezigzag s

end Sys2Proof.Machine
end

