-- ==== Sys2Proof/Machine/Orchestrator.lean ====
section
/-! DEFINITION. Unit 10, the macro commands `RUNENC`, `RUNENCM`, `RUNDEC`, `RUNDECM`
(`49_orchestrator.md` R275 to R281). -/

namespace Sys2Proof.Machine

/-- The constituents of a macro in order, stopping at the first that leaves a diagnostic (R275) -/
def runConstituents : List (State → State) → State → State
  | [], s => s
  | c :: rest, s => if (c s).lastdiag ≠ 0#32 then c s else runConstituents rest (c s)

/-- The success check (R276) -/
def successCheck (s : State) : State := if getFlag .success s then s else diag .capacity s

/-- `RUNENC` (R277) -/
def cmdRunenc : State → State :=
  runConstituents [cmdRgb2ycc, cmdFdct, cmdQuant, cmdZigzag, cmdRleenc, cmdHfreq, cmdHtree, cmdHcodes,
    cmdHenc, successCheck, cmdSer]

/-- `RUNENCM` (R278) -/
def cmdRunencm : State → State :=
  runConstituents [cmdRgb2ycc, cmdFdct, cmdQuant, cmdCfembed, cmdZigzag, cmdRleenc, cmdHfreq, cmdHtree,
    cmdHcodes, cmdHenc, successCheck, cmdSer]

/-- `RUNDEC` (R279) -/
def cmdRundec : State → State :=
  runConstituents [cmdDeser, cmdHtree, cmdHdec, cmdRledec, cmdDezigzag, cmdDequant, cmdIdct, cmdYcc2rgb]

/-- `RUNDECM` (R280) -/
def cmdRundecm : State → State :=
  runConstituents [cmdDeser, cmdHtree, cmdHdec, cmdRledec, cmdDezigzag, cmdCfextract]

/-- Command `RUNENC` -/
def execRunenc (s : State) : Host.Outcome State Fault Refusal := runCommand cmdRunenc s
/-- Command `RUNENCM` -/
def execRunencm (s : State) : Host.Outcome State Fault Refusal := runCommand cmdRunencm s
/-- Command `RUNDEC` -/
def execRundec (s : State) : Host.Outcome State Fault Refusal := runCommand cmdRundec s
/-- Command `RUNDECM` -/
def execRundecm (s : State) : Host.Outcome State Fault Refusal := runCommand cmdRundecm s

end Sys2Proof.Machine
end

