-- ==== Sys2Proof/Machine/Dispatch.lean ====
section
/-! DEFINITION. Dispatch of the 28 commands to their meanings. -/

namespace Sys2Proof.Machine

/-- The meaning of a command, from the clearing of `LASTDIAG` on (`30_encoding.md` R81, log 18). -/
def exec (i : Instr) (s : State) : Host.Outcome State Fault Refusal :=
  match i with
  | .reset => Sys2Proof.Machine.execReset s
  | .ldrgb => Sys2Proof.Machine.execLdrgb s
  | .ldcont => Sys2Proof.Machine.execLdcont s
  | .rgb2ycc => Sys2Proof.Machine.execRgb2ycc s
  | .ycc2rgb => Sys2Proof.Machine.execYcc2rgb s
  | .fdct => Sys2Proof.Machine.execFdct s
  | .idct => Sys2Proof.Machine.execIdct s
  | .quant => Sys2Proof.Machine.execQuant s
  | .dequant => Sys2Proof.Machine.execDequant s
  | .zigzag => Sys2Proof.Machine.execZigzag s
  | .dezigzag => Sys2Proof.Machine.execDezigzag s
  | .rleenc => Sys2Proof.Machine.execRleenc s
  | .rledec => Sys2Proof.Machine.execRledec s
  | .hfreq => Sys2Proof.Machine.execHfreq s
  | .htree => Sys2Proof.Machine.execHtree s
  | .hcodes => Sys2Proof.Machine.execHcodes s
  | .henc => Sys2Proof.Machine.execHenc s
  | .hdec => Sys2Proof.Machine.execHdec s
  | .ser => Sys2Proof.Machine.execSer s
  | .deser => Sys2Proof.Machine.execDeser s
  | .pxembed => Sys2Proof.Machine.execPxembed s
  | .pxextract => Sys2Proof.Machine.execPxextract s
  | .cfembed => Sys2Proof.Machine.execCfembed s
  | .cfextract => Sys2Proof.Machine.execCfextract s
  | .runenc => Sys2Proof.Machine.execRunenc s
  | .runencm => Sys2Proof.Machine.execRunencm s
  | .rundec => Sys2Proof.Machine.execRundec s
  | .rundecm => Sys2Proof.Machine.execRundecm s

end Sys2Proof.Machine
end

