-- ==== Sys2Proof/Machine/Interface.lean ====
section
/-! DEFINITION. The host interface: the register space (`20_memory.md` R60), the valid extents
(`10_state.md` R24), the four host actions (R72), and how a word written to `CMD` is executed
(`30_encoding.md` R81, R84). -/

namespace Sys2Proof.Machine

/-- The value of the register at a word-aligned byte offset: 0 for `CMD` and for the reserved offsets
(R21, R60, R72). -/
def readRegister (s : State) (off : Nat) : Word :=
  match off with
  | 0x04 => s.stage
  | 0x08 => s.lastdiag
  | 0x0C => s.diagacc
  | 0x10 => s.quality
  | 0x14 => s.imgW
  | 0x18 => s.imgH
  | 0x1C => s.w
  | 0x20 => s.h
  | 0x24 => s.msgLen
  | 0x28 => s.contLen
  | 0x2C => s.zzLen
  | 0x30 => s.rleLen
  | 0x34 => s.rleExp
  | 0x38 => s.freqN
  | 0x3C => s.encBytes
  | _ => 0#32

/-- A host write to a register other than `CMD`: ignored at read-only and reserved offsets (R21, R62,
R72). -/
def writeRegister (off : Nat) (v : Word) (s : State) : State :=
  match off with
  | 0x10 => { s with quality := v }
  | 0x14 => { s with imgW := v }
  | 0x18 => { s with imgH := v }
  | 0x24 => { s with msgLen := v }
  | 0x28 => { s with contLen := v }
  | _ => s

/-- The valid extent of a buffer (R24) -/
def validExtent (s : State) : BufId → Nat
  | .rgb => 3 * width s * height s
  | .ycc => 3 * width s * height s
  | .dctb => 192 * numBlocks s
  | .qb => 192 * numBlocks s
  | .zz => regLen s.zzLen
  | .rle => regLen s.rleLen
  | .freq => 2 * regLen s.freqN
  | .pay => regLen s.encBytes
  | .cont => regLen s.contLen
  | .msg => regLen s.msgLen

/-- A free value of the location, the extent and what is held there: the same on every read until one of
them changes (R62, log 4). -/
def freeElem (s : State) (id : BufId) (i : Nat) : Word :=
  Config.freeRead s.epoch id.num (validExtent s id) i (elemAt s id i)

/-- A value cut to the width of the buffer's elements, a `u8` zero-extended (R24, logs 4 and 15) -/
def elemWidth (v : Word) : BufId → Word
  | .dctb => v
  | .qb => v
  | .zz => v
  | .rle => v
  | .freq => v
  | .rgb => (v.setWidth 8).setWidth 32
  | .ycc => (v.setWidth 8).setWidth 32
  | .pay => (v.setWidth 8).setWidth 32
  | .cont => (v.setWidth 8).setWidth 32
  | .msg => (v.setWidth 8).setWidth 32

/-- What a host read of a buffer below its capacity returns: the element, or a free value at or beyond
the valid extent (R72, U1) -/
def bufferValue (s : State) (id : BufId) (i : Nat) : Word :=
  if i < validExtent s id then elemAt s id i else elemWidth (freeElem s id i) id

/-- A value returned to the host (log 2) -/
def reply (v : Word) (s : State) : State := { s with replies := v :: s.replies }

/-- `HostReadBuf` below the capacity: a reply and no side effect (R62, R72) -/
def readBuffer (id : BufId) (i : Nat) (s : State) : State := reply (bufferValue s id i) s

/-- `HostWriteBuf` below the capacity: `RGB`, `CONT` and `MSG` only, ignored for any other buffer
(R62, R72) -/
def writeBuffer (id : BufId) (i : Nat) (v : Byte) (s : State) : State :=
  match id with
  | .rgb => writeRgb i [v] s
  | .cont => writeCont i [v] s
  | .msg => writeMsg i [v] s
  | _ => s

/-- Execution of the word `w` written to `CMD` (R81): an illegal word changes nothing but `LASTDIAG`
and `DIAGACC` (R84). -/
def execWord (w : Word) (s : State) : Host.Outcome State Fault Refusal :=
  match decodeWord w with
  | .ok i => exec i s
  | .error _ => .next (diag .illegal (beginCommand s))

/-- One host action (R72) -/
def hostStep (a : HostAction) (s : State) : Host.Outcome State Fault Refusal :=
  match a with
  | .writeReg off v =>
    if off % 4 ≠ 0 then .refused (.misalignedRegister off)
    else if off = 0 then execWord v s
    else .next (writeRegister off v s)
  | .readReg off =>
    if off % 4 ≠ 0 then .refused (.misalignedRegister off)
    else .next (reply (readRegister s off) s)
  | .writeBuf id i v =>
    if i < id.capacity s.cap then .next (writeBuffer id i v s) else .refused (.beyondCapacity id i)
  | .readBuf id i =>
    if i < id.capacity s.cap then .next (readBuffer id i s) else .refused (.beyondCapacity id i)

/-- What CORE does next: the host's next action, or, when the host does nothing, nothing
(`70_reset_and_hazards.md` R331: after reset CORE is idle and waits for a host access; log 1). -/
def nextStep (s : State) : Host.Outcome State Fault Refusal :=
  match s.host with
  | [] => .next s
  | a :: rest => hostStep a { s with host := rest }

/-- The state in which the host's next action writes the word `w` to `CMD` -/
def withCommand (w : Word) (s : State) : State := { s with host := .writeReg 0 w :: s.host }

end Sys2Proof.Machine
end

