-- ==== Sys2Proof/Machine/Step.lean ====
section
/-! DEFINITION. One step of the machine, and the placing of a command word where the step takes it. -/

namespace Sys2Proof.Machine

/-- One step: one host action, with the whole command where the action writes `CMD`
(`20_memory.md` R67). -/
def step (s : State) : Host.Outcome State Fault Refusal := nextStep s

/-- The instruction with the bits `w`, placed as the host's next write to `CMD` (log 1). -/
def State.withFetchWord (s : State) (nbits w : Nat) : State := withCommand (tableWord nbits w) s

end Sys2Proof.Machine
end

