-- ==== Sys2Proof/Safety.lean ====
section
/-! DEFINITION. What the claims call a legal state and a safe step: the facts about registers, buffers
and the Huffman tree that the spec says always hold, each on its own. -/

namespace Sys2Proof.Machine

/-- Bits 31:14 of `STAGE` are 0 (`10_state.md` R30). -/
abbrev StageReservedZero (s : State) : Prop := s.stage >>> 14 = 0#32

/-- `LASTDIAG` holds a diagnostic code, and `DIAGACC` has bit 0 and bits 31:13 clear
(`60_exceptions.md` R300, R302). -/
abbrev DiagnosticsLegal (s : State) : Prop :=
  s.lastdiag.toNat ≤ 12 ∧ s.diagacc.getLsbD 0 = false ∧ s.diagacc >>> 13 = 0#32

/-- The capacities fit the signed length registers (`00_scope.md` R8: lengths must fit 4-byte signed
fields, D8). -/
abbrev CapacitiesLegal (c : Capacities) : Prop :=
  c.msgCap < 2 ^ 31 ∧ c.contCap < 2 ^ 31 ∧ c.freqCap < 2 ^ 30 ∧ c.payCap < 2 ^ 31

/-- `0 <= W <= MAX_W` and `0 <= H <= MAX_H` (`10_state.md` R21). -/
abbrev GeometryLegal (s : State) : Prop :=
  0 ≤ s.w.toInt ∧ s.w.toInt ≤ Config.maxW ∧ 0 ≤ s.h.toInt ∧ s.h.toInt ≤ Config.maxH

/-- The read-only length registers are within their buffers' capacities (`10_state.md` R23; `RLE_EXP`
is no length of a buffer, log 17). -/
abbrev LengthsLegal (s : State) : Prop :=
  (0 ≤ s.zzLen.toInt ∧ s.zzLen.toInt ≤ Config.zzCap)
    ∧ (0 ≤ s.rleLen.toInt ∧ s.rleLen.toInt ≤ Config.rleCap)
    ∧ (0 ≤ s.freqN.toInt ∧ s.freqN.toInt ≤ s.cap.freqCap)
    ∧ (0 ≤ s.encBytes.toInt ∧ s.encBytes.toInt ≤ s.cap.payCap)

/-- A node of the pool: a leaf, or an internal node whose children lie below it and which has a first
child (`45_huffman.md` R200). -/
def nodeLegal (i : Nat) : Node → Bool
  | .leaf _ _ => true
  | .internal _ (some x) none => decide (x < i)
  | .internal _ (some x) (some y) => decide (x < i ∧ y < i)
  | .internal _ none _ => false

/-- The children of a node, the first one first. -/
def nodeChildren : Node → List Nat
  | .leaf _ _ => []
  | .internal _ first second => first.toList ++ second.toList

/-- The pool holds `TREE_N` nodes, each legal; the root is its last node and internal, and every other
node is the child of exactly one node; without a node there is no root (`10_state.md` R26,
`45_huffman.md` R200). -/
def treeLegal (s : State) : Bool :=
  decide (s.treeN = s.node.length)
    && (s.node.zipIdx.all fun p => nodeLegal p.2 p.1)
    && (s.node.flatMap nodeChildren).isPerm (List.range (s.node.length - 1))
    && match s.treeRoot with
      | none => s.node.isEmpty
      | some r =>
        decide (r + 1 = s.node.length) &&
          match s.node[r]? with
          | some (.internal _ _ _) => true
          | _ => false

/-- A cleared `SUCCESS` has left its mark in `DIAGACC`: only a capacity violation clears the flag, with
`E_CAPACITY` recorded (`10_state.md` R32, `60_exceptions.md` R313). -/
abbrev SuccessRecorded (s : State) : Prop :=
  getFlag .success s = true ∨ s.diagacc.getLsbD 4 = true

/-- What holds of every state that a run from reset reaches. -/
structure LegalState (s : State) : Prop where
  stage : StageReservedZero s
  diagnostics : DiagnosticsLegal s
  success : SuccessRecorded s
  capacities : CapacitiesLegal s.cap
  geometry : GeometryLegal s
  lengths : LengthsLegal s
  memory : Memory.wf s.mem = true
  codes : Store.wf s.code = true
  tree : treeLegal s = true
  treePresent : getFlag .treeValid s = true → s.treeRoot.isSome = true

/-- A step is safe when it does not stop. CORE has no fatal condition (`60_exceptions.md` R303); only a
host access the spec refuses stops a step (U8, R60). -/
def stepSafe (s : State) : Bool :=
  match step s with
  | .next _ => true
  | .fault _ => false
  | .refused _ => false

/-! ### The terms of the claims -/

/-- The state with a diagnostic code recorded and nothing else changed (`60_exceptions.md` R301). -/
def diagnosed (code : Nat) (s : State) : State :=
  { s with
    lastdiag := BitVec.ofNat 32 code
    diagacc := s.diagacc ||| (1#32 <<< code) }

/-- Commands issued one by one by a host that stops at the first non-zero `LASTDIAG`
(`49_orchestrator.md` R281). -/
def issue : List Instr → State → Host.Outcome State Fault Refusal
  | [], s => .next s
  | i :: rest, s =>
    match exec i s with
    | .next t => if t.lastdiag = 0#32 then issue rest t else .next t
    | .fault f => .fault f
    | .refused r => .refused r

/-- The node that a string of bits leads to from node `n`: a 1 goes to the first child, a 0 to the
second (`45_huffman.md` R202). -/
def followPath (pool : List Node) : Nat → List Bool → Option Nat
  | n, [] => some n
  | n, b :: bits =>
    match pool[n]? with
    | some (.internal _ first second) =>
      match (if b then first else second) with
      | some c => followPath pool c bits
      | none => none
    | _ => none

/-- The symbol of a leaf, if the index is a leaf's. -/
def leafSymbol (pool : List Node) (k : Nat) : Option Word :=
  match pool[k]? with
  | some (.leaf sym _) => some sym
  | _ => none

/-- Bit `j` of the message stream with its terminator: most significant bit of each byte first, zeros
after the message (`47_lsb_pixel.md` R240). -/
def messageBit (s : State) (j : Nat) : Bool :=
  decide (j < 8 * s.msgLen.toInt.toNat) && (msgAt s (j / 8)).getLsbD (7 - j % 8)

/-- `slots` lists the slots of the coefficient carrier in order: the elements of `QB` that are no DC
term and hold neither 0 nor 1 (`48_lsb_coef.md` R255). -/
def AreSlots (s : State) (slots : List Nat) : Prop :=
  slots.Pairwise (· < ·)
    ∧ ∀ i, i ∈ slots ↔ i < 192 * numBlocks s ∧ i % 64 ≠ 0 ∧ qbAt s i ≠ 0#32 ∧ qbAt s i ≠ 1#32

/-- The constituents of `RUNENC` up to `HENC` (`49_orchestrator.md` R277). -/
def encodeStages : List Instr :=
  [.rgb2ycc, .fdct, .quant, .zigzag, .rleenc, .hfreq, .htree, .hcodes, .henc]

/-- The constituents of `RUNENCM` up to `HENC` (R278). -/
def encodeMessageStages : List Instr :=
  [.rgb2ycc, .fdct, .quant, .cfembed, .zigzag, .rleenc, .hfreq, .htree, .hcodes, .henc]

/-- The constituents of `RUNDEC` (R279). -/
def decodeStages : List Instr :=
  [.deser, .htree, .hdec, .rledec, .dezigzag, .dequant, .idct, .ycc2rgb]

/-- The constituents of `RUNDECM` (R280). -/
def decodeMessageStages : List Instr := [.deser, .htree, .hdec, .rledec, .dezigzag, .cfextract]

/-- The image of the state can be encoded: it is loaded, has a tile and a legal quality, no capacity
violation has happened, and the capacities hold even the largest table and payload that its
`192 * NB` coefficients can give (at most `384 * NB` symbols of at most as many bits each). -/
structure Encodable (s : State) : Prop where
  loaded : getFlag .rgbLoaded s = true
  success : getFlag .success s = true
  quality : 1 ≤ s.quality.toInt ∧ s.quality.toInt ≤ 100
  geometry : GeometryLegal s
  capacities : CapacitiesLegal s.cap
  tile : 1 ≤ numBlocks s
  table : 384 * numBlocks s ≤ s.cap.freqCap
  payload : (384 * numBlocks s) ^ 2 ≤ s.cap.payCap
  container : 24 + 8 * (384 * numBlocks s) + (384 * numBlocks s) ^ 2 ≤ s.cap.contCap

/-- The number of slots that the coefficients of the loaded image have after `QUANT` (R255, R260). -/
def imageSlots (s : State) : Nat := (coefSlots (cmdQuant (cmdFdct (cmdRgb2ycc s)))).length

/-- The leaves of the tree that a container's table gives (R228, R198). -/
def containerLeaves (s : State) : List Node :=
  (List.range (contEntries s)).map fun k =>
    .leaf (contWord s (16 + 8 * k)) (contWord s (20 + 8 * k)).toInt

/-- The payload bits of a container (R225, R205). -/
def containerBits (s : State) : List Bool :=
  (List.range (contPayloadBytes s).toNat).flatMap fun j =>
    bitsOfByte (contAt s (24 + 8 * contEntries s + j))

/-- The field `rleSequenceLength` of a container (R225). -/
def containerSymbolCount (s : State) : Int := (contWord s (20 + 8 * contEntries s)).toInt

/-- The node pool of the tree that a container's table gives (R198). -/
def containerPool (s : State) : List Node := buildTree (containerLeaves s)

/-- The symbols that a container's payload decodes to, from the root, which is the last node (R206). -/
def containerSymbols (s : State) : List Word :=
  (decodeSymbols (containerPool s) ((containerPool s).length - 1) (containerSymbolCount s)
    (containerBits s) ((containerPool s).length - 1) []).1

/-- The container of the state decodes: it is declared and passes the checks of `DESER`, its table has
an entry, and its payload gives a positive even number of symbols, as many as the field
`rleSequenceLength` says, that expand within the capacity of `ZZ` (R228, R198, R206, R183). -/
structure ContainerDecodes (s : State) : Prop where
  declared : getFlag .contValid s = true
  capacities : CapacitiesLegal s.cap
  checks : containerOk s = true
  entries : 1 ≤ contEntries s
  count : 0 < containerSymbolCount s ∧ containerSymbolCount s % 2 = 0
    ∧ containerSymbolCount s ≤ Config.rleCap
  symbols : ((containerSymbols s).length : Int) = containerSymbolCount s
  expansion : expandedLength (containerSymbols s) ≤ Config.zzCap

/-- The two states hold the same container: the same length, declared valid, and the same bytes up to
it. -/
def SameContainer (t u : State) : Prop :=
  getFlag .contValid u = true ∧ u.contLen = t.contLen
    ∧ ∀ i < t.contLen.toInt.toNat, contAt u i = contAt t i

end Sys2Proof.Machine
end

