-- ==== Sys2Proof/Certificates/Slice0/Obligations.lean ====
section
/-! DEFINITION. The statements about the model, one `def Obligations.<Name> : Prop` each. Where a
statement says `t = { s with ... }`, what the record does not name is unchanged: every register, every
flag, every other buffer, the tree, the code store. The first clause of a command's statement is its stage
precondition (`60_exceptions.md` R311), and a clause that ends with `diagnosed 3` its parameter check
(R312). "The spec's inference" marks a rule that the spec derives from its other rules. -/

open Sys2Proof Sys2Proof.Machine

/-! ### Encoding and the step -/

/-- `30_encoding.md` R82: the 28 rows of the opcode map, and no other word is a command. -/
def Obligations.OpcodeMap : Prop :=
  ∀ (w : Word) (i : Instr), decodeWord w = .ok i ↔ (w, i) ∈
    ([(0x01#32, .reset), (0x02#32, .ldrgb), (0x03#32, .ldcont), (0x10#32, .rgb2ycc),
      (0x11#32, .ycc2rgb), (0x12#32, .fdct), (0x13#32, .idct), (0x14#32, .quant),
      (0x15#32, .dequant), (0x16#32, .zigzag), (0x17#32, .dezigzag), (0x18#32, .rleenc),
      (0x19#32, .rledec), (0x1A#32, .hfreq), (0x1B#32, .htree), (0x1C#32, .hcodes),
      (0x1D#32, .henc), (0x1E#32, .hdec), (0x20#32, .ser), (0x21#32, .deser),
      (0x30#32, .pxembed), (0x31#32, .pxextract), (0x32#32, .cfembed), (0x33#32, .cfextract),
      (0x40#32, .runenc), (0x41#32, .runencm), (0x42#32, .rundec), (0x43#32, .rundecm)] :
      List (Word × Instr))

/-- Decoding the encoding of any command gives the command back (`30_encoding.md` R82), and words
written out from the table decode to their commands. A sanity statement. -/
def Obligations.DecodeOfEncode : Prop :=
  (∀ i : Instr, i.wellFormed = true → decodeWord (encode i) = .ok i)
    ∧ decodeWord 0x00000001#32 = .ok .reset ∧ decodeWord 0x00000012#32 = .ok .fdct
    ∧ decodeWord 0x0000001E#32 = .ok .hdec ∧ decodeWord 0x00000021#32 = .ok .deser
    ∧ decodeWord 0x00000043#32 = .ok .rundecm

/-- `30_encoding.md` R84: a word with a non-zero bit in 31:8 or with an unassigned low byte, written to
`CMD`, changes nothing but `LASTDIAG` and `DIAGACC`, which record `E_ILLEGAL`. -/
def Obligations.IllegalWordReported : Prop :=
  ∀ (s : State) (w : Word) (rest : List HostAction), s.host = .writeReg 0 w :: rest →
    (w.toNat / 256 ≠ 0 ∨ w.toNat % 256 = 0x00 ∨ (0x04 ≤ w.toNat % 256 ∧ w.toNat % 256 ≤ 0x0F)
      ∨ w.toNat % 256 = 0x1F ∨ (0x22 ≤ w.toNat % 256 ∧ w.toNat % 256 ≤ 0x2F)
      ∨ (0x34 ≤ w.toNat % 256 ∧ w.toNat % 256 ≤ 0x3F) ∨ 0x44 ≤ w.toNat % 256) →
    step s = .next { s with host := rest, lastdiag := 1#32, diagacc := s.diagacc ||| 2#32 }

/-- `30_encoding.md` R81: the step whose host action writes a command's word to `CMD` is `exec` of that
command. The one thing the step adds is that the action leaves the list of pending host actions; a
command word placed by `withFetchWord` is what the very next step runs; and a step without a pending host
action changes nothing. The list is the model's form of the host (log 1). -/
def Obligations.StepRunsDecodedCommand : Prop :=
  (∀ (s : State) (w : Word) (rest : List HostAction) (i : Instr),
    s.host = .writeReg 0 w :: rest → decodeWord w = .ok i → i.wellFormed = true →
    step s = exec i { s with host := rest })
  ∧ (∀ (s : State) (i : Instr), step (s.withFetchWord 32 (encode i).toNat) = exec i s)
  ∧ ∀ s : State, s.host = [] → step s = .next s

/-- `60_exceptions.md` R303: nothing is fatal. Every command answers a next state in every state (what
each does there is said command by command below), and a step stops only on a host access that the spec
refuses: a buffer index at or above the capacity (`20_memory.md` R61) or an unaligned register offset
(R60, log 10). -/
def Obligations.NothingIsFatal : Prop :=
  (∀ (i : Instr) (s : State), ∃ t, exec i s = .next t)
  ∧ ∀ s : State,
    (∃ t, step s = .next t)
    ∨ (∃ id i, step s = .refused (.beyondCapacity id i) ∧ id.capacity s.cap ≤ i
        ∧ ((∃ v rest, s.host = .writeBuf id i v :: rest) ∨ ∃ rest, s.host = .readBuf id i :: rest))
    ∨ ∃ off, step s = .refused (.misalignedRegister off) ∧ off % 4 ≠ 0
        ∧ ((∃ v rest, s.host = .writeReg off v :: rest) ∨ ∃ rest, s.host = .readReg off :: rest)

/-! ### The host -/

/-- Host accesses to the register space (`20_memory.md` R60, R62, R72; `10_state.md` R21): the five `RW`
registers take the value written, writes to read-only and reserved offsets are ignored, reads return the
register, and 0 for `CMD` and reserved offsets. A read changes nothing but the model's list of replies
(log 2). -/
def Obligations.HostAccessesRegisters : Prop :=
  ∀ (s : State) (rest : List HostAction) (off : Nat) (v : Word), off % 4 = 0 →
    (s.host = .writeReg off v :: rest →
      (off = 0x10 → step s = .next { s with host := rest, quality := v })
      ∧ (off = 0x14 → step s = .next { s with host := rest, imgW := v })
      ∧ (off = 0x18 → step s = .next { s with host := rest, imgH := v })
      ∧ (off = 0x24 → step s = .next { s with host := rest, msgLen := v })
      ∧ (off = 0x28 → step s = .next { s with host := rest, contLen := v })
      ∧ (off ∉ [0x00, 0x10, 0x14, 0x18, 0x24, 0x28] → step s = .next { s with host := rest }))
    ∧ (s.host = .readReg off :: rest →
      step s = .next { s with host := rest, replies := ([0#32, s.stage, s.lastdiag, s.diagacc, s.quality,
        s.imgW, s.imgH, s.w, s.h, s.msgLen, s.contLen, s.zzLen, s.rleLen, s.rleExp, s.freqN,
        s.encBytes].getD (off / 4) 0#32) :: s.replies })

/-- Host accesses to the buffers below their capacity (`20_memory.md` R61, R62, R72): a write reaches one
element of `RGB`, `CONT` or `MSG` and is ignored for the other seven buffers. A read has no side effect
but the model's reply (log 2), and every location is idempotent to read: in states that differ in the
pending actions and earlier replies alone the reply is the same value, which inside the valid extent is
the element, a `u8` zero-extended to 32 bits by the model's choice (log 15), and elsewhere some value
(log 4). At or above the capacity the access is refused, before a read-only buffer's write would be
ignored (log 9). -/
def Obligations.HostAccessesBuffers : Prop :=
  ∀ (s : State) (rest : List HostAction) (id : BufId) (i : Nat) (v : Byte),
    (i < id.capacity s.cap → s.host = .writeBuf id i v :: rest → ∃ t, step s = .next t
      ∧ t = { s with
        host := rest
        mem := { s.mem with rgb := t.mem.rgb, cont := t.mem.cont, msg := t.mem.msg } }
      ∧ (∀ j, rgbAt t j = if id = .rgb ∧ j = i then v else rgbAt s j)
      ∧ (∀ j, contAt t j = if id = .cont ∧ j = i then v else contAt s j)
      ∧ ∀ j, msgAt t j = if id = .msg ∧ j = i then v else msgAt s j)
    ∧ (i < id.capacity s.cap → ∃ x, (i < validExtent s id → x = elemAt s id i)
      ∧ ∀ (later : List HostAction) (earlier : List Word),
        step { s with host := .readBuf id i :: later, replies := earlier }
          = .next { s with host := later, replies := x :: earlier })
    ∧ (id.capacity s.cap ≤ i →
      (s.host = .writeBuf id i v :: rest ∨ s.host = .readBuf id i :: rest) →
      step s = .refused (.beyondCapacity id i))

/-! ### Diagnostics, flags, who writes what -/

/-- `60_exceptions.md` R311: a command whose stage flags are not all 1 ends with `E_PRECOND`, having
changed nothing but `LASTDIAG` and `DIAGACC`. The numbers are the masks of the flags in `STAGE`
(`10_state.md` R30). -/
def Obligations.Preconditions : Prop :=
  ∀ p ∈ ([(.rgb2ycc, 0x1#32), (.ycc2rgb, 0x2#32), (.fdct, 0x2#32), (.idct, 0x4#32), (.quant, 0x4#32),
      (.dequant, 0x8#32), (.zigzag, 0x8#32), (.dezigzag, 0x20#32), (.rleenc, 0x20#32),
      (.rledec, 0x40#32), (.hfreq, 0x40#32), (.htree, 0x80#32), (.hcodes, 0x100#32),
      (.henc, 0x240#32), (.hdec, 0x500#32), (.ser, 0x4C0#32), (.deser, 0x800#32),
      (.pxembed, 0x1#32), (.pxextract, 0x1#32), (.cfembed, 0x8#32), (.cfextract, 0x8#32),
      (.runenc, 0x1#32), (.runencm, 0x1#32), (.rundec, 0x800#32), (.rundecm, 0x800#32)] :
      List (Instr × Word)),
    ∀ s : State, s.stage &&& p.2 ≠ p.2 →
      exec p.1 s = .next { s with lastdiag := 2#32, diagacc := s.diagacc ||| 4#32 }

/-- `60_exceptions.md` R312: the parameter checks, each made when the preconditions hold, each ending
with `E_PARAM` and nothing else changed. -/
def Obligations.ParameterChecks : Prop :=
  ∀ s : State,
    (¬(0 ≤ s.imgW.toInt ∧ s.imgW.toInt ≤ 16384 ∧ 0 ≤ s.imgH.toInt ∧ s.imgH.toInt ≤ 16384) →
      exec .ldrgb s = .next (diagnosed 3 s))
    ∧ (¬(0 ≤ s.contLen.toInt ∧ s.contLen.toInt ≤ s.cap.contCap) →
      exec .ldcont s = .next (diagnosed 3 s))
    ∧ (¬(1 ≤ s.quality.toInt ∧ s.quality.toInt ≤ 100) →
      (getFlag .dctValid s = true → exec .quant s = .next (diagnosed 3 s))
      ∧ (getFlag .qValid s = true → exec .dequant s = .next (diagnosed 3 s)))
    ∧ (¬(0 ≤ s.msgLen.toInt ∧ s.msgLen.toInt ≤ s.cap.msgCap) →
      (getFlag .rgbLoaded s = true → exec .pxembed s = .next (diagnosed 3 s))
      ∧ (getFlag .qValid s = true → exec .cfembed s = .next (diagnosed 3 s)))
    ∧ (1610612736 < s.rleExp.toInt → getFlag .treeValid s = true → getFlag .bitsValid s = true →
      exec .hdec s = .next (diagnosed 3 s))

/-- `10_state.md` R31, R32: no command but `RESET` clears a stage flag; none sets `SUCCESS`; only
`PXEMBED`, `CFEMBED` and `RUNENCM`, which contains it, clear `SUCCESS`; the reserved bits 31:14 never
change. -/
def Obligations.FlagsAdvance : Prop :=
  ∀ (i : Instr) (s t : State), i ≠ .reset → exec i s = .next t →
    (∀ k < 13, s.stage.getLsbD k = true → t.stage.getLsbD k = true)
    ∧ (t.stage.getLsbD 13 = true → s.stage.getLsbD 13 = true)
    ∧ (i ∉ [Instr.pxembed, .cfembed, .runencm] → t.stage.getLsbD 13 = s.stage.getLsbD 13)
    ∧ ∀ k, 14 ≤ k → t.stage.getLsbD k = s.stage.getLsbD k

/-- `60_exceptions.md` R300, R301: a command ends with a code of R302 in `LASTDIAG`; a code other than 0
has its bit set in `DIAGACC`, code 0 leaves `DIAGACC` as it was, and no other bit of `DIAGACC`
changes. -/
def Obligations.DiagnosticsAccumulate : Prop :=
  ∀ (i : Instr) (s t : State), i ≠ .reset → exec i s = .next t →
    ∃ k ≤ 12, k ≠ 1 ∧ t.lastdiag = BitVec.ofNat 32 k
      ∧ t.diagacc = if k = 0 then s.diagacc else s.diagacc ||| (1#32 <<< k)

/-- Which commands write which state: the column "Written by" of `10_state.md` R21 and the operand lists
of the command rules; everything else keeps its value (`70_reset_and_hazards.md` R347). -/
def Obligations.CommandWriteSets : Prop :=
  ∀ (i : Instr) (s t : State), i ≠ .reset → exec i s = .next t →
    (t.imgW = s.imgW ∧ t.imgH = s.imgH ∧ t.cap = s.cap ∧ t.epoch = s.epoch ∧ t.host = s.host
      ∧ t.replies = s.replies)
    ∧ (i ∉ [Instr.deser, .rundec, .rundecm] → t.quality = s.quality ∧ t.rleExp = s.rleExp)
    ∧ (i ∉ [Instr.ldrgb, .deser, .rundec, .rundecm] → t.w = s.w ∧ t.h = s.h)
    ∧ (i ∉ [Instr.pxextract, .cfextract, .rundecm] → t.msgLen = s.msgLen ∧ t.mem.msg = s.mem.msg)
    ∧ (i ∉ [Instr.ser, .runenc, .runencm] → t.contLen = s.contLen ∧ t.mem.cont = s.mem.cont)
    ∧ (i ∉ [Instr.zigzag, .rledec, .runenc, .runencm, .rundec, .rundecm] →
      t.zzLen = s.zzLen ∧ t.mem.zz = s.mem.zz)
    ∧ (i ∉ [Instr.rleenc, .hdec, .runenc, .runencm, .rundec, .rundecm] →
      t.rleLen = s.rleLen ∧ t.mem.rle = s.mem.rle)
    ∧ (i ∉ [Instr.hfreq, .deser, .runenc, .runencm, .rundec, .rundecm] →
      t.freqN = s.freqN ∧ t.mem.freq = s.mem.freq)
    ∧ (i ∉ [Instr.henc, .deser, .runenc, .runencm, .rundec, .rundecm] →
      t.encBytes = s.encBytes ∧ t.mem.pay = s.mem.pay)
    ∧ (i ∉ [Instr.ycc2rgb, .pxembed, .rundec] → t.mem.rgb = s.mem.rgb)
    ∧ (i ∉ [Instr.rgb2ycc, .idct, .runenc, .runencm, .rundec] → t.mem.ycc = s.mem.ycc)
    ∧ (i ∉ [Instr.fdct, .dequant, .runenc, .runencm, .rundec] → t.mem.dctb = s.mem.dctb)
    ∧ (i ∉ [Instr.quant, .dezigzag, .cfembed, .runenc, .runencm, .rundec, .rundecm] →
      t.mem.qb = s.mem.qb)
    ∧ (i ∉ [Instr.htree, .runenc, .runencm, .rundec, .rundecm] →
      t.node = s.node ∧ t.treeN = s.treeN ∧ t.treeRoot = s.treeRoot)
    ∧ (i ∉ [Instr.hcodes, .runenc, .runencm] → t.code = s.code)

/-! ### System commands -/

/-- `RESET` (`49_orchestrator.md` R270, `70_reset_and_hazards.md` R330): every register at its reset
value, no tree, and every buffer element and code unspecified anew, which is the model's `epoch` (logs 3
and 19). -/
def Obligations.ResetCommand : Prop :=
  ∀ s : State, exec .reset s = .next { s with
    stage := 0x00002000#32, lastdiag := 0#32, diagacc := 0#32, quality := 0#32, imgW := 0#32
    imgH := 0#32, w := 0#32, h := 0#32, msgLen := 0#32, contLen := 0#32, zzLen := 0#32, rleLen := 0#32
    rleExp := 0#32, freqN := 0#32, encBytes := 0#32, mem := Memory.blank, node := [], treeN := 0
    treeRoot := none, code := [], epoch := s.epoch + 1 }

/-- The machine right after power-on reset: the registers of `70_reset_and_hazards.md` R330, no tree, and
the invariant of every run (`StepKeepsLegalState` below). -/
def Obligations.ResetState : Prop :=
  let s := State.reset
  s.stage = 0x00002000#32 ∧ s.lastdiag = 0#32 ∧ s.diagacc = 0#32 ∧ s.quality = 0#32 ∧ s.imgW = 0#32
    ∧ s.imgH = 0#32 ∧ s.w = 0#32 ∧ s.h = 0#32 ∧ s.msgLen = 0#32 ∧ s.contLen = 0#32 ∧ s.zzLen = 0#32
    ∧ s.rleLen = 0#32 ∧ s.rleExp = 0#32 ∧ s.freqN = 0#32 ∧ s.encBytes = 0#32 ∧ s.treeN = 0
    ∧ s.treeRoot = none ∧ LegalState s

/-- `LDRGB` and `LDCONT` (`49_orchestrator.md` R271, R272): legal dimensions are latched and `RGB_LOADED`
is set; with `CONT_LEN` in range `CONT_VALID` is set; otherwise `E_PARAM` with nothing else changed. -/
def Obligations.LoadCommands : Prop :=
  ∀ s : State,
    (if 0 ≤ s.imgW.toInt ∧ s.imgW.toInt ≤ 16384 ∧ 0 ≤ s.imgH.toInt ∧ s.imgH.toInt ≤ 16384 then
      exec .ldrgb s = .next { s with
        lastdiag := 0#32, w := s.imgW, h := s.imgH, stage := s.stage ||| 0x1#32 }
    else exec .ldrgb s = .next { s with lastdiag := 3#32, diagacc := s.diagacc ||| 8#32 })
    ∧ if 0 ≤ s.contLen.toInt ∧ s.contLen.toInt ≤ s.cap.contCap then
      exec .ldcont s = .next { s with lastdiag := 0#32, stage := s.stage ||| 0x800#32 }
    else exec .ldcont s = .next { s with lastdiag := 3#32, diagacc := s.diagacc ||| 8#32 }

/-! ### Unit 1, colour transform -/

/-- The pixel functions in integers (`40_color.md` R111, R113; R118, the spec's inference): each channel
is the sum scaled by 10^6, rounded by adding half and flooring, and clamped to [0, 255]. -/
def Obligations.ColorInIntegers : Prop :=
  (∀ r g b : Byte,
    ((rgbToYcc r g b).1.toNat : Int)
        = (299000 * r.toNat + 587000 * g.toNat + 114000 * b.toNat + 500000) / 1000000
      ∧ ((rgbToYcc r g b).2.1.toNat : Int) = min 255
          ((128000000 - 168736 * r.toNat - 331264 * g.toNat + 500000 * b.toNat + 500000) / 1000000)
      ∧ ((rgbToYcc r g b).2.2.toNat : Int) = min 255
          ((128000000 + 500000 * r.toNat - 418688 * g.toNat - 81312 * b.toNat + 500000) / 1000000))
  ∧ ∀ y cb cr : Byte,
    ((yccToRgb y cb cr).1.toNat : Int) = max 0 (min 255
        ((1000000 * y.toNat + 1402000 * ((cr.toNat : Int) - 128) + 500000) / 1000000))
      ∧ ((yccToRgb y cb cr).2.1.toNat : Int) = max 0 (min 255
        ((1000000 * y.toNat - 344136 * ((cb.toNat : Int) - 128) - 714136 * ((cr.toNat : Int) - 128)
          + 500000) / 1000000))
      ∧ ((yccToRgb y cb cr).2.2.toNat : Int) = max 0 (min 255
        ((1000000 * y.toNat + 1772000 * ((cb.toNat : Int) - 128) + 500000) / 1000000))

/-- `RGB2YCC` (`40_color.md` R112): every pixel of the image is converted, nothing else changes but the
flag `YCC_VALID`. -/
def Obligations.Rgb2yccConverts : Prop :=
  (∀ s : State, getFlag .rgbLoaded s = false → exec .rgb2ycc s = .next (diagnosed 2 s))
  ∧ ∀ s : State, getFlag .rgbLoaded s = true →
    ∃ t, exec .rgb2ycc s = .next t
      ∧ t = { s with
        lastdiag := 0#32, stage := s.stage ||| 0x2#32, mem := { s.mem with ycc := t.mem.ycc } }
      ∧ (∀ y < height s, ∀ x < width s,
        (yccAt t ((y * width s + x) * 3), yccAt t ((y * width s + x) * 3 + 1),
            yccAt t ((y * width s + x) * 3 + 2))
          = rgbToYcc (rgbAt s ((y * width s + x) * 3)) (rgbAt s ((y * width s + x) * 3 + 1))
              (rgbAt s ((y * width s + x) * 3 + 2)))
      ∧ ∀ i, 3 * width s * height s ≤ i → yccAt t i = yccAt s i

/-- `YCC2RGB` (`40_color.md` R114): every sample triple of the image is converted, nothing else changes
but the flag `RGB_LOADED`. -/
def Obligations.Ycc2rgbConverts : Prop :=
  (∀ s : State, getFlag .yccValid s = false → exec .ycc2rgb s = .next (diagnosed 2 s))
  ∧ ∀ s : State, getFlag .yccValid s = true →
    ∃ t, exec .ycc2rgb s = .next t
      ∧ t = { s with
        lastdiag := 0#32, stage := s.stage ||| 0x1#32, mem := { s.mem with rgb := t.mem.rgb } }
      ∧ (∀ y < height s, ∀ x < width s,
        (rgbAt t ((y * width s + x) * 3), rgbAt t ((y * width s + x) * 3 + 1),
            rgbAt t ((y * width s + x) * 3 + 2))
          = yccToRgb (yccAt s ((y * width s + x) * 3)) (yccAt s ((y * width s + x) * 3 + 1))
              (yccAt s ((y * width s + x) * 3 + 2)))
      ∧ ∀ i, 3 * width s * height s ≤ i → rgbAt t i = rgbAt s i

/-! ### Unit 2, block transform -/

/-- `41_dct.md` R129, its last sentence: with both butterflies the result of the two passes does not
depend on their order: columns first gives the same as rows first. -/
def Obligations.DctPassOrder : Prop :=
  ∀ m : Grid ℚ,
    pass2d forwardButterfly m = Grid.transpose (pass2d forwardButterfly (Grid.transpose m))
    ∧ pass2d inverseButterfly m = Grid.transpose (pass2d inverseButterfly (Grid.transpose m))

/-- Flat blocks (`41_dct.md` R130, R131; R135 and R136, the spec's
inference): a block of all `v` has the DC term `8 * v` and
nothing else, so a block of zeros gives zeros; a block with the DC term `d` alone gives
`floor((d + 4) / 8)` everywhere, so zeros give zeros. -/
def Obligations.DctOfFlatBlocks : Prop :=
  (∀ (v : Int) (r c : Nat), r < 8 → c < 8 →
    (forwardDCT (Grid.ofFn fun _ _ => v)).at r c = if r = 0 ∧ c = 0 then 8 * v else 0)
  ∧ ∀ (d : Int) (r c : Nat), r < 8 → c < 8 →
    (inverseDCT (Grid.ofFn fun u v => if u = 0 ∧ v = 0 then d else 0)).at r c = (d + 4) / 8

/-- The range of the forward transform on samples (`41_dct.md` R133, the spec's inference): every output
has magnitude below 4096, and the DC output is the sum of the 64 samples divided by 8 and rounded half
up, so within [0, 2040]. -/
def Obligations.FdctRange : Prop :=
  ∀ b : Nat → Nat → Byte,
    let g := Grid.ofFn fun r c => ((b r c).toNat : Int)
    (∀ u < 8, ∀ v < 8, -4096 < (forwardDCT g).at u v ∧ (forwardDCT g).at u v < 4096)
    ∧ (forwardDCT g).at 0 0 = (g.flatten.sum + 4) / 8
    ∧ 0 ≤ (forwardDCT g).at 0 0 ∧ (forwardDCT g).at 0 0 ≤ 2040

/-- `FDCT` (`41_dct.md` R133): the coefficients of every channel of every tile, no level shift; nothing
else changes but the flag `DCT_VALID`. -/
def Obligations.FdctTransforms : Prop :=
  ∀ s : State, getFlag .yccValid s = true →
    ∃ t, exec .fdct s = .next t
      ∧ t = { s with
        lastdiag := 0#32, stage := s.stage ||| 0x4#32, mem := { s.mem with dctb := t.mem.dctb } }
      ∧ (∀ ty < blocksHigh s, ∀ tx < blocksWide s, ∀ ch < 3, ∀ r < 8, ∀ c < 8,
        (dctbAt t ((((ty * blocksWide s + tx) * 3 + ch) * 8 + r) * 8 + c)).toInt
          = (forwardDCT (Grid.ofFn fun y x =>
              ((yccAt s (((8 * ty + y) * width s + (8 * tx + x)) * 3 + ch)).toNat : Int))).at r c)
      ∧ ∀ i, 192 * numBlocks s ≤ i → dctbAt t i = dctbAt s i

/-- `IDCT` (`41_dct.md` R134, `40_color.md` R116): every sample of the W8 x H8 region is the inverse
transform of its block clamped to [16, 255]; the samples outside the region are unchanged; nothing else
changes but the flag `YCC_VALID`. -/
def Obligations.IdctReconstructs : Prop :=
  (∀ s : State, getFlag .dctValid s = false → exec .idct s = .next (diagnosed 2 s))
  ∧ ∀ s : State, getFlag .dctValid s = true →
    ∃ t, exec .idct s = .next t
      ∧ t = { s with
        lastdiag := 0#32, stage := s.stage ||| 0x2#32, mem := { s.mem with ycc := t.mem.ycc } }
      ∧ (∀ ty < blocksHigh s, ∀ tx < blocksWide s, ∀ ch < 3, ∀ r < 8, ∀ c < 8,
        ((yccAt t (((8 * ty + r) * width s + (8 * tx + c)) * 3 + ch)).toNat : Int)
          = max 16 (min 255 ((inverseDCT (Grid.ofFn fun u v =>
              (dctbAt s ((((ty * blocksWide s + tx) * 3 + ch) * 8 + u) * 8 + v)).toInt)).at r c)))
      ∧ ∀ i, ¬(i / 3 / width s < height8 s ∧ i / 3 % width s < width8 s) → yccAt t i = yccAt s i

/-! ### Unit 3, quantizer -/

/-- `42_quantizer.md` R153, the spec's inference: for every quality in [1, 100] every entry of both
tables is at least 1 and at most 6050; quality 50 gives the base tables, quality 100 gives ones; and the
printed corner values. -/
def Obligations.QuantTables : Prop :=
  (∀ q ∈ List.range' 1 100, ∀ j < 64, 1 ≤ tableEntry q 0 j ∧ tableEntry q 0 j ≤ 6050
    ∧ 1 ≤ tableEntry q 1 j ∧ tableEntry q 1 j ≤ 4950 ∧ tableEntry q 2 j = tableEntry q 1 j)
  ∧ (∀ j < 64, tableEntry 50 0 j = baseL.getD j 0 ∧ tableEntry 50 1 j = baseC.getD j 0
    ∧ tableEntry 100 0 j = 1 ∧ tableEntry 100 1 j = 1)
  ∧ tableEntry 1 0 53 = 6050 ∧ tableEntry 3 0 53 = 2016
  ∧ (List.range 8).map (tableEntry 75 0) = [8, 6, 5, 8, 12, 20, 26, 31]
  ∧ (List.range 8).map (tableEntry 75 1) = [9, 9, 12, 24, 50, 50, 50, 50]

/-- `42_quantizer.md` R159 and R160, the spec's inference: the quotient is the sign times `(|v| + t/2) /
t`; multiplied back it is within half a step of the coefficient, with equality exactly on ties, unless
the product saturates; with step 1 both functions are the identity. -/
def Obligations.QuantizerLoss : Prop :=
  ∀ v t : Int, -2147483648 ≤ v → v ≤ 2147483647 → 1 ≤ t →
    quantize v t = v.sign * ((|v| + t / 2) / t)
    ∧ (-2147483648 ≤ quantize v t * t → quantize v t * t ≤ 2147483647 →
      2 * |dequantize (quantize v t) t - v| ≤ t
      ∧ (2 * |dequantize (quantize v t) t - v| = t ↔ 2 * (v % t) = t))
    ∧ (t = 1 → quantize v t = v ∧ dequantize v t = v)

/-- `QUANT` (`42_quantizer.md` R156): with `DCT_VALID` and a legal quality every coefficient of every
block is divided by its table entry and rounded; nothing else changes but the flag `Q_VALID`. -/
def Obligations.QuantQuantizes : Prop :=
  (∀ s : State, getFlag .dctValid s = false → exec .quant s = .next (diagnosed 2 s))
  ∧ (∀ s : State, getFlag .dctValid s = true → ¬(1 ≤ s.quality.toInt ∧ s.quality.toInt ≤ 100) →
    exec .quant s = .next (diagnosed 3 s))
  ∧ ∀ s : State, getFlag .dctValid s = true → 1 ≤ s.quality.toInt → s.quality.toInt ≤ 100 →
    ∃ t, exec .quant s = .next t
      ∧ t = { s with
        lastdiag := 0#32, stage := s.stage ||| 0x8#32, mem := { s.mem with qb := t.mem.qb } }
      ∧ (∀ b < numBlocks s, ∀ ch < 3, ∀ r < 8, ∀ c < 8,
        (qbAt t (((b * 3 + ch) * 8 + r) * 8 + c)).toInt
          = quantize (dctbAt s (((b * 3 + ch) * 8 + r) * 8 + c)).toInt
              (tableEntry s.quality.toInt ch (8 * r + c)))
      ∧ ∀ i, 192 * numBlocks s ≤ i → qbAt t i = qbAt s i

/-- `DEQUANT` (`42_quantizer.md` R157, R158): every quotient is multiplied by its table entry and
saturated to 32 bits; nothing else changes but the flag `DCT_VALID`. -/
def Obligations.DequantScales : Prop :=
  (∀ s : State, getFlag .qValid s = false → exec .dequant s = .next (diagnosed 2 s))
  ∧ (∀ s : State, getFlag .qValid s = true → ¬(1 ≤ s.quality.toInt ∧ s.quality.toInt ≤ 100) →
    exec .dequant s = .next (diagnosed 3 s))
  ∧ ∀ s : State, getFlag .qValid s = true → 1 ≤ s.quality.toInt → s.quality.toInt ≤ 100 →
    ∃ t, exec .dequant s = .next t
      ∧ t = { s with
        lastdiag := 0#32, stage := s.stage ||| 0x4#32, mem := { s.mem with dctb := t.mem.dctb } }
      ∧ (∀ b < numBlocks s, ∀ ch < 3, ∀ r < 8, ∀ c < 8,
        (dctbAt t (((b * 3 + ch) * 8 + r) * 8 + c)).toInt
          = max (-2147483648) (min 2147483647
              ((qbAt s (((b * 3 + ch) * 8 + r) * 8 + c)).toInt
                * tableEntry s.quality.toInt ch (8 * r + c))))
      ∧ ∀ i, 192 * numBlocks s ≤ i → dctbAt t i = dctbAt s i

/-! ### Unit 4, zigzag scanner -/

/-- `43_zigzag.md` R165 and R166, the second the spec's inference: the scan in natural indices as the
spec prints it, its inverse, and that it visits the anti-diagonals in order, upwards on the even ones.
-/
def Obligations.ScanOrder : Prop :=
  (List.range 64).map scanIndex =
    [0, 1, 8, 16, 9, 2, 3, 10, 17, 24, 32, 25, 18, 11, 4, 5] ++
    [12, 19, 26, 33, 40, 48, 41, 34, 27, 20, 13, 6, 7, 14, 21, 28] ++
    [35, 42, 49, 56, 57, 50, 43, 36, 29, 22, 15, 23, 30, 37, 44, 51] ++
    [58, 59, 52, 45, 38, 31, 39, 46, 53, 60, 61, 54, 47, 55, 62, 63]
  ∧ (∀ k < 64, scanPosition (scanIndex k) = k ∧ scanIndex (scanPosition k) = k
      ∧ scanPosition k < 64 ∧ scanIndex k < 64)
  ∧ ∀ k < 63,
    let r := scanIndex k / 8
    let c := scanIndex k % 8
    let r' := scanIndex (k + 1) / 8
    let c' := scanIndex (k + 1) % 8
    (r' + c' = r + c ∧ (if (r + c) % 2 = 0 then r' < r else r < r')) ∨ r' + c' = r + c + 1

/-- `ZIGZAG` (`43_zigzag.md` R168, R167): the sequence of every channel of every block in scan order, and
its length; nothing else changes but the flag `ZZ_VALID`. -/
def Obligations.ZigzagScans : Prop :=
  (∀ s : State, getFlag .qValid s = false → exec .zigzag s = .next (diagnosed 2 s))
  ∧ ∀ s : State, getFlag .qValid s = true → GeometryLegal s →
    ∃ t, exec .zigzag s = .next t
      ∧ t = { s with
        lastdiag := 0#32, stage := s.stage ||| 0x20#32, zzLen := t.zzLen
        mem := { s.mem with zz := t.mem.zz } }
      ∧ t.zzLen.toInt = 192 * numBlocks s
      ∧ (∀ g < 3 * numBlocks s, ∀ k < 64, zzAt t (g * 64 + k)
          = qbAt s (g * 64 + 8 * zigzagRows.getD k 0 + zigzagCols.getD k 0))
      ∧ ∀ i, 192 * numBlocks s ≤ i → zzAt t i = zzAt s i

/-- `DEZIGZAG` (`43_zigzag.md` R169, R167): every cell gets the element at its scan position, or 0 where
the sequence has ended; nothing else changes but the flag `Q_VALID`. -/
def Obligations.DezigzagFills : Prop :=
  (∀ s : State, getFlag .zzValid s = false → exec .dezigzag s = .next (diagnosed 2 s))
  ∧ ∀ s : State, getFlag .zzValid s = true → 0 ≤ s.zzLen.toInt →
    ∃ t, exec .dezigzag s = .next t
      ∧ t = { s with
        lastdiag := 0#32, stage := s.stage ||| 0x8#32, mem := { s.mem with qb := t.mem.qb } }
      ∧ (∀ g < 3 * numBlocks s, ∀ k < 64,
        qbAt t (g * 64 + 8 * zigzagRows.getD k 0 + zigzagCols.getD k 0)
          = if ((g * 64 + k : Nat) : Int) < s.zzLen.toInt then zzAt s (g * 64 + k) else 0#32)
      ∧ ∀ i, 192 * numBlocks s ≤ i → qbAt t i = qbAt s i

/-- `43_zigzag.md` R170, the spec's inference, on the machine: `ZIGZAG` then `DEZIGZAG` gives back every
coefficient; and `DEZIGZAG` of a full sequence then `ZIGZAG` gives back every element of the sequence.
-/
def Obligations.ZigzagRoundTrip : Prop :=
  ∀ s : State, GeometryLegal s →
    (getFlag .qValid s = true → ∃ u, issue [.zigzag, .dezigzag] s = .next u ∧ u.lastdiag = 0#32
      ∧ ∀ i, qbAt u i = qbAt s i)
    ∧ (getFlag .zzValid s = true → s.zzLen.toInt = 192 * numBlocks s →
      ∃ u, issue [.dezigzag, .zigzag] s = .next u ∧ u.lastdiag = 0#32 ∧ u.zzLen = s.zzLen
        ∧ ∀ i, zzAt u i = zzAt s i)

/-! ### Unit 5, run-length coder -/

/-- `RLEENC` (`44_rle.md` R181, R182): the stream lists the maximal runs of the sequence: counts are at
least 1, neighbours differ, and the runs joined give the sequence back. Nothing else changes but
`RLE_LEN` and the flag `RLE_VALID`. -/
def Obligations.RleencListsRuns : Prop :=
  (∀ s : State, getFlag .zzValid s = false → exec .rleenc s = .next (diagnosed 2 s))
  ∧ ∀ s : State, getFlag .zzValid s = true → LengthsLegal s →
    ∃ (t : State) (ps : List (Word × Nat)), exec .rleenc s = .next t
      ∧ t = { s with
        lastdiag := 0#32, stage := s.stage ||| 0x40#32, rleLen := t.rleLen
        mem := { s.mem with rle := t.mem.rle } }
      ∧ t.rleLen.toInt = 2 * ps.length
      ∧ (∀ p ∈ ps, 1 ≤ p.2)
      ∧ (∀ j, j + 1 < ps.length → (ps[j]?).map Prod.fst ≠ (ps[j + 1]?).map Prod.fst)
      ∧ ps.flatMap (fun p => List.replicate p.2 p.1)
          = (List.range s.zzLen.toInt.toNat).map (zzAt s)
      ∧ (∀ j (h : j < ps.length),
        rleAt t (2 * j) = (ps[j]).1 ∧ (rleAt t (2 * j + 1)).toInt = (ps[j]).2)
      ∧ ∀ i, 2 * ps.length ≤ i → rleAt t i = rleAt s i

/-- `RLEDEC` (`44_rle.md` R183, R184): the two failures, each with `ZZ_LEN` 0 and the buffer unchanged,
and the expansion, a count of zero or less giving nothing. -/
def Obligations.RledecExpands : Prop :=
  (∀ s : State, getFlag .rleValid s = false → exec .rledec s = .next (diagnosed 2 s))
  ∧ ∀ s : State, getFlag .rleValid s = true → 0 ≤ s.rleLen.toInt →
    let expansion := (List.range (s.rleLen.toInt.toNat / 2)).flatMap fun j =>
      List.replicate (rleAt s (2 * j + 1)).toInt.toNat (rleAt s (2 * j))
    if s.rleLen.toInt = 0 ∨ s.rleLen.toInt % 2 = 1 ∨ s.rleExp.toInt % 2 = 1 then
      exec .rledec s = .next (diagnosed 5 { s with zzLen := 0#32 })
    else if 3 * 16384 * 16384 < expansion.length then
      exec .rledec s = .next (diagnosed 10 { s with zzLen := 0#32 })
    else
      ∃ t, exec .rledec s = .next t
        ∧ t = { s with
          lastdiag := 0#32, stage := s.stage ||| 0x20#32, zzLen := t.zzLen
          mem := { s.mem with zz := t.mem.zz } }
        ∧ t.zzLen.toInt = expansion.length
        ∧ (∀ i (h : i < expansion.length), zzAt t i = expansion[i])
        ∧ ∀ i, expansion.length ≤ i → zzAt t i = zzAt s i

/-- `44_rle.md` R185, the spec's inference, on the machine: `RLEENC` of a non-empty sequence then
`RLEDEC` gives the sequence back. -/
def Obligations.RleRoundTrip : Prop :=
  ∀ s : State, getFlag .zzValid s = true → LengthsLegal s → 0 < s.zzLen.toInt →
    s.rleExp.toInt % 2 = 0 →
    ∃ u, issue [.rleenc, .rledec] s = .next u ∧ u.lastdiag = 0#32 ∧ u.zzLen = s.zzLen
      ∧ ∀ i, zzAt u i = zzAt s i

/-! ### Unit 6, Huffman coder -/

/-- `HFREQ` (`45_huffman.md` R196): the distinct symbols in strictly ascending signed order, each with the
number of its occurrences; a table above `FREQ_CAP` ends with `E_OVERFLOW` and nothing else changed. -/
def Obligations.HfreqCounts : Prop :=
  (∀ s : State, getFlag .rleValid s = false → exec .hfreq s = .next (diagnosed 2 s))
  ∧ ∀ s : State, getFlag .rleValid s = true → LengthsLegal s → CapacitiesLegal s.cap →
    let seq := (List.range s.rleLen.toInt.toNat).map (rleAt s)
    if s.cap.freqCap < seq.toFinset.card then exec .hfreq s = .next (diagnosed 10 s)
    else
      ∃ t, exec .hfreq s = .next t
        ∧ t = { s with
          lastdiag := 0#32, stage := s.stage ||| 0x80#32, freqN := t.freqN
          mem := { s.mem with freq := t.mem.freq } }
        ∧ t.freqN.toInt = seq.toFinset.card
        ∧ (∀ j k, j < k → k < seq.toFinset.card →
          (freqAt t (2 * j)).toInt < (freqAt t (2 * k)).toInt)
        ∧ (∀ k < seq.toFinset.card,
          freqAt t (2 * k) ∈ seq ∧ (freqAt t (2 * k + 1)).toInt = seq.count (freqAt t (2 * k)))
        ∧ (∀ x ∈ seq, ∃ k < seq.toFinset.card, freqAt t (2 * k) = x)
        ∧ ∀ i, 2 * seq.toFinset.card ≤ i → freqAt t i = freqAt s i

/-- `HTREE` (`45_huffman.md` R198, R199): an empty table ends with `E_EMPTY_FREQ`; one entry gives the
degenerate tree; otherwise the leaves stand first and each internal node `n` has as its children the two
least, by frequency and then index, of the nodes below `n` that no earlier internal node took. Nothing
else changes but the flag `TREE_VALID`. -/
def Obligations.HtreeMergesLeastPairs : Prop :=
  (∀ s : State, getFlag .freqValid s = false → exec .htree s = .next (diagnosed 2 s))
  ∧ ∀ s : State, getFlag .freqValid s = true → 0 ≤ s.freqN.toInt →
    let n := s.freqN.toInt.toNat
    if n = 0 then exec .htree s = .next (diagnosed 12 s)
    else
      ∃ t, exec .htree s = .next t
        ∧ t = { s with
          lastdiag := 0#32, stage := s.stage ||| 0x100#32
          node := t.node, treeN := t.treeN, treeRoot := t.treeRoot }
        ∧ (∀ k < n, t.node[k]? = some (.leaf (freqAt s (2 * k)) (freqAt s (2 * k + 1)).toInt))
        ∧ (n = 1 → t.treeN = 2 ∧ t.node.length = 2 ∧ t.treeRoot = some 1
          ∧ t.node[1]? = some (.internal (freqAt s 1).toInt (some 0) none))
        ∧ (1 < n → t.treeN = 2 * n - 1 ∧ t.node.length = 2 * n - 1 ∧ t.treeRoot = some (2 * n - 2)
          ∧ ∀ m, n ≤ m → m < 2 * n - 1 → ∃ x y,
            let key := fun i => toLex (poolWeight t.node i, i)
            let free := fun i => i < m ∧ ∀ p ∈ t.node.take m, i ∉ nodeChildren p
            t.node[m]? = some (.internal (poolWeight t.node x + poolWeight t.node y) (some x) (some y))
            ∧ free x ∧ free y ∧ key x < key y ∧ ∀ z, free z → z ≠ x → z ≠ y → key y < key z)

/-- The shape of the tree that `HTREE` builds (`45_huffman.md` R200, the spec's inference): with N >= 2
entries there are 2N - 1 nodes, the first N are leaves and the others internal with two children below
them; every node but the root, which is the last, is the child of exactly one node; the path to a leaf
is unique and of 1 to N - 1 bits. With one entry the leaf has depth 1 and the root's second child is the
only NIL. -/
def Obligations.HtreeShape : Prop :=
  ∀ s : State, getFlag .freqValid s = true → 1 ≤ s.freqN.toInt →
    let n := s.freqN.toInt.toNat
    ∃ t, exec .htree s = .next t ∧ treeLegal t = true
      ∧ (∀ k < n, ∃! path, followPath t.node (t.node.length - 1) path = some k)
      ∧ (∀ k < n, ∀ path, followPath t.node (t.node.length - 1) path = some k →
        1 ≤ path.length ∧ path.length ≤ max 1 (n - 1))
      ∧ (n = 1 → t.node.length = 2)
      ∧ (1 < n → t.treeN = 2 * n - 1 ∧ t.treeRoot = some (2 * n - 2)
        ∧ (∀ k < n, (leafSymbol t.node k).isSome = true)
        ∧ ∀ m, n ≤ m → m < 2 * n - 1 → ∃ f x y,
          t.node[m]? = some (.internal f (some x) (some y)) ∧ x < m ∧ y < m ∧ x ≠ y)

/-- `HCODES` (`45_huffman.md` R202): on a tree of the legal shape every leaf has a path from the root,
and its entry of the code store becomes that path, 1 for the first branch and 0 for the second; no other
entry changes, and nothing else but the flag `CODES_VALID`. -/
def Obligations.HcodesAssignPaths : Prop :=
  ∀ (s : State) (r : Nat), getFlag .treeValid s = true → treeLegal s = true → s.treeRoot = some r →
    ∃ t, exec .hcodes s = .next t
      ∧ t = { s with lastdiag := 0#32, stage := s.stage ||| 0x200#32, code := t.code }
      ∧ (∀ k, (leafSymbol s.node k).isSome = true → ∃ path, followPath s.node r path = some k)
      ∧ (∀ k path, (leafSymbol s.node k).isSome = true → followPath s.node r path = some k →
        codeAt t k = path)
      ∧ ∀ k, (leafSymbol s.node k).isSome = false → codeAt t k = codeAt s k

/-- `45_huffman.md` R202, the spec's inference: the codes that `HCODES` writes are free of common
beginnings: on every tree of the legal shape, when the code of one leaf begins the code of another, the
two are the same leaf. -/
def Obligations.CodesPrefixFree : Prop :=
  ∀ s : State, getFlag .treeValid s = true → treeLegal s = true →
    ∃ t, exec .hcodes s = .next t
      ∧ ∀ j k, (leafSymbol s.node j).isSome = true → (leafSymbol s.node k).isSome = true →
        codeAt t j <+: codeAt t k → j = k

/-- `HENC` (`45_huffman.md` R204, R205). `entry i` stands for the least table entry of the `i`-th symbol.
If every symbol has one, the codes are joined and packed, most significant bit first and zero padded,
unless they exceed `PAY_CAP`; if some symbol has none, `E_NO_SYMBOL` and nothing else changes. -/
def Obligations.HencPacksCodes : Prop :=
  (∀ s : State, ¬(getFlag .rleValid s = true ∧ getFlag .codesValid s = true) →
    exec .henc s = .next (diagnosed 2 s))
  ∧ ∀ s : State, getFlag .rleValid s = true → getFlag .codesValid s = true →
    0 ≤ s.rleLen.toInt → 0 ≤ s.freqN.toInt → CapacitiesLegal s.cap →
    ((∃ i < s.rleLen.toInt.toNat, ∀ k < s.freqN.toInt.toNat, freqAt s (2 * k) ≠ rleAt s i) →
      exec .henc s = .next (diagnosed 11 s))
    ∧ ∀ entry : Nat → Nat,
      (∀ i < s.rleLen.toInt.toNat, entry i < s.freqN.toInt.toNat
        ∧ freqAt s (2 * entry i) = rleAt s i ∧ ∀ k < entry i, freqAt s (2 * k) ≠ rleAt s i) →
      let bits := (List.range s.rleLen.toInt.toNat).flatMap fun i => codeAt s (entry i)
      let bytes := (bits.length + 7) / 8
      if s.cap.payCap < bytes then exec .henc s = .next (diagnosed 10 s)
      else
        ∃ t, exec .henc s = .next t
          ∧ t = { s with
            lastdiag := 0#32, stage := s.stage ||| 0x400#32, encBytes := t.encBytes
            mem := { s.mem with pay := t.mem.pay } }
          ∧ t.encBytes.toInt = bytes
          ∧ (∀ j < bytes, ∀ m < 8, (payAt t j).getLsbD (7 - m) = bits.getD (8 * j + m) false)
          ∧ ∀ j, bytes ≤ j → payAt t j = payAt s j

/-- `HDEC` (`45_huffman.md` R206) on a tree of the legal shape. `leaves` are the leaves whose paths, one
after the other, begin the payload. If they are as many as `RLE_EXP`, their symbols are the result,
whatever bits follow; if they are fewer and the rest of the bits leads to no leaf, the result is the same
with `E_HUFF_SHORT`; if they are fewer and the rest meets a missing child, with `E_HUFF_BADCODE`. -/
def Obligations.HdecDecodesPaths : Prop :=
  ∀ (s : State) (r : Nat) (leaves : List (List Bool × Nat)) (rest : List Bool),
    getFlag .treeValid s = true → getFlag .bitsValid s = true → treeLegal s = true →
    s.treeRoot = some r → s.rleExp.toInt ≤ 1610612736 → 0 ≤ s.encBytes.toInt →
    (∀ p ∈ leaves, followPath s.node r p.1 = some p.2 ∧ (leafSymbol s.node p.2).isSome = true) →
    (∀ j < s.encBytes.toInt.toNat, ∀ m < 8,
      (leaves.flatMap Prod.fst ++ rest)[8 * j + m]? = some ((payAt s j).getLsbD (7 - m))) →
    (leaves.flatMap Prod.fst ++ rest).length = 8 * s.encBytes.toInt.toNat →
    ∃ t, exec .hdec s = .next t
      ∧ ((leaves.length : Int) = max 0 s.rleExp.toInt → t = { s with
          lastdiag := 0#32, stage := s.stage ||| 0x40#32, rleLen := t.rleLen
          mem := { s.mem with rle := t.mem.rle } })
      ∧ (∀ n, (leaves.length : Int) < s.rleExp.toInt → followPath s.node r rest = some n →
        (leafSymbol s.node n).isSome = false → t = { s with
          lastdiag := 8#32, diagacc := s.diagacc ||| 0x100#32, stage := s.stage ||| 0x40#32
          rleLen := t.rleLen, mem := { s.mem with rle := t.mem.rle } })
      ∧ (∀ (walked : List Bool) (b : Bool) (later : List Bool) (n : Nat),
        (leaves.length : Int) < s.rleExp.toInt → rest = walked ++ b :: later →
        followPath s.node r walked = some n → (leafSymbol s.node n).isSome = false →
        followPath s.node r (walked ++ [b]) = none → t = { s with
          lastdiag := 7#32, diagacc := s.diagacc ||| 0x80#32, stage := s.stage ||| 0x40#32
          rleLen := t.rleLen, mem := { s.mem with rle := t.mem.rle } })
      ∧ (((leaves.length : Int) = max 0 s.rleExp.toInt
          ∨ ((leaves.length : Int) < s.rleExp.toInt
            ∧ (∃ n, followPath s.node r rest = some n ∧ (leafSymbol s.node n).isSome = false))
          ∨ ((leaves.length : Int) < s.rleExp.toInt
            ∧ ∃ walked b later n, rest = walked ++ b :: later ∧ followPath s.node r walked = some n
              ∧ (leafSymbol s.node n).isSome = false
              ∧ followPath s.node r (walked ++ [b]) = none)) →
        t.rleLen.toInt = leaves.length
        ∧ (∀ j (h : j < leaves.length), some (rleAt t j) = leafSymbol s.node (leaves[j]).2)
        ∧ ∀ j, leaves.length ≤ j → rleAt t j = rleAt s j)

/-- `45_huffman.md` R207, the spec's inference: when `HFREQ`, `HTREE`, `HCODES`, `HENC` run on a
non-empty stream without a diagnostic, `HDEC` with `RLE_EXP` equal to the length gives the stream back
without a diagnostic. -/
def Obligations.HuffmanRoundTrip : Prop :=
  ∀ s t : State, getFlag .rleValid s = true → LengthsLegal s → CapacitiesLegal s.cap →
    1 ≤ s.rleLen.toInt → s.rleExp = s.rleLen →
    issue [.hfreq, .htree, .hcodes, .henc] s = .next t → t.lastdiag = 0#32 →
    ∃ u, exec .hdec t = .next u ∧ u.lastdiag = 0#32 ∧ u.rleLen = s.rleLen
      ∧ ∀ i, rleAt u i = rleAt s i

/-! ### Unit 7, container -/

/-- `SER` (`46_container.md` R225, R227): the fields at their offsets, least significant byte first, the
payload after them, and the length; a container above `CONT_CAP` ends with `E_OVERFLOW` and nothing else
changed. -/
def Obligations.SerWritesContainer : Prop :=
  (∀ s : State,
    ¬(getFlag .freqValid s = true ∧ getFlag .rleValid s = true ∧ getFlag .bitsValid s = true) →
    exec .ser s = .next (diagnosed 2 s))
  ∧ ∀ s : State, getFlag .freqValid s = true → getFlag .rleValid s = true →
    getFlag .bitsValid s = true → 0 ≤ s.freqN.toInt → 0 ≤ s.encBytes.toInt → s.cap.contCap < 2 ^ 31 →
    let n := s.freqN.toInt.toNat
    let e := s.encBytes.toInt.toNat
    if s.cap.contCap < 24 + 8 * n + e then exec .ser s = .next (diagnosed 10 s)
    else
      ∃ t, exec .ser s = .next t
        ∧ t = { s with
          lastdiag := 0#32, stage := s.stage ||| 0x800#32, contLen := t.contLen
          mem := { s.mem with cont := t.mem.cont } }
        ∧ t.contLen.toInt = 24 + 8 * n + e
        ∧ (∀ j < 4,
          contAt t j = s.quality.extractLsb' (8 * j) 8
          ∧ contAt t (4 + j) = (BitVec.ofNat 32 (height8 s)).extractLsb' (8 * j) 8
          ∧ contAt t (8 + j) = (BitVec.ofNat 32 (width8 s)).extractLsb' (8 * j) 8
          ∧ contAt t (12 + j) = s.freqN.extractLsb' (8 * j) 8
          ∧ (∀ k < n, contAt t (16 + 8 * k + j) = (freqAt s (2 * k)).extractLsb' (8 * j) 8
            ∧ contAt t (20 + 8 * k + j) = (freqAt s (2 * k + 1)).extractLsb' (8 * j) 8)
          ∧ contAt t (16 + 8 * n + j) = s.encBytes.extractLsb' (8 * j) 8
          ∧ contAt t (20 + 8 * n + j) = s.rleLen.extractLsb' (8 * j) 8)
        ∧ (∀ i < e, contAt t (24 + 8 * n + i) = payAt s i)
        ∧ ∀ i, 24 + 8 * n + e ≤ i → contAt t i = contAt s i

/-- `DESER` (`46_container.md` R228): when every check passes the fields are taken over, entries in
container order; when one fails, `E_CONTAINER` and nothing else changed. -/
def Obligations.DeserLoadsContainer : Prop :=
  (∀ s : State, getFlag .contValid s = false → exec .deser s = .next (diagnosed 2 s))
  ∧ ∀ s : State, getFlag .contValid s = true →
    let word := fun o => contAt s (o + 3) ++ contAt s (o + 2) ++ contAt s (o + 1) ++ contAt s o
    let n := (word 12).toNat
    let e := (word (16 + 8 * n)).toInt
    if 16 ≤ s.contLen.toInt ∧ n ≤ s.cap.freqCap ∧ 24 + 8 * (n : Int) ≤ s.contLen.toInt
        ∧ 0 ≤ e ∧ e ≤ s.cap.payCap ∧ 24 + 8 * (n : Int) + e ≤ s.contLen.toInt
        ∧ 0 ≤ (word 4).toInt ∧ (word 4).toInt ≤ 16384
        ∧ 0 ≤ (word 8).toInt ∧ (word 8).toInt ≤ 16384 then
      ∃ t, exec .deser s = .next t
        ∧ t = { s with
          lastdiag := 0#32, stage := s.stage ||| 0x480#32
          quality := word 0, h := word 4, w := word 8, freqN := word 12
          encBytes := word (16 + 8 * n), rleExp := word (20 + 8 * n)
          mem := { s.mem with freq := t.mem.freq, pay := t.mem.pay } }
        ∧ (∀ k < n, freqAt t (2 * k) = word (16 + 8 * k) ∧ freqAt t (2 * k + 1) = word (20 + 8 * k))
        ∧ (∀ i, 2 * n ≤ i → freqAt t i = freqAt s i)
        ∧ (∀ i < e.toNat, payAt t i = contAt s (24 + 8 * n + i))
        ∧ ∀ i, e.toNat ≤ i → payAt t i = payAt s i
    else exec .deser s = .next (diagnosed 6 s)

/-- `46_container.md` R230, the spec's inference: after a `SER` that succeeds, `DESER` restores the
quality, the table, the payload and their lengths, sets `RLE_EXP` to `RLE_LEN`, and `W`, `H` to `W8`,
`H8`. -/
def Obligations.ContainerRoundTrip : Prop :=
  ∀ s t : State, GeometryLegal s → LengthsLegal s → CapacitiesLegal s.cap →
    exec .ser s = .next t → t.lastdiag = 0#32 →
    ∃ u, exec .deser t = .next u ∧ u.lastdiag = 0#32 ∧ u.quality = s.quality ∧ u.freqN = s.freqN
      ∧ u.encBytes = s.encBytes ∧ u.rleExp = s.rleLen
      ∧ u.w.toInt = width8 s ∧ u.h.toInt = height8 s
      ∧ (∀ i, freqAt u i = freqAt s i) ∧ ∀ i, payAt u i = payAt s i

/-! ### Units 8 and 9, the embedders -/

/-- `PXEMBED` (`47_lsb_pixel.md` R240 to R242): with room for the message and its terminator slot `j`
gets bit `j` of the stream as its least significant bit; without, `SUCCESS` is cleared and `E_CAPACITY`
recorded, the pixels untouched. -/
def Obligations.PxembedEmbeds : Prop :=
  (∀ s : State, getFlag .rgbLoaded s = false → exec .pxembed s = .next (diagnosed 2 s))
  ∧ (∀ s : State, getFlag .rgbLoaded s = true →
    ¬(0 ≤ s.msgLen.toInt ∧ s.msgLen.toInt ≤ s.cap.msgCap) → exec .pxembed s = .next (diagnosed 3 s))
  ∧ ∀ s : State, getFlag .rgbLoaded s = true → 0 ≤ s.msgLen.toInt → s.msgLen.toInt ≤ s.cap.msgCap →
    let count := 8 * (s.msgLen.toInt.toNat + 1)
    if 3 * width s * height s < count then
      exec .pxembed s = .next { s with
        lastdiag := 4#32, diagacc := s.diagacc ||| 0x10#32, stage := s.stage &&& 0xFFFFDFFF#32 }
    else
      ∃ t, exec .pxembed s = .next t
        ∧ t = { s with
          lastdiag := 0#32, stage := s.stage ||| 0x10#32, mem := { s.mem with rgb := t.mem.rgb } }
        ∧ (∀ j < count, rgbAt t j = (rgbAt s j &&& 0xFE#8) ||| (if messageBit s j then 1#8 else 0#8))
        ∧ ∀ j, count ≤ j → rgbAt t j = rgbAt s j

/-- `PXEXTRACT` (`47_lsb_pixel.md` R243). `byte m` is the byte that the least significant bits of slots
`8m` to `8m + 7` make, the first the most significant. The bytes before the first zero byte are the
message; `MSG_CAP` bytes without a zero byte end with `E_OVERFLOW` when another non-zero byte follows, and
the end of the carrier with `E_NO_TERMINATOR`. -/
def Obligations.PxextractReads : Prop :=
  (∀ s : State, getFlag .rgbLoaded s = false → exec .pxextract s = .next (diagnosed 2 s))
  ∧ ∀ (s : State) (byte : Nat → Byte) (z : Nat), getFlag .rgbLoaded s = true → s.cap.msgCap < 2 ^ 31 →
    (∀ m < 3 * width s * height s / 8, ∀ k < 8,
      (byte m).getLsbD (7 - k) = (rgbAt s (8 * m + k)).getLsbD 0) →
    (∀ m < z, byte m ≠ 0#8) →
    ∀ code : Nat,
      (z < 3 * width s * height s / 8 ∧ byte z = 0#8 ∧ z ≤ s.cap.msgCap ∧ code = 0
        ∨ z < 3 * width s * height s / 8 ∧ byte z ≠ 0#8 ∧ z = s.cap.msgCap ∧ code = 10
        ∨ z = 3 * width s * height s / 8 ∧ z ≤ s.cap.msgCap ∧ code = 9) →
      ∃ t, exec .pxextract s = .next t
        ∧ t = { s with
          lastdiag := BitVec.ofNat 32 code
          diagacc := if code = 0 then s.diagacc else s.diagacc ||| (1#32 <<< code)
          stage := s.stage ||| 0x1000#32, msgLen := t.msgLen
          mem := { s.mem with msg := t.mem.msg } }
        ∧ t.msgLen.toInt = z
        ∧ (∀ m < z, msgAt t m = byte m)
        ∧ ∀ m, z ≤ m → msgAt t m = msgAt s m

/-- `47_lsb_pixel.md` R244, the spec's inference: after a `PXEMBED` that succeeds, `PXEXTRACT` gives the
part of the message before its first zero byte, the whole message when it has none, without a
diagnostic. -/
def Obligations.PixelRoundTrip : Prop :=
  ∀ s t : State, exec .pxembed s = .next t → t.lastdiag = 0#32 → s.cap.msgCap < 2 ^ 31 →
    ∃ u, exec .pxextract t = .next u ∧ u.lastdiag = 0#32
      ∧ (List.range u.msgLen.toInt.toNat).map (msgAt u)
        = ((List.range s.msgLen.toInt.toNat).map (msgAt s)).takeWhile (· ≠ 0#8)

/-- `CFEMBED` (`48_lsb_coef.md` R255, R257). With as many slots as bits, slot `j` gets bit `j` as its
least significant bit and every other element is unchanged; with fewer, `SUCCESS` is cleared, `E_CAPACITY`
recorded, and each slot holds its value with the least significant bit 0 or 1, whichever (log 5). -/
def Obligations.CfembedEmbeds : Prop :=
  ∀ (s : State) (slots : List Nat), getFlag .qValid s = true → 0 ≤ s.msgLen.toInt →
    s.msgLen.toInt ≤ s.cap.msgCap → AreSlots s slots →
    let count := 8 * (s.msgLen.toInt.toNat + 1)
    if slots.length < count then
      ∃ t, exec .cfembed s = .next t
        ∧ t = { s with
          lastdiag := 4#32, diagacc := s.diagacc ||| 0x10#32, stage := s.stage &&& 0xFFFFDFFF#32
          mem := { s.mem with qb := t.mem.qb }, draws := s.draws + 1 }
        ∧ (∀ i ∈ slots, qbAt t i = qbAt s i &&& 0xFFFFFFFE#32 ∨ qbAt t i = qbAt s i ||| 1#32)
        ∧ ∀ i, i ∉ slots → qbAt t i = qbAt s i
    else
      ∃ t, exec .cfembed s = .next t
        ∧ t = { s with
          lastdiag := 0#32, stage := s.stage ||| 0x10#32, mem := { s.mem with qb := t.mem.qb } }
        ∧ (∀ j (h : j < slots.length), j < count → qbAt t slots[j]
          = (qbAt s slots[j] &&& 0xFFFFFFFE#32) ||| (if messageBit s j then 1#32 else 0#32))
        ∧ ∀ i, i ∉ slots.take count → qbAt t i = qbAt s i

/-- `CFEXTRACT` (`48_lsb_coef.md` R258): as `PXEXTRACT`, on the slots of the coefficient carrier; `QB` is
not changed. -/
def Obligations.CfextractReads : Prop :=
  (∀ s : State, getFlag .qValid s = false → exec .cfextract s = .next (diagnosed 2 s))
  ∧ ∀ (s : State) (slots : List Nat) (byte : Nat → Byte) (z : Nat), getFlag .qValid s = true →
    s.cap.msgCap < 2 ^ 31 → AreSlots s slots →
    (∀ m < slots.length / 8, ∀ k < 8,
      (byte m).getLsbD (7 - k) = (qbAt s (slots.getD (8 * m + k) 0)).getLsbD 0) →
    (∀ m < z, byte m ≠ 0#8) →
    ∀ code : Nat,
      (z < slots.length / 8 ∧ byte z = 0#8 ∧ z ≤ s.cap.msgCap ∧ code = 0
        ∨ z < slots.length / 8 ∧ byte z ≠ 0#8 ∧ z = s.cap.msgCap ∧ code = 10
        ∨ z = slots.length / 8 ∧ z ≤ s.cap.msgCap ∧ code = 9) →
      ∃ t, exec .cfextract s = .next t
        ∧ t = { s with
          lastdiag := BitVec.ofNat 32 code
          diagacc := if code = 0 then s.diagacc else s.diagacc ||| (1#32 <<< code)
          stage := s.stage ||| 0x1000#32, msgLen := t.msgLen
          mem := { s.mem with msg := t.mem.msg } }
        ∧ t.msgLen.toInt = z
        ∧ (∀ m < z, msgAt t m = byte m)
        ∧ ∀ m, z ≤ m → msgAt t m = msgAt s m

/-- `48_lsb_coef.md` R256, the spec's inference: setting the least significant bit keeps a value out of
{0, 1}, so `CFEMBED`, whether it succeeds or fails, leaves the slots and their order as they are. -/
def Obligations.SlotsKept : Prop :=
  (∀ (v : Word) (b : Bool), v ≠ 0#32 → v ≠ 1#32 → setLsb v b ≠ 0#32 ∧ setLsb v b ≠ 1#32)
  ∧ ∀ (s t : State) (slots : List Nat), exec .cfembed s = .next t →
    (AreSlots t slots ↔ AreSlots s slots)

/-- The round trip of the coefficient carrier (`48_lsb_coef.md` R256 to R259, the spec's
inference): after a `CFEMBED` that
succeeds, `CFEXTRACT` gives the part of the message before its first zero byte without a diagnostic. -/
def Obligations.CoefficientRoundTrip : Prop :=
  ∀ s t : State, exec .cfembed s = .next t → t.lastdiag = 0#32 → s.cap.msgCap < 2 ^ 31 →
    ∃ u, exec .cfextract t = .next u ∧ u.lastdiag = 0#32
      ∧ (List.range u.msgLen.toInt.toNat).map (msgAt u)
        = ((List.range s.msgLen.toInt.toNat).map (msgAt s)).takeWhile (· ≠ 0#8)

/-! ### Unit 10, macros -/

/-- `49_orchestrator.md` R281, the spec's inference, with R275 to R280: a macro equals its constituents
issued one by one by a host that stops at the first non-zero `LASTDIAG` and checks `SUCCESS` before
`SER`, `DIAGACC` included; when the success check fires, `LASTDIAG` alone differs. -/
def Obligations.MacrosAreTheirConstituents : Prop :=
  ∀ s : State,
    (exec .rundec s = issue decodeStages s ∧ exec .rundecm s = issue decodeMessageStages s)
    ∧ (SuccessRecorded s → ∀ p ∈ [(Instr.runenc, encodeStages), (.runencm, encodeMessageStages)],
      ∃ t, issue p.2 s = .next t
        ∧ exec p.1 s =
          if t.lastdiag ≠ 0#32 then .next t
          else if getFlag .success t = true then exec .ser t
          else .next { t with lastdiag := 4#32 })

/-- `RUNENC` (`49_orchestrator.md` R277) completes on every image that can be encoded: it ends as its
constituents issued one by one end, without a diagnostic, sets the ten flags R277 lists, and changes
neither the pixels, the message, the geometry nor the quality. -/
def Obligations.RunencCompletes : Prop :=
  ∀ s : State, Encodable s →
    ∃ t, exec .runenc s = .next t ∧ issue (encodeStages ++ [.ser]) s = .next t
      ∧ t = { s with
        lastdiag := 0#32, stage := s.stage ||| 0xFEE#32
        zzLen := t.zzLen, rleLen := t.rleLen, freqN := t.freqN, encBytes := t.encBytes
        contLen := t.contLen, node := t.node, treeN := t.treeN, treeRoot := t.treeRoot, code := t.code
        mem := { t.mem with rgb := s.mem.rgb, msg := s.mem.msg } }
      ∧ t.zzLen.toInt = 192 * numBlocks s ∧ 1 ≤ t.freqN.toInt
      ∧ t.contLen.toInt = 24 + 8 * t.freqN.toInt + t.encBytes.toInt

/-- `RUNENCM` (`49_orchestrator.md` R278) completes on every image that can be encoded and whose
quantized coefficients have a slot for every bit of the message and its terminator; `EMBEDDED` is set as
well. -/
def Obligations.RunencmCompletes : Prop :=
  ∀ s : State, Encodable s → 0 ≤ s.msgLen.toInt → s.msgLen.toInt ≤ s.cap.msgCap →
    8 * (s.msgLen.toInt.toNat + 1) ≤ imageSlots s →
    ∃ t, exec .runencm s = .next t ∧ issue (encodeMessageStages ++ [.ser]) s = .next t
      ∧ t = { s with
        lastdiag := 0#32, stage := s.stage ||| 0xFFE#32
        zzLen := t.zzLen, rleLen := t.rleLen, freqN := t.freqN, encBytes := t.encBytes
        contLen := t.contLen, node := t.node, treeN := t.treeN, treeRoot := t.treeRoot, code := t.code
        mem := { t.mem with rgb := s.mem.rgb, msg := s.mem.msg } }
      ∧ t.zzLen.toInt = 192 * numBlocks s ∧ 1 ≤ t.freqN.toInt
      ∧ t.contLen.toInt = 24 + 8 * t.freqN.toInt + t.encBytes.toInt

/-- `RUNDEC` (`49_orchestrator.md` R279) completes on every container that decodes and whose quality is
legal: without a diagnostic, with the nine flags R279 lists, the geometry and quality of the container,
and the symbols of its payload in `RLE`; `CONT`, `MSG` and the codes are unchanged. -/
def Obligations.RundecCompletes : Prop :=
  ∀ s : State, ContainerDecodes s → 1 ≤ (contWord s 0).toInt → (contWord s 0).toInt ≤ 100 →
    ∃ t, exec .rundec s = .next t
      ∧ t = { s with
        lastdiag := 0#32, stage := s.stage ||| 0x5EF#32
        quality := contWord s 0, h := contWord s 4, w := contWord s 8, freqN := contWord s 12
        rleExp := contWord s (20 + 8 * contEntries s), encBytes := contWord s (16 + 8 * contEntries s)
        zzLen := t.zzLen, rleLen := contWord s (20 + 8 * contEntries s)
        node := containerPool s, treeN := t.treeN, treeRoot := t.treeRoot
        mem := { t.mem with cont := s.mem.cont, msg := s.mem.msg } }
      ∧ (∀ i (h : i < (containerSymbols s).length), rleAt t i = (containerSymbols s)[i])
      ∧ t.zzLen.toInt = expandedLength (containerSymbols s)

/-- `RUNDECM` (`49_orchestrator.md` R280) on every container that decodes, whatever its quality: its
constituents up to `DEZIGZAG` run without a diagnostic, to the state `q`, and the macro ends as
`CFEXTRACT` ends on `q` (the statement `CfextractReads`). -/
def Obligations.RundecmCompletes : Prop :=
  ∀ s : State, ContainerDecodes s →
    ∃ q t, exec .rundecm s = .next t ∧ issue [.deser, .htree, .hdec, .rledec, .dezigzag] s = .next q
      ∧ exec .cfextract q = .next t
      ∧ q = { s with
        lastdiag := 0#32, stage := s.stage ||| 0x5E8#32
        quality := contWord s 0, h := contWord s 4, w := contWord s 8, freqN := contWord s 12
        rleExp := contWord s (20 + 8 * contEntries s), encBytes := contWord s (16 + 8 * contEntries s)
        zzLen := q.zzLen, rleLen := contWord s (20 + 8 * contEntries s)
        node := containerPool s, treeN := q.treeN, treeRoot := q.treeRoot
        mem := { s.mem with
          freq := q.mem.freq, pay := q.mem.pay, rle := q.mem.rle, zz := q.mem.zz, qb := q.mem.qb } }
      ∧ (∀ i (h : i < (containerSymbols s).length), rleAt q i = (containerSymbols s)[i])
      ∧ q.zzLen.toInt = expandedLength (containerSymbols s)
      ∧ getFlag .msgValid t = true

/-- `49_orchestrator.md` R282 and `48_lsb_coef.md` R259, the spec's inference: a machine that holds the
container which `RUNENC` or `RUNENCM` produced recovers with `RUNDEC` the quantized coefficients element
for element, the truncated dimensions and the quality, without a diagnostic; and on the container of
`RUNENCM` so does `RUNDECM`, which recovers the message up to its first zero byte as well. -/
def Obligations.EncodeThenDecode : Prop :=
  ∀ s t u : State, GeometryLegal s → CapacitiesLegal s.cap → u.cap = s.cap → SameContainer t u →
    t.lastdiag = 0#32 →
    (exec .runenc s = .next t ∨ exec .runencm s = .next t →
      ∃ v, exec .rundec u = .next v ∧ v.lastdiag = 0#32
        ∧ v.w.toInt = width8 s ∧ v.h.toInt = height8 s ∧ v.quality = s.quality
        ∧ ∀ i < 192 * numBlocks s, qbAt v i = qbAt t i)
    ∧ (exec .runencm s = .next t →
      ∃ v, exec .rundecm u = .next v ∧ v.lastdiag = 0#32
        ∧ v.w.toInt = width8 s ∧ v.h.toInt = height8 s ∧ v.quality = s.quality
        ∧ (∀ i < 192 * numBlocks s, qbAt v i = qbAt t i)
        ∧ (List.range v.msgLen.toInt.toNat).map (msgAt v)
          = ((List.range s.msgLen.toInt.toNat).map (msgAt s)).takeWhile (· ≠ 0#8))

/-! ### Invariants of the step -/

/-- Every step keeps the canonical form of every buffer and of the code store: equal contents are equal
data. -/
def Obligations.StepKeepsMemoryForm : Prop :=
  ∀ s t : State, Memory.wf s.mem = true → Store.wf s.code = true → step s = .next t →
    Memory.wf t.mem = true ∧ Store.wf t.code = true

/-- Every step keeps a legal state legal: the reserved bits of `STAGE` and `DIAGACC` zero and `LASTDIAG` a
code (`10_state.md` R30, `60_exceptions.md` R300), a cleared `SUCCESS` recorded (R32), `W` and `H` in
range (R21), the read-only lengths within their capacities (R23), the tree of the legal shape (R26,
`45_huffman.md` R200). -/
def Obligations.StepKeepsLegalState : Prop :=
  ∀ s t : State, LegalState s → step s = .next t → LegalState t
end

