-- ==== Sys2Proof/Laws/State.lean ====
section
/-! SUPPORT. One lemma for every field of the state under every named update: what the update puts there,
or that it leaves the field alone. All are true by `rfl`. -/

namespace Sys2Proof.Machine

/-! ### `setFlag` -/

@[simp] theorem setFlag_stage (f : Flag) (s : State) : (setFlag f s).stage = s.stage ||| f.mask := rfl
@[simp] theorem setFlag_lastdiag (f : Flag) (s : State) : (setFlag f s).lastdiag = s.lastdiag := rfl
@[simp] theorem setFlag_diagacc (f : Flag) (s : State) : (setFlag f s).diagacc = s.diagacc := rfl
@[simp] theorem setFlag_quality (f : Flag) (s : State) : (setFlag f s).quality = s.quality := rfl
@[simp] theorem setFlag_imgW (f : Flag) (s : State) : (setFlag f s).imgW = s.imgW := rfl
@[simp] theorem setFlag_imgH (f : Flag) (s : State) : (setFlag f s).imgH = s.imgH := rfl
@[simp] theorem setFlag_w (f : Flag) (s : State) : (setFlag f s).w = s.w := rfl
@[simp] theorem setFlag_h (f : Flag) (s : State) : (setFlag f s).h = s.h := rfl
@[simp] theorem setFlag_msgLen (f : Flag) (s : State) : (setFlag f s).msgLen = s.msgLen := rfl
@[simp] theorem setFlag_contLen (f : Flag) (s : State) : (setFlag f s).contLen = s.contLen := rfl
@[simp] theorem setFlag_zzLen (f : Flag) (s : State) : (setFlag f s).zzLen = s.zzLen := rfl
@[simp] theorem setFlag_rleLen (f : Flag) (s : State) : (setFlag f s).rleLen = s.rleLen := rfl
@[simp] theorem setFlag_rleExp (f : Flag) (s : State) : (setFlag f s).rleExp = s.rleExp := rfl
@[simp] theorem setFlag_freqN (f : Flag) (s : State) : (setFlag f s).freqN = s.freqN := rfl
@[simp] theorem setFlag_encBytes (f : Flag) (s : State) : (setFlag f s).encBytes = s.encBytes := rfl
@[simp] theorem setFlag_mem (f : Flag) (s : State) : (setFlag f s).mem = s.mem := rfl
@[simp] theorem setFlag_node (f : Flag) (s : State) : (setFlag f s).node = s.node := rfl
@[simp] theorem setFlag_treeN (f : Flag) (s : State) : (setFlag f s).treeN = s.treeN := rfl
@[simp] theorem setFlag_treeRoot (f : Flag) (s : State) : (setFlag f s).treeRoot = s.treeRoot := rfl
@[simp] theorem setFlag_code (f : Flag) (s : State) : (setFlag f s).code = s.code := rfl
@[simp] theorem setFlag_cap (f : Flag) (s : State) : (setFlag f s).cap = s.cap := rfl
@[simp] theorem setFlag_epoch (f : Flag) (s : State) : (setFlag f s).epoch = s.epoch := rfl
@[simp] theorem setFlag_draws (f : Flag) (s : State) : (setFlag f s).draws = s.draws := rfl
@[simp] theorem setFlag_host (f : Flag) (s : State) : (setFlag f s).host = s.host := rfl
@[simp] theorem setFlag_replies (f : Flag) (s : State) : (setFlag f s).replies = s.replies := rfl

/-! ### `clearFlag` -/

@[simp] theorem clearFlag_stage (f : Flag) (s : State) : (clearFlag f s).stage = s.stage &&& ~~~f.mask := rfl
@[simp] theorem clearFlag_lastdiag (f : Flag) (s : State) : (clearFlag f s).lastdiag = s.lastdiag := rfl
@[simp] theorem clearFlag_diagacc (f : Flag) (s : State) : (clearFlag f s).diagacc = s.diagacc := rfl
@[simp] theorem clearFlag_quality (f : Flag) (s : State) : (clearFlag f s).quality = s.quality := rfl
@[simp] theorem clearFlag_imgW (f : Flag) (s : State) : (clearFlag f s).imgW = s.imgW := rfl
@[simp] theorem clearFlag_imgH (f : Flag) (s : State) : (clearFlag f s).imgH = s.imgH := rfl
@[simp] theorem clearFlag_w (f : Flag) (s : State) : (clearFlag f s).w = s.w := rfl
@[simp] theorem clearFlag_h (f : Flag) (s : State) : (clearFlag f s).h = s.h := rfl
@[simp] theorem clearFlag_msgLen (f : Flag) (s : State) : (clearFlag f s).msgLen = s.msgLen := rfl
@[simp] theorem clearFlag_contLen (f : Flag) (s : State) : (clearFlag f s).contLen = s.contLen := rfl
@[simp] theorem clearFlag_zzLen (f : Flag) (s : State) : (clearFlag f s).zzLen = s.zzLen := rfl
@[simp] theorem clearFlag_rleLen (f : Flag) (s : State) : (clearFlag f s).rleLen = s.rleLen := rfl
@[simp] theorem clearFlag_rleExp (f : Flag) (s : State) : (clearFlag f s).rleExp = s.rleExp := rfl
@[simp] theorem clearFlag_freqN (f : Flag) (s : State) : (clearFlag f s).freqN = s.freqN := rfl
@[simp] theorem clearFlag_encBytes (f : Flag) (s : State) : (clearFlag f s).encBytes = s.encBytes := rfl
@[simp] theorem clearFlag_mem (f : Flag) (s : State) : (clearFlag f s).mem = s.mem := rfl
@[simp] theorem clearFlag_node (f : Flag) (s : State) : (clearFlag f s).node = s.node := rfl
@[simp] theorem clearFlag_treeN (f : Flag) (s : State) : (clearFlag f s).treeN = s.treeN := rfl
@[simp] theorem clearFlag_treeRoot (f : Flag) (s : State) : (clearFlag f s).treeRoot = s.treeRoot := rfl
@[simp] theorem clearFlag_code (f : Flag) (s : State) : (clearFlag f s).code = s.code := rfl
@[simp] theorem clearFlag_cap (f : Flag) (s : State) : (clearFlag f s).cap = s.cap := rfl
@[simp] theorem clearFlag_epoch (f : Flag) (s : State) : (clearFlag f s).epoch = s.epoch := rfl
@[simp] theorem clearFlag_draws (f : Flag) (s : State) : (clearFlag f s).draws = s.draws := rfl
@[simp] theorem clearFlag_host (f : Flag) (s : State) : (clearFlag f s).host = s.host := rfl
@[simp] theorem clearFlag_replies (f : Flag) (s : State) : (clearFlag f s).replies = s.replies := rfl

/-! ### `diag` -/

@[simp] theorem diag_stage (d : Diag) (s : State) : (diag d s).stage = s.stage := rfl
@[simp] theorem diag_lastdiag (d : Diag) (s : State) : (diag d s).lastdiag = BitVec.ofNat 32 d.code := rfl
@[simp] theorem diag_diagacc (d : Diag) (s : State) : (diag d s).diagacc = s.diagacc ||| (1#32 <<< d.code) := rfl
@[simp] theorem diag_quality (d : Diag) (s : State) : (diag d s).quality = s.quality := rfl
@[simp] theorem diag_imgW (d : Diag) (s : State) : (diag d s).imgW = s.imgW := rfl
@[simp] theorem diag_imgH (d : Diag) (s : State) : (diag d s).imgH = s.imgH := rfl
@[simp] theorem diag_w (d : Diag) (s : State) : (diag d s).w = s.w := rfl
@[simp] theorem diag_h (d : Diag) (s : State) : (diag d s).h = s.h := rfl
@[simp] theorem diag_msgLen (d : Diag) (s : State) : (diag d s).msgLen = s.msgLen := rfl
@[simp] theorem diag_contLen (d : Diag) (s : State) : (diag d s).contLen = s.contLen := rfl
@[simp] theorem diag_zzLen (d : Diag) (s : State) : (diag d s).zzLen = s.zzLen := rfl
@[simp] theorem diag_rleLen (d : Diag) (s : State) : (diag d s).rleLen = s.rleLen := rfl
@[simp] theorem diag_rleExp (d : Diag) (s : State) : (diag d s).rleExp = s.rleExp := rfl
@[simp] theorem diag_freqN (d : Diag) (s : State) : (diag d s).freqN = s.freqN := rfl
@[simp] theorem diag_encBytes (d : Diag) (s : State) : (diag d s).encBytes = s.encBytes := rfl
@[simp] theorem diag_mem (d : Diag) (s : State) : (diag d s).mem = s.mem := rfl
@[simp] theorem diag_node (d : Diag) (s : State) : (diag d s).node = s.node := rfl
@[simp] theorem diag_treeN (d : Diag) (s : State) : (diag d s).treeN = s.treeN := rfl
@[simp] theorem diag_treeRoot (d : Diag) (s : State) : (diag d s).treeRoot = s.treeRoot := rfl
@[simp] theorem diag_code (d : Diag) (s : State) : (diag d s).code = s.code := rfl
@[simp] theorem diag_cap (d : Diag) (s : State) : (diag d s).cap = s.cap := rfl
@[simp] theorem diag_epoch (d : Diag) (s : State) : (diag d s).epoch = s.epoch := rfl
@[simp] theorem diag_draws (d : Diag) (s : State) : (diag d s).draws = s.draws := rfl
@[simp] theorem diag_host (d : Diag) (s : State) : (diag d s).host = s.host := rfl
@[simp] theorem diag_replies (d : Diag) (s : State) : (diag d s).replies = s.replies := rfl

/-! ### `beginCommand` -/

@[simp] theorem beginCommand_stage (s : State) : (beginCommand s).stage = s.stage := rfl
@[simp] theorem beginCommand_lastdiag (s : State) : (beginCommand s).lastdiag = 0#32 := rfl
@[simp] theorem beginCommand_diagacc (s : State) : (beginCommand s).diagacc = s.diagacc := rfl
@[simp] theorem beginCommand_quality (s : State) : (beginCommand s).quality = s.quality := rfl
@[simp] theorem beginCommand_imgW (s : State) : (beginCommand s).imgW = s.imgW := rfl
@[simp] theorem beginCommand_imgH (s : State) : (beginCommand s).imgH = s.imgH := rfl
@[simp] theorem beginCommand_w (s : State) : (beginCommand s).w = s.w := rfl
@[simp] theorem beginCommand_h (s : State) : (beginCommand s).h = s.h := rfl
@[simp] theorem beginCommand_msgLen (s : State) : (beginCommand s).msgLen = s.msgLen := rfl
@[simp] theorem beginCommand_contLen (s : State) : (beginCommand s).contLen = s.contLen := rfl
@[simp] theorem beginCommand_zzLen (s : State) : (beginCommand s).zzLen = s.zzLen := rfl
@[simp] theorem beginCommand_rleLen (s : State) : (beginCommand s).rleLen = s.rleLen := rfl
@[simp] theorem beginCommand_rleExp (s : State) : (beginCommand s).rleExp = s.rleExp := rfl
@[simp] theorem beginCommand_freqN (s : State) : (beginCommand s).freqN = s.freqN := rfl
@[simp] theorem beginCommand_encBytes (s : State) : (beginCommand s).encBytes = s.encBytes := rfl
@[simp] theorem beginCommand_mem (s : State) : (beginCommand s).mem = s.mem := rfl
@[simp] theorem beginCommand_node (s : State) : (beginCommand s).node = s.node := rfl
@[simp] theorem beginCommand_treeN (s : State) : (beginCommand s).treeN = s.treeN := rfl
@[simp] theorem beginCommand_treeRoot (s : State) : (beginCommand s).treeRoot = s.treeRoot := rfl
@[simp] theorem beginCommand_code (s : State) : (beginCommand s).code = s.code := rfl
@[simp] theorem beginCommand_cap (s : State) : (beginCommand s).cap = s.cap := rfl
@[simp] theorem beginCommand_epoch (s : State) : (beginCommand s).epoch = s.epoch := rfl
@[simp] theorem beginCommand_draws (s : State) : (beginCommand s).draws = s.draws := rfl
@[simp] theorem beginCommand_host (s : State) : (beginCommand s).host = s.host := rfl
@[simp] theorem beginCommand_replies (s : State) : (beginCommand s).replies = s.replies := rfl

/-! ### `reply` -/

@[simp] theorem reply_stage (v : Word) (s : State) : (reply v s).stage = s.stage := rfl
@[simp] theorem reply_lastdiag (v : Word) (s : State) : (reply v s).lastdiag = s.lastdiag := rfl
@[simp] theorem reply_diagacc (v : Word) (s : State) : (reply v s).diagacc = s.diagacc := rfl
@[simp] theorem reply_quality (v : Word) (s : State) : (reply v s).quality = s.quality := rfl
@[simp] theorem reply_imgW (v : Word) (s : State) : (reply v s).imgW = s.imgW := rfl
@[simp] theorem reply_imgH (v : Word) (s : State) : (reply v s).imgH = s.imgH := rfl
@[simp] theorem reply_w (v : Word) (s : State) : (reply v s).w = s.w := rfl
@[simp] theorem reply_h (v : Word) (s : State) : (reply v s).h = s.h := rfl
@[simp] theorem reply_msgLen (v : Word) (s : State) : (reply v s).msgLen = s.msgLen := rfl
@[simp] theorem reply_contLen (v : Word) (s : State) : (reply v s).contLen = s.contLen := rfl
@[simp] theorem reply_zzLen (v : Word) (s : State) : (reply v s).zzLen = s.zzLen := rfl
@[simp] theorem reply_rleLen (v : Word) (s : State) : (reply v s).rleLen = s.rleLen := rfl
@[simp] theorem reply_rleExp (v : Word) (s : State) : (reply v s).rleExp = s.rleExp := rfl
@[simp] theorem reply_freqN (v : Word) (s : State) : (reply v s).freqN = s.freqN := rfl
@[simp] theorem reply_encBytes (v : Word) (s : State) : (reply v s).encBytes = s.encBytes := rfl
@[simp] theorem reply_mem (v : Word) (s : State) : (reply v s).mem = s.mem := rfl
@[simp] theorem reply_node (v : Word) (s : State) : (reply v s).node = s.node := rfl
@[simp] theorem reply_treeN (v : Word) (s : State) : (reply v s).treeN = s.treeN := rfl
@[simp] theorem reply_treeRoot (v : Word) (s : State) : (reply v s).treeRoot = s.treeRoot := rfl
@[simp] theorem reply_code (v : Word) (s : State) : (reply v s).code = s.code := rfl
@[simp] theorem reply_cap (v : Word) (s : State) : (reply v s).cap = s.cap := rfl
@[simp] theorem reply_epoch (v : Word) (s : State) : (reply v s).epoch = s.epoch := rfl
@[simp] theorem reply_draws (v : Word) (s : State) : (reply v s).draws = s.draws := rfl
@[simp] theorem reply_host (v : Word) (s : State) : (reply v s).host = s.host := rfl
@[simp] theorem reply_replies (v : Word) (s : State) : (reply v s).replies = v :: s.replies := rfl

/-! ### `withCommand` -/

@[simp] theorem withCommand_stage (v : Word) (s : State) : (withCommand v s).stage = s.stage := rfl
@[simp] theorem withCommand_lastdiag (v : Word) (s : State) : (withCommand v s).lastdiag = s.lastdiag := rfl
@[simp] theorem withCommand_diagacc (v : Word) (s : State) : (withCommand v s).diagacc = s.diagacc := rfl
@[simp] theorem withCommand_quality (v : Word) (s : State) : (withCommand v s).quality = s.quality := rfl
@[simp] theorem withCommand_imgW (v : Word) (s : State) : (withCommand v s).imgW = s.imgW := rfl
@[simp] theorem withCommand_imgH (v : Word) (s : State) : (withCommand v s).imgH = s.imgH := rfl
@[simp] theorem withCommand_w (v : Word) (s : State) : (withCommand v s).w = s.w := rfl
@[simp] theorem withCommand_h (v : Word) (s : State) : (withCommand v s).h = s.h := rfl
@[simp] theorem withCommand_msgLen (v : Word) (s : State) : (withCommand v s).msgLen = s.msgLen := rfl
@[simp] theorem withCommand_contLen (v : Word) (s : State) : (withCommand v s).contLen = s.contLen := rfl
@[simp] theorem withCommand_zzLen (v : Word) (s : State) : (withCommand v s).zzLen = s.zzLen := rfl
@[simp] theorem withCommand_rleLen (v : Word) (s : State) : (withCommand v s).rleLen = s.rleLen := rfl
@[simp] theorem withCommand_rleExp (v : Word) (s : State) : (withCommand v s).rleExp = s.rleExp := rfl
@[simp] theorem withCommand_freqN (v : Word) (s : State) : (withCommand v s).freqN = s.freqN := rfl
@[simp] theorem withCommand_encBytes (v : Word) (s : State) : (withCommand v s).encBytes = s.encBytes := rfl
@[simp] theorem withCommand_mem (v : Word) (s : State) : (withCommand v s).mem = s.mem := rfl
@[simp] theorem withCommand_node (v : Word) (s : State) : (withCommand v s).node = s.node := rfl
@[simp] theorem withCommand_treeN (v : Word) (s : State) : (withCommand v s).treeN = s.treeN := rfl
@[simp] theorem withCommand_treeRoot (v : Word) (s : State) : (withCommand v s).treeRoot = s.treeRoot := rfl
@[simp] theorem withCommand_code (v : Word) (s : State) : (withCommand v s).code = s.code := rfl
@[simp] theorem withCommand_cap (v : Word) (s : State) : (withCommand v s).cap = s.cap := rfl
@[simp] theorem withCommand_epoch (v : Word) (s : State) : (withCommand v s).epoch = s.epoch := rfl
@[simp] theorem withCommand_draws (v : Word) (s : State) : (withCommand v s).draws = s.draws := rfl
@[simp] theorem withCommand_host (v : Word) (s : State) : (withCommand v s).host = .writeReg 0 v :: s.host := rfl
@[simp] theorem withCommand_replies (v : Word) (s : State) : (withCommand v s).replies = s.replies := rfl

/-! ### `writeRgb` -/

@[simp] theorem writeRgb_stage (i : Nat) (vs : List Byte) (s : State) : (writeRgb i vs s).stage = s.stage := rfl
@[simp] theorem writeRgb_lastdiag (i : Nat) (vs : List Byte) (s : State) : (writeRgb i vs s).lastdiag = s.lastdiag := rfl
@[simp] theorem writeRgb_diagacc (i : Nat) (vs : List Byte) (s : State) : (writeRgb i vs s).diagacc = s.diagacc := rfl
@[simp] theorem writeRgb_quality (i : Nat) (vs : List Byte) (s : State) : (writeRgb i vs s).quality = s.quality := rfl
@[simp] theorem writeRgb_imgW (i : Nat) (vs : List Byte) (s : State) : (writeRgb i vs s).imgW = s.imgW := rfl
@[simp] theorem writeRgb_imgH (i : Nat) (vs : List Byte) (s : State) : (writeRgb i vs s).imgH = s.imgH := rfl
@[simp] theorem writeRgb_w (i : Nat) (vs : List Byte) (s : State) : (writeRgb i vs s).w = s.w := rfl
@[simp] theorem writeRgb_h (i : Nat) (vs : List Byte) (s : State) : (writeRgb i vs s).h = s.h := rfl
@[simp] theorem writeRgb_msgLen (i : Nat) (vs : List Byte) (s : State) : (writeRgb i vs s).msgLen = s.msgLen := rfl
@[simp] theorem writeRgb_contLen (i : Nat) (vs : List Byte) (s : State) : (writeRgb i vs s).contLen = s.contLen := rfl
@[simp] theorem writeRgb_zzLen (i : Nat) (vs : List Byte) (s : State) : (writeRgb i vs s).zzLen = s.zzLen := rfl
@[simp] theorem writeRgb_rleLen (i : Nat) (vs : List Byte) (s : State) : (writeRgb i vs s).rleLen = s.rleLen := rfl
@[simp] theorem writeRgb_rleExp (i : Nat) (vs : List Byte) (s : State) : (writeRgb i vs s).rleExp = s.rleExp := rfl
@[simp] theorem writeRgb_freqN (i : Nat) (vs : List Byte) (s : State) : (writeRgb i vs s).freqN = s.freqN := rfl
@[simp] theorem writeRgb_encBytes (i : Nat) (vs : List Byte) (s : State) : (writeRgb i vs s).encBytes = s.encBytes := rfl
@[simp] theorem writeRgb_node (i : Nat) (vs : List Byte) (s : State) : (writeRgb i vs s).node = s.node := rfl
@[simp] theorem writeRgb_treeN (i : Nat) (vs : List Byte) (s : State) : (writeRgb i vs s).treeN = s.treeN := rfl
@[simp] theorem writeRgb_treeRoot (i : Nat) (vs : List Byte) (s : State) : (writeRgb i vs s).treeRoot = s.treeRoot := rfl
@[simp] theorem writeRgb_code (i : Nat) (vs : List Byte) (s : State) : (writeRgb i vs s).code = s.code := rfl
@[simp] theorem writeRgb_cap (i : Nat) (vs : List Byte) (s : State) : (writeRgb i vs s).cap = s.cap := rfl
@[simp] theorem writeRgb_epoch (i : Nat) (vs : List Byte) (s : State) : (writeRgb i vs s).epoch = s.epoch := rfl
@[simp] theorem writeRgb_draws (i : Nat) (vs : List Byte) (s : State) : (writeRgb i vs s).draws = s.draws := rfl
@[simp] theorem writeRgb_host (i : Nat) (vs : List Byte) (s : State) : (writeRgb i vs s).host = s.host := rfl
@[simp] theorem writeRgb_replies (i : Nat) (vs : List Byte) (s : State) : (writeRgb i vs s).replies = s.replies := rfl
@[simp] theorem writeRgb_mem_rgb (i : Nat) (vs : List Byte) (s : State) :
    (writeRgb i vs s).mem.rgb = Store.write s.mem.rgb i vs := rfl
@[simp] theorem writeRgb_mem_ycc (i : Nat) (vs : List Byte) (s : State) :
    (writeRgb i vs s).mem.ycc = s.mem.ycc := rfl
@[simp] theorem writeRgb_mem_dctb (i : Nat) (vs : List Byte) (s : State) :
    (writeRgb i vs s).mem.dctb = s.mem.dctb := rfl
@[simp] theorem writeRgb_mem_qb (i : Nat) (vs : List Byte) (s : State) :
    (writeRgb i vs s).mem.qb = s.mem.qb := rfl
@[simp] theorem writeRgb_mem_zz (i : Nat) (vs : List Byte) (s : State) :
    (writeRgb i vs s).mem.zz = s.mem.zz := rfl
@[simp] theorem writeRgb_mem_rle (i : Nat) (vs : List Byte) (s : State) :
    (writeRgb i vs s).mem.rle = s.mem.rle := rfl
@[simp] theorem writeRgb_mem_freq (i : Nat) (vs : List Byte) (s : State) :
    (writeRgb i vs s).mem.freq = s.mem.freq := rfl
@[simp] theorem writeRgb_mem_pay (i : Nat) (vs : List Byte) (s : State) :
    (writeRgb i vs s).mem.pay = s.mem.pay := rfl
@[simp] theorem writeRgb_mem_cont (i : Nat) (vs : List Byte) (s : State) :
    (writeRgb i vs s).mem.cont = s.mem.cont := rfl
@[simp] theorem writeRgb_mem_msg (i : Nat) (vs : List Byte) (s : State) :
    (writeRgb i vs s).mem.msg = s.mem.msg := rfl

/-! ### `writeYcc` -/

@[simp] theorem writeYcc_stage (i : Nat) (vs : List Byte) (s : State) : (writeYcc i vs s).stage = s.stage := rfl
@[simp] theorem writeYcc_lastdiag (i : Nat) (vs : List Byte) (s : State) : (writeYcc i vs s).lastdiag = s.lastdiag := rfl
@[simp] theorem writeYcc_diagacc (i : Nat) (vs : List Byte) (s : State) : (writeYcc i vs s).diagacc = s.diagacc := rfl
@[simp] theorem writeYcc_quality (i : Nat) (vs : List Byte) (s : State) : (writeYcc i vs s).quality = s.quality := rfl
@[simp] theorem writeYcc_imgW (i : Nat) (vs : List Byte) (s : State) : (writeYcc i vs s).imgW = s.imgW := rfl
@[simp] theorem writeYcc_imgH (i : Nat) (vs : List Byte) (s : State) : (writeYcc i vs s).imgH = s.imgH := rfl
@[simp] theorem writeYcc_w (i : Nat) (vs : List Byte) (s : State) : (writeYcc i vs s).w = s.w := rfl
@[simp] theorem writeYcc_h (i : Nat) (vs : List Byte) (s : State) : (writeYcc i vs s).h = s.h := rfl
@[simp] theorem writeYcc_msgLen (i : Nat) (vs : List Byte) (s : State) : (writeYcc i vs s).msgLen = s.msgLen := rfl
@[simp] theorem writeYcc_contLen (i : Nat) (vs : List Byte) (s : State) : (writeYcc i vs s).contLen = s.contLen := rfl
@[simp] theorem writeYcc_zzLen (i : Nat) (vs : List Byte) (s : State) : (writeYcc i vs s).zzLen = s.zzLen := rfl
@[simp] theorem writeYcc_rleLen (i : Nat) (vs : List Byte) (s : State) : (writeYcc i vs s).rleLen = s.rleLen := rfl
@[simp] theorem writeYcc_rleExp (i : Nat) (vs : List Byte) (s : State) : (writeYcc i vs s).rleExp = s.rleExp := rfl
@[simp] theorem writeYcc_freqN (i : Nat) (vs : List Byte) (s : State) : (writeYcc i vs s).freqN = s.freqN := rfl
@[simp] theorem writeYcc_encBytes (i : Nat) (vs : List Byte) (s : State) : (writeYcc i vs s).encBytes = s.encBytes := rfl
@[simp] theorem writeYcc_node (i : Nat) (vs : List Byte) (s : State) : (writeYcc i vs s).node = s.node := rfl
@[simp] theorem writeYcc_treeN (i : Nat) (vs : List Byte) (s : State) : (writeYcc i vs s).treeN = s.treeN := rfl
@[simp] theorem writeYcc_treeRoot (i : Nat) (vs : List Byte) (s : State) : (writeYcc i vs s).treeRoot = s.treeRoot := rfl
@[simp] theorem writeYcc_code (i : Nat) (vs : List Byte) (s : State) : (writeYcc i vs s).code = s.code := rfl
@[simp] theorem writeYcc_cap (i : Nat) (vs : List Byte) (s : State) : (writeYcc i vs s).cap = s.cap := rfl
@[simp] theorem writeYcc_epoch (i : Nat) (vs : List Byte) (s : State) : (writeYcc i vs s).epoch = s.epoch := rfl
@[simp] theorem writeYcc_draws (i : Nat) (vs : List Byte) (s : State) : (writeYcc i vs s).draws = s.draws := rfl
@[simp] theorem writeYcc_host (i : Nat) (vs : List Byte) (s : State) : (writeYcc i vs s).host = s.host := rfl
@[simp] theorem writeYcc_replies (i : Nat) (vs : List Byte) (s : State) : (writeYcc i vs s).replies = s.replies := rfl
@[simp] theorem writeYcc_mem_rgb (i : Nat) (vs : List Byte) (s : State) :
    (writeYcc i vs s).mem.rgb = s.mem.rgb := rfl
@[simp] theorem writeYcc_mem_ycc (i : Nat) (vs : List Byte) (s : State) :
    (writeYcc i vs s).mem.ycc = Store.write s.mem.ycc i vs := rfl
@[simp] theorem writeYcc_mem_dctb (i : Nat) (vs : List Byte) (s : State) :
    (writeYcc i vs s).mem.dctb = s.mem.dctb := rfl
@[simp] theorem writeYcc_mem_qb (i : Nat) (vs : List Byte) (s : State) :
    (writeYcc i vs s).mem.qb = s.mem.qb := rfl
@[simp] theorem writeYcc_mem_zz (i : Nat) (vs : List Byte) (s : State) :
    (writeYcc i vs s).mem.zz = s.mem.zz := rfl
@[simp] theorem writeYcc_mem_rle (i : Nat) (vs : List Byte) (s : State) :
    (writeYcc i vs s).mem.rle = s.mem.rle := rfl
@[simp] theorem writeYcc_mem_freq (i : Nat) (vs : List Byte) (s : State) :
    (writeYcc i vs s).mem.freq = s.mem.freq := rfl
@[simp] theorem writeYcc_mem_pay (i : Nat) (vs : List Byte) (s : State) :
    (writeYcc i vs s).mem.pay = s.mem.pay := rfl
@[simp] theorem writeYcc_mem_cont (i : Nat) (vs : List Byte) (s : State) :
    (writeYcc i vs s).mem.cont = s.mem.cont := rfl
@[simp] theorem writeYcc_mem_msg (i : Nat) (vs : List Byte) (s : State) :
    (writeYcc i vs s).mem.msg = s.mem.msg := rfl

/-! ### `writeDctb` -/

@[simp] theorem writeDctb_stage (i : Nat) (vs : List Word) (s : State) : (writeDctb i vs s).stage = s.stage := rfl
@[simp] theorem writeDctb_lastdiag (i : Nat) (vs : List Word) (s : State) : (writeDctb i vs s).lastdiag = s.lastdiag := rfl
@[simp] theorem writeDctb_diagacc (i : Nat) (vs : List Word) (s : State) : (writeDctb i vs s).diagacc = s.diagacc := rfl
@[simp] theorem writeDctb_quality (i : Nat) (vs : List Word) (s : State) : (writeDctb i vs s).quality = s.quality := rfl
@[simp] theorem writeDctb_imgW (i : Nat) (vs : List Word) (s : State) : (writeDctb i vs s).imgW = s.imgW := rfl
@[simp] theorem writeDctb_imgH (i : Nat) (vs : List Word) (s : State) : (writeDctb i vs s).imgH = s.imgH := rfl
@[simp] theorem writeDctb_w (i : Nat) (vs : List Word) (s : State) : (writeDctb i vs s).w = s.w := rfl
@[simp] theorem writeDctb_h (i : Nat) (vs : List Word) (s : State) : (writeDctb i vs s).h = s.h := rfl
@[simp] theorem writeDctb_msgLen (i : Nat) (vs : List Word) (s : State) : (writeDctb i vs s).msgLen = s.msgLen := rfl
@[simp] theorem writeDctb_contLen (i : Nat) (vs : List Word) (s : State) : (writeDctb i vs s).contLen = s.contLen := rfl
@[simp] theorem writeDctb_zzLen (i : Nat) (vs : List Word) (s : State) : (writeDctb i vs s).zzLen = s.zzLen := rfl
@[simp] theorem writeDctb_rleLen (i : Nat) (vs : List Word) (s : State) : (writeDctb i vs s).rleLen = s.rleLen := rfl
@[simp] theorem writeDctb_rleExp (i : Nat) (vs : List Word) (s : State) : (writeDctb i vs s).rleExp = s.rleExp := rfl
@[simp] theorem writeDctb_freqN (i : Nat) (vs : List Word) (s : State) : (writeDctb i vs s).freqN = s.freqN := rfl
@[simp] theorem writeDctb_encBytes (i : Nat) (vs : List Word) (s : State) : (writeDctb i vs s).encBytes = s.encBytes := rfl
@[simp] theorem writeDctb_node (i : Nat) (vs : List Word) (s : State) : (writeDctb i vs s).node = s.node := rfl
@[simp] theorem writeDctb_treeN (i : Nat) (vs : List Word) (s : State) : (writeDctb i vs s).treeN = s.treeN := rfl
@[simp] theorem writeDctb_treeRoot (i : Nat) (vs : List Word) (s : State) : (writeDctb i vs s).treeRoot = s.treeRoot := rfl
@[simp] theorem writeDctb_code (i : Nat) (vs : List Word) (s : State) : (writeDctb i vs s).code = s.code := rfl
@[simp] theorem writeDctb_cap (i : Nat) (vs : List Word) (s : State) : (writeDctb i vs s).cap = s.cap := rfl
@[simp] theorem writeDctb_epoch (i : Nat) (vs : List Word) (s : State) : (writeDctb i vs s).epoch = s.epoch := rfl
@[simp] theorem writeDctb_draws (i : Nat) (vs : List Word) (s : State) : (writeDctb i vs s).draws = s.draws := rfl
@[simp] theorem writeDctb_host (i : Nat) (vs : List Word) (s : State) : (writeDctb i vs s).host = s.host := rfl
@[simp] theorem writeDctb_replies (i : Nat) (vs : List Word) (s : State) : (writeDctb i vs s).replies = s.replies := rfl
@[simp] theorem writeDctb_mem_rgb (i : Nat) (vs : List Word) (s : State) :
    (writeDctb i vs s).mem.rgb = s.mem.rgb := rfl
@[simp] theorem writeDctb_mem_ycc (i : Nat) (vs : List Word) (s : State) :
    (writeDctb i vs s).mem.ycc = s.mem.ycc := rfl
@[simp] theorem writeDctb_mem_dctb (i : Nat) (vs : List Word) (s : State) :
    (writeDctb i vs s).mem.dctb = Store.write s.mem.dctb i vs := rfl
@[simp] theorem writeDctb_mem_qb (i : Nat) (vs : List Word) (s : State) :
    (writeDctb i vs s).mem.qb = s.mem.qb := rfl
@[simp] theorem writeDctb_mem_zz (i : Nat) (vs : List Word) (s : State) :
    (writeDctb i vs s).mem.zz = s.mem.zz := rfl
@[simp] theorem writeDctb_mem_rle (i : Nat) (vs : List Word) (s : State) :
    (writeDctb i vs s).mem.rle = s.mem.rle := rfl
@[simp] theorem writeDctb_mem_freq (i : Nat) (vs : List Word) (s : State) :
    (writeDctb i vs s).mem.freq = s.mem.freq := rfl
@[simp] theorem writeDctb_mem_pay (i : Nat) (vs : List Word) (s : State) :
    (writeDctb i vs s).mem.pay = s.mem.pay := rfl
@[simp] theorem writeDctb_mem_cont (i : Nat) (vs : List Word) (s : State) :
    (writeDctb i vs s).mem.cont = s.mem.cont := rfl
@[simp] theorem writeDctb_mem_msg (i : Nat) (vs : List Word) (s : State) :
    (writeDctb i vs s).mem.msg = s.mem.msg := rfl

/-! ### `writeQb` -/

@[simp] theorem writeQb_stage (i : Nat) (vs : List Word) (s : State) : (writeQb i vs s).stage = s.stage := rfl
@[simp] theorem writeQb_lastdiag (i : Nat) (vs : List Word) (s : State) : (writeQb i vs s).lastdiag = s.lastdiag := rfl
@[simp] theorem writeQb_diagacc (i : Nat) (vs : List Word) (s : State) : (writeQb i vs s).diagacc = s.diagacc := rfl
@[simp] theorem writeQb_quality (i : Nat) (vs : List Word) (s : State) : (writeQb i vs s).quality = s.quality := rfl
@[simp] theorem writeQb_imgW (i : Nat) (vs : List Word) (s : State) : (writeQb i vs s).imgW = s.imgW := rfl
@[simp] theorem writeQb_imgH (i : Nat) (vs : List Word) (s : State) : (writeQb i vs s).imgH = s.imgH := rfl
@[simp] theorem writeQb_w (i : Nat) (vs : List Word) (s : State) : (writeQb i vs s).w = s.w := rfl
@[simp] theorem writeQb_h (i : Nat) (vs : List Word) (s : State) : (writeQb i vs s).h = s.h := rfl
@[simp] theorem writeQb_msgLen (i : Nat) (vs : List Word) (s : State) : (writeQb i vs s).msgLen = s.msgLen := rfl
@[simp] theorem writeQb_contLen (i : Nat) (vs : List Word) (s : State) : (writeQb i vs s).contLen = s.contLen := rfl
@[simp] theorem writeQb_zzLen (i : Nat) (vs : List Word) (s : State) : (writeQb i vs s).zzLen = s.zzLen := rfl
@[simp] theorem writeQb_rleLen (i : Nat) (vs : List Word) (s : State) : (writeQb i vs s).rleLen = s.rleLen := rfl
@[simp] theorem writeQb_rleExp (i : Nat) (vs : List Word) (s : State) : (writeQb i vs s).rleExp = s.rleExp := rfl
@[simp] theorem writeQb_freqN (i : Nat) (vs : List Word) (s : State) : (writeQb i vs s).freqN = s.freqN := rfl
@[simp] theorem writeQb_encBytes (i : Nat) (vs : List Word) (s : State) : (writeQb i vs s).encBytes = s.encBytes := rfl
@[simp] theorem writeQb_node (i : Nat) (vs : List Word) (s : State) : (writeQb i vs s).node = s.node := rfl
@[simp] theorem writeQb_treeN (i : Nat) (vs : List Word) (s : State) : (writeQb i vs s).treeN = s.treeN := rfl
@[simp] theorem writeQb_treeRoot (i : Nat) (vs : List Word) (s : State) : (writeQb i vs s).treeRoot = s.treeRoot := rfl
@[simp] theorem writeQb_code (i : Nat) (vs : List Word) (s : State) : (writeQb i vs s).code = s.code := rfl
@[simp] theorem writeQb_cap (i : Nat) (vs : List Word) (s : State) : (writeQb i vs s).cap = s.cap := rfl
@[simp] theorem writeQb_epoch (i : Nat) (vs : List Word) (s : State) : (writeQb i vs s).epoch = s.epoch := rfl
@[simp] theorem writeQb_draws (i : Nat) (vs : List Word) (s : State) : (writeQb i vs s).draws = s.draws := rfl
@[simp] theorem writeQb_host (i : Nat) (vs : List Word) (s : State) : (writeQb i vs s).host = s.host := rfl
@[simp] theorem writeQb_replies (i : Nat) (vs : List Word) (s : State) : (writeQb i vs s).replies = s.replies := rfl
@[simp] theorem writeQb_mem_rgb (i : Nat) (vs : List Word) (s : State) :
    (writeQb i vs s).mem.rgb = s.mem.rgb := rfl
@[simp] theorem writeQb_mem_ycc (i : Nat) (vs : List Word) (s : State) :
    (writeQb i vs s).mem.ycc = s.mem.ycc := rfl
@[simp] theorem writeQb_mem_dctb (i : Nat) (vs : List Word) (s : State) :
    (writeQb i vs s).mem.dctb = s.mem.dctb := rfl
@[simp] theorem writeQb_mem_qb (i : Nat) (vs : List Word) (s : State) :
    (writeQb i vs s).mem.qb = Store.write s.mem.qb i vs := rfl
@[simp] theorem writeQb_mem_zz (i : Nat) (vs : List Word) (s : State) :
    (writeQb i vs s).mem.zz = s.mem.zz := rfl
@[simp] theorem writeQb_mem_rle (i : Nat) (vs : List Word) (s : State) :
    (writeQb i vs s).mem.rle = s.mem.rle := rfl
@[simp] theorem writeQb_mem_freq (i : Nat) (vs : List Word) (s : State) :
    (writeQb i vs s).mem.freq = s.mem.freq := rfl
@[simp] theorem writeQb_mem_pay (i : Nat) (vs : List Word) (s : State) :
    (writeQb i vs s).mem.pay = s.mem.pay := rfl
@[simp] theorem writeQb_mem_cont (i : Nat) (vs : List Word) (s : State) :
    (writeQb i vs s).mem.cont = s.mem.cont := rfl
@[simp] theorem writeQb_mem_msg (i : Nat) (vs : List Word) (s : State) :
    (writeQb i vs s).mem.msg = s.mem.msg := rfl

/-! ### `writeZz` -/

@[simp] theorem writeZz_stage (i : Nat) (vs : List Word) (s : State) : (writeZz i vs s).stage = s.stage := rfl
@[simp] theorem writeZz_lastdiag (i : Nat) (vs : List Word) (s : State) : (writeZz i vs s).lastdiag = s.lastdiag := rfl
@[simp] theorem writeZz_diagacc (i : Nat) (vs : List Word) (s : State) : (writeZz i vs s).diagacc = s.diagacc := rfl
@[simp] theorem writeZz_quality (i : Nat) (vs : List Word) (s : State) : (writeZz i vs s).quality = s.quality := rfl
@[simp] theorem writeZz_imgW (i : Nat) (vs : List Word) (s : State) : (writeZz i vs s).imgW = s.imgW := rfl
@[simp] theorem writeZz_imgH (i : Nat) (vs : List Word) (s : State) : (writeZz i vs s).imgH = s.imgH := rfl
@[simp] theorem writeZz_w (i : Nat) (vs : List Word) (s : State) : (writeZz i vs s).w = s.w := rfl
@[simp] theorem writeZz_h (i : Nat) (vs : List Word) (s : State) : (writeZz i vs s).h = s.h := rfl
@[simp] theorem writeZz_msgLen (i : Nat) (vs : List Word) (s : State) : (writeZz i vs s).msgLen = s.msgLen := rfl
@[simp] theorem writeZz_contLen (i : Nat) (vs : List Word) (s : State) : (writeZz i vs s).contLen = s.contLen := rfl
@[simp] theorem writeZz_zzLen (i : Nat) (vs : List Word) (s : State) : (writeZz i vs s).zzLen = s.zzLen := rfl
@[simp] theorem writeZz_rleLen (i : Nat) (vs : List Word) (s : State) : (writeZz i vs s).rleLen = s.rleLen := rfl
@[simp] theorem writeZz_rleExp (i : Nat) (vs : List Word) (s : State) : (writeZz i vs s).rleExp = s.rleExp := rfl
@[simp] theorem writeZz_freqN (i : Nat) (vs : List Word) (s : State) : (writeZz i vs s).freqN = s.freqN := rfl
@[simp] theorem writeZz_encBytes (i : Nat) (vs : List Word) (s : State) : (writeZz i vs s).encBytes = s.encBytes := rfl
@[simp] theorem writeZz_node (i : Nat) (vs : List Word) (s : State) : (writeZz i vs s).node = s.node := rfl
@[simp] theorem writeZz_treeN (i : Nat) (vs : List Word) (s : State) : (writeZz i vs s).treeN = s.treeN := rfl
@[simp] theorem writeZz_treeRoot (i : Nat) (vs : List Word) (s : State) : (writeZz i vs s).treeRoot = s.treeRoot := rfl
@[simp] theorem writeZz_code (i : Nat) (vs : List Word) (s : State) : (writeZz i vs s).code = s.code := rfl
@[simp] theorem writeZz_cap (i : Nat) (vs : List Word) (s : State) : (writeZz i vs s).cap = s.cap := rfl
@[simp] theorem writeZz_epoch (i : Nat) (vs : List Word) (s : State) : (writeZz i vs s).epoch = s.epoch := rfl
@[simp] theorem writeZz_draws (i : Nat) (vs : List Word) (s : State) : (writeZz i vs s).draws = s.draws := rfl
@[simp] theorem writeZz_host (i : Nat) (vs : List Word) (s : State) : (writeZz i vs s).host = s.host := rfl
@[simp] theorem writeZz_replies (i : Nat) (vs : List Word) (s : State) : (writeZz i vs s).replies = s.replies := rfl
@[simp] theorem writeZz_mem_rgb (i : Nat) (vs : List Word) (s : State) :
    (writeZz i vs s).mem.rgb = s.mem.rgb := rfl
@[simp] theorem writeZz_mem_ycc (i : Nat) (vs : List Word) (s : State) :
    (writeZz i vs s).mem.ycc = s.mem.ycc := rfl
@[simp] theorem writeZz_mem_dctb (i : Nat) (vs : List Word) (s : State) :
    (writeZz i vs s).mem.dctb = s.mem.dctb := rfl
@[simp] theorem writeZz_mem_qb (i : Nat) (vs : List Word) (s : State) :
    (writeZz i vs s).mem.qb = s.mem.qb := rfl
@[simp] theorem writeZz_mem_zz (i : Nat) (vs : List Word) (s : State) :
    (writeZz i vs s).mem.zz = Store.write s.mem.zz i vs := rfl
@[simp] theorem writeZz_mem_rle (i : Nat) (vs : List Word) (s : State) :
    (writeZz i vs s).mem.rle = s.mem.rle := rfl
@[simp] theorem writeZz_mem_freq (i : Nat) (vs : List Word) (s : State) :
    (writeZz i vs s).mem.freq = s.mem.freq := rfl
@[simp] theorem writeZz_mem_pay (i : Nat) (vs : List Word) (s : State) :
    (writeZz i vs s).mem.pay = s.mem.pay := rfl
@[simp] theorem writeZz_mem_cont (i : Nat) (vs : List Word) (s : State) :
    (writeZz i vs s).mem.cont = s.mem.cont := rfl
@[simp] theorem writeZz_mem_msg (i : Nat) (vs : List Word) (s : State) :
    (writeZz i vs s).mem.msg = s.mem.msg := rfl

/-! ### `writeRle` -/

@[simp] theorem writeRle_stage (i : Nat) (vs : List Word) (s : State) : (writeRle i vs s).stage = s.stage := rfl
@[simp] theorem writeRle_lastdiag (i : Nat) (vs : List Word) (s : State) : (writeRle i vs s).lastdiag = s.lastdiag := rfl
@[simp] theorem writeRle_diagacc (i : Nat) (vs : List Word) (s : State) : (writeRle i vs s).diagacc = s.diagacc := rfl
@[simp] theorem writeRle_quality (i : Nat) (vs : List Word) (s : State) : (writeRle i vs s).quality = s.quality := rfl
@[simp] theorem writeRle_imgW (i : Nat) (vs : List Word) (s : State) : (writeRle i vs s).imgW = s.imgW := rfl
@[simp] theorem writeRle_imgH (i : Nat) (vs : List Word) (s : State) : (writeRle i vs s).imgH = s.imgH := rfl
@[simp] theorem writeRle_w (i : Nat) (vs : List Word) (s : State) : (writeRle i vs s).w = s.w := rfl
@[simp] theorem writeRle_h (i : Nat) (vs : List Word) (s : State) : (writeRle i vs s).h = s.h := rfl
@[simp] theorem writeRle_msgLen (i : Nat) (vs : List Word) (s : State) : (writeRle i vs s).msgLen = s.msgLen := rfl
@[simp] theorem writeRle_contLen (i : Nat) (vs : List Word) (s : State) : (writeRle i vs s).contLen = s.contLen := rfl
@[simp] theorem writeRle_zzLen (i : Nat) (vs : List Word) (s : State) : (writeRle i vs s).zzLen = s.zzLen := rfl
@[simp] theorem writeRle_rleLen (i : Nat) (vs : List Word) (s : State) : (writeRle i vs s).rleLen = s.rleLen := rfl
@[simp] theorem writeRle_rleExp (i : Nat) (vs : List Word) (s : State) : (writeRle i vs s).rleExp = s.rleExp := rfl
@[simp] theorem writeRle_freqN (i : Nat) (vs : List Word) (s : State) : (writeRle i vs s).freqN = s.freqN := rfl
@[simp] theorem writeRle_encBytes (i : Nat) (vs : List Word) (s : State) : (writeRle i vs s).encBytes = s.encBytes := rfl
@[simp] theorem writeRle_node (i : Nat) (vs : List Word) (s : State) : (writeRle i vs s).node = s.node := rfl
@[simp] theorem writeRle_treeN (i : Nat) (vs : List Word) (s : State) : (writeRle i vs s).treeN = s.treeN := rfl
@[simp] theorem writeRle_treeRoot (i : Nat) (vs : List Word) (s : State) : (writeRle i vs s).treeRoot = s.treeRoot := rfl
@[simp] theorem writeRle_code (i : Nat) (vs : List Word) (s : State) : (writeRle i vs s).code = s.code := rfl
@[simp] theorem writeRle_cap (i : Nat) (vs : List Word) (s : State) : (writeRle i vs s).cap = s.cap := rfl
@[simp] theorem writeRle_epoch (i : Nat) (vs : List Word) (s : State) : (writeRle i vs s).epoch = s.epoch := rfl
@[simp] theorem writeRle_draws (i : Nat) (vs : List Word) (s : State) : (writeRle i vs s).draws = s.draws := rfl
@[simp] theorem writeRle_host (i : Nat) (vs : List Word) (s : State) : (writeRle i vs s).host = s.host := rfl
@[simp] theorem writeRle_replies (i : Nat) (vs : List Word) (s : State) : (writeRle i vs s).replies = s.replies := rfl
@[simp] theorem writeRle_mem_rgb (i : Nat) (vs : List Word) (s : State) :
    (writeRle i vs s).mem.rgb = s.mem.rgb := rfl
@[simp] theorem writeRle_mem_ycc (i : Nat) (vs : List Word) (s : State) :
    (writeRle i vs s).mem.ycc = s.mem.ycc := rfl
@[simp] theorem writeRle_mem_dctb (i : Nat) (vs : List Word) (s : State) :
    (writeRle i vs s).mem.dctb = s.mem.dctb := rfl
@[simp] theorem writeRle_mem_qb (i : Nat) (vs : List Word) (s : State) :
    (writeRle i vs s).mem.qb = s.mem.qb := rfl
@[simp] theorem writeRle_mem_zz (i : Nat) (vs : List Word) (s : State) :
    (writeRle i vs s).mem.zz = s.mem.zz := rfl
@[simp] theorem writeRle_mem_rle (i : Nat) (vs : List Word) (s : State) :
    (writeRle i vs s).mem.rle = Store.write s.mem.rle i vs := rfl
@[simp] theorem writeRle_mem_freq (i : Nat) (vs : List Word) (s : State) :
    (writeRle i vs s).mem.freq = s.mem.freq := rfl
@[simp] theorem writeRle_mem_pay (i : Nat) (vs : List Word) (s : State) :
    (writeRle i vs s).mem.pay = s.mem.pay := rfl
@[simp] theorem writeRle_mem_cont (i : Nat) (vs : List Word) (s : State) :
    (writeRle i vs s).mem.cont = s.mem.cont := rfl
@[simp] theorem writeRle_mem_msg (i : Nat) (vs : List Word) (s : State) :
    (writeRle i vs s).mem.msg = s.mem.msg := rfl

/-! ### `writeFreq` -/

@[simp] theorem writeFreq_stage (i : Nat) (vs : List Word) (s : State) : (writeFreq i vs s).stage = s.stage := rfl
@[simp] theorem writeFreq_lastdiag (i : Nat) (vs : List Word) (s : State) : (writeFreq i vs s).lastdiag = s.lastdiag := rfl
@[simp] theorem writeFreq_diagacc (i : Nat) (vs : List Word) (s : State) : (writeFreq i vs s).diagacc = s.diagacc := rfl
@[simp] theorem writeFreq_quality (i : Nat) (vs : List Word) (s : State) : (writeFreq i vs s).quality = s.quality := rfl
@[simp] theorem writeFreq_imgW (i : Nat) (vs : List Word) (s : State) : (writeFreq i vs s).imgW = s.imgW := rfl
@[simp] theorem writeFreq_imgH (i : Nat) (vs : List Word) (s : State) : (writeFreq i vs s).imgH = s.imgH := rfl
@[simp] theorem writeFreq_w (i : Nat) (vs : List Word) (s : State) : (writeFreq i vs s).w = s.w := rfl
@[simp] theorem writeFreq_h (i : Nat) (vs : List Word) (s : State) : (writeFreq i vs s).h = s.h := rfl
@[simp] theorem writeFreq_msgLen (i : Nat) (vs : List Word) (s : State) : (writeFreq i vs s).msgLen = s.msgLen := rfl
@[simp] theorem writeFreq_contLen (i : Nat) (vs : List Word) (s : State) : (writeFreq i vs s).contLen = s.contLen := rfl
@[simp] theorem writeFreq_zzLen (i : Nat) (vs : List Word) (s : State) : (writeFreq i vs s).zzLen = s.zzLen := rfl
@[simp] theorem writeFreq_rleLen (i : Nat) (vs : List Word) (s : State) : (writeFreq i vs s).rleLen = s.rleLen := rfl
@[simp] theorem writeFreq_rleExp (i : Nat) (vs : List Word) (s : State) : (writeFreq i vs s).rleExp = s.rleExp := rfl
@[simp] theorem writeFreq_freqN (i : Nat) (vs : List Word) (s : State) : (writeFreq i vs s).freqN = s.freqN := rfl
@[simp] theorem writeFreq_encBytes (i : Nat) (vs : List Word) (s : State) : (writeFreq i vs s).encBytes = s.encBytes := rfl
@[simp] theorem writeFreq_node (i : Nat) (vs : List Word) (s : State) : (writeFreq i vs s).node = s.node := rfl
@[simp] theorem writeFreq_treeN (i : Nat) (vs : List Word) (s : State) : (writeFreq i vs s).treeN = s.treeN := rfl
@[simp] theorem writeFreq_treeRoot (i : Nat) (vs : List Word) (s : State) : (writeFreq i vs s).treeRoot = s.treeRoot := rfl
@[simp] theorem writeFreq_code (i : Nat) (vs : List Word) (s : State) : (writeFreq i vs s).code = s.code := rfl
@[simp] theorem writeFreq_cap (i : Nat) (vs : List Word) (s : State) : (writeFreq i vs s).cap = s.cap := rfl
@[simp] theorem writeFreq_epoch (i : Nat) (vs : List Word) (s : State) : (writeFreq i vs s).epoch = s.epoch := rfl
@[simp] theorem writeFreq_draws (i : Nat) (vs : List Word) (s : State) : (writeFreq i vs s).draws = s.draws := rfl
@[simp] theorem writeFreq_host (i : Nat) (vs : List Word) (s : State) : (writeFreq i vs s).host = s.host := rfl
@[simp] theorem writeFreq_replies (i : Nat) (vs : List Word) (s : State) : (writeFreq i vs s).replies = s.replies := rfl
@[simp] theorem writeFreq_mem_rgb (i : Nat) (vs : List Word) (s : State) :
    (writeFreq i vs s).mem.rgb = s.mem.rgb := rfl
@[simp] theorem writeFreq_mem_ycc (i : Nat) (vs : List Word) (s : State) :
    (writeFreq i vs s).mem.ycc = s.mem.ycc := rfl
@[simp] theorem writeFreq_mem_dctb (i : Nat) (vs : List Word) (s : State) :
    (writeFreq i vs s).mem.dctb = s.mem.dctb := rfl
@[simp] theorem writeFreq_mem_qb (i : Nat) (vs : List Word) (s : State) :
    (writeFreq i vs s).mem.qb = s.mem.qb := rfl
@[simp] theorem writeFreq_mem_zz (i : Nat) (vs : List Word) (s : State) :
    (writeFreq i vs s).mem.zz = s.mem.zz := rfl
@[simp] theorem writeFreq_mem_rle (i : Nat) (vs : List Word) (s : State) :
    (writeFreq i vs s).mem.rle = s.mem.rle := rfl
@[simp] theorem writeFreq_mem_freq (i : Nat) (vs : List Word) (s : State) :
    (writeFreq i vs s).mem.freq = Store.write s.mem.freq i vs := rfl
@[simp] theorem writeFreq_mem_pay (i : Nat) (vs : List Word) (s : State) :
    (writeFreq i vs s).mem.pay = s.mem.pay := rfl
@[simp] theorem writeFreq_mem_cont (i : Nat) (vs : List Word) (s : State) :
    (writeFreq i vs s).mem.cont = s.mem.cont := rfl
@[simp] theorem writeFreq_mem_msg (i : Nat) (vs : List Word) (s : State) :
    (writeFreq i vs s).mem.msg = s.mem.msg := rfl

/-! ### `writePay` -/

@[simp] theorem writePay_stage (i : Nat) (vs : List Byte) (s : State) : (writePay i vs s).stage = s.stage := rfl
@[simp] theorem writePay_lastdiag (i : Nat) (vs : List Byte) (s : State) : (writePay i vs s).lastdiag = s.lastdiag := rfl
@[simp] theorem writePay_diagacc (i : Nat) (vs : List Byte) (s : State) : (writePay i vs s).diagacc = s.diagacc := rfl
@[simp] theorem writePay_quality (i : Nat) (vs : List Byte) (s : State) : (writePay i vs s).quality = s.quality := rfl
@[simp] theorem writePay_imgW (i : Nat) (vs : List Byte) (s : State) : (writePay i vs s).imgW = s.imgW := rfl
@[simp] theorem writePay_imgH (i : Nat) (vs : List Byte) (s : State) : (writePay i vs s).imgH = s.imgH := rfl
@[simp] theorem writePay_w (i : Nat) (vs : List Byte) (s : State) : (writePay i vs s).w = s.w := rfl
@[simp] theorem writePay_h (i : Nat) (vs : List Byte) (s : State) : (writePay i vs s).h = s.h := rfl
@[simp] theorem writePay_msgLen (i : Nat) (vs : List Byte) (s : State) : (writePay i vs s).msgLen = s.msgLen := rfl
@[simp] theorem writePay_contLen (i : Nat) (vs : List Byte) (s : State) : (writePay i vs s).contLen = s.contLen := rfl
@[simp] theorem writePay_zzLen (i : Nat) (vs : List Byte) (s : State) : (writePay i vs s).zzLen = s.zzLen := rfl
@[simp] theorem writePay_rleLen (i : Nat) (vs : List Byte) (s : State) : (writePay i vs s).rleLen = s.rleLen := rfl
@[simp] theorem writePay_rleExp (i : Nat) (vs : List Byte) (s : State) : (writePay i vs s).rleExp = s.rleExp := rfl
@[simp] theorem writePay_freqN (i : Nat) (vs : List Byte) (s : State) : (writePay i vs s).freqN = s.freqN := rfl
@[simp] theorem writePay_encBytes (i : Nat) (vs : List Byte) (s : State) : (writePay i vs s).encBytes = s.encBytes := rfl
@[simp] theorem writePay_node (i : Nat) (vs : List Byte) (s : State) : (writePay i vs s).node = s.node := rfl
@[simp] theorem writePay_treeN (i : Nat) (vs : List Byte) (s : State) : (writePay i vs s).treeN = s.treeN := rfl
@[simp] theorem writePay_treeRoot (i : Nat) (vs : List Byte) (s : State) : (writePay i vs s).treeRoot = s.treeRoot := rfl
@[simp] theorem writePay_code (i : Nat) (vs : List Byte) (s : State) : (writePay i vs s).code = s.code := rfl
@[simp] theorem writePay_cap (i : Nat) (vs : List Byte) (s : State) : (writePay i vs s).cap = s.cap := rfl
@[simp] theorem writePay_epoch (i : Nat) (vs : List Byte) (s : State) : (writePay i vs s).epoch = s.epoch := rfl
@[simp] theorem writePay_draws (i : Nat) (vs : List Byte) (s : State) : (writePay i vs s).draws = s.draws := rfl
@[simp] theorem writePay_host (i : Nat) (vs : List Byte) (s : State) : (writePay i vs s).host = s.host := rfl
@[simp] theorem writePay_replies (i : Nat) (vs : List Byte) (s : State) : (writePay i vs s).replies = s.replies := rfl
@[simp] theorem writePay_mem_rgb (i : Nat) (vs : List Byte) (s : State) :
    (writePay i vs s).mem.rgb = s.mem.rgb := rfl
@[simp] theorem writePay_mem_ycc (i : Nat) (vs : List Byte) (s : State) :
    (writePay i vs s).mem.ycc = s.mem.ycc := rfl
@[simp] theorem writePay_mem_dctb (i : Nat) (vs : List Byte) (s : State) :
    (writePay i vs s).mem.dctb = s.mem.dctb := rfl
@[simp] theorem writePay_mem_qb (i : Nat) (vs : List Byte) (s : State) :
    (writePay i vs s).mem.qb = s.mem.qb := rfl
@[simp] theorem writePay_mem_zz (i : Nat) (vs : List Byte) (s : State) :
    (writePay i vs s).mem.zz = s.mem.zz := rfl
@[simp] theorem writePay_mem_rle (i : Nat) (vs : List Byte) (s : State) :
    (writePay i vs s).mem.rle = s.mem.rle := rfl
@[simp] theorem writePay_mem_freq (i : Nat) (vs : List Byte) (s : State) :
    (writePay i vs s).mem.freq = s.mem.freq := rfl
@[simp] theorem writePay_mem_pay (i : Nat) (vs : List Byte) (s : State) :
    (writePay i vs s).mem.pay = Store.write s.mem.pay i vs := rfl
@[simp] theorem writePay_mem_cont (i : Nat) (vs : List Byte) (s : State) :
    (writePay i vs s).mem.cont = s.mem.cont := rfl
@[simp] theorem writePay_mem_msg (i : Nat) (vs : List Byte) (s : State) :
    (writePay i vs s).mem.msg = s.mem.msg := rfl

/-! ### `writeCont` -/

@[simp] theorem writeCont_stage (i : Nat) (vs : List Byte) (s : State) : (writeCont i vs s).stage = s.stage := rfl
@[simp] theorem writeCont_lastdiag (i : Nat) (vs : List Byte) (s : State) : (writeCont i vs s).lastdiag = s.lastdiag := rfl
@[simp] theorem writeCont_diagacc (i : Nat) (vs : List Byte) (s : State) : (writeCont i vs s).diagacc = s.diagacc := rfl
@[simp] theorem writeCont_quality (i : Nat) (vs : List Byte) (s : State) : (writeCont i vs s).quality = s.quality := rfl
@[simp] theorem writeCont_imgW (i : Nat) (vs : List Byte) (s : State) : (writeCont i vs s).imgW = s.imgW := rfl
@[simp] theorem writeCont_imgH (i : Nat) (vs : List Byte) (s : State) : (writeCont i vs s).imgH = s.imgH := rfl
@[simp] theorem writeCont_w (i : Nat) (vs : List Byte) (s : State) : (writeCont i vs s).w = s.w := rfl
@[simp] theorem writeCont_h (i : Nat) (vs : List Byte) (s : State) : (writeCont i vs s).h = s.h := rfl
@[simp] theorem writeCont_msgLen (i : Nat) (vs : List Byte) (s : State) : (writeCont i vs s).msgLen = s.msgLen := rfl
@[simp] theorem writeCont_contLen (i : Nat) (vs : List Byte) (s : State) : (writeCont i vs s).contLen = s.contLen := rfl
@[simp] theorem writeCont_zzLen (i : Nat) (vs : List Byte) (s : State) : (writeCont i vs s).zzLen = s.zzLen := rfl
@[simp] theorem writeCont_rleLen (i : Nat) (vs : List Byte) (s : State) : (writeCont i vs s).rleLen = s.rleLen := rfl
@[simp] theorem writeCont_rleExp (i : Nat) (vs : List Byte) (s : State) : (writeCont i vs s).rleExp = s.rleExp := rfl
@[simp] theorem writeCont_freqN (i : Nat) (vs : List Byte) (s : State) : (writeCont i vs s).freqN = s.freqN := rfl
@[simp] theorem writeCont_encBytes (i : Nat) (vs : List Byte) (s : State) : (writeCont i vs s).encBytes = s.encBytes := rfl
@[simp] theorem writeCont_node (i : Nat) (vs : List Byte) (s : State) : (writeCont i vs s).node = s.node := rfl
@[simp] theorem writeCont_treeN (i : Nat) (vs : List Byte) (s : State) : (writeCont i vs s).treeN = s.treeN := rfl
@[simp] theorem writeCont_treeRoot (i : Nat) (vs : List Byte) (s : State) : (writeCont i vs s).treeRoot = s.treeRoot := rfl
@[simp] theorem writeCont_code (i : Nat) (vs : List Byte) (s : State) : (writeCont i vs s).code = s.code := rfl
@[simp] theorem writeCont_cap (i : Nat) (vs : List Byte) (s : State) : (writeCont i vs s).cap = s.cap := rfl
@[simp] theorem writeCont_epoch (i : Nat) (vs : List Byte) (s : State) : (writeCont i vs s).epoch = s.epoch := rfl
@[simp] theorem writeCont_draws (i : Nat) (vs : List Byte) (s : State) : (writeCont i vs s).draws = s.draws := rfl
@[simp] theorem writeCont_host (i : Nat) (vs : List Byte) (s : State) : (writeCont i vs s).host = s.host := rfl
@[simp] theorem writeCont_replies (i : Nat) (vs : List Byte) (s : State) : (writeCont i vs s).replies = s.replies := rfl
@[simp] theorem writeCont_mem_rgb (i : Nat) (vs : List Byte) (s : State) :
    (writeCont i vs s).mem.rgb = s.mem.rgb := rfl
@[simp] theorem writeCont_mem_ycc (i : Nat) (vs : List Byte) (s : State) :
    (writeCont i vs s).mem.ycc = s.mem.ycc := rfl
@[simp] theorem writeCont_mem_dctb (i : Nat) (vs : List Byte) (s : State) :
    (writeCont i vs s).mem.dctb = s.mem.dctb := rfl
@[simp] theorem writeCont_mem_qb (i : Nat) (vs : List Byte) (s : State) :
    (writeCont i vs s).mem.qb = s.mem.qb := rfl
@[simp] theorem writeCont_mem_zz (i : Nat) (vs : List Byte) (s : State) :
    (writeCont i vs s).mem.zz = s.mem.zz := rfl
@[simp] theorem writeCont_mem_rle (i : Nat) (vs : List Byte) (s : State) :
    (writeCont i vs s).mem.rle = s.mem.rle := rfl
@[simp] theorem writeCont_mem_freq (i : Nat) (vs : List Byte) (s : State) :
    (writeCont i vs s).mem.freq = s.mem.freq := rfl
@[simp] theorem writeCont_mem_pay (i : Nat) (vs : List Byte) (s : State) :
    (writeCont i vs s).mem.pay = s.mem.pay := rfl
@[simp] theorem writeCont_mem_cont (i : Nat) (vs : List Byte) (s : State) :
    (writeCont i vs s).mem.cont = Store.write s.mem.cont i vs := rfl
@[simp] theorem writeCont_mem_msg (i : Nat) (vs : List Byte) (s : State) :
    (writeCont i vs s).mem.msg = s.mem.msg := rfl

/-! ### `writeMsg` -/

@[simp] theorem writeMsg_stage (i : Nat) (vs : List Byte) (s : State) : (writeMsg i vs s).stage = s.stage := rfl
@[simp] theorem writeMsg_lastdiag (i : Nat) (vs : List Byte) (s : State) : (writeMsg i vs s).lastdiag = s.lastdiag := rfl
@[simp] theorem writeMsg_diagacc (i : Nat) (vs : List Byte) (s : State) : (writeMsg i vs s).diagacc = s.diagacc := rfl
@[simp] theorem writeMsg_quality (i : Nat) (vs : List Byte) (s : State) : (writeMsg i vs s).quality = s.quality := rfl
@[simp] theorem writeMsg_imgW (i : Nat) (vs : List Byte) (s : State) : (writeMsg i vs s).imgW = s.imgW := rfl
@[simp] theorem writeMsg_imgH (i : Nat) (vs : List Byte) (s : State) : (writeMsg i vs s).imgH = s.imgH := rfl
@[simp] theorem writeMsg_w (i : Nat) (vs : List Byte) (s : State) : (writeMsg i vs s).w = s.w := rfl
@[simp] theorem writeMsg_h (i : Nat) (vs : List Byte) (s : State) : (writeMsg i vs s).h = s.h := rfl
@[simp] theorem writeMsg_msgLen (i : Nat) (vs : List Byte) (s : State) : (writeMsg i vs s).msgLen = s.msgLen := rfl
@[simp] theorem writeMsg_contLen (i : Nat) (vs : List Byte) (s : State) : (writeMsg i vs s).contLen = s.contLen := rfl
@[simp] theorem writeMsg_zzLen (i : Nat) (vs : List Byte) (s : State) : (writeMsg i vs s).zzLen = s.zzLen := rfl
@[simp] theorem writeMsg_rleLen (i : Nat) (vs : List Byte) (s : State) : (writeMsg i vs s).rleLen = s.rleLen := rfl
@[simp] theorem writeMsg_rleExp (i : Nat) (vs : List Byte) (s : State) : (writeMsg i vs s).rleExp = s.rleExp := rfl
@[simp] theorem writeMsg_freqN (i : Nat) (vs : List Byte) (s : State) : (writeMsg i vs s).freqN = s.freqN := rfl
@[simp] theorem writeMsg_encBytes (i : Nat) (vs : List Byte) (s : State) : (writeMsg i vs s).encBytes = s.encBytes := rfl
@[simp] theorem writeMsg_node (i : Nat) (vs : List Byte) (s : State) : (writeMsg i vs s).node = s.node := rfl
@[simp] theorem writeMsg_treeN (i : Nat) (vs : List Byte) (s : State) : (writeMsg i vs s).treeN = s.treeN := rfl
@[simp] theorem writeMsg_treeRoot (i : Nat) (vs : List Byte) (s : State) : (writeMsg i vs s).treeRoot = s.treeRoot := rfl
@[simp] theorem writeMsg_code (i : Nat) (vs : List Byte) (s : State) : (writeMsg i vs s).code = s.code := rfl
@[simp] theorem writeMsg_cap (i : Nat) (vs : List Byte) (s : State) : (writeMsg i vs s).cap = s.cap := rfl
@[simp] theorem writeMsg_epoch (i : Nat) (vs : List Byte) (s : State) : (writeMsg i vs s).epoch = s.epoch := rfl
@[simp] theorem writeMsg_draws (i : Nat) (vs : List Byte) (s : State) : (writeMsg i vs s).draws = s.draws := rfl
@[simp] theorem writeMsg_host (i : Nat) (vs : List Byte) (s : State) : (writeMsg i vs s).host = s.host := rfl
@[simp] theorem writeMsg_replies (i : Nat) (vs : List Byte) (s : State) : (writeMsg i vs s).replies = s.replies := rfl
@[simp] theorem writeMsg_mem_rgb (i : Nat) (vs : List Byte) (s : State) :
    (writeMsg i vs s).mem.rgb = s.mem.rgb := rfl
@[simp] theorem writeMsg_mem_ycc (i : Nat) (vs : List Byte) (s : State) :
    (writeMsg i vs s).mem.ycc = s.mem.ycc := rfl
@[simp] theorem writeMsg_mem_dctb (i : Nat) (vs : List Byte) (s : State) :
    (writeMsg i vs s).mem.dctb = s.mem.dctb := rfl
@[simp] theorem writeMsg_mem_qb (i : Nat) (vs : List Byte) (s : State) :
    (writeMsg i vs s).mem.qb = s.mem.qb := rfl
@[simp] theorem writeMsg_mem_zz (i : Nat) (vs : List Byte) (s : State) :
    (writeMsg i vs s).mem.zz = s.mem.zz := rfl
@[simp] theorem writeMsg_mem_rle (i : Nat) (vs : List Byte) (s : State) :
    (writeMsg i vs s).mem.rle = s.mem.rle := rfl
@[simp] theorem writeMsg_mem_freq (i : Nat) (vs : List Byte) (s : State) :
    (writeMsg i vs s).mem.freq = s.mem.freq := rfl
@[simp] theorem writeMsg_mem_pay (i : Nat) (vs : List Byte) (s : State) :
    (writeMsg i vs s).mem.pay = s.mem.pay := rfl
@[simp] theorem writeMsg_mem_cont (i : Nat) (vs : List Byte) (s : State) :
    (writeMsg i vs s).mem.cont = s.mem.cont := rfl
@[simp] theorem writeMsg_mem_msg (i : Nat) (vs : List Byte) (s : State) :
    (writeMsg i vs s).mem.msg = Store.write s.mem.msg i vs := rfl

/-! ### `writeQbEach` -/

@[simp] theorem writeQbEach_stage (us : List (Nat × Word)) (s : State) : (writeQbEach us s).stage = s.stage := rfl
@[simp] theorem writeQbEach_lastdiag (us : List (Nat × Word)) (s : State) : (writeQbEach us s).lastdiag = s.lastdiag := rfl
@[simp] theorem writeQbEach_diagacc (us : List (Nat × Word)) (s : State) : (writeQbEach us s).diagacc = s.diagacc := rfl
@[simp] theorem writeQbEach_quality (us : List (Nat × Word)) (s : State) : (writeQbEach us s).quality = s.quality := rfl
@[simp] theorem writeQbEach_imgW (us : List (Nat × Word)) (s : State) : (writeQbEach us s).imgW = s.imgW := rfl
@[simp] theorem writeQbEach_imgH (us : List (Nat × Word)) (s : State) : (writeQbEach us s).imgH = s.imgH := rfl
@[simp] theorem writeQbEach_w (us : List (Nat × Word)) (s : State) : (writeQbEach us s).w = s.w := rfl
@[simp] theorem writeQbEach_h (us : List (Nat × Word)) (s : State) : (writeQbEach us s).h = s.h := rfl
@[simp] theorem writeQbEach_msgLen (us : List (Nat × Word)) (s : State) : (writeQbEach us s).msgLen = s.msgLen := rfl
@[simp] theorem writeQbEach_contLen (us : List (Nat × Word)) (s : State) : (writeQbEach us s).contLen = s.contLen := rfl
@[simp] theorem writeQbEach_zzLen (us : List (Nat × Word)) (s : State) : (writeQbEach us s).zzLen = s.zzLen := rfl
@[simp] theorem writeQbEach_rleLen (us : List (Nat × Word)) (s : State) : (writeQbEach us s).rleLen = s.rleLen := rfl
@[simp] theorem writeQbEach_rleExp (us : List (Nat × Word)) (s : State) : (writeQbEach us s).rleExp = s.rleExp := rfl
@[simp] theorem writeQbEach_freqN (us : List (Nat × Word)) (s : State) : (writeQbEach us s).freqN = s.freqN := rfl
@[simp] theorem writeQbEach_encBytes (us : List (Nat × Word)) (s : State) : (writeQbEach us s).encBytes = s.encBytes := rfl
@[simp] theorem writeQbEach_node (us : List (Nat × Word)) (s : State) : (writeQbEach us s).node = s.node := rfl
@[simp] theorem writeQbEach_treeN (us : List (Nat × Word)) (s : State) : (writeQbEach us s).treeN = s.treeN := rfl
@[simp] theorem writeQbEach_treeRoot (us : List (Nat × Word)) (s : State) : (writeQbEach us s).treeRoot = s.treeRoot := rfl
@[simp] theorem writeQbEach_code (us : List (Nat × Word)) (s : State) : (writeQbEach us s).code = s.code := rfl
@[simp] theorem writeQbEach_cap (us : List (Nat × Word)) (s : State) : (writeQbEach us s).cap = s.cap := rfl
@[simp] theorem writeQbEach_epoch (us : List (Nat × Word)) (s : State) : (writeQbEach us s).epoch = s.epoch := rfl
@[simp] theorem writeQbEach_draws (us : List (Nat × Word)) (s : State) : (writeQbEach us s).draws = s.draws := rfl
@[simp] theorem writeQbEach_host (us : List (Nat × Word)) (s : State) : (writeQbEach us s).host = s.host := rfl
@[simp] theorem writeQbEach_replies (us : List (Nat × Word)) (s : State) : (writeQbEach us s).replies = s.replies := rfl
@[simp] theorem writeQbEach_mem_rgb (us : List (Nat × Word)) (s : State) :
    (writeQbEach us s).mem.rgb = s.mem.rgb := rfl
@[simp] theorem writeQbEach_mem_ycc (us : List (Nat × Word)) (s : State) :
    (writeQbEach us s).mem.ycc = s.mem.ycc := rfl
@[simp] theorem writeQbEach_mem_dctb (us : List (Nat × Word)) (s : State) :
    (writeQbEach us s).mem.dctb = s.mem.dctb := rfl
@[simp] theorem writeQbEach_mem_qb (us : List (Nat × Word)) (s : State) :
    (writeQbEach us s).mem.qb = Store.writeEach s.mem.qb us := rfl
@[simp] theorem writeQbEach_mem_zz (us : List (Nat × Word)) (s : State) :
    (writeQbEach us s).mem.zz = s.mem.zz := rfl
@[simp] theorem writeQbEach_mem_rle (us : List (Nat × Word)) (s : State) :
    (writeQbEach us s).mem.rle = s.mem.rle := rfl
@[simp] theorem writeQbEach_mem_freq (us : List (Nat × Word)) (s : State) :
    (writeQbEach us s).mem.freq = s.mem.freq := rfl
@[simp] theorem writeQbEach_mem_pay (us : List (Nat × Word)) (s : State) :
    (writeQbEach us s).mem.pay = s.mem.pay := rfl
@[simp] theorem writeQbEach_mem_cont (us : List (Nat × Word)) (s : State) :
    (writeQbEach us s).mem.cont = s.mem.cont := rfl
@[simp] theorem writeQbEach_mem_msg (us : List (Nat × Word)) (s : State) :
    (writeQbEach us s).mem.msg = s.mem.msg := rfl

end Sys2Proof.Machine
end

