-- ==== Sys2Proof/Laws/Store.lean ====
section
/-! SUPPORT. The laws of sparse stores: what a read gives after a write, and that every write keeps the
canonical form. -/

namespace Sys2Proof.Machine

variable {α : Type}

@[simp] theorem Store.read?_nil (i : Nat) : Store.read? ([] : Store α) i = none := rfl

theorem Store.read?_cons (c : Nat × α) (b : Store α) (i : Nat) :
    Store.read? (c :: b) i = if c.1 = i then some c.2 else Store.read? b i := by
  by_cases h : c.1 = i <;> simp [Store.read?, h]

theorem Store.read?_append (a b : Store α) (i : Nat) :
    Store.read? (a ++ b : List (Nat × α)) i = (Store.read? a i).or (Store.read? b i) := by
  induction a with
  | nil => simp
  | cons c a ih =>
    rw [List.cons_append, Store.read?_cons, Store.read?_cons, ih]
    split <;> simp

/-- Reading in the cells of a list of values. -/
theorem Store.read?_cells (vs : List α) (base i : Nat) :
    Store.read? (Store.cells base vs) i = if base ≤ i then vs[i - base]? else none := by
  induction vs generalizing base with
  | nil => simp [Store.cells]
  | cons v vs ih =>
    rw [Store.cells, Store.read?_cons, ih]
    rcases Nat.lt_trichotomy i base with h | h | h
    · rw [if_neg (by simp; omega), if_neg (by omega), if_neg (by omega)]
    · subst h; simp
    · rw [if_neg (by simp; omega), if_pos (by omega), if_pos (by omega),
        show i - base = (i - (base + 1)) + 1 by omega, List.getElem?_cons_succ]

/-- A filter on the index keeps what is read at the indices it keeps. -/
theorem Store.read?_filter (p : Nat → Bool) (b : Store α) (i : Nat) :
    Store.read? (b.filter fun c => p c.1) i = if p i then Store.read? b i else none := by
  induction b with
  | nil => simp
  | cons c b ih =>
    rw [List.filter_cons]
    by_cases hc : c.1 = i
    · subst hc
      by_cases hp : p c.1 <;> simp_all [Store.read?_cons]
    · by_cases hp : p c.1 <;> simp_all [Store.read?_cons]

/-- What a read gives after a write: the written value inside the written range, what was there
outside it. -/
theorem Store.read?_write (b : Store α) (base : Nat) (vs : List α) (i : Nat) :
    Store.read? (Store.write b base vs) i =
      if base ≤ i ∧ i < base + vs.length then vs[i - base]? else Store.read? b i := by
  rw [Store.write, Store.read?_append, Store.read?_append, Store.read?_cells,
    Store.read?_filter (fun j => decide (j < base)) b i,
    Store.read?_filter (fun j => decide (base + vs.length ≤ j)) b i]
  simp only [decide_eq_true_eq]
  rcases Nat.lt_or_ge i base with h | h
  · rw [if_pos h, if_neg (by omega), if_neg (by omega), if_neg (by omega)]; simp
  · rcases Nat.lt_or_ge i (base + vs.length) with h' | h'
    · rw [if_neg (by omega), if_pos h, if_neg (by omega), if_pos ⟨h, h'⟩]; simp
    · rw [if_neg (by omega), if_pos h, if_pos h', if_neg (by omega),
        List.getElem?_eq_none (by omega)]; simp

theorem Store.read?_write_of_lt (b : Store α) {base i : Nat} (vs : List α) (h : i < base) :
    Store.read? (Store.write b base vs) i = Store.read? b i := by
  rw [Store.read?_write, if_neg (by omega)]

theorem Store.read?_write_of_ge (b : Store α) {base i : Nat} (vs : List α) (h : base + vs.length ≤ i) :
    Store.read? (Store.write b base vs) i = Store.read? b i := by
  rw [Store.read?_write, if_neg (by omega)]

/-- A write of a single element. -/
theorem Store.read?_write_single (b : Store α) (j : Nat) (v : α) (i : Nat) :
    Store.read? (Store.write b j [v]) i = if i = j then some v else Store.read? b i := by
  rw [Store.read?_write]
  by_cases h : i = j
  · subst h; simp
  · rw [if_neg (by simp; omega), if_neg h]

/-- Single writes leave every index they do not name alone. -/
theorem Store.read?_writeEach_of_not_mem (us : List (Nat × α)) (b : Store α) (i : Nat)
    (h : ∀ u ∈ us, u.1 ≠ i) : Store.read? (Store.writeEach b us) i = Store.read? b i := by
  induction us generalizing b with
  | nil => rfl
  | cons u us ih =>
    rw [Store.writeEach, List.foldl_cons, ← Store.writeEach, ih _ fun v hv => h v (by simp [hv]),
      Store.read?_write_single, if_neg (h u (by simp)).symm]

/-- Single writes at distinct indices are each read back. -/
theorem Store.read?_writeEach_of_mem (us : List (Nat × α)) (b : Store α) (u : Nat × α)
    (hn : (us.map Prod.fst).Nodup) (h : u ∈ us) :
    Store.read? (Store.writeEach b us) u.1 = some u.2 := by
  induction us generalizing b with
  | nil => simp at h
  | cons v us ih =>
    rw [List.map_cons, List.nodup_cons] at hn
    rw [Store.writeEach, List.foldl_cons, ← Store.writeEach]
    rcases List.mem_cons.1 h with rfl | h
    · rw [Store.read?_writeEach_of_not_mem, Store.read?_write_single, if_pos rfl]
      exact fun w hw e => hn.1 (e ▸ List.mem_map_of_mem hw)
    · exact ih _ hn.2 h

/-! ### The canonical form -/

/-- The canonical form, as the order of the indices. -/
theorem Store.wf_iff (b : Store α) : Store.wf b = true ↔ b.Pairwise fun c d => c.1 < d.1 := by
  induction b with
  | nil => simp [Store.wf]
  | cons c b ih =>
    cases b with
    | nil => simp [Store.wf]
    | cons d b =>
      rw [Store.wf, Bool.and_eq_true, decide_eq_true_eq, ih, List.pairwise_cons (l := d :: b)]
      refine and_congr_left fun h => ?_
      constructor
      · intro hcd e he
        rcases List.mem_cons.1 he with rfl | he
        · exact hcd
        · exact hcd.trans ((List.pairwise_cons.1 h).1 e he)
      · exact fun h' => h' d (by simp)

theorem Store.mem_cells {vs : List α} {base : Nat} {c : Nat × α} (h : c ∈ Store.cells base vs) :
    base ≤ c.1 ∧ c.1 < base + vs.length := by
  induction vs generalizing base with
  | nil => simp [Store.cells] at h
  | cons v vs ih =>
    rw [Store.cells, List.mem_cons] at h
    rcases h with rfl | h
    · simp
    · have := ih h; simp only [List.length_cons]; omega

theorem Store.cells_sorted (vs : List α) (base : Nat) :
    (Store.cells base vs).Pairwise fun c d => c.1 < d.1 := by
  induction vs generalizing base with
  | nil => simp [Store.cells]
  | cons v vs ih =>
    rw [Store.cells, List.pairwise_cons]
    exact ⟨fun c hc => (Store.mem_cells hc).1, ih _⟩

/-- A write keeps the canonical form. -/
theorem Store.wf_write {b : Store α} (h : Store.wf b = true) (base : Nat) (vs : List α) :
    Store.wf (Store.write b base vs) = true := by
  rw [Store.wf_iff] at h ⊢
  rw [Store.write, List.pairwise_append, List.pairwise_append]
  refine ⟨⟨h.filter _, Store.cells_sorted vs base, fun c hc d hd => ?_⟩, h.filter _,
    fun c hc d hd => ?_⟩
  · have hc := (List.mem_filter.1 hc).2
    have hd := Store.mem_cells hd
    simp only [decide_eq_true_eq] at hc
    omega
  · have hd := (List.mem_filter.1 hd).2
    simp only [decide_eq_true_eq] at hd
    rcases List.mem_append.1 hc with hc | hc
    · have hc := (List.mem_filter.1 hc).2
      simp only [decide_eq_true_eq] at hc
      omega
    · have := Store.mem_cells hc
      omega

/-- Single writes keep the canonical form. -/
theorem Store.wf_writeEach (us : List (Nat × α)) {b : Store α} (h : Store.wf b = true) :
    Store.wf (Store.writeEach b us) = true := by
  induction us generalizing b with
  | nil => exact h
  | cons u us ih => exact ih (Store.wf_write h _ _)

/-- Stores in canonical form that read alike are equal. -/
theorem Store.eq_of_read? {a b : Store α} (ha : Store.wf a = true) (hb : Store.wf b = true)
    (h : ∀ i, Store.read? a i = Store.read? b i) : a = b := by
  rw [Store.wf_iff] at ha hb
  induction a generalizing b with
  | nil =>
    cases b with
    | nil => rfl
    | cons d b => simpa [Store.read?_cons] using h d.1
  | cons c a ih =>
    cases b with
    | nil => simpa [Store.read?_cons] using h c.1
    | cons d b =>
      rw [List.pairwise_cons] at ha hb
      have key : ∀ (e : Nat × α) (l : Store α) (i : Nat), (∀ x ∈ l, e.1 < x.1) → i ≤ e.1 →
          Store.read? l i = none := by
        intro e l i hl hi
        simp only [Store.read?, Option.map_eq_none_iff, List.find?_eq_none, beq_iff_eq]
        intro x hx; have := hl x hx; omega
      have hcd : c.1 = d.1 := by
        rcases Nat.lt_trichotomy c.1 d.1 with hlt | heq | hgt
        · have := h c.1
          rw [Store.read?_cons, if_pos rfl, Store.read?_cons, if_neg (by omega),
            key d b c.1 hb.1 (by omega)] at this
          simp at this
        · exact heq
        · have := h d.1
          rw [Store.read?_cons, if_neg (by omega), key c a d.1 ha.1 (by omega), Store.read?_cons,
            if_pos rfl] at this
          simp at this
      have hv : c.2 = d.2 := by
        have := h c.1
        rwa [Store.read?_cons, if_pos rfl, Store.read?_cons, if_pos hcd.symm, Option.some.injEq] at this
      rw [Prod.ext hcd hv]
      refine congrArg _ (ih ha.2 hb.2 fun i => ?_)
      have := h i
      rw [Store.read?_cons, Store.read?_cons, hcd, hv] at this
      by_cases hi : d.1 = i
      · rw [key c a i ha.1 (by omega), key d b i hb.1 (by omega)]
      · rwa [if_neg hi, if_neg hi] at this

end Sys2Proof.Machine
end

