-- ==== Sys2Proof/Laws/Memory.lean ====
section
/-! SUPPORT. What the element reads give after each named update, and that every write keeps the buffers
in canonical form. -/

namespace Sys2Proof.Machine

/-! ### `rgbAt` -/

@[simp] theorem rgbAt_setFlag (f : Flag) (s : State) (i : Nat) : rgbAt (setFlag f s) i = rgbAt s i := rfl
@[simp] theorem rgbAt_clearFlag (f : Flag) (s : State) (i : Nat) : rgbAt (clearFlag f s) i = rgbAt s i := rfl
@[simp] theorem rgbAt_diag (d : Diag) (s : State) (i : Nat) : rgbAt (diag d s) i = rgbAt s i := rfl
@[simp] theorem rgbAt_beginCommand (s : State) (i : Nat) : rgbAt (beginCommand s) i = rgbAt s i := rfl
@[simp] theorem rgbAt_reply (v : Word) (s : State) (i : Nat) : rgbAt (reply v s) i = rgbAt s i := rfl
@[simp] theorem rgbAt_withCommand (v : Word) (s : State) (i : Nat) : rgbAt (withCommand v s) i = rgbAt s i := rfl
@[simp] theorem rgbAt_writeYcc (j : Nat) (vs : List Byte) (s : State) (i : Nat) :
    rgbAt (writeYcc j vs s) i = rgbAt s i := rfl
@[simp] theorem rgbAt_writeDctb (j : Nat) (vs : List Word) (s : State) (i : Nat) :
    rgbAt (writeDctb j vs s) i = rgbAt s i := rfl
@[simp] theorem rgbAt_writeQb (j : Nat) (vs : List Word) (s : State) (i : Nat) :
    rgbAt (writeQb j vs s) i = rgbAt s i := rfl
@[simp] theorem rgbAt_writeZz (j : Nat) (vs : List Word) (s : State) (i : Nat) :
    rgbAt (writeZz j vs s) i = rgbAt s i := rfl
@[simp] theorem rgbAt_writeRle (j : Nat) (vs : List Word) (s : State) (i : Nat) :
    rgbAt (writeRle j vs s) i = rgbAt s i := rfl
@[simp] theorem rgbAt_writeFreq (j : Nat) (vs : List Word) (s : State) (i : Nat) :
    rgbAt (writeFreq j vs s) i = rgbAt s i := rfl
@[simp] theorem rgbAt_writePay (j : Nat) (vs : List Byte) (s : State) (i : Nat) :
    rgbAt (writePay j vs s) i = rgbAt s i := rfl
@[simp] theorem rgbAt_writeCont (j : Nat) (vs : List Byte) (s : State) (i : Nat) :
    rgbAt (writeCont j vs s) i = rgbAt s i := rfl
@[simp] theorem rgbAt_writeMsg (j : Nat) (vs : List Byte) (s : State) (i : Nat) :
    rgbAt (writeMsg j vs s) i = rgbAt s i := rfl
@[simp] theorem rgbAt_writeQbEach (us : List (Nat × Word)) (s : State) (i : Nat) :
    rgbAt (writeQbEach us s) i = rgbAt s i := rfl

/-- Inside the written range the written value is read, outside it what was there. -/
theorem rgbAt_writeRgb (j : Nat) (vs : List Byte) (s : State) (i : Nat) :
    rgbAt (writeRgb j vs s) i =
      if h : j ≤ i ∧ i < j + vs.length then vs[i - j]'(by omega) else rgbAt s i := by
  unfold rgbAt byteElem
  rw [writeRgb_mem_rgb, Store.read?_write]
  split
  · rw [List.getElem?_eq_getElem (by omega), Option.getD_some]
  · rfl

/-! ### `yccAt` -/

@[simp] theorem yccAt_setFlag (f : Flag) (s : State) (i : Nat) : yccAt (setFlag f s) i = yccAt s i := rfl
@[simp] theorem yccAt_clearFlag (f : Flag) (s : State) (i : Nat) : yccAt (clearFlag f s) i = yccAt s i := rfl
@[simp] theorem yccAt_diag (d : Diag) (s : State) (i : Nat) : yccAt (diag d s) i = yccAt s i := rfl
@[simp] theorem yccAt_beginCommand (s : State) (i : Nat) : yccAt (beginCommand s) i = yccAt s i := rfl
@[simp] theorem yccAt_reply (v : Word) (s : State) (i : Nat) : yccAt (reply v s) i = yccAt s i := rfl
@[simp] theorem yccAt_withCommand (v : Word) (s : State) (i : Nat) : yccAt (withCommand v s) i = yccAt s i := rfl
@[simp] theorem yccAt_writeRgb (j : Nat) (vs : List Byte) (s : State) (i : Nat) :
    yccAt (writeRgb j vs s) i = yccAt s i := rfl
@[simp] theorem yccAt_writeDctb (j : Nat) (vs : List Word) (s : State) (i : Nat) :
    yccAt (writeDctb j vs s) i = yccAt s i := rfl
@[simp] theorem yccAt_writeQb (j : Nat) (vs : List Word) (s : State) (i : Nat) :
    yccAt (writeQb j vs s) i = yccAt s i := rfl
@[simp] theorem yccAt_writeZz (j : Nat) (vs : List Word) (s : State) (i : Nat) :
    yccAt (writeZz j vs s) i = yccAt s i := rfl
@[simp] theorem yccAt_writeRle (j : Nat) (vs : List Word) (s : State) (i : Nat) :
    yccAt (writeRle j vs s) i = yccAt s i := rfl
@[simp] theorem yccAt_writeFreq (j : Nat) (vs : List Word) (s : State) (i : Nat) :
    yccAt (writeFreq j vs s) i = yccAt s i := rfl
@[simp] theorem yccAt_writePay (j : Nat) (vs : List Byte) (s : State) (i : Nat) :
    yccAt (writePay j vs s) i = yccAt s i := rfl
@[simp] theorem yccAt_writeCont (j : Nat) (vs : List Byte) (s : State) (i : Nat) :
    yccAt (writeCont j vs s) i = yccAt s i := rfl
@[simp] theorem yccAt_writeMsg (j : Nat) (vs : List Byte) (s : State) (i : Nat) :
    yccAt (writeMsg j vs s) i = yccAt s i := rfl
@[simp] theorem yccAt_writeQbEach (us : List (Nat × Word)) (s : State) (i : Nat) :
    yccAt (writeQbEach us s) i = yccAt s i := rfl

/-- Inside the written range the written value is read, outside it what was there. -/
theorem yccAt_writeYcc (j : Nat) (vs : List Byte) (s : State) (i : Nat) :
    yccAt (writeYcc j vs s) i =
      if h : j ≤ i ∧ i < j + vs.length then vs[i - j]'(by omega) else yccAt s i := by
  unfold yccAt byteElem
  rw [writeYcc_mem_ycc, Store.read?_write]
  split
  · rw [List.getElem?_eq_getElem (by omega), Option.getD_some]
  · rfl

/-! ### `dctbAt` -/

@[simp] theorem dctbAt_setFlag (f : Flag) (s : State) (i : Nat) : dctbAt (setFlag f s) i = dctbAt s i := rfl
@[simp] theorem dctbAt_clearFlag (f : Flag) (s : State) (i : Nat) : dctbAt (clearFlag f s) i = dctbAt s i := rfl
@[simp] theorem dctbAt_diag (d : Diag) (s : State) (i : Nat) : dctbAt (diag d s) i = dctbAt s i := rfl
@[simp] theorem dctbAt_beginCommand (s : State) (i : Nat) : dctbAt (beginCommand s) i = dctbAt s i := rfl
@[simp] theorem dctbAt_reply (v : Word) (s : State) (i : Nat) : dctbAt (reply v s) i = dctbAt s i := rfl
@[simp] theorem dctbAt_withCommand (v : Word) (s : State) (i : Nat) : dctbAt (withCommand v s) i = dctbAt s i := rfl
@[simp] theorem dctbAt_writeRgb (j : Nat) (vs : List Byte) (s : State) (i : Nat) :
    dctbAt (writeRgb j vs s) i = dctbAt s i := rfl
@[simp] theorem dctbAt_writeYcc (j : Nat) (vs : List Byte) (s : State) (i : Nat) :
    dctbAt (writeYcc j vs s) i = dctbAt s i := rfl
@[simp] theorem dctbAt_writeQb (j : Nat) (vs : List Word) (s : State) (i : Nat) :
    dctbAt (writeQb j vs s) i = dctbAt s i := rfl
@[simp] theorem dctbAt_writeZz (j : Nat) (vs : List Word) (s : State) (i : Nat) :
    dctbAt (writeZz j vs s) i = dctbAt s i := rfl
@[simp] theorem dctbAt_writeRle (j : Nat) (vs : List Word) (s : State) (i : Nat) :
    dctbAt (writeRle j vs s) i = dctbAt s i := rfl
@[simp] theorem dctbAt_writeFreq (j : Nat) (vs : List Word) (s : State) (i : Nat) :
    dctbAt (writeFreq j vs s) i = dctbAt s i := rfl
@[simp] theorem dctbAt_writePay (j : Nat) (vs : List Byte) (s : State) (i : Nat) :
    dctbAt (writePay j vs s) i = dctbAt s i := rfl
@[simp] theorem dctbAt_writeCont (j : Nat) (vs : List Byte) (s : State) (i : Nat) :
    dctbAt (writeCont j vs s) i = dctbAt s i := rfl
@[simp] theorem dctbAt_writeMsg (j : Nat) (vs : List Byte) (s : State) (i : Nat) :
    dctbAt (writeMsg j vs s) i = dctbAt s i := rfl
@[simp] theorem dctbAt_writeQbEach (us : List (Nat × Word)) (s : State) (i : Nat) :
    dctbAt (writeQbEach us s) i = dctbAt s i := rfl

/-- Inside the written range the written value is read, outside it what was there. -/
theorem dctbAt_writeDctb (j : Nat) (vs : List Word) (s : State) (i : Nat) :
    dctbAt (writeDctb j vs s) i =
      if h : j ≤ i ∧ i < j + vs.length then vs[i - j]'(by omega) else dctbAt s i := by
  unfold dctbAt wordElem
  rw [writeDctb_mem_dctb, Store.read?_write]
  split
  · rw [List.getElem?_eq_getElem (by omega), Option.getD_some]
  · rfl

/-! ### `qbAt` -/

@[simp] theorem qbAt_setFlag (f : Flag) (s : State) (i : Nat) : qbAt (setFlag f s) i = qbAt s i := rfl
@[simp] theorem qbAt_clearFlag (f : Flag) (s : State) (i : Nat) : qbAt (clearFlag f s) i = qbAt s i := rfl
@[simp] theorem qbAt_diag (d : Diag) (s : State) (i : Nat) : qbAt (diag d s) i = qbAt s i := rfl
@[simp] theorem qbAt_beginCommand (s : State) (i : Nat) : qbAt (beginCommand s) i = qbAt s i := rfl
@[simp] theorem qbAt_reply (v : Word) (s : State) (i : Nat) : qbAt (reply v s) i = qbAt s i := rfl
@[simp] theorem qbAt_withCommand (v : Word) (s : State) (i : Nat) : qbAt (withCommand v s) i = qbAt s i := rfl
@[simp] theorem qbAt_writeRgb (j : Nat) (vs : List Byte) (s : State) (i : Nat) :
    qbAt (writeRgb j vs s) i = qbAt s i := rfl
@[simp] theorem qbAt_writeYcc (j : Nat) (vs : List Byte) (s : State) (i : Nat) :
    qbAt (writeYcc j vs s) i = qbAt s i := rfl
@[simp] theorem qbAt_writeDctb (j : Nat) (vs : List Word) (s : State) (i : Nat) :
    qbAt (writeDctb j vs s) i = qbAt s i := rfl
@[simp] theorem qbAt_writeZz (j : Nat) (vs : List Word) (s : State) (i : Nat) :
    qbAt (writeZz j vs s) i = qbAt s i := rfl
@[simp] theorem qbAt_writeRle (j : Nat) (vs : List Word) (s : State) (i : Nat) :
    qbAt (writeRle j vs s) i = qbAt s i := rfl
@[simp] theorem qbAt_writeFreq (j : Nat) (vs : List Word) (s : State) (i : Nat) :
    qbAt (writeFreq j vs s) i = qbAt s i := rfl
@[simp] theorem qbAt_writePay (j : Nat) (vs : List Byte) (s : State) (i : Nat) :
    qbAt (writePay j vs s) i = qbAt s i := rfl
@[simp] theorem qbAt_writeCont (j : Nat) (vs : List Byte) (s : State) (i : Nat) :
    qbAt (writeCont j vs s) i = qbAt s i := rfl
@[simp] theorem qbAt_writeMsg (j : Nat) (vs : List Byte) (s : State) (i : Nat) :
    qbAt (writeMsg j vs s) i = qbAt s i := rfl

/-- Inside the written range the written value is read, outside it what was there. -/
theorem qbAt_writeQb (j : Nat) (vs : List Word) (s : State) (i : Nat) :
    qbAt (writeQb j vs s) i =
      if h : j ≤ i ∧ i < j + vs.length then vs[i - j]'(by omega) else qbAt s i := by
  unfold qbAt wordElem
  rw [writeQb_mem_qb, Store.read?_write]
  split
  · rw [List.getElem?_eq_getElem (by omega), Option.getD_some]
  · rfl

/-! ### `zzAt` -/

@[simp] theorem zzAt_setFlag (f : Flag) (s : State) (i : Nat) : zzAt (setFlag f s) i = zzAt s i := rfl
@[simp] theorem zzAt_clearFlag (f : Flag) (s : State) (i : Nat) : zzAt (clearFlag f s) i = zzAt s i := rfl
@[simp] theorem zzAt_diag (d : Diag) (s : State) (i : Nat) : zzAt (diag d s) i = zzAt s i := rfl
@[simp] theorem zzAt_beginCommand (s : State) (i : Nat) : zzAt (beginCommand s) i = zzAt s i := rfl
@[simp] theorem zzAt_reply (v : Word) (s : State) (i : Nat) : zzAt (reply v s) i = zzAt s i := rfl
@[simp] theorem zzAt_withCommand (v : Word) (s : State) (i : Nat) : zzAt (withCommand v s) i = zzAt s i := rfl
@[simp] theorem zzAt_writeRgb (j : Nat) (vs : List Byte) (s : State) (i : Nat) :
    zzAt (writeRgb j vs s) i = zzAt s i := rfl
@[simp] theorem zzAt_writeYcc (j : Nat) (vs : List Byte) (s : State) (i : Nat) :
    zzAt (writeYcc j vs s) i = zzAt s i := rfl
@[simp] theorem zzAt_writeDctb (j : Nat) (vs : List Word) (s : State) (i : Nat) :
    zzAt (writeDctb j vs s) i = zzAt s i := rfl
@[simp] theorem zzAt_writeQb (j : Nat) (vs : List Word) (s : State) (i : Nat) :
    zzAt (writeQb j vs s) i = zzAt s i := rfl
@[simp] theorem zzAt_writeRle (j : Nat) (vs : List Word) (s : State) (i : Nat) :
    zzAt (writeRle j vs s) i = zzAt s i := rfl
@[simp] theorem zzAt_writeFreq (j : Nat) (vs : List Word) (s : State) (i : Nat) :
    zzAt (writeFreq j vs s) i = zzAt s i := rfl
@[simp] theorem zzAt_writePay (j : Nat) (vs : List Byte) (s : State) (i : Nat) :
    zzAt (writePay j vs s) i = zzAt s i := rfl
@[simp] theorem zzAt_writeCont (j : Nat) (vs : List Byte) (s : State) (i : Nat) :
    zzAt (writeCont j vs s) i = zzAt s i := rfl
@[simp] theorem zzAt_writeMsg (j : Nat) (vs : List Byte) (s : State) (i : Nat) :
    zzAt (writeMsg j vs s) i = zzAt s i := rfl
@[simp] theorem zzAt_writeQbEach (us : List (Nat × Word)) (s : State) (i : Nat) :
    zzAt (writeQbEach us s) i = zzAt s i := rfl

/-- Inside the written range the written value is read, outside it what was there. -/
theorem zzAt_writeZz (j : Nat) (vs : List Word) (s : State) (i : Nat) :
    zzAt (writeZz j vs s) i =
      if h : j ≤ i ∧ i < j + vs.length then vs[i - j]'(by omega) else zzAt s i := by
  unfold zzAt wordElem
  rw [writeZz_mem_zz, Store.read?_write]
  split
  · rw [List.getElem?_eq_getElem (by omega), Option.getD_some]
  · rfl

/-! ### `rleAt` -/

@[simp] theorem rleAt_setFlag (f : Flag) (s : State) (i : Nat) : rleAt (setFlag f s) i = rleAt s i := rfl
@[simp] theorem rleAt_clearFlag (f : Flag) (s : State) (i : Nat) : rleAt (clearFlag f s) i = rleAt s i := rfl
@[simp] theorem rleAt_diag (d : Diag) (s : State) (i : Nat) : rleAt (diag d s) i = rleAt s i := rfl
@[simp] theorem rleAt_beginCommand (s : State) (i : Nat) : rleAt (beginCommand s) i = rleAt s i := rfl
@[simp] theorem rleAt_reply (v : Word) (s : State) (i : Nat) : rleAt (reply v s) i = rleAt s i := rfl
@[simp] theorem rleAt_withCommand (v : Word) (s : State) (i : Nat) : rleAt (withCommand v s) i = rleAt s i := rfl
@[simp] theorem rleAt_writeRgb (j : Nat) (vs : List Byte) (s : State) (i : Nat) :
    rleAt (writeRgb j vs s) i = rleAt s i := rfl
@[simp] theorem rleAt_writeYcc (j : Nat) (vs : List Byte) (s : State) (i : Nat) :
    rleAt (writeYcc j vs s) i = rleAt s i := rfl
@[simp] theorem rleAt_writeDctb (j : Nat) (vs : List Word) (s : State) (i : Nat) :
    rleAt (writeDctb j vs s) i = rleAt s i := rfl
@[simp] theorem rleAt_writeQb (j : Nat) (vs : List Word) (s : State) (i : Nat) :
    rleAt (writeQb j vs s) i = rleAt s i := rfl
@[simp] theorem rleAt_writeZz (j : Nat) (vs : List Word) (s : State) (i : Nat) :
    rleAt (writeZz j vs s) i = rleAt s i := rfl
@[simp] theorem rleAt_writeFreq (j : Nat) (vs : List Word) (s : State) (i : Nat) :
    rleAt (writeFreq j vs s) i = rleAt s i := rfl
@[simp] theorem rleAt_writePay (j : Nat) (vs : List Byte) (s : State) (i : Nat) :
    rleAt (writePay j vs s) i = rleAt s i := rfl
@[simp] theorem rleAt_writeCont (j : Nat) (vs : List Byte) (s : State) (i : Nat) :
    rleAt (writeCont j vs s) i = rleAt s i := rfl
@[simp] theorem rleAt_writeMsg (j : Nat) (vs : List Byte) (s : State) (i : Nat) :
    rleAt (writeMsg j vs s) i = rleAt s i := rfl
@[simp] theorem rleAt_writeQbEach (us : List (Nat × Word)) (s : State) (i : Nat) :
    rleAt (writeQbEach us s) i = rleAt s i := rfl

/-- Inside the written range the written value is read, outside it what was there. -/
theorem rleAt_writeRle (j : Nat) (vs : List Word) (s : State) (i : Nat) :
    rleAt (writeRle j vs s) i =
      if h : j ≤ i ∧ i < j + vs.length then vs[i - j]'(by omega) else rleAt s i := by
  unfold rleAt wordElem
  rw [writeRle_mem_rle, Store.read?_write]
  split
  · rw [List.getElem?_eq_getElem (by omega), Option.getD_some]
  · rfl

/-! ### `freqAt` -/

@[simp] theorem freqAt_setFlag (f : Flag) (s : State) (i : Nat) : freqAt (setFlag f s) i = freqAt s i := rfl
@[simp] theorem freqAt_clearFlag (f : Flag) (s : State) (i : Nat) : freqAt (clearFlag f s) i = freqAt s i := rfl
@[simp] theorem freqAt_diag (d : Diag) (s : State) (i : Nat) : freqAt (diag d s) i = freqAt s i := rfl
@[simp] theorem freqAt_beginCommand (s : State) (i : Nat) : freqAt (beginCommand s) i = freqAt s i := rfl
@[simp] theorem freqAt_reply (v : Word) (s : State) (i : Nat) : freqAt (reply v s) i = freqAt s i := rfl
@[simp] theorem freqAt_withCommand (v : Word) (s : State) (i : Nat) : freqAt (withCommand v s) i = freqAt s i := rfl
@[simp] theorem freqAt_writeRgb (j : Nat) (vs : List Byte) (s : State) (i : Nat) :
    freqAt (writeRgb j vs s) i = freqAt s i := rfl
@[simp] theorem freqAt_writeYcc (j : Nat) (vs : List Byte) (s : State) (i : Nat) :
    freqAt (writeYcc j vs s) i = freqAt s i := rfl
@[simp] theorem freqAt_writeDctb (j : Nat) (vs : List Word) (s : State) (i : Nat) :
    freqAt (writeDctb j vs s) i = freqAt s i := rfl
@[simp] theorem freqAt_writeQb (j : Nat) (vs : List Word) (s : State) (i : Nat) :
    freqAt (writeQb j vs s) i = freqAt s i := rfl
@[simp] theorem freqAt_writeZz (j : Nat) (vs : List Word) (s : State) (i : Nat) :
    freqAt (writeZz j vs s) i = freqAt s i := rfl
@[simp] theorem freqAt_writeRle (j : Nat) (vs : List Word) (s : State) (i : Nat) :
    freqAt (writeRle j vs s) i = freqAt s i := rfl
@[simp] theorem freqAt_writePay (j : Nat) (vs : List Byte) (s : State) (i : Nat) :
    freqAt (writePay j vs s) i = freqAt s i := rfl
@[simp] theorem freqAt_writeCont (j : Nat) (vs : List Byte) (s : State) (i : Nat) :
    freqAt (writeCont j vs s) i = freqAt s i := rfl
@[simp] theorem freqAt_writeMsg (j : Nat) (vs : List Byte) (s : State) (i : Nat) :
    freqAt (writeMsg j vs s) i = freqAt s i := rfl
@[simp] theorem freqAt_writeQbEach (us : List (Nat × Word)) (s : State) (i : Nat) :
    freqAt (writeQbEach us s) i = freqAt s i := rfl

/-- Inside the written range the written value is read, outside it what was there. -/
theorem freqAt_writeFreq (j : Nat) (vs : List Word) (s : State) (i : Nat) :
    freqAt (writeFreq j vs s) i =
      if h : j ≤ i ∧ i < j + vs.length then vs[i - j]'(by omega) else freqAt s i := by
  unfold freqAt wordElem
  rw [writeFreq_mem_freq, Store.read?_write]
  split
  · rw [List.getElem?_eq_getElem (by omega), Option.getD_some]
  · rfl

/-! ### `payAt` -/

@[simp] theorem payAt_setFlag (f : Flag) (s : State) (i : Nat) : payAt (setFlag f s) i = payAt s i := rfl
@[simp] theorem payAt_clearFlag (f : Flag) (s : State) (i : Nat) : payAt (clearFlag f s) i = payAt s i := rfl
@[simp] theorem payAt_diag (d : Diag) (s : State) (i : Nat) : payAt (diag d s) i = payAt s i := rfl
@[simp] theorem payAt_beginCommand (s : State) (i : Nat) : payAt (beginCommand s) i = payAt s i := rfl
@[simp] theorem payAt_reply (v : Word) (s : State) (i : Nat) : payAt (reply v s) i = payAt s i := rfl
@[simp] theorem payAt_withCommand (v : Word) (s : State) (i : Nat) : payAt (withCommand v s) i = payAt s i := rfl
@[simp] theorem payAt_writeRgb (j : Nat) (vs : List Byte) (s : State) (i : Nat) :
    payAt (writeRgb j vs s) i = payAt s i := rfl
@[simp] theorem payAt_writeYcc (j : Nat) (vs : List Byte) (s : State) (i : Nat) :
    payAt (writeYcc j vs s) i = payAt s i := rfl
@[simp] theorem payAt_writeDctb (j : Nat) (vs : List Word) (s : State) (i : Nat) :
    payAt (writeDctb j vs s) i = payAt s i := rfl
@[simp] theorem payAt_writeQb (j : Nat) (vs : List Word) (s : State) (i : Nat) :
    payAt (writeQb j vs s) i = payAt s i := rfl
@[simp] theorem payAt_writeZz (j : Nat) (vs : List Word) (s : State) (i : Nat) :
    payAt (writeZz j vs s) i = payAt s i := rfl
@[simp] theorem payAt_writeRle (j : Nat) (vs : List Word) (s : State) (i : Nat) :
    payAt (writeRle j vs s) i = payAt s i := rfl
@[simp] theorem payAt_writeFreq (j : Nat) (vs : List Word) (s : State) (i : Nat) :
    payAt (writeFreq j vs s) i = payAt s i := rfl
@[simp] theorem payAt_writeCont (j : Nat) (vs : List Byte) (s : State) (i : Nat) :
    payAt (writeCont j vs s) i = payAt s i := rfl
@[simp] theorem payAt_writeMsg (j : Nat) (vs : List Byte) (s : State) (i : Nat) :
    payAt (writeMsg j vs s) i = payAt s i := rfl
@[simp] theorem payAt_writeQbEach (us : List (Nat × Word)) (s : State) (i : Nat) :
    payAt (writeQbEach us s) i = payAt s i := rfl

/-- Inside the written range the written value is read, outside it what was there. -/
theorem payAt_writePay (j : Nat) (vs : List Byte) (s : State) (i : Nat) :
    payAt (writePay j vs s) i =
      if h : j ≤ i ∧ i < j + vs.length then vs[i - j]'(by omega) else payAt s i := by
  unfold payAt byteElem
  rw [writePay_mem_pay, Store.read?_write]
  split
  · rw [List.getElem?_eq_getElem (by omega), Option.getD_some]
  · rfl

/-! ### `contAt` -/

@[simp] theorem contAt_setFlag (f : Flag) (s : State) (i : Nat) : contAt (setFlag f s) i = contAt s i := rfl
@[simp] theorem contAt_clearFlag (f : Flag) (s : State) (i : Nat) : contAt (clearFlag f s) i = contAt s i := rfl
@[simp] theorem contAt_diag (d : Diag) (s : State) (i : Nat) : contAt (diag d s) i = contAt s i := rfl
@[simp] theorem contAt_beginCommand (s : State) (i : Nat) : contAt (beginCommand s) i = contAt s i := rfl
@[simp] theorem contAt_reply (v : Word) (s : State) (i : Nat) : contAt (reply v s) i = contAt s i := rfl
@[simp] theorem contAt_withCommand (v : Word) (s : State) (i : Nat) : contAt (withCommand v s) i = contAt s i := rfl
@[simp] theorem contAt_writeRgb (j : Nat) (vs : List Byte) (s : State) (i : Nat) :
    contAt (writeRgb j vs s) i = contAt s i := rfl
@[simp] theorem contAt_writeYcc (j : Nat) (vs : List Byte) (s : State) (i : Nat) :
    contAt (writeYcc j vs s) i = contAt s i := rfl
@[simp] theorem contAt_writeDctb (j : Nat) (vs : List Word) (s : State) (i : Nat) :
    contAt (writeDctb j vs s) i = contAt s i := rfl
@[simp] theorem contAt_writeQb (j : Nat) (vs : List Word) (s : State) (i : Nat) :
    contAt (writeQb j vs s) i = contAt s i := rfl
@[simp] theorem contAt_writeZz (j : Nat) (vs : List Word) (s : State) (i : Nat) :
    contAt (writeZz j vs s) i = contAt s i := rfl
@[simp] theorem contAt_writeRle (j : Nat) (vs : List Word) (s : State) (i : Nat) :
    contAt (writeRle j vs s) i = contAt s i := rfl
@[simp] theorem contAt_writeFreq (j : Nat) (vs : List Word) (s : State) (i : Nat) :
    contAt (writeFreq j vs s) i = contAt s i := rfl
@[simp] theorem contAt_writePay (j : Nat) (vs : List Byte) (s : State) (i : Nat) :
    contAt (writePay j vs s) i = contAt s i := rfl
@[simp] theorem contAt_writeMsg (j : Nat) (vs : List Byte) (s : State) (i : Nat) :
    contAt (writeMsg j vs s) i = contAt s i := rfl
@[simp] theorem contAt_writeQbEach (us : List (Nat × Word)) (s : State) (i : Nat) :
    contAt (writeQbEach us s) i = contAt s i := rfl

/-- Inside the written range the written value is read, outside it what was there. -/
theorem contAt_writeCont (j : Nat) (vs : List Byte) (s : State) (i : Nat) :
    contAt (writeCont j vs s) i =
      if h : j ≤ i ∧ i < j + vs.length then vs[i - j]'(by omega) else contAt s i := by
  unfold contAt byteElem
  rw [writeCont_mem_cont, Store.read?_write]
  split
  · rw [List.getElem?_eq_getElem (by omega), Option.getD_some]
  · rfl

/-! ### `msgAt` -/

@[simp] theorem msgAt_setFlag (f : Flag) (s : State) (i : Nat) : msgAt (setFlag f s) i = msgAt s i := rfl
@[simp] theorem msgAt_clearFlag (f : Flag) (s : State) (i : Nat) : msgAt (clearFlag f s) i = msgAt s i := rfl
@[simp] theorem msgAt_diag (d : Diag) (s : State) (i : Nat) : msgAt (diag d s) i = msgAt s i := rfl
@[simp] theorem msgAt_beginCommand (s : State) (i : Nat) : msgAt (beginCommand s) i = msgAt s i := rfl
@[simp] theorem msgAt_reply (v : Word) (s : State) (i : Nat) : msgAt (reply v s) i = msgAt s i := rfl
@[simp] theorem msgAt_withCommand (v : Word) (s : State) (i : Nat) : msgAt (withCommand v s) i = msgAt s i := rfl
@[simp] theorem msgAt_writeRgb (j : Nat) (vs : List Byte) (s : State) (i : Nat) :
    msgAt (writeRgb j vs s) i = msgAt s i := rfl
@[simp] theorem msgAt_writeYcc (j : Nat) (vs : List Byte) (s : State) (i : Nat) :
    msgAt (writeYcc j vs s) i = msgAt s i := rfl
@[simp] theorem msgAt_writeDctb (j : Nat) (vs : List Word) (s : State) (i : Nat) :
    msgAt (writeDctb j vs s) i = msgAt s i := rfl
@[simp] theorem msgAt_writeQb (j : Nat) (vs : List Word) (s : State) (i : Nat) :
    msgAt (writeQb j vs s) i = msgAt s i := rfl
@[simp] theorem msgAt_writeZz (j : Nat) (vs : List Word) (s : State) (i : Nat) :
    msgAt (writeZz j vs s) i = msgAt s i := rfl
@[simp] theorem msgAt_writeRle (j : Nat) (vs : List Word) (s : State) (i : Nat) :
    msgAt (writeRle j vs s) i = msgAt s i := rfl
@[simp] theorem msgAt_writeFreq (j : Nat) (vs : List Word) (s : State) (i : Nat) :
    msgAt (writeFreq j vs s) i = msgAt s i := rfl
@[simp] theorem msgAt_writePay (j : Nat) (vs : List Byte) (s : State) (i : Nat) :
    msgAt (writePay j vs s) i = msgAt s i := rfl
@[simp] theorem msgAt_writeCont (j : Nat) (vs : List Byte) (s : State) (i : Nat) :
    msgAt (writeCont j vs s) i = msgAt s i := rfl
@[simp] theorem msgAt_writeQbEach (us : List (Nat × Word)) (s : State) (i : Nat) :
    msgAt (writeQbEach us s) i = msgAt s i := rfl

/-- Inside the written range the written value is read, outside it what was there. -/
theorem msgAt_writeMsg (j : Nat) (vs : List Byte) (s : State) (i : Nat) :
    msgAt (writeMsg j vs s) i =
      if h : j ≤ i ∧ i < j + vs.length then vs[i - j]'(by omega) else msgAt s i := by
  unfold msgAt byteElem
  rw [writeMsg_mem_msg, Store.read?_write]
  split
  · rw [List.getElem?_eq_getElem (by omega), Option.getD_some]
  · rfl

/-! ### The canonical form -/

theorem memory_wf_blank : Memory.wf Memory.blank = true := rfl

theorem reset_memory_wf : Memory.wf State.reset.mem = true := rfl

theorem writeRgb_wf {s : State} (h : Memory.wf s.mem = true) (j : Nat) (vs : List Byte) :
    Memory.wf (writeRgb j vs s).mem = true := by
  simp only [Memory.wf, Bool.and_eq_true] at h ⊢
  simp_all [Store.wf_write]

theorem writeYcc_wf {s : State} (h : Memory.wf s.mem = true) (j : Nat) (vs : List Byte) :
    Memory.wf (writeYcc j vs s).mem = true := by
  simp only [Memory.wf, Bool.and_eq_true] at h ⊢
  simp_all [Store.wf_write]

theorem writeDctb_wf {s : State} (h : Memory.wf s.mem = true) (j : Nat) (vs : List Word) :
    Memory.wf (writeDctb j vs s).mem = true := by
  simp only [Memory.wf, Bool.and_eq_true] at h ⊢
  simp_all [Store.wf_write]

theorem writeQb_wf {s : State} (h : Memory.wf s.mem = true) (j : Nat) (vs : List Word) :
    Memory.wf (writeQb j vs s).mem = true := by
  simp only [Memory.wf, Bool.and_eq_true] at h ⊢
  simp_all [Store.wf_write]

theorem writeZz_wf {s : State} (h : Memory.wf s.mem = true) (j : Nat) (vs : List Word) :
    Memory.wf (writeZz j vs s).mem = true := by
  simp only [Memory.wf, Bool.and_eq_true] at h ⊢
  simp_all [Store.wf_write]

theorem writeRle_wf {s : State} (h : Memory.wf s.mem = true) (j : Nat) (vs : List Word) :
    Memory.wf (writeRle j vs s).mem = true := by
  simp only [Memory.wf, Bool.and_eq_true] at h ⊢
  simp_all [Store.wf_write]

theorem writeFreq_wf {s : State} (h : Memory.wf s.mem = true) (j : Nat) (vs : List Word) :
    Memory.wf (writeFreq j vs s).mem = true := by
  simp only [Memory.wf, Bool.and_eq_true] at h ⊢
  simp_all [Store.wf_write]

theorem writePay_wf {s : State} (h : Memory.wf s.mem = true) (j : Nat) (vs : List Byte) :
    Memory.wf (writePay j vs s).mem = true := by
  simp only [Memory.wf, Bool.and_eq_true] at h ⊢
  simp_all [Store.wf_write]

theorem writeCont_wf {s : State} (h : Memory.wf s.mem = true) (j : Nat) (vs : List Byte) :
    Memory.wf (writeCont j vs s).mem = true := by
  simp only [Memory.wf, Bool.and_eq_true] at h ⊢
  simp_all [Store.wf_write]

theorem writeMsg_wf {s : State} (h : Memory.wf s.mem = true) (j : Nat) (vs : List Byte) :
    Memory.wf (writeMsg j vs s).mem = true := by
  simp only [Memory.wf, Bool.and_eq_true] at h ⊢
  simp_all [Store.wf_write]

theorem writeQbEach_wf {s : State} (h : Memory.wf s.mem = true) (us : List (Nat × Word)) :
    Memory.wf (writeQbEach us s).mem = true := by
  simp only [Memory.wf, Bool.and_eq_true] at h ⊢
  simp_all [Store.wf_writeEach]

end Sys2Proof.Machine
end

