-- ==== Sys2Proof/Laws/Ops.lean ====
section
/-! SUPPORT. One lemma for each shared operation of the commands that says everything it can do, and the
equation of `exec` for each command: proofs cite these and unfold neither the operation nor `exec`. -/

namespace Sys2Proof.Machine

/-! ### Shared operations -/

/-- Every command answers a next state. -/
@[simp] theorem runCommand_eq (rule : State → State) (s : State) :
    runCommand rule s = .next (rule (beginCommand s)) := rfl

/-- All flags set: the body runs. -/
theorem requireFlags_of_all {fs : List Flag} {s : State} (h : ∀ f ∈ fs, getFlag f s = true)
    (body : State → State) : requireFlags fs body s = body s := by
  unfold requireFlags; rw [if_pos (List.all_eq_true.mpr h)]

/-- A flag missing: `E_PRECOND` and nothing else. -/
theorem requireFlags_of_missing {fs : List Flag} {s : State} {f : Flag} (hf : f ∈ fs)
    (h : getFlag f s = false) (body : State → State) : requireFlags fs body s = diag .precond s := by
  unfold requireFlags
  rw [if_neg]
  intro hall
  have := List.all_eq_true.mp hall f hf
  simp [h] at this

/-- What a precondition can do. -/
theorem requireFlags_cases (fs : List Flag) (body : State → State) (s : State) :
    ((∀ f ∈ fs, getFlag f s = true) ∧ requireFlags fs body s = body s)
      ∨ ((∃ f ∈ fs, getFlag f s = false) ∧ requireFlags fs body s = diag .precond s) := by
  by_cases h : ∀ f ∈ fs, getFlag f s = true
  · exact .inl ⟨h, requireFlags_of_all h body⟩
  · push Not at h
    obtain ⟨f, hf, hne⟩ := h
    have h' : getFlag f s = false := by simpa using hne
    exact .inr ⟨⟨f, hf, h'⟩, requireFlags_of_missing hf h' body⟩

/-- The check holds: the body runs. -/
theorem requireParam_of_ok {ok : State → Bool} {s : State} (h : ok s = true) (body : State → State) :
    requireParam ok body s = body s := by
  unfold requireParam; rw [if_pos h]

/-- The check fails: `E_PARAM` and nothing else. -/
theorem requireParam_of_bad {ok : State → Bool} {s : State} (h : ok s = false)
    (body : State → State) : requireParam ok body s = diag .param s := by
  unfold requireParam; simp [h]

/-- What a parameter check can do. -/
theorem requireParam_cases (ok : State → Bool) (body : State → State) (s : State) :
    (ok s = true ∧ requireParam ok body s = body s)
      ∨ (ok s = false ∧ requireParam ok body s = diag .param s) := by
  cases h : ok s
  · exact .inr ⟨rfl, requireParam_of_bad h body⟩
  · exact .inl ⟨rfl, requireParam_of_ok h body⟩

/-- A diagnostic is `diagnosed` with its code. -/
theorem diag_eq_diagnosed (d : Diag) (s : State) : diag d s = diagnosed d.code s := rfl

/-- Recording a diagnostic does not depend on the `LASTDIAG` before it. -/
@[simp] theorem diag_beginCommand (d : Diag) (s : State) : diag d (beginCommand s) = diag d s := rfl

/-- A diagnostic's code is one of 1 to 12 (`60_exceptions.md` R302). -/
theorem Diag.code_range (d : Diag) : 1 ≤ d.code ∧ d.code ≤ 12 := by cases d <;> decide

/-- The code of a diagnostic that a command records is not 0, so a macro stops at it. -/
theorem diag_lastdiag_ne_zero (d : Diag) (s : State) : (diag d s).lastdiag ≠ 0#32 := by
  cases d <;> simp [diag, Diag.code]

/-! ### The macros -/

@[simp] theorem runConstituents_nil (s : State) : runConstituents [] s = s := rfl

/-- A constituent without a diagnostic: the macro goes on. -/
theorem runConstituents_of_clean {c : State → State} {s : State} (h : (c s).lastdiag = 0#32)
    (rest : List (State → State)) : runConstituents (c :: rest) s = runConstituents rest (c s) := by
  simp [runConstituents, h]

/-- A constituent with a diagnostic: the macro ends there. -/
theorem runConstituents_of_diag {c : State → State} {s : State} (h : (c s).lastdiag ≠ 0#32)
    (rest : List (State → State)) : runConstituents (c :: rest) s = c s := by
  simp [runConstituents, h]

/-- A macro that ends without a diagnostic: its first constituent left none, nor did the rest. -/
theorem runConstituents_clean {c : State → State} {rest : List (State → State)} {s : State}
    (h : (runConstituents (c :: rest) s).lastdiag = 0#32) :
    (c s).lastdiag = 0#32 ∧ (runConstituents rest (c s)).lastdiag = 0#32 := by
  by_cases hc : (c s).lastdiag = 0#32
  · exact ⟨hc, by rwa [runConstituents_of_clean hc] at h⟩
  · rw [runConstituents_of_diag hc] at h; exact absurd h hc

@[simp] theorem issue_nil (s : State) : issue [] s = .next s := rfl

/-- A command whose next state has no diagnostic: the next one is issued. -/
theorem issue_of_clean {i : Instr} {s t : State} (h : exec i s = .next t) (ht : t.lastdiag = 0#32)
    (rest : List Instr) : issue (i :: rest) s = issue rest t := by
  simp [issue, h, ht]

/-- A command whose next state has a diagnostic: nothing more is issued. -/
theorem issue_of_diag {i : Instr} {s t : State} (h : exec i s = .next t) (ht : t.lastdiag ≠ 0#32)
    (rest : List Instr) : issue (i :: rest) s = .next t := by
  simp [issue, h, ht]

/-- A cleared `LASTDIAG` is cleared already. -/
theorem beginCommand_of_clean {s : State} (h : s.lastdiag = 0#32) : beginCommand s = s := by
  cases s; cases h; rfl

/-! ### `exec`, command by command -/

@[simp] theorem exec_reset (s : State) : exec .reset s = .next (cmdReset (beginCommand s)) := rfl
@[simp] theorem exec_ldrgb (s : State) : exec .ldrgb s = .next (cmdLdrgb (beginCommand s)) := rfl
@[simp] theorem exec_ldcont (s : State) : exec .ldcont s = .next (cmdLdcont (beginCommand s)) := rfl
@[simp] theorem exec_rgb2ycc (s : State) : exec .rgb2ycc s = .next (cmdRgb2ycc (beginCommand s)) := rfl
@[simp] theorem exec_ycc2rgb (s : State) : exec .ycc2rgb s = .next (cmdYcc2rgb (beginCommand s)) := rfl
@[simp] theorem exec_fdct (s : State) : exec .fdct s = .next (cmdFdct (beginCommand s)) := rfl
@[simp] theorem exec_idct (s : State) : exec .idct s = .next (cmdIdct (beginCommand s)) := rfl
@[simp] theorem exec_quant (s : State) : exec .quant s = .next (cmdQuant (beginCommand s)) := rfl
@[simp] theorem exec_dequant (s : State) : exec .dequant s = .next (cmdDequant (beginCommand s)) := rfl
@[simp] theorem exec_zigzag (s : State) : exec .zigzag s = .next (cmdZigzag (beginCommand s)) := rfl
@[simp] theorem exec_dezigzag (s : State) : exec .dezigzag s = .next (cmdDezigzag (beginCommand s)) := rfl
@[simp] theorem exec_rleenc (s : State) : exec .rleenc s = .next (cmdRleenc (beginCommand s)) := rfl
@[simp] theorem exec_rledec (s : State) : exec .rledec s = .next (cmdRledec (beginCommand s)) := rfl
@[simp] theorem exec_hfreq (s : State) : exec .hfreq s = .next (cmdHfreq (beginCommand s)) := rfl
@[simp] theorem exec_htree (s : State) : exec .htree s = .next (cmdHtree (beginCommand s)) := rfl
@[simp] theorem exec_hcodes (s : State) : exec .hcodes s = .next (cmdHcodes (beginCommand s)) := rfl
@[simp] theorem exec_henc (s : State) : exec .henc s = .next (cmdHenc (beginCommand s)) := rfl
@[simp] theorem exec_hdec (s : State) : exec .hdec s = .next (cmdHdec (beginCommand s)) := rfl
@[simp] theorem exec_ser (s : State) : exec .ser s = .next (cmdSer (beginCommand s)) := rfl
@[simp] theorem exec_deser (s : State) : exec .deser s = .next (cmdDeser (beginCommand s)) := rfl
@[simp] theorem exec_pxembed (s : State) : exec .pxembed s = .next (cmdPxembed (beginCommand s)) := rfl
@[simp] theorem exec_pxextract (s : State) : exec .pxextract s = .next (cmdPxextract (beginCommand s)) := rfl
@[simp] theorem exec_cfembed (s : State) : exec .cfembed s = .next (cmdCfembed (beginCommand s)) := rfl
@[simp] theorem exec_cfextract (s : State) : exec .cfextract s = .next (cmdCfextract (beginCommand s)) := rfl
@[simp] theorem exec_runenc (s : State) : exec .runenc s = .next (cmdRunenc (beginCommand s)) := rfl
@[simp] theorem exec_runencm (s : State) : exec .runencm s = .next (cmdRunencm (beginCommand s)) := rfl
@[simp] theorem exec_rundec (s : State) : exec .rundec s = .next (cmdRundec (beginCommand s)) := rfl
@[simp] theorem exec_rundecm (s : State) : exec .rundecm s = .next (cmdRundecm (beginCommand s)) := rfl

/-! ### Host reads -/

/-- What a read of a buffer returns depends on neither the replies nor the pending host actions. -/
theorem bufferValue_of_replies (s : State) (host : List HostAction) (replies : List Word) (id : BufId)
    (i : Nat) : bufferValue { s with host := host, replies := replies } id i = bufferValue s id i := by
  cases id <;> rfl

@[simp] theorem bufferValue_reply (v : Word) (s : State) (id : BufId) (i : Nat) :
    bufferValue (reply v s) id i = bufferValue s id i := bufferValue_of_replies s _ _ id i

/-- Inside the valid extent a read returns the element. -/
theorem bufferValue_inside {s : State} {id : BufId} {i : Nat} (h : i < validExtent s id) :
    bufferValue s id i = elemAt s id i := if_pos h

/-- Every location is idempotent to read (`20_memory.md` R62): the second reply is the first again. -/
theorem readBuffer_twice (id : BufId) (i : Nat) (s : State) :
    readBuffer id i (readBuffer id i s) = reply (bufferValue s id i) (readBuffer id i s) := by
  simp [readBuffer]

/-! ### The step -/

/-- With no host action pending the step changes nothing. -/
theorem step_idle {s : State} (h : s.host = []) : step s = .next s := by simp [step, nextStep, h]

/-- With a host action pending the step is that action. -/
theorem step_action {s : State} {a : HostAction} {rest : List HostAction} (h : s.host = a :: rest) :
    step s = hostStep a { s with host := rest } := by simp [step, nextStep, h]

end Sys2Proof.Machine
end

