-- ==== Sys2Proof/Laws/PerInstr.lean ====
section
/-! SUPPORT. The per-command family `EncodesWellFormed`: the command's word is well formed and its high
field is zero (`30_encoding.md` R80, R82). -/

namespace Sys2Proof.Laws.EncodesWellFormed

/-- The word of a command is well formed: its field `zero` is 0 and its low byte is assigned. -/
def Statement (i : Instr) : Prop :=
  i.wellFormed = true ∧ commandWordWellFormed (encode i) = true

theorem reset : Statement .reset := by unfold Statement; decide
theorem ldrgb : Statement .ldrgb := by unfold Statement; decide
theorem ldcont : Statement .ldcont := by unfold Statement; decide
theorem rgb2ycc : Statement .rgb2ycc := by unfold Statement; decide
theorem ycc2rgb : Statement .ycc2rgb := by unfold Statement; decide
theorem fdct : Statement .fdct := by unfold Statement; decide
theorem idct : Statement .idct := by unfold Statement; decide
theorem quant : Statement .quant := by unfold Statement; decide
theorem dequant : Statement .dequant := by unfold Statement; decide
theorem zigzag : Statement .zigzag := by unfold Statement; decide
theorem dezigzag : Statement .dezigzag := by unfold Statement; decide
theorem rleenc : Statement .rleenc := by unfold Statement; decide
theorem rledec : Statement .rledec := by unfold Statement; decide
theorem hfreq : Statement .hfreq := by unfold Statement; decide
theorem htree : Statement .htree := by unfold Statement; decide
theorem hcodes : Statement .hcodes := by unfold Statement; decide
theorem henc : Statement .henc := by unfold Statement; decide
theorem hdec : Statement .hdec := by unfold Statement; decide
theorem ser : Statement .ser := by unfold Statement; decide
theorem deser : Statement .deser := by unfold Statement; decide
theorem pxembed : Statement .pxembed := by unfold Statement; decide
theorem pxextract : Statement .pxextract := by unfold Statement; decide
theorem cfembed : Statement .cfembed := by unfold Statement; decide
theorem cfextract : Statement .cfextract := by unfold Statement; decide
theorem runenc : Statement .runenc := by unfold Statement; decide
theorem runencm : Statement .runencm := by unfold Statement; decide
theorem rundec : Statement .rundec := by unfold Statement; decide
theorem rundecm : Statement .rundecm := by unfold Statement; decide

end Sys2Proof.Laws.EncodesWellFormed
end

