-- ==== Sys2Proof/Tests/Slice0.lean ====
section
/-! SUPPORT. Tests with expected values from the spec's vectors (`95_test_vectors.md`) and rules, and for
every statement with hypotheses a witness that meets them, clause by clause at the boundary values. -/

namespace Sys2Proof.Tests

open Sys2Proof Sys2Proof.Machine

set_option Elab.async false

/-- A small state: the given stage flags, `SUCCESS` set, an 8x8 geometry. -/
def small (flags : Word) : State :=
  { State.reset with stage := 0x2000#32 ||| flags, w := 8#32, h := 8#32 }

/-- The state after a command. -/
def after (i : Instr) (s : State) : State :=
  match exec i s with
  | .next t => t
  | .fault _ => s
  | .refused _ => s

/-- The state after a step. -/
def stepped (s : State) : State :=
  match step s with
  | .next t => t
  | .fault _ => s
  | .refused _ => s

/-- A state whose next host action is the given one. -/
def acting (a : HostAction) : State := { small 0#32 with host := [a] }

/-! ### Well-formedness: ill-formed words are refused -/

theorem test_wf_high_bit : highFieldZero 0x00000112#32 = false := by decide
theorem test_wf_top_bit : commandWordWellFormed 0x80000001#32 = false := by decide
theorem test_wf_reserved_low_byte :
    ([0x00, 0x04, 0x0F, 0x1F, 0x22, 0x2F, 0x34, 0x3F, 0x44, 0xFF].all lowByteReserved) = true := by decide
theorem test_wf_assigned_low_byte :
    ([0x01, 0x03, 0x10, 0x1E, 0x20, 0x21, 0x30, 0x33, 0x40, 0x43].any lowByteReserved) = false := by decide
theorem test_illegal_words : ([0x00#32, 0x04#32, 0x0F#32, 0x1F#32, 0x22#32, 0x34#32, 0x44#32, 0xFF#32,
    0x112#32, 0x80000001#32, 0xFFFFFFFF#32].all fun w =>
      match decodeWord w with
      | .ok _ => false
      | .error _ => true) = true := by decide

/-! ### Decoding: every command's word, written out from R82 -/

theorem test_decode_reset : decodeWord 0b00000000000000000000000000000001#32 = .ok .reset := by decide
theorem test_decode_ldrgb : decodeWord 0b00000000000000000000000000000010#32 = .ok .ldrgb := by decide
theorem test_decode_ldcont : decodeWord 0b00000000000000000000000000000011#32 = .ok .ldcont := by decide
theorem test_decode_rgb2ycc : decodeWord 0b00000000000000000000000000010000#32 = .ok .rgb2ycc := by decide
theorem test_decode_ycc2rgb : decodeWord 0b00000000000000000000000000010001#32 = .ok .ycc2rgb := by decide
theorem test_decode_fdct : decodeWord 0b00000000000000000000000000010010#32 = .ok .fdct := by decide
theorem test_decode_idct : decodeWord 0b00000000000000000000000000010011#32 = .ok .idct := by decide
theorem test_decode_quant : decodeWord 0b00000000000000000000000000010100#32 = .ok .quant := by decide
theorem test_decode_dequant : decodeWord 0b00000000000000000000000000010101#32 = .ok .dequant := by decide
theorem test_decode_zigzag : decodeWord 0b00000000000000000000000000010110#32 = .ok .zigzag := by decide
theorem test_decode_dezigzag : decodeWord 0b00000000000000000000000000010111#32 = .ok .dezigzag := by decide
theorem test_decode_rleenc : decodeWord 0b00000000000000000000000000011000#32 = .ok .rleenc := by decide
theorem test_decode_rledec : decodeWord 0b00000000000000000000000000011001#32 = .ok .rledec := by decide
theorem test_decode_hfreq : decodeWord 0b00000000000000000000000000011010#32 = .ok .hfreq := by decide
theorem test_decode_htree : decodeWord 0b00000000000000000000000000011011#32 = .ok .htree := by decide
theorem test_decode_hcodes : decodeWord 0b00000000000000000000000000011100#32 = .ok .hcodes := by decide
theorem test_decode_henc : decodeWord 0b00000000000000000000000000011101#32 = .ok .henc := by decide
theorem test_decode_hdec : decodeWord 0b00000000000000000000000000011110#32 = .ok .hdec := by decide
theorem test_decode_ser : decodeWord 0b00000000000000000000000000100000#32 = .ok .ser := by decide
theorem test_decode_deser : decodeWord 0b00000000000000000000000000100001#32 = .ok .deser := by decide
theorem test_decode_pxembed : decodeWord 0b00000000000000000000000000110000#32 = .ok .pxembed := by decide
theorem test_decode_pxextract : decodeWord 0b00000000000000000000000000110001#32 = .ok .pxextract := by decide
theorem test_decode_cfembed : decodeWord 0b00000000000000000000000000110010#32 = .ok .cfembed := by decide
theorem test_decode_cfextract : decodeWord 0b00000000000000000000000000110011#32 = .ok .cfextract := by decide
theorem test_decode_runenc : decodeWord 0b00000000000000000000000001000000#32 = .ok .runenc := by decide
theorem test_decode_runencm : decodeWord 0b00000000000000000000000001000001#32 = .ok .runencm := by decide
theorem test_decode_rundec : decodeWord 0b00000000000000000000000001000010#32 = .ok .rundec := by decide
theorem test_decode_rundecm : decodeWord 0b00000000000000000000000001000011#32 = .ok .rundecm := by decide
theorem test_decode_table_word : decodeTableWord 32 0x12 = some .fdct := by decide
theorem test_decode_table_word_illegal : decodeTableWord 32 0x1F = none := by decide

/-- The first step after reset runs the placed command (`RESET`-time `LDRGB` of a 0x0 image). -/
theorem test_fetch_runs : (stepped (State.reset.withFetchWord 32 0x02)).stage = 0x2001#32 := by decide

/-- An illegal word written to `CMD`: `E_ILLEGAL`, and nothing else (R84). -/
theorem test_illegal_step : stepped (acting (.writeReg 0 0x112#32))
    = { small 0#32 with lastdiag := 1#32, diagacc := 2#32 } := by decide

/-! ### The host (R62, R72) -/

theorem test_host_write_quality : (stepped (acting (.writeReg 0x10 50#32))).quality = 50#32 := by decide
theorem test_host_write_stage_ignored : stepped (acting (.writeReg 0x04 7#32)) = small 0#32 := by decide
theorem test_host_read_stage : (stepped (acting (.readReg 0x04))).replies = [0x2000#32] := by decide
theorem test_host_read_cmd : (stepped (acting (.readReg 0x00))).replies = [0#32] := by decide
theorem test_host_write_rgb : rgbAt (stepped (acting (.writeBuf .rgb 5 7#8))) 5 = 7#8 := by decide
theorem test_host_write_qb_ignored : stepped (acting (.writeBuf .qb 5 7#8)) = small 0#32 := by decide

/-! ### System commands -/

theorem test_reset_clears : (after .reset { small 0x7FF#32 with diagacc := 14#32, msgLen := 3#32 }).stage
    = 0x2000#32 := by decide
theorem test_ldrgb_latches : (after .ldrgb { State.reset with imgW := 17#32, imgH := 13#32 }).w
    = 17#32 := by decide
theorem test_ldrgb_too_wide : after .ldrgb { State.reset with imgW := 16385#32 }
    = { State.reset with imgW := 16385#32, lastdiag := 3#32, diagacc := 8#32 } := by decide
theorem test_ldcont_sets : (after .ldcont { State.reset with contLen := 68#32 }).stage = 0x2800#32 := by
  decide
theorem test_ldcont_negative : (after .ldcont { State.reset with contLen := -1#32 }).lastdiag = 3#32 := by
  decide

/-! ### Colour (section 2.1) -/

theorem test_rgb2ycc_vectors : rgbToYcc 12#8 200#8 77#8 = (130#8, 98#8, 44#8)
    ∧ rgbToYcc 255#8 0#8 0#8 = (76#8, 85#8, 255#8) ∧ rgbToYcc 255#8 255#8 0#8 = (226#8, 1#8, 149#8) := by
  decide +kernel
theorem test_rgb2ycc : yccAt (after .rgb2ycc { small 1#32 with
    w := 2#32, h := 1#32
    mem := { Memory.blank with rgb := Store.cells 0 [255#8, 0#8, 0#8, 12#8, 200#8, 77#8] } }) 5 = 44#8 := by
  decide +kernel
theorem test_ycc2rgb_vectors : yccToRgb 0#8 0#8 0#8 = (0#8, 135#8, 0#8)
    ∧ yccToRgb 76#8 85#8 255#8 = (254#8, 0#8, 0#8) ∧ yccToRgb 100#8 128#8 200#8 = (201#8, 49#8, 100#8) := by
  decide +kernel
theorem test_ycc2rgb : rgbAt (after .ycc2rgb { small 2#32 with
    w := 1#32, h := 1#32, mem := { Memory.blank with ycc := Store.cells 0 [128#8, 255#8, 255#8] } }) 2
    = 255#8 := by decide +kernel

/-! ### Block transform (section 2.2) -/

theorem test_fdct_impulse :
    ((forwardDCT (Grid.ofFn fun r c => if r = 0 ∧ c = 0 then 255 else 0)).toList.map Vec8.toList).take 2
      = [[32, 44, 42, 37, 32, 25, 17, 9], [44, 61, 58, 52, 44, 35, 24, 12]] := by decide +kernel
theorem test_fdct_ramp :
    (forwardDCT (Grid.ofFn fun r c => (8 * r + c : Int))).e0.toList = [252, -18, 0, -2, 0, -1, 0, 0] := by
  decide +kernel
theorem test_idct_row :
    (inverseDCT (Grid.ofFn fun r c => if r = 0 ∧ c = 1 then 100 else 0)).e7.toList
      = [17, 15, 10, 3, -3, -10, -15, -17] := by decide +kernel
theorem test_idct_clamp : yccAt (after .idct { small 4#32 with
    mem := { Memory.blank with dctb := Store.cells 0 (2400#32 :: List.replicate 191 0#32) } }) 24
    = 255#8 := by decide +kernel

/-! ### Quantizer (section 2.3) -/

theorem test_quant_scalar : [quantize 8 16, quantize (-8) 16, quantize (-24) 16, quantize (-146) 12,
    quantize 3024 6050] = [1, -1, -2, -12, 0] := by decide +kernel
theorem test_quant_table : (List.range' 56 8).map (tableEntry 75 0)
    = [36, 46, 48, 49, 56, 50, 52, 50] := by decide +kernel
theorem test_dequant_scalar : [dequantize 354954 6050, dequantize 400000 6050, dequantize (-400000) 6050]
    = [2147471700, 2147483647, -2147483648] := by decide +kernel
theorem test_quant_order : after .quant (small 0#32)
    = { small 0#32 with lastdiag := 2#32, diagacc := 4#32 } := by decide

/-! ### Zigzag (section 2.4) -/

theorem test_zigzag : zzAt (after .zigzag { small 8#32 with
    mem := { Memory.blank with qb := Store.cells 0 ((List.range 192).map (BitVec.ofNat 32)) } }) 5
    = 2#32 := by decide +kernel
theorem test_dezigzag : (List.range 9).map (qbAt (after .dezigzag { small 0x20#32 with
    zzLen := 3#32, mem := { Memory.blank with zz := Store.cells 0 [64#32, 0#32, -3#32] } }))
    = [64#32, 0#32, 0#32, 0#32, 0#32, 0#32, 0#32, 0#32, -3#32] := by decide +kernel

/-! ### Run lengths (section 2.5) -/

theorem test_rleenc : encodeRLE [3, 3, 3, -1, -1, 0, 0, 0, 0, 7] = [3, 3, -1, 2, 0, 4, 7, 1] := by decide
theorem test_rleenc_len : (after .rleenc { small 0x20#32 with
    zzLen := 3#32, mem := { Memory.blank with zz := Store.cells 0 [-3#32, -3#32, 5#32] } }).rleLen
    = 4#32 := by decide
theorem test_rledec : expandPairs [4, 3, 9, 0, 2, -5, 1, 2] = [4, 4, 4, 1, 1] := by decide
theorem test_rledec_odd : after .rledec { small 0x40#32 with rleLen := 11#32, zzLen := 9#32 }
    = { small 0x40#32 with
      rleLen := 11#32, zzLen := 0#32, lastdiag := 5#32, diagacc := 0x20#32 } := by decide

/-! ### Huffman (section 2.6 and R208) -/

/-- A state whose run-length stream is the given one. -/
def coded (stream : List Word) : State :=
  { small 0x40#32 with
    rleLen := BitVec.ofNat 32 stream.length
    rleExp := BitVec.ofNat 32 stream.length
    mem := { Memory.blank with rle := Store.cells 0 stream } }

theorem test_hfreq : (List.range 8).map (freqAt (after .hfreq (coded [-3#32, 2#32, 5#32, 1#32])))
    = [-3#32, 1#32, 1#32, 1#32, 2#32, 1#32, 5#32, 1#32] := by decide
theorem test_htree : (after .htree (after .hfreq (coded [5#32, 5#32, 9#32]))).node
    = [.leaf 5#32 2, .leaf 9#32 1, .internal 3 (some 1) (some 0)] := by decide
theorem test_htree_degenerate : (after .htree (after .hfreq (coded [1#32, 1#32]))).node
    = [.leaf 1#32 2, .internal 2 (some 0) none] := by decide
theorem test_hcodes : (after .hcodes (after .htree (after .hfreq (coded [5#32, 5#32, 9#32])))).code
    = [(0, [false]), (1, [true])] := by decide
theorem test_henc : payAt (after .henc (after .hcodes (after .htree (after .hfreq
    (coded [-3#32, 2#32, 5#32, 1#32]))))) 0 = 0xd2#8 := by decide +kernel

/-- The degenerate tree of the one symbol 7, with a payload of one byte. -/
def lone (pay : Byte) (expected : Word) : State :=
  { small 0x700#32 with
    node := [.leaf 7#32 4, .internal 4 (some 0) none], treeN := 2, treeRoot := some 1
    rleExp := expected, encBytes := 1#32, mem := { Memory.blank with pay := [(0, pay)] } }

theorem test_hdec_badcode : after .hdec (lone 0xe0#8 4#32)
    = { lone 0xe0#8 4#32 with
      lastdiag := 7#32, diagacc := 0x80#32, stage := 0x2740#32, rleLen := 3#32
      mem := { Memory.blank with pay := [(0, 0xe0#8)], rle := [(0, 7#32), (1, 7#32), (2, 7#32)] } } := by
  decide
theorem test_hdec_short : (after .hdec (lone 0xff#8 9#32)).lastdiag = 8#32 := by decide

/-! ### Container (section 2.7) -/

/-- The 68 bytes of program P2. -/
def greyContainer : List Byte :=
  [0x32#8, 0#8, 0#8, 0#8, 8#8, 0#8, 0#8, 0#8, 8#8, 0#8, 0#8, 0#8, 5#8, 0#8, 0#8, 0#8] ++
    [0#8, 0#8, 0#8, 0#8, 3#8, 0#8, 0#8, 0#8, 1#8, 0#8, 0#8, 0#8, 3#8, 0#8, 0#8, 0#8] ++
    [0x3c#8, 0#8, 0#8, 0#8, 2#8, 0#8, 0#8, 0#8, 0x3f#8, 0#8, 0#8, 0#8, 3#8, 0#8, 0#8, 0#8] ++
    [0x40#8, 0#8, 0#8, 0#8, 1#8, 0#8, 0#8, 0#8, 4#8, 0#8, 0#8, 0#8, 12#8, 0#8, 0#8, 0#8] ++
    [0x36#8, 0x8b#8, 0x45#8, 0xa0#8]

/-- They stand in `CONT` and are declared. -/
def boxed : State :=
  { small 0x800#32 with
    contLen := 68#32, mem := { Memory.blank with cont := Store.cells 0 greyContainer } }

/-- One table entry and one payload byte, ready to be serialized. -/
def packed : State :=
  { small 0x4C0#32 with
    quality := 75#32, w := 17#32, h := 13#32, freqN := 1#32, encBytes := 1#32, rleLen := 2#32
    mem := { Memory.blank with freq := [(0, -3#32), (1, 2#32)], pay := [(0, 0xc0#8)] } }

theorem test_ser : (List.range 33).map (contAt (after .ser packed))
    = [75#8, 0#8, 0#8, 0#8, 8#8, 0#8, 0#8, 0#8, 16#8, 0#8, 0#8, 0#8, 1#8, 0#8, 0#8, 0#8,
      0xfd#8, 0xff#8, 0xff#8, 0xff#8, 2#8, 0#8, 0#8, 0#8, 1#8, 0#8, 0#8, 0#8, 2#8, 0#8, 0#8, 0#8,
      0xc0#8] := by decide +kernel
theorem test_deser : (List.range 10).map (freqAt (after .deser boxed))
    = [0#32, 3#32, 1#32, 3#32, 60#32, 2#32, 63#32, 3#32, 64#32, 1#32] := by decide +kernel
theorem test_deser_cut : (after .deser { boxed with contLen := 67#32 }).lastdiag = 6#32 := by
  decide +kernel

/-! ### Embedders (sections 2.8, 2.9) -/

/-- A 4x4 image of the given channels with the message "HI". -/
def carrier (rgb : List Byte) : State :=
  { small 1#32 with
    w := 4#32, h := 4#32, msgLen := 2#32
    mem := { Memory.blank with rgb := Store.cells 0 rgb, msg := [(0, 0x48#8), (1, 0x49#8)] } }

theorem test_pxembed : (List.range 24).map (rgbAt (after .pxembed (carrier (List.replicate 48 0#8))))
    = [0#8, 1#8, 0#8, 0#8, 1#8, 0#8, 0#8, 0#8, 0#8, 1#8, 0#8, 0#8, 1#8, 0#8, 0#8, 1#8,
      0#8, 0#8, 0#8, 0#8, 0#8, 0#8, 0#8, 0#8] := by decide +kernel
theorem test_pxembed_full : after .pxembed { carrier [] with msgLen := 6#32 }
    = { carrier [] with
      msgLen := 6#32, lastdiag := 4#32, diagacc := 0x10#32, stage := 1#32 } := by decide +kernel
theorem test_pxextract : (after .pxextract (carrier (List.replicate 48 255#8))).msgLen = 6#32
    ∧ (after .pxextract (carrier (List.replicate 48 255#8))).lastdiag = 9#32 := by decide +kernel
theorem test_pxextract_empty : (after .pxextract (carrier (List.replicate 48 0#8))).msgLen = 0#32
    ∧ (after .pxextract (carrier (List.replicate 48 0#8))).lastdiag = 0#32 := by decide +kernel

/-- The one-block grid of R257 example 1 with the one-byte message a5. -/
def grid : State :=
  { small 8#32 with
    msgLen := 1#32
    mem := { Memory.blank with
      qb := Store.cells 0 ([64#32, 5#32, -3#32, 2#32, 0#32, 1#32, -1#32, 7#32] ++
        [3#32, -2#32, 9#32, 4#32, 0#32, 0#32, 0#32, 0#32] ++
        [-5#32, 6#32, 2#32, 3#32, -7#32, 8#32, -1#32, 0#32] ++ List.replicate 168 0#32)
      msg := [(0, 0xa5#8)] } }

theorem test_cfembed : (List.range 24).map (qbAt (after .cfembed grid))
    = [64#32, 5#32, -4#32, 3#32, 0#32, 1#32, -2#32, 6#32, 3#32, -2#32, 9#32, 4#32, 0#32, 0#32, 0#32, 0#32,
      -6#32, 6#32, 2#32, 2#32, -8#32, 8#32, -2#32, 0#32] := by decide +kernel
theorem test_cfembed_full : (after .cfembed { grid with msgLen := 2#32 }).stage = 8#32 := by
  decide +kernel
theorem test_cfextract : (after .cfextract grid).msgLen = 2#32
    ∧ (List.range 2).map (msgAt (after .cfextract grid)) = [0xdd#8, 0x4d#8]
    ∧ (after .cfextract grid).lastdiag = 9#32 := by decide +kernel

/-! ### Macros -/

theorem test_runenc_no_image : after .runenc (small 0#32)
    = { small 0#32 with lastdiag := 2#32, diagacc := 4#32 } := by decide
theorem test_runencm_empty_image : after .runencm { small 1#32 with w := 0#32, h := 0#32, quality := 50#32 }
    = { small 0#32 with
      w := 0#32, h := 0#32, quality := 50#32, stage := 0xF#32
      lastdiag := 4#32, diagacc := 0x10#32, draws := 1 } := by decide +kernel
theorem test_rundec_no_entries : (after .rundec { small 0x800#32 with
    contLen := 24#32, mem := { Memory.blank with cont := Store.cells 0 (List.replicate 24 0#8) } }).lastdiag
    = 12#32 := by decide +kernel
theorem test_rundecm_no_message : (after .rundecm boxed).lastdiag = 9#32 := by decide +kernel

/-! ### Witnesses: encoding, step, host -/

theorem witness_IllegalWordReported : ([0x100#32, 0x112#32, 0xFFFFFFFF#32, 0x00#32, 0x04#32, 0x0F#32,
    0x1F#32, 0x22#32, 0x2F#32, 0x34#32, 0x3F#32, 0x44#32, 0xFF#32].all fun w => decide ((acting (.writeReg 0 w)).host = .writeReg 0 w :: []
    ∧ (w.toNat / 256 ≠ 0 ∨ w.toNat % 256 = 0x00 ∨ (0x04 ≤ w.toNat % 256 ∧ w.toNat % 256 ≤ 0x0F)
      ∨ w.toNat % 256 = 0x1F ∨ (0x22 ≤ w.toNat % 256 ∧ w.toNat % 256 ≤ 0x2F)
      ∨ (0x34 ≤ w.toNat % 256 ∧ w.toNat % 256 ≤ 0x3F) ∨ 0x44 ≤ w.toNat % 256))) = true := by
  decide +kernel

theorem witness_StepRunsDecodedCommand : (acting (.writeReg 0 0x12#32)).host = .writeReg 0 0x12#32 :: []
    ∧ decodeWord 0x12#32 = .ok .fdct ∧ Instr.fdct.wellFormed = true ∧ (small 0#32).host = [] := by decide +kernel

theorem witness_HostAccessesRegisters : ∀ off ∈ [0x00, 0x04, 0x10, 0x14, 0x18, 0x24, 0x28, 0x3C, 0x40],
    off % 4 = 0 ∧ (acting (.writeReg off 5#32)).host = .writeReg off 5#32 :: []
    ∧ (acting (.readReg off)).host = .readReg off :: [] := by decide +kernel
theorem witness_HostAccessesRegisters_ignored : ∀ off ∈ [0x04, 0x0C, 0x1C, 0x20, 0x2C, 0x3C, 0x40],
    off ∉ [0x00, 0x10, 0x14, 0x18, 0x24, 0x28] := by decide +kernel

/-- Below the capacity inside the valid extent (0, 191), below it outside (192, the last index), and at
the capacity, of `RGB`. -/
theorem witness_HostAccessesBuffers :
    (∀ i ∈ [0, 191, 192, 805306367], i < BufId.rgb.capacity (small 0#32).cap
      ∧ (acting (.writeBuf .rgb i 5#8)).host = .writeBuf .rgb i 5#8 :: []
      ∧ (acting (.readBuf .rgb i)).host = .readBuf .rgb i :: [])
    ∧ 191 < validExtent (acting (.readBuf .rgb 191)) .rgb
    ∧ ¬192 < validExtent (acting (.readBuf .rgb 192)) .rgb
    ∧ BufId.rgb.capacity (small 0#32).cap ≤ 805306368 := by decide +kernel

/-! ### Witnesses: diagnostics, flags, write sets -/

/-- No flag set, and all the flags but one of the two and three that `HENC` and `SER` need. -/
theorem witness_Preconditions : (State.reset.stage &&& 0x1#32 ≠ 0x1#32)
    ∧ ((small 0x40#32).stage &&& 0x240#32 ≠ 0x240#32)
    ∧ ((small 0x0C0#32).stage &&& 0x4C0#32 ≠ 0x4C0#32) := by decide +kernel

theorem witness_ParameterChecks :
    (([(-1#32, 0#32), (16385#32, 0#32), (0#32, -1#32), (16384#32, 16385#32)].all fun p => decide (¬(0 ≤ p.1.toInt ∧ p.1.toInt ≤ 16384 ∧ 0 ≤ p.2.toInt ∧ p.2.toInt ≤ 16384))) = true)
    ∧ ¬(0 ≤ ({ small 0#32 with contLen := -1#32 } : State).contLen.toInt
      ∧ ({ small 0#32 with contLen := -1#32 } : State).contLen.toInt ≤ (small 0#32).cap.contCap)
    ∧ (([0#32, 101#32, -1#32].all fun q => decide (¬(1 ≤ q.toInt ∧ q.toInt ≤ 100))) = true)
    ∧ (([-1#32, 0x01000001#32].all fun m => decide (¬(0 ≤ m.toInt ∧ m.toInt ≤ (small 0#32).cap.msgCap))) = true)
    ∧ 1610612736 < (0x60000001#32).toInt
    ∧ (∀ f ∈ [Flag.dctValid, .qValid, .rgbLoaded, .treeValid, .bitsValid],
      getFlag f (small 0x7FF#32) = true) := by
  decide +kernel

/-- A command that sets a flag, one that records a diagnostic and one that clears `SUCCESS` meet the
premises of `FlagsAdvance`, `DiagnosticsAccumulate` and `CommandWriteSets`. -/
theorem witness_FlagsAdvance : (Instr.ldrgb ≠ .reset ∧ exec .ldrgb State.reset = .next (after .ldrgb State.reset))
    ∧ (Instr.pxembed ≠ .reset
      ∧ exec .pxembed { carrier [] with msgLen := 6#32 }
        = .next (after .pxembed { carrier [] with msgLen := 6#32 })) := ⟨⟨by decide, rfl⟩, by decide, rfl⟩
theorem witness_DiagnosticsAccumulate : Instr.quant ≠ .reset
    ∧ exec .quant (small 0#32) = .next (after .quant (small 0#32)) := ⟨by decide, rfl⟩
theorem witness_CommandWriteSets : Instr.ldcont ≠ .reset
    ∧ exec .ldcont (small 0#32) = .next (after .ldcont (small 0#32)) := ⟨by decide, rfl⟩

/-- The first clauses of the command statements (a flag not set) and their `diagnosed 3` clauses. -/
theorem witness_clauses_precondition :
    ([Flag.rgbLoaded, .yccValid, .dctValid, .qValid, .zzValid, .rleValid, .freqValid, .codesValid,
      .bitsValid, .contValid].all fun f => decide (getFlag f State.reset = false)) = true := by decide

theorem witness_clauses_parameter :
    getFlag .dctValid { small 4#32 with quality := 101#32 } = true
      ∧ getFlag .qValid { small 8#32 with quality := 0#32 } = true
      ∧ ¬(1 ≤ (101#32 : Word).toInt ∧ (101#32 : Word).toInt ≤ 100)
      ∧ ¬(1 ≤ (0#32 : Word).toInt ∧ (0#32 : Word).toInt ≤ 100)
      ∧ getFlag .rgbLoaded { small 1#32 with msgLen := 0xFFFFFFFF#32 } = true
      ∧ ¬(0 ≤ (0xFFFFFFFF#32 : Word).toInt) := by decide

theorem witness_LoadCommands :
    (([(0#32, 0#32), (16384#32, 16384#32)].all fun p => decide (0 ≤ p.1.toInt ∧ p.1.toInt ≤ 16384 ∧ 0 ≤ p.2.toInt ∧ p.2.toInt ≤ 16384)) = true)
    ∧ (([0#32, 0x7FFFFFFF#32].all fun n => decide (0 ≤ n.toInt ∧ n.toInt ≤ (small 0#32).cap.contCap)) = true) := by
  decide +kernel

/-! ### Witnesses: colour, block transform, quantizer, scan -/

theorem witness_Rgb2yccConverts : getFlag .rgbLoaded (small 1#32) = true ∧ 7 < height (small 1#32)
    ∧ 7 < width (small 1#32) ∧ 3 * width (small 1#32) * height (small 1#32) ≤ 192 := by decide +kernel
theorem witness_Ycc2rgbConverts : getFlag .yccValid (small 2#32) = true ∧ 7 < height (small 2#32)
    ∧ 7 < width (small 2#32) ∧ 3 * width (small 2#32) * height (small 2#32) ≤ 192 := by decide +kernel
theorem witness_FdctTransforms : getFlag .yccValid (small 2#32) = true ∧ 0 < blocksHigh (small 2#32)
    ∧ 0 < blocksWide (small 2#32) ∧ 192 * numBlocks (small 2#32) ≤ 192 := by decide +kernel
/-- The first index outside the region of a 9x8 image is that of the ninth sample. -/
theorem witness_IdctReconstructs : getFlag .dctValid (small 4#32) = true ∧ 0 < blocksHigh (small 4#32)
    ∧ 0 < blocksWide (small 4#32)
    ∧ ¬(24 / 3 / width { small 4#32 with w := 9#32 } < height8 { small 4#32 with w := 9#32 }
      ∧ 24 / 3 % width { small 4#32 with w := 9#32 } < width8 { small 4#32 with w := 9#32 }) := by decide +kernel
theorem witness_QuantizerLoss : (-2147483648 : Int) ≤ -24 ∧ (-24 : Int) ≤ 2147483647 ∧ (1 : Int) ≤ 16
    ∧ (-2147483648 : Int) ≤ quantize (-24) 16 * 16 ∧ quantize (-24) 16 * 16 ≤ 2147483647 := by
  decide +kernel
theorem witness_QuantQuantizes : ([1#32, 100#32].all fun q => decide (getFlag .dctValid { small 4#32 with quality := q } = true ∧ 1 ≤ q.toInt ∧ q.toInt ≤ 100
    ∧ 0 < numBlocks (small 4#32))) = true := by
  decide +kernel
theorem witness_DequantScales : ([1#32, 100#32].all fun q => decide (getFlag .qValid { small 8#32 with quality := q } = true ∧ 1 ≤ q.toInt ∧ q.toInt ≤ 100
    ∧ 0 < numBlocks (small 8#32))) = true := by
  decide +kernel
theorem witness_ZigzagScans : getFlag .qValid (small 8#32) = true ∧ GeometryLegal (small 8#32)
    ∧ 0 < numBlocks (small 8#32) := by decide +kernel
/-- With `ZZ_LEN` = 3 element 2 is inside the sequence and element 3 outside. -/
theorem witness_DezigzagFills : getFlag .zzValid { small 0x20#32 with zzLen := 3#32 } = true
    ∧ 0 ≤ ({ small 0x20#32 with zzLen := 3#32 } : State).zzLen.toInt
    ∧ ((0 * 64 + 2 : Nat) : Int) < ({ small 0x20#32 with zzLen := 3#32 } : State).zzLen.toInt
    ∧ ¬((0 * 64 + 3 : Nat) : Int) < ({ small 0x20#32 with zzLen := 3#32 } : State).zzLen.toInt := by decide +kernel
theorem witness_ZigzagRoundTrip : GeometryLegal { small 0x28#32 with zzLen := 192#32 }
    ∧ getFlag .qValid { small 0x28#32 with zzLen := 192#32 } = true
    ∧ getFlag .zzValid { small 0x28#32 with zzLen := 192#32 } = true
    ∧ ({ small 0x28#32 with zzLen := 192#32 } : State).zzLen.toInt
      = 192 * numBlocks { small 0x28#32 with zzLen := 192#32 } := by decide +kernel

/-! ### Witnesses: run lengths -/

theorem witness_RleencListsRuns : ([0#32, 3#32].all fun n => decide (getFlag .zzValid { small 0x20#32 with zzLen := n } = true
    ∧ LengthsLegal { small 0x20#32 with zzLen := n })) = true := by
  decide +kernel
/-- The three outcomes: malformed at length 0, 3 and with an odd expectation; too long; expanded. -/
theorem witness_RledecExpands :
    (∀ s ∈ [coded [], coded [1#32, 1#32, 1#32], { coded [1#32, 1#32] with rleExp := 3#32 }],
      getFlag .rleValid s = true ∧ 0 ≤ s.rleLen.toInt
      ∧ (s.rleLen.toInt = 0 ∨ s.rleLen.toInt % 2 = 1 ∨ s.rleExp.toInt % 2 = 1))
    ∧ (∀ s ∈ [coded [0#32, 0x7FFFFFFF#32], coded [4#32, 3#32, 9#32, 0#32]],
      getFlag .rleValid s = true ∧ 0 ≤ s.rleLen.toInt
      ∧ ¬(s.rleLen.toInt = 0 ∨ s.rleLen.toInt % 2 = 1 ∨ s.rleExp.toInt % 2 = 1))
    ∧ 3 * 16384 * 16384 < (rleAt (coded [0#32, 0x7FFFFFFF#32]) 1).toInt.toNat := by decide +kernel
theorem witness_RleRoundTrip : getFlag .zzValid { small 0x20#32 with zzLen := 3#32 } = true
    ∧ LengthsLegal { small 0x20#32 with zzLen := 3#32 }
    ∧ 0 < ({ small 0x20#32 with zzLen := 3#32 } : State).zzLen.toInt
    ∧ ({ small 0x20#32 with zzLen := 3#32 } : State).rleExp.toInt % 2 = 0 := by decide +kernel

/-! ### Witnesses: Huffman -/

/-- A table that fits, and one above a `FREQ_CAP` of 1. -/
theorem witness_HfreqCounts :
    (∀ s ∈ [coded [5#32, 1#32], { coded [5#32, 1#32] with cap := ⟨1, 1, 1, 1⟩ }],
      getFlag .rleValid s = true ∧ LengthsLegal s ∧ CapacitiesLegal s.cap)
    ∧ 1 < ((List.range 2).map (rleAt (coded [5#32, 1#32]))).toFinset.card
    ∧ ¬(coded [5#32, 1#32]).cap.freqCap
      < ((List.range 2).map (rleAt (coded [5#32, 1#32]))).toFinset.card := by decide +kernel
theorem witness_HtreeMergesLeastPairs : ([0#32, 1#32, 2#32].all fun n => decide (getFlag .freqValid { small 0x80#32 with freqN := n } = true
    ∧ 0 ≤ ({ small 0x80#32 with freqN := n } : State).freqN.toInt)) = true := by
  decide +kernel
theorem witness_HtreeShape : ([1#32, 2#32].all fun n => decide (getFlag .freqValid { small 0x80#32 with freqN := n } = true
    ∧ 1 ≤ ({ small 0x80#32 with freqN := n } : State).freqN.toInt)) = true := by
  decide +kernel
theorem witness_HcodesAssignPaths : getFlag .treeValid (lone 0xe0#8 4#32) = true
    ∧ treeLegal (lone 0xe0#8 4#32) = true ∧ (lone 0xe0#8 4#32).treeRoot = some 1
    ∧ (leafSymbol (lone 0xe0#8 4#32).node 0).isSome = true
    ∧ followPath (lone 0xe0#8 4#32).node 1 [true] = some 0
    ∧ (leafSymbol (lone 0xe0#8 4#32).node 1).isSome = false := by decide +kernel

/-- A tree of two leaves. -/
def forked : State :=
  { small 0x100#32 with
    node := [.leaf 7#32 1, .leaf 9#32 2, .internal 3 (some 0) (some 1)], treeN := 3, treeRoot := some 2 }

/-- R202: the first branch is a 1, the second a 0. -/
theorem test_hcodes_branches :
    codeAt (after .hcodes forked) 0 = [true] ∧ codeAt (after .hcodes forked) 1 = [false] := by
  decide +kernel

theorem witness_CodesPrefixFree :
    getFlag .treeValid forked = true ∧ treeLegal forked = true
    ∧ ([0, 1].all fun k => (leafSymbol forked.node k).isSome) = true
    ∧ codeAt (after .hcodes forked) 1 <+: codeAt (after .hcodes forked) 1 := by decide +kernel

/-- Codes for the two symbols of a table. -/
def tabled (stream : List Word) : State :=
  { coded stream with
    stage := 0x2240#32, freqN := 2#32, code := [(0, [false]), (1, [true])]
    mem := { Memory.blank with
      rle := Store.cells 0 stream, freq := [(0, 5#32), (1, 2#32), (2, 9#32), (3, 1#32)] } }

/-- Every symbol has an entry (the second table entry for 9), with room and without; and one has none. -/
theorem witness_HencPacksCodes :
    (∀ s ∈ [tabled [5#32, 9#32], { tabled [5#32, 9#32] with cap := ⟨0, 0, 0, 0⟩ }, tabled [5#32, 8#32]],
      getFlag .rleValid s = true ∧ getFlag .codesValid s = true ∧ 0 ≤ s.rleLen.toInt
      ∧ 0 ≤ s.freqN.toInt ∧ CapacitiesLegal s.cap)
    ∧ (∀ i < 2, [0, 1].getD i 0 < 2
      ∧ freqAt (tabled [5#32, 9#32]) (2 * [0, 1].getD i 0) = rleAt (tabled [5#32, 9#32]) i
      ∧ ∀ k < [0, 1].getD i 0, freqAt (tabled [5#32, 9#32]) (2 * k) ≠ rleAt (tabled [5#32, 9#32]) i)
    ∧ (∃ i < 2, ∀ k < 2, freqAt (tabled [5#32, 8#32]) (2 * k) ≠ rleAt (tabled [5#32, 8#32]) i) := by decide +kernel

/-- The premises of `HdecDecodesPaths` that do not depend on the outcome. -/
def decodable (s : State) (r : Nat) (leaves : List (List Bool × Nat)) (rest : List Bool) : Prop :=
  getFlag .treeValid s = true ∧ getFlag .bitsValid s = true ∧ treeLegal s = true
    ∧ s.treeRoot = some r ∧ s.rleExp.toInt ≤ 1610612736 ∧ 0 ≤ s.encBytes.toInt
    ∧ (∀ p ∈ leaves, followPath s.node r p.1 = some p.2 ∧ (leafSymbol s.node p.2).isSome = true)
    ∧ (∀ j < s.encBytes.toInt.toNat, ∀ m < 8,
      (leaves.flatMap Prod.fst ++ rest)[8 * j + m]? = some ((payAt s j).getLsbD (7 - m)))
    ∧ (leaves.flatMap Prod.fst ++ rest).length = 8 * s.encBytes.toInt.toNat

/-- The count is reached with bits left over. -/
theorem witness_HdecDecodesPaths_count :
    decodable (lone 0xe0#8 3#32) 1 (List.replicate 3 ([true], 0)) (List.replicate 5 false)
    ∧ ((List.replicate 3 ([true], 0)).length : Int) = max 0 (lone 0xe0#8 3#32).rleExp.toInt := by
  unfold decodable; decide +kernel
/-- The bits run out at the root. -/
theorem witness_HdecDecodesPaths_short :
    decodable (lone 0xff#8 9#32) 1 (List.replicate 8 ([true], 0)) []
    ∧ ((List.replicate 8 ([true], 0)).length : Int) < (lone 0xff#8 9#32).rleExp.toInt
    ∧ followPath (lone 0xff#8 9#32).node 1 [] = some 1
    ∧ (leafSymbol (lone 0xff#8 9#32).node 1).isSome = false := by unfold decodable; decide +kernel
/-- A 0 under the degenerate root. -/
theorem witness_HdecDecodesPaths_missing :
    decodable (lone 0xe0#8 4#32) 1 (List.replicate 3 ([true], 0)) (List.replicate 5 false)
    ∧ ((List.replicate 3 ([true], 0)).length : Int) < (lone 0xe0#8 4#32).rleExp.toInt
    ∧ List.replicate 5 false = [] ++ false :: List.replicate 4 false
    ∧ followPath (lone 0xe0#8 4#32).node 1 [] = some 1
    ∧ (leafSymbol (lone 0xe0#8 4#32).node 1).isSome = false
    ∧ followPath (lone 0xe0#8 4#32).node 1 ([] ++ [false]) = none := by unfold decodable; decide +kernel

/-- The state that a list of commands, issued one by one, leaves. -/
def issued (is : List Instr) (s : State) : State :=
  match issue is s with
  | .next t => t
  | .fault _ => s
  | .refused _ => s

theorem witness_HuffmanRoundTrip : getFlag .rleValid (coded [5#32, 5#32, 9#32]) = true
    ∧ LengthsLegal (coded [5#32, 5#32, 9#32]) ∧ CapacitiesLegal (coded [5#32, 5#32, 9#32]).cap
    ∧ 1 ≤ (coded [5#32, 5#32, 9#32]).rleLen.toInt
    ∧ (coded [5#32, 5#32, 9#32]).rleExp = (coded [5#32, 5#32, 9#32]).rleLen
    ∧ issue [.hfreq, .htree, .hcodes, .henc] (coded [5#32, 5#32, 9#32])
      = .next (issued [.hfreq, .htree, .hcodes, .henc] (coded [5#32, 5#32, 9#32]))
    ∧ (issued [.hfreq, .htree, .hcodes, .henc] (coded [5#32, 5#32, 9#32])).lastdiag = 0#32 :=
  ⟨by decide, by decide, by decide, by decide, by decide, rfl, by decide +kernel⟩

/-! ### Witnesses: container -/

/-- With room for 33 bytes and with room for 32. -/
theorem witness_SerWritesContainer : ∀ s ∈ [{ packed with cap := ⟨1, 33, 1, 1⟩ },
      { packed with cap := ⟨1, 32, 1, 1⟩ }],
    getFlag .freqValid s = true ∧ getFlag .rleValid s = true ∧ getFlag .bitsValid s = true
    ∧ 0 ≤ s.freqN.toInt ∧ 0 ≤ s.encBytes.toInt ∧ s.cap.contCap < 2 ^ 31 := by decide +kernel
/-- The container of P2 passes every check at its exact length, and fails one byte short. -/
theorem witness_DeserLoadsContainer : getFlag .contValid boxed = true ∧ containerOk boxed = true
    ∧ containerOk { boxed with contLen := 67#32 } = false := by decide +kernel
theorem witness_ContainerRoundTrip : GeometryLegal packed ∧ LengthsLegal packed
    ∧ CapacitiesLegal packed.cap ∧ exec .ser packed = .next (after .ser packed)
    ∧ (after .ser packed).lastdiag = 0#32 :=
  ⟨by decide, by decide, by decide, rfl, by decide +kernel⟩

/-! ### Witnesses: embedders -/

/-- 48 slots: five bytes fit exactly, six do not. -/
theorem witness_PxembedEmbeds : (([0#32, 5#32, 6#32].all fun n => decide (getFlag .rgbLoaded { carrier [] with msgLen := n } = true ∧ 0 ≤ n.toInt
    ∧ n.toInt ≤ (carrier []).cap.msgCap)) = true)
    ∧ ¬3 * width (carrier []) * height (carrier []) < 8 * ((5#32).toInt.toNat + 1)
    ∧ 3 * width (carrier []) * height (carrier []) < 8 * ((6#32).toInt.toNat + 1) := by
  decide +kernel

/-- Terminated at once, overflowed at a `MSG_CAP` of 2, and exhausted after six bytes. -/
theorem witness_PxextractReads :
    (∀ m < 3 * width (carrier []) * height (carrier []) / 8, ∀ k < 8,
      (0#8).getLsbD (7 - k) = (rgbAt (carrier (List.replicate 48 0#8)) (8 * m + k)).getLsbD 0)
    ∧ (∀ m < 3 * width (carrier []) * height (carrier []) / 8, ∀ k < 8,
      (255#8).getLsbD (7 - k) = (rgbAt (carrier (List.replicate 48 255#8)) (8 * m + k)).getLsbD 0)
    ∧ (0 < 6 ∧ (0#8 = 0#8) ∧ 0 ≤ (carrier []).cap.msgCap)
    ∧ (2 < 6 ∧ (255#8 ≠ 0#8) ∧ 2 = ({ carrier [] with cap := ⟨2, 1, 1, 1⟩ } : State).cap.msgCap)
    ∧ (6 = 3 * width (carrier []) * height (carrier []) / 8 ∧ 6 ≤ (carrier []).cap.msgCap)
    ∧ getFlag .rgbLoaded (carrier []) = true ∧ (carrier []).cap.msgCap < 2 ^ 31 := by decide +kernel
theorem witness_PixelRoundTrip : exec .pxembed (carrier (List.replicate 48 0#8))
      = .next (after .pxembed (carrier (List.replicate 48 0#8)))
    ∧ (after .pxembed (carrier (List.replicate 48 0#8))).lastdiag = 0#32
    ∧ (carrier (List.replicate 48 0#8)).cap.msgCap < 2 ^ 31 :=
  ⟨rfl, by decide +kernel, by decide⟩

/-- The slots that the model enumerates are the slots in order. -/
theorem areSlots_coefSlots (s : State) : AreSlots s (coefSlots s) := by
  refine ⟨List.Pairwise.filter _ List.pairwise_lt_range, fun i => ?_⟩
  simp [coefSlots, slotEligible]

/-- 16 slots: one byte fits exactly, two do not. -/
theorem witness_CfembedEmbeds : (([1#32, 2#32].all fun n => decide (getFlag .qValid { grid with msgLen := n } = true
      ∧ 0 ≤ n.toInt ∧ n.toInt ≤ grid.cap.msgCap)) = true)
    ∧ AreSlots grid (coefSlots grid) ∧ (coefSlots grid).length = 8 * ((1#32).toInt.toNat + 1)
    ∧ (coefSlots grid).length < 8 * ((2#32).toInt.toNat + 1) :=
  ⟨by decide, areSlots_coefSlots grid, by decide +kernel, by decide +kernel⟩

/-- A grid whose first AC elements are the given ones. -/
def slotted (ac : List Word) : State :=
  { small 8#32 with
    mem := { Memory.blank with
      qb := Store.cells 0 (64#32 :: ac ++ List.replicate (191 - ac.length) 0#32) } }

/-- Eight even slots give a zero byte at once; eight odd ones overflow a `MSG_CAP` of 0 and exhaust the
carrier at a larger one. -/
theorem witness_CfextractReads :
    ((coefSlots (slotted (List.replicate 8 2#32))).length = 8
      ∧ (∀ k < 8, (0#8).getLsbD (7 - k) = (qbAt (slotted (List.replicate 8 2#32))
          ((coefSlots (slotted (List.replicate 8 2#32))).getD (8 * 0 + k) 0)).getLsbD 0))
    ∧ ((coefSlots (slotted (List.replicate 8 3#32))).length = 8
      ∧ (∀ k < 8, (255#8).getLsbD (7 - k) = (qbAt (slotted (List.replicate 8 3#32))
          ((coefSlots (slotted (List.replicate 8 3#32))).getD (8 * 0 + k) 0)).getLsbD 0))
    ∧ getFlag .qValid (slotted []) = true ∧ (slotted []).cap.msgCap < 2 ^ 31
    ∧ (0 < 8 / 8 ∧ (0#8 = 0#8) ∧ 0 ≤ (slotted []).cap.msgCap)
    ∧ (0 < 8 / 8 ∧ (255#8 ≠ 0#8) ∧ 0 = ({ slotted [] with cap := ⟨0, 1, 1, 1⟩ } : State).cap.msgCap)
    ∧ (1 = 8 / 8 ∧ 1 ≤ (slotted []).cap.msgCap) := by decide +kernel
theorem witness_SlotsKept : (5#32 ≠ 0#32 ∧ 5#32 ≠ 1#32) ∧ exec .cfembed grid = .next (after .cfembed grid) :=
  ⟨by decide, rfl⟩
theorem witness_CoefficientRoundTrip : exec .cfembed grid = .next (after .cfembed grid)
    ∧ (after .cfembed grid).lastdiag = 0#32 ∧ grid.cap.msgCap < 2 ^ 31 :=
  ⟨rfl, by decide +kernel, by decide⟩

/-! ### Witnesses: macros -/

theorem witness_MacrosAreTheirConstituents : SuccessRecorded (small 0#32)
    ∧ SuccessRecorded { small 0#32 with stage := 0#32, diagacc := 0x10#32 } := by decide +kernel

/-- Three channels that are zero but for their first rows. -/
def rows (a b c : List Int) : List Word :=
  [a, b, c].flatMap fun r => (r ++ List.replicate 56 0).map (BitVec.ofInt 32)

/-- An 8x8 image, red on the left and green on the right. -/
def image : State :=
  { small 1#32 with
    quality := 50#32
    mem := { Memory.blank with
      rgb := Store.cells 0 (List.replicate 8 (List.replicate 4 [255#8, 0#8, 0#8]
        ++ List.replicate 4 [0#8, 255#8, 0#8])).flatten.flatten } }
/-- The image with its samples: red is (76, 85, 255), green (150, 44, 21) (section 2.1). -/
def imageYcc : State :=
  { image with
    stage := 0x2003#32
    mem := { image.mem with
      ycc := Store.cells 0 (List.replicate 8 (List.replicate 4 [76#8, 85#8, 255#8]
        ++ List.replicate 4 [150#8, 44#8, 21#8])).flatten.flatten } }
/-- The image with its coefficients. -/
def imageDct : State :=
  { imageYcc with
    stage := 0x2007#32
    mem := { imageYcc.mem with
      dctb := Store.cells 0 (rows [904, -268, 0, 94, 0, -63, 0, 53] [516, 149, 0, -52, 0, 35, 0, -30]
        [1104, 848, 0, -298, 0, 199, 0, -169]) } }
/-- The image with its quotients at quality 50. -/
def imageQ : State :=
  { imageDct with
    stage := 0x200F#32
    mem := { imageDct.mem with
      qb := Store.cells 0 (rows [57, -24, 0, 6, 0, -2, 0, 1] [30, 8, 0, -1, 0, 0, 0, 0]
        [65, 47, 0, -6, 0, 2, 0, -2]) } }

theorem test_image_ycc : cmdRgb2ycc image = imageYcc := by decide +kernel
theorem test_image_dct : cmdFdct imageYcc = imageDct := by decide +kernel
theorem test_image_q : cmdQuant imageDct = imageQ := by decide +kernel

/-- The constituents of `RUNENC` after `QUANT`. -/
def laterStages : List (State → State) :=
  [cmdZigzag, cmdRleenc, cmdHfreq, cmdHtree, cmdHcodes, cmdHenc, successCheck, cmdSer]

theorem test_runenc_later : (runConstituents laterStages imageQ).lastdiag = 0#32
    ∧ (runConstituents laterStages imageQ).stage = 0x2FEF#32
    ∧ (runConstituents laterStages imageQ).cap = image.cap := by decide +kernel
theorem test_runencm_later : (runConstituents (cmdCfembed :: laterStages) imageQ).lastdiag = 0#32
    ∧ (runConstituents (cmdCfembed :: laterStages) imageQ).stage = 0x2FFF#32
    ∧ (runConstituents (cmdCfembed :: laterStages) imageQ).cap = image.cap := by decide +kernel

/-- The first three constituents of the image's run are the three tests above. -/
theorem image_run (later : List (State → State)) :
    runConstituents (cmdRgb2ycc :: cmdFdct :: cmdQuant :: later) image = runConstituents later imageQ := by
  rw [runConstituents_of_clean (by rw [test_image_ycc]; rfl), test_image_ycc,
    runConstituents_of_clean (by rw [test_image_dct]; rfl), test_image_dct,
    runConstituents_of_clean (by rw [test_image_q]; rfl), test_image_q]
theorem image_runenc : after .runenc image = runConstituents laterStages imageQ :=
  image_run laterStages
theorem image_runencm : after .runencm image = runConstituents (cmdCfembed :: laterStages) imageQ :=
  image_run (cmdCfembed :: laterStages)

theorem witness_RunencCompletes : Encodable image :=
  ⟨by decide, by decide, by decide, by decide, by decide, by decide, by decide, by decide, by decide⟩
theorem image_slots : imageSlots image = 9 := by
  rw [imageSlots, test_image_ycc, test_image_dct, test_image_q]; decide +kernel
theorem witness_RunencmCompletes : Encodable image ∧ 0 ≤ image.msgLen.toInt
    ∧ image.msgLen.toInt ≤ image.cap.msgCap ∧ 8 * (image.msgLen.toInt.toNat + 1) ≤ imageSlots image :=
  ⟨witness_RunencCompletes, by decide, by decide, by rw [image_slots]; decide⟩
theorem witness_RundecCompletes : ContainerDecodes boxed ∧ 1 ≤ (contWord boxed 0).toInt
    ∧ (contWord boxed 0).toInt ≤ 100 :=
  ⟨⟨by decide, by decide, by decide +kernel, by decide +kernel, by decide +kernel, by decide +kernel,
    by decide +kernel⟩, by decide +kernel, by decide +kernel⟩
theorem witness_RundecmCompletes : ContainerDecodes boxed := witness_RundecCompletes.1

/-- The state in which `RUNENC` has produced a container holds that container. -/
theorem witness_EncodeThenDecode : GeometryLegal image ∧ CapacitiesLegal image.cap
    ∧ (after .runenc image).cap = image.cap ∧ SameContainer (after .runenc image) (after .runenc image)
    ∧ (after .runenc image).lastdiag = 0#32 ∧ exec .runenc image = .next (after .runenc image) := by
  refine ⟨by decide, by decide, ?_, ⟨?_, rfl, fun _ _ => rfl⟩, ?_, by simp only [after, exec_runenc]⟩
  · rw [image_runenc]; exact test_runenc_later.2.2
  · rw [image_runenc, getFlag, test_runenc_later.2.1]; decide
  · rw [image_runenc]; exact test_runenc_later.1
theorem witness_EncodeThenDecode_message : GeometryLegal image ∧ CapacitiesLegal image.cap
    ∧ (after .runencm image).cap = image.cap ∧ SameContainer (after .runencm image) (after .runencm image)
    ∧ (after .runencm image).lastdiag = 0#32 ∧ exec .runencm image = .next (after .runencm image) := by
  refine ⟨by decide, by decide, ?_, ⟨?_, rfl, fun _ _ => rfl⟩, ?_, by simp only [after, exec_runencm]⟩
  · rw [image_runencm]; exact test_runencm_later.2.2
  · rw [image_runencm, getFlag, test_runencm_later.2.1]; decide
  · rw [image_runencm]; exact test_runencm_later.1

/-! ### Witnesses: invariants -/

/-- A legal state that is not the reset state, with a command pending. -/
def busy : State :=
  { packed with
    node := [.leaf 7#32 4, .internal 4 (some 0) none], treeN := 2, treeRoot := some 1
    host := [.writeReg 0 0x20#32] }

theorem witness_StepKeepsMemoryForm : Memory.wf busy.mem = true ∧ Store.wf busy.code = true
    ∧ step busy = .next (stepped busy) := ⟨by decide, by decide, rfl⟩
theorem witness_StepKeepsLegalState : LegalState busy ∧ step busy = .next (stepped busy) :=
  ⟨⟨by decide, by decide, by decide, by decide, by decide, by decide, by decide, by decide, by decide,
    by decide⟩, rfl⟩

end Sys2Proof.Tests
end

