-- ==== Sys2Proof/Proofs/Encoding.lean ====
section
/-! PROOFS. The decoder, its inverse the encoder, and the step that meets an illegal command word
(`30_encoding.md` R80 to R84). The decoder is characterised once, by `decodeWord_eq_ok_iff`: a word
decodes to a command exactly when it is that command's encoding. -/

namespace Sys2Proof

/-! ### The fields of a command word -/

/-- The field `zero` (bits 31:8) as a number. -/
theorem highFieldZero_iff (w : Word) : highFieldZero w = true ↔ w.toNat / 256 = 0 := by
  simp [highFieldZero, ← BitVec.toNat_inj, BitVec.toNat_ushiftRight, Nat.shiftRight_eq_div_pow]

/-- The opcode field (bits 7:0) as a number. -/
theorem lowByte_toNat (w : Word) : (w.setWidth 8).toNat = w.toNat % 256 := BitVec.toNat_setWidth 8 w

/-- The low bytes that R84 lists, on the numbers below 256. -/
theorem lowByteReserved_iff {op : Nat} (hop : op < 256) :
    lowByteReserved op = true ↔ op = 0x00 ∨ (0x04 ≤ op ∧ op ≤ 0x0F) ∨ op = 0x1F
      ∨ (0x22 ≤ op ∧ op ≤ 0x2F) ∨ (0x34 ≤ op ∧ op ≤ 0x3F) ∨ 0x44 ≤ op := by
  simp only [lowByteReserved, Bool.or_eq_true, Bool.and_eq_true, beq_iff_eq, decide_eq_true_eq]
  omega

/-- A word is well formed when both its fields are. -/
theorem commandWordWellFormed_iff (w : Word) : commandWordWellFormed w = true ↔
    w.toNat / 256 = 0 ∧ lowByteReserved (w.toNat % 256) = false := by
  simp only [commandWordWellFormed, Bool.and_eq_true, highFieldZero_iff, lowByte_toNat,
    Bool.not_eq_true']

/-! ### Opcodes and encodings -/

theorem opcode_lt (i : Instr) : opcode i < 256 := by cases i <;> decide

/-- The opcode map of R82 is one-to-one and onto its commands: `opcode` inverts it. -/
theorem decodeOpcode_eq_some_iff (op : Nat) (i : Instr) :
    decodeOpcode op = some i ↔ opcode i = op := by
  constructor
  · intro h
    unfold decodeOpcode at h
    split at h <;> cases h <;> rfl
  · rintro rfl
    cases i <;> rfl

/-- A word is a command's encoding when its high field is zero and its low byte is the opcode. -/
theorem eq_encode_iff (w : Word) (i : Instr) :
    w = encode i ↔ w.toNat / 256 = 0 ∧ opcode i = w.toNat % 256 := by
  have hop := opcode_lt i
  rw [encode, ← BitVec.toNat_inj, BitVec.toNat_ofNat]
  omega

/-- The encoding of every command is well formed (the family of `Laws/PerInstr`, over all commands). -/
theorem encode_wellFormed (i : Instr) : Laws.EncodesWellFormed.Statement i :=
  open Laws.EncodesWellFormed in
  match i with
  | .reset => reset | .ldrgb => ldrgb | .ldcont => ldcont | .rgb2ycc => rgb2ycc
  | .ycc2rgb => ycc2rgb | .fdct => fdct | .idct => idct | .quant => quant
  | .dequant => dequant | .zigzag => zigzag | .dezigzag => dezigzag | .rleenc => rleenc
  | .rledec => rledec | .hfreq => hfreq | .htree => htree | .hcodes => hcodes
  | .henc => henc | .hdec => hdec | .ser => ser | .deser => deser
  | .pxembed => pxembed | .pxextract => pxextract | .cfembed => cfembed | .cfextract => cfextract
  | .runenc => runenc | .runencm => runencm | .rundec => rundec | .rundecm => rundecm

/-! ### The decoder -/

/-- The decoder accepts a word when the field `zero` is 0 and the opcode map has the low byte. -/
theorem decodeWord_eq_ok (w : Word) (i : Instr) : decodeWord w = .ok i ↔
    highFieldZero w = true ∧ decodeOpcode (w.setWidth 8).toNat = some i := by
  unfold decodeWord
  cases highFieldZero w <;> cases decodeOpcode (w.setWidth 8).toNat <;> simp

/-- The words that decode to a command are its one encoding. -/
theorem decodeWord_eq_ok_iff (w : Word) (i : Instr) : decodeWord w = .ok i ↔ w = encode i := by
  rw [decodeWord_eq_ok, highFieldZero_iff, decodeOpcode_eq_some_iff, lowByte_toNat, eq_encode_iff]

/-- A word that is not well formed decodes to no command. -/
theorem decodeWord_of_not_wellFormed {w : Word} (hw : ¬commandWordWellFormed w = true) :
    ∃ e, decodeWord w = .error e := by
  cases hdec : decodeWord w with
  | error e => exact ⟨e, rfl⟩
  | ok i =>
    obtain rfl := (decodeWord_eq_ok_iff w i).1 hdec
    exact absurd (encode_wellFormed i).2 hw

/-! ### The opcode map -/

/-- The commands in the order of the opcode table (R82). -/
def Instr.table : List Instr :=
  [.reset, .ldrgb, .ldcont, .rgb2ycc, .ycc2rgb, .fdct, .idct, .quant, .dequant, .zigzag, .dezigzag,
    .rleenc, .rledec, .hfreq, .htree, .hcodes, .henc, .hdec, .ser, .deser, .pxembed, .pxextract,
    .cfembed, .cfextract, .runenc, .runencm, .rundec, .rundecm]

theorem Instr.mem_table (i : Instr) : i ∈ Instr.table := by cases i <;> decide

/-- A pair of a word and a command is a row of the encoded table when the word encodes the command. -/
theorem mem_map_encode_table (w : Word) (i : Instr) :
    (w, i) ∈ Instr.table.map (fun j => (encode j, j)) ↔ w = encode i := by
  simp [Instr.mem_table, eq_comm]

/-- Settles O1: the 28 rows are the encodings of the commands in table order, and only a command's
encoding decodes to it. -/
theorem opcodeMap : Obligations.OpcodeMap := fun w i =>
  (decodeWord_eq_ok_iff w i).trans (mem_map_encode_table w i).symm

/-! ### The illegal command word -/

namespace Machine

/-- A host write to `CMD` executes the word in the state without that host action. -/
theorem step_writeCmd {s : State} {w : Word} {rest : List HostAction}
    (h : s.host = .writeReg 0 w :: rest) : step s = execWord w { s with host := rest } :=
  step_action h

/-- Executing a word that is not well formed records `E_ILLEGAL` and does nothing else (R84). -/
theorem execWord_of_not_wellFormed {w : Word} (hw : ¬commandWordWellFormed w = true) (s : State) :
    execWord w s = .next (diag .illegal s) := by
  obtain ⟨e, he⟩ := decodeWord_of_not_wellFormed hw
  simp only [execWord, he, diag_beginCommand]

/-- Settles O3: the words R84 lists are not well formed, so the step that writes one to `CMD` is the
recording of `E_ILLEGAL`. -/
theorem illegalWordReported : Obligations.IllegalWordReported := by
  intro s w rest hhost hillegal
  have hbyte : w.toNat % 256 < 256 := Nat.mod_lt _ (by decide)
  have hw : ¬commandWordWellFormed w = true := by
    rw [commandWordWellFormed_iff, ← Bool.not_eq_true, lowByteReserved_iff hbyte]
    rintro ⟨hhigh, hlow⟩
    exact hillegal.elim (· hhigh) hlow
  rw [step_writeCmd hhost, execWord_of_not_wellFormed hw]
  rfl

end Machine

end Sys2Proof
end

