-- ==== Sys2Proof/Proofs/Color.lean ====
section
/-! PROOFS. The commands of the colour transform (`40_color.md` R112, R114). Both write a stream of
pixels, three bytes each, at the start of a buffer: `byteElem_write_pixelStream` says what is read
there afterwards, and each command's statement is that lemma at the command's buffer and pixel
function. -/

namespace Sys2Proof.Machine

/-! ### Stage preconditions at the start of a command -/

@[simp] theorem getFlag_beginCommand (f : Flag) (s : State) :
    getFlag f (beginCommand s) = getFlag f s := rfl

/-- A command with a flag missing records `E_PRECOND` and does nothing else (R311). -/
theorem requireFlags_beginCommand_of_missing {fs : List Flag} {s : State} {f : Flag} (hf : f ∈ fs)
    (h : getFlag f s = false) (body : State → State) :
    requireFlags fs body (beginCommand s) = diagnosed 2 s := by
  rw [requireFlags_of_missing hf ((getFlag_beginCommand f s).trans h), diag_beginCommand,
    diag_eq_diagnosed, Diag.code]

/-- A command whose one flag is set runs its body. -/
theorem requireFlags_beginCommand_of_flag {f : Flag} {s : State} (h : getFlag f s = true)
    (body : State → State) :
    requireFlags [f] body (beginCommand s) = body (beginCommand s) :=
  requireFlags_of_all (List.forall_mem_singleton.2 ((getFlag_beginCommand f s).trans h)) body

/-! ### Streams of pixels -/

/-- The bytes of the pixels `f 0`, ..., `f (n - 1)` one after the other (R63). -/
def pixelStream (f : Nat → Byte × Byte × Byte) (n : Nat) : List Byte :=
  (List.range n).flatMap fun p => pixelBytes (f p)

@[simp] theorem pixelStream_zero (f : Nat → Byte × Byte × Byte) : pixelStream f 0 = [] := rfl

theorem pixelStream_succ (f : Nat → Byte × Byte × Byte) (n : Nat) :
    pixelStream f (n + 1) = pixelStream f n ++ pixelBytes (f n) := by
  simp [pixelStream, List.range_succ]

@[simp] theorem length_pixelBytes (p : Byte × Byte × Byte) : (pixelBytes p).length = 3 := rfl

@[simp] theorem length_pixelStream (f : Nat → Byte × Byte × Byte) (n : Nat) :
    (pixelStream f n).length = 3 * n := by
  induction n with
  | zero => rfl
  | succ n ih => rw [pixelStream_succ, List.length_append, ih, length_pixelBytes]; omega

/-- Channel `c` of pixel `p` stands at `3 * p + c` (R63). -/
theorem getElem?_pixelStream (f : Nat → Byte × Byte × Byte) {n p c : Nat} (hp : p < n) (hc : c < 3) :
    (pixelStream f n)[3 * p + c]? = (pixelBytes (f p))[c]? := by
  induction n with
  | zero => omega
  | succ n ih =>
    rw [pixelStream_succ]
    rcases Nat.lt_succ_iff_lt_or_eq.1 hp with hlt | rfl
    · rw [List.getElem?_append_left (by rw [length_pixelStream]; omega), ih hlt]
    · rw [List.getElem?_append_right (by rw [length_pixelStream]; omega), length_pixelStream,
        Nat.add_sub_cancel_left]

/-- Pixel `p` of a buffer of bytes whose start a stream of pixels was written to. -/
theorem byteElem_write_pixelStream (s : State) (id : BufId) (b : Buf 8)
    (f : Nat → Byte × Byte × Byte) {n p : Nat} (hp : p < n) :
    (byteElem s id (Store.write b 0 (pixelStream f n)) (3 * p),
      byteElem s id (Store.write b 0 (pixelStream f n)) (3 * p + 1),
      byteElem s id (Store.write b 0 (pixelStream f n)) (3 * p + 2)) = f p := by
  have channel : ∀ c < 3, Store.read? (Store.write b 0 (pixelStream f n)) (3 * p + c)
      = (pixelBytes (f p))[c]? := fun c hc => by
    rw [Store.read?_write, if_pos (by rw [length_pixelStream]; omega), Nat.sub_zero,
      getElem?_pixelStream f hp hc]
  unfold byteElem
  rw [channel 1 (by decide), channel 2 (by decide), ← Nat.add_zero (3 * p), channel 0 (by decide)]
  rfl

/-- Beyond the stream the buffer keeps what it has. -/
theorem byteElem_write_pixelStream_of_ge (s : State) (id : BufId) (b : Buf 8)
    (f : Nat → Byte × Byte × Byte) {n i : Nat} (hi : 3 * n ≤ i) :
    byteElem s id (Store.write b 0 (pixelStream f n)) i = byteElem s id b i := by
  unfold byteElem
  rw [Store.read?_write_of_ge]
  rwa [length_pixelStream, Nat.zero_add]

/-- The pixel at row `y` and column `x` of an image is one of its `w * h` pixels. -/
theorem pixelIndex_lt {x y w h : Nat} (hy : y < h) (hx : x < w) : y * w + x < w * h :=
  calc y * w + x < y * w + w := Nat.add_lt_add_left hx _
    _ = w * (y + 1) := by rw [Nat.mul_comm y w, Nat.mul_add, Nat.mul_one]
    _ ≤ w * h := Nat.mul_le_mul_left w hy

/-! ### `RGB2YCC` -/

/-- Pixel `p` of `RGB`, converted (R112). -/
def convertedToYcc (s : State) (p : Nat) : Byte × Byte × Byte :=
  rgbToYcc (rgbAt s (3 * p)) (rgbAt s (3 * p + 1)) (rgbAt s (3 * p + 2))

theorem yccOfRgb_eq (s : State) :
    yccOfRgb s = pixelStream (convertedToYcc s) (width s * height s) := rfl

/-- The state `RGB2YCC` leaves when its flag is set. -/
def afterRgb2ycc (s : State) : State :=
  setFlag .yccValid (writeYcc 0 (yccOfRgb s) (beginCommand s))

theorem exec_rgb2ycc_of_loaded {s : State} (h : getFlag .rgbLoaded s = true) :
    exec .rgb2ycc s = .next (afterRgb2ycc s) :=
  congrArg Host.Outcome.next (requireFlags_beginCommand_of_flag h _)

theorem exec_rgb2ycc_of_not_loaded {s : State} (h : getFlag .rgbLoaded s = false) :
    exec .rgb2ycc s = .next (diagnosed 2 s) :=
  congrArg Host.Outcome.next (requireFlags_beginCommand_of_missing (List.mem_singleton.2 rfl) h _)

theorem afterRgb2ycc_frame (s : State) : afterRgb2ycc s = { s with
    lastdiag := 0#32, stage := s.stage ||| 0x2#32,
    mem := { s.mem with ycc := (afterRgb2ycc s).mem.ycc } } := rfl

theorem yccAt_afterRgb2ycc (s : State) {p : Nat} (hp : p < width s * height s) :
    (yccAt (afterRgb2ycc s) (3 * p), yccAt (afterRgb2ycc s) (3 * p + 1),
      yccAt (afterRgb2ycc s) (3 * p + 2)) = convertedToYcc s p := by
  unfold afterRgb2ycc
  rw [yccOfRgb_eq]
  exact byteElem_write_pixelStream s .ycc s.mem.ycc (convertedToYcc s) hp

theorem yccAt_afterRgb2ycc_of_ge (s : State) {i : Nat} (hi : 3 * (width s * height s) ≤ i) :
    yccAt (afterRgb2ycc s) i = yccAt s i := by
  unfold afterRgb2ycc
  rw [yccOfRgb_eq]
  exact byteElem_write_pixelStream_of_ge s .ycc s.mem.ycc (convertedToYcc s) hi

/-- Settles O17: the pixel at row `y` and column `x` is number `y * W + x` of the stream `RGB2YCC`
writes. -/
theorem rgb2yccConverts : Obligations.Rgb2yccConverts := by
  refine ⟨fun s h => exec_rgb2ycc_of_not_loaded h, fun s h => ?_⟩
  refine ⟨afterRgb2ycc s, exec_rgb2ycc_of_loaded h, afterRgb2ycc_frame s, fun y hy x hx => ?_,
    fun i hi => ?_⟩
  · rw [Nat.mul_comm _ 3]
    exact yccAt_afterRgb2ycc s (pixelIndex_lt hy hx)
  · exact yccAt_afterRgb2ycc_of_ge s (by rwa [← Nat.mul_assoc])

/-! ### `YCC2RGB` -/

/-- Sample triple `p` of `YCC`, converted (R114). -/
def convertedToRgb (s : State) (p : Nat) : Byte × Byte × Byte :=
  yccToRgb (yccAt s (3 * p)) (yccAt s (3 * p + 1)) (yccAt s (3 * p + 2))

theorem rgbOfYcc_eq (s : State) :
    rgbOfYcc s = pixelStream (convertedToRgb s) (width s * height s) := rfl

/-- The state `YCC2RGB` leaves when its flag is set. -/
def afterYcc2rgb (s : State) : State :=
  setFlag .rgbLoaded (writeRgb 0 (rgbOfYcc s) (beginCommand s))

theorem exec_ycc2rgb_of_valid {s : State} (h : getFlag .yccValid s = true) :
    exec .ycc2rgb s = .next (afterYcc2rgb s) :=
  congrArg Host.Outcome.next (requireFlags_beginCommand_of_flag h _)

theorem exec_ycc2rgb_of_not_valid {s : State} (h : getFlag .yccValid s = false) :
    exec .ycc2rgb s = .next (diagnosed 2 s) :=
  congrArg Host.Outcome.next (requireFlags_beginCommand_of_missing (List.mem_singleton.2 rfl) h _)

theorem afterYcc2rgb_frame (s : State) : afterYcc2rgb s = { s with
    lastdiag := 0#32, stage := s.stage ||| 0x1#32,
    mem := { s.mem with rgb := (afterYcc2rgb s).mem.rgb } } := rfl

theorem rgbAt_afterYcc2rgb (s : State) {p : Nat} (hp : p < width s * height s) :
    (rgbAt (afterYcc2rgb s) (3 * p), rgbAt (afterYcc2rgb s) (3 * p + 1),
      rgbAt (afterYcc2rgb s) (3 * p + 2)) = convertedToRgb s p := by
  unfold afterYcc2rgb
  rw [rgbOfYcc_eq]
  exact byteElem_write_pixelStream s .rgb s.mem.rgb (convertedToRgb s) hp

theorem rgbAt_afterYcc2rgb_of_ge (s : State) {i : Nat} (hi : 3 * (width s * height s) ≤ i) :
    rgbAt (afterYcc2rgb s) i = rgbAt s i := by
  unfold afterYcc2rgb
  rw [rgbOfYcc_eq]
  exact byteElem_write_pixelStream_of_ge s .rgb s.mem.rgb (convertedToRgb s) hi

/-- Settles O18: the sample triple at row `y` and column `x` is number `y * W + x` of the stream
`YCC2RGB` writes. -/
theorem ycc2rgbConverts : Obligations.Ycc2rgbConverts := by
  refine ⟨fun s h => exec_ycc2rgb_of_not_valid h, fun s h => ?_⟩
  refine ⟨afterYcc2rgb s, exec_ycc2rgb_of_valid h, afterYcc2rgb_frame s, fun y hy x hx => ?_,
    fun i hi => ?_⟩
  · rw [Nat.mul_comm _ 3]
    exact rgbAt_afterYcc2rgb s (pixelIndex_lt hy hx)
  · exact rgbAt_afterYcc2rgb_of_ge s (by rwa [← Nat.mul_assoc])

end Sys2Proof.Machine
end

