-- ==== Sys2Proof/Proofs/BlockTransform.lean ====
section
/-! PROOFS. The block merge of `IDCT` (`41_dct.md` R134). It writes one row of the W8 x H8 region after
the other: `yccAt_writeYccRows_of_inside` and `yccAt_writeYccRows_of_outside` say what rows of any
contents leave in `YCC`, and `reconstructedRow_eq` what the rows of the merge hold. -/

namespace Sys2Proof.Machine

/-! ### Rows of `YCC` -/

/-- The sample at offset `j` of a run of samples that was just written. -/
theorem yccAt_writeYcc_of_getElem? {vs : List Byte} {j : Nat} {v : Byte} (h : vs[j]? = some v)
    (base : Nat) (s : State) : yccAt (writeYcc base vs s) (base + j) = v := by
  obtain ⟨hj, hv⟩ := List.getElem?_eq_some_iff.1 h
  rw [yccAt_writeYcc, dif_pos (by omega)]
  simpa using hv

/-- A run of samples leaves the others alone. -/
theorem yccAt_writeYcc_of_outside {base i : Nat} {vs : List Byte}
    (h : ¬(base ≤ i ∧ i < base + vs.length)) (s : State) :
    yccAt (writeYcc base vs s) i = yccAt s i := by
  rw [yccAt_writeYcc, dif_neg h]

/-- The rows 0 to `n - 1` of an image of width `w`, each written from its first column on (R63). -/
def writeYccRows (w : Nat) (row : Nat → List Byte) (n : Nat) (s : State) : State :=
  (List.range n).foldl (fun t y => writeYcc (3 * (y * w)) (row y) t) s

@[simp] theorem writeYccRows_zero (w : Nat) (row : Nat → List Byte) (s : State) :
    writeYccRows w row 0 s = s := rfl

theorem writeYccRows_succ (w : Nat) (row : Nat → List Byte) (n : Nat) (s : State) :
    writeYccRows w row (n + 1) s = writeYcc (3 * (n * w)) (row n) (writeYccRows w row n s) := by
  rw [writeYccRows, List.range_succ, List.foldl_concat, ← writeYccRows]

theorem writeYccRows_frame (w : Nat) (row : Nat → List Byte) (n : Nat) (s : State) :
    writeYccRows w row n s
      = { s with mem := { s.mem with ycc := (writeYccRows w row n s).mem.ycc } } := by
  induction n with
  | zero => rfl
  | succ n ih => rw [writeYccRows_succ, ih]; rfl

/-- The rows do not overlap when none is longer than the image is wide, so each is read back. -/
theorem yccAt_writeYccRows_of_inside {w : Nat} {row : Nat → List Byte}
    (hrow : ∀ y, (row y).length ≤ 3 * w) {n y j : Nat} {v : Byte} (hy : y < n)
    (hv : (row y)[j]? = some v) (s : State) :
    yccAt (writeYccRows w row n s) (3 * (y * w) + j) = v := by
  induction n with
  | zero => omega
  | succ n ih =>
    rw [writeYccRows_succ]
    rcases Nat.lt_succ_iff_lt_or_eq.1 hy with hlt | rfl
    · have hj : j < 3 * w := (List.getElem?_eq_some_iff.1 hv).1.trans_le (hrow y)
      have hnext : y * w + w ≤ n * w := by
        simpa [Nat.succ_mul] using Nat.mul_le_mul_right w (Nat.succ_le_of_lt hlt)
      rw [yccAt_writeYcc_of_outside (by omega), ih hlt]
    · exact yccAt_writeYcc_of_getElem? hv _ _

/-- A sample in none of the rows keeps its value. -/
theorem yccAt_writeYccRows_of_outside {w i n : Nat} {row : Nat → List Byte}
    (h : ∀ y < n, ¬(3 * (y * w) ≤ i ∧ i < 3 * (y * w) + (row y).length)) (s : State) :
    yccAt (writeYccRows w row n s) i = yccAt s i := by
  induction n with
  | zero => rfl
  | succ n ih =>
    rw [writeYccRows_succ, yccAt_writeYcc_of_outside (h n n.lt_succ_self),
      ih fun y hy => h y (Nat.lt_succ_of_lt hy)]

/-! ### The reconstructed samples -/

/-- The reconstruction clamp never leaves the range of a byte (R116). -/
theorem toNat_toReconstructed (v : Int) :
    ((toReconstructed v).toNat : Int) = max 16 (min 255 v) := by
  rw [toReconstructed, clamp, BitVec.toNat_ofInt]
  split
  · omega
  · split <;> omega

/-- The sample of channel `ch` at row `y` and column `x` of the W8 x H8 region (R134). -/
def reconstructedSample (s : State) (y x ch : Nat) : Byte :=
  toReconstructed
    ((inverseDCT (dctBlock s ((y / 8) * blocksWide s + x / 8) ch)).at (y % 8) (x % 8))

/-- Channel `ch` of tile `b` stands at place `3 * b + ch` of the reconstructed blocks. -/
theorem getElem?_inverseBlocks (s : State) {b ch : Nat} (hb : b < numBlocks s) (hch : ch < 3) :
    (inverseBlocks s)[b * 3 + ch]? = some (inverseDCT (dctBlock s b ch)) := by
  have hdiv : (b * 3 + ch) / 3 = b := by omega
  have hmod : (b * 3 + ch) % 3 = ch := by omega
  rw [inverseBlocks, List.getElem?_map, List.getElem?_range (by omega), Option.map_some, hdiv, hmod]

/-- Every row written is as long as the region is wide. -/
@[simp] theorem length_reconstructedRow (s : State) (blocks : List (Grid Int)) (y : Nat) :
    (reconstructedRow s blocks y).length = 3 * width8 s := by
  simp [reconstructedRow, List.length_flatMap, Nat.mul_comm]

/-- The region is a whole number of tiles high and wide (R22). -/
theorem tileIndex_lt {s : State} {y x : Nat} (hy : y < height8 s) (hx : x < width8 s) :
    y / 8 * blocksWide s + x / 8 < numBlocks s := by
  refine pixelIndex_lt ?_ ?_
  · unfold blocksHigh height8 at *; omega
  · unfold blocksWide width8 at *; omega

/-- The pixel at row `y` and column `x` of the region. -/
def reconstructedPixel (s : State) (y x : Nat) : Byte × Byte × Byte :=
  (reconstructedSample s y x 0, reconstructedSample s y x 1, reconstructedSample s y x 2)

/-- A row of the region is a stream of pixels: every sample of it lies in a reconstructed block. -/
theorem reconstructedRow_eq (s : State) {y : Nat} (hy : y < height8 s) :
    reconstructedRow s (inverseBlocks s) y = pixelStream (reconstructedPixel s y) (width8 s) := by
  refine List.flatMap_congr fun x hx => ?_
  have hpixel : pixelBytes (reconstructedPixel s y x)
      = (List.range 3).map (reconstructedSample s y x) := rfl
  rw [hpixel]
  refine List.map_congr_left fun ch hch => ?_
  rw [getElem?_inverseBlocks s (tileIndex_lt hy (List.mem_range.1 hx)) (List.mem_range.1 hch)]
  rfl

theorem getElem?_reconstructedRow (s : State) {y x ch : Nat} (hy : y < height8 s)
    (hx : x < width8 s) (hch : ch < 3) :
    (reconstructedRow s (inverseBlocks s) y)[3 * x + ch]? = some (reconstructedSample s y x ch) := by
  rw [reconstructedRow_eq s hy, getElem?_pixelStream _ hx hch]
  interval_cases ch <;> rfl

/-! ### `IDCT` -/

theorem mergeBlocks_eq (s : State) :
    mergeBlocks s
      = writeYccRows (width s) (reconstructedRow s (inverseBlocks s)) (height8 s) s := rfl

theorem width8_le_width (s : State) : width8 s ≤ width s := Nat.sub_le _ _

theorem yccAt_mergeBlocks (s : State) {y x ch : Nat} (hy : y < height8 s) (hx : x < width8 s)
    (hch : ch < 3) :
    yccAt (mergeBlocks s) ((y * width s + x) * 3 + ch) = reconstructedSample s y x ch := by
  have hindex : (y * width s + x) * 3 + ch = 3 * (y * width s) + (3 * x + ch) := by omega
  have hrow : ∀ y, (reconstructedRow s (inverseBlocks s) y).length ≤ 3 * width s := fun y => by
    rw [length_reconstructedRow]
    exact Nat.mul_le_mul_left 3 (width8_le_width s)
  rw [hindex, mergeBlocks_eq]
  exact yccAt_writeYccRows_of_inside hrow hy (getElem?_reconstructedRow s hy hx hch) s

/-- An index in a row of the merge is that of a sample of the region (R63). -/
theorem row_and_column_of_mem_row {w w8 y i : Nat} (hw : w8 ≤ w) (hlo : 3 * (y * w) ≤ i)
    (hhi : i < 3 * (y * w) + 3 * w8) : i / 3 / w = y ∧ i / 3 % w < w8 := by
  obtain ⟨x, hx⟩ : ∃ x, i / 3 = x + y * w := ⟨i / 3 - y * w, by omega⟩
  have hx8 : x < w8 := by omega
  rw [hx, Nat.add_mul_div_right _ _ (by omega), Nat.add_mul_mod_self_right,
    Nat.div_eq_of_lt (by omega), Nat.mod_eq_of_lt (by omega)]
  exact ⟨Nat.zero_add y, hx8⟩

theorem yccAt_mergeBlocks_of_outside (s : State) {i : Nat}
    (h : ¬(i / 3 / width s < height8 s ∧ i / 3 % width s < width8 s)) :
    yccAt (mergeBlocks s) i = yccAt s i := by
  rw [mergeBlocks_eq]
  refine yccAt_writeYccRows_of_outside (fun y hy ⟨hlo, hhi⟩ => h ?_) s
  rw [length_reconstructedRow] at hhi
  obtain ⟨hrow, hcol⟩ := row_and_column_of_mem_row (width8_le_width s) hlo hhi
  exact ⟨hrow ▸ hy, hcol⟩

/-- The state `IDCT` leaves when its flag is set. -/
def afterIdct (s : State) : State := setFlag .yccValid (mergeBlocks (beginCommand s))

theorem exec_idct_of_valid {s : State} (h : getFlag .dctValid s = true) :
    exec .idct s = .next (afterIdct s) :=
  congrArg Host.Outcome.next (requireFlags_beginCommand_of_flag h _)

theorem exec_idct_of_not_valid {s : State} (h : getFlag .dctValid s = false) :
    exec .idct s = .next (diagnosed 2 s) :=
  congrArg Host.Outcome.next (requireFlags_beginCommand_of_missing (List.mem_singleton.2 rfl) h _)

theorem afterIdct_frame (s : State) : afterIdct s = { s with
    lastdiag := 0#32, stage := s.stage ||| 0x2#32,
    mem := { s.mem with ycc := (afterIdct s).mem.ycc } } := by
  rw [afterIdct, mergeBlocks_eq, writeYccRows_frame]
  rfl

theorem yccAt_afterIdct (s : State) {y x ch : Nat} (hy : y < height8 s) (hx : x < width8 s)
    (hch : ch < 3) :
    yccAt (afterIdct s) ((y * width s + x) * 3 + ch) = reconstructedSample s y x ch :=
  yccAt_mergeBlocks (beginCommand s) hy hx hch

theorem yccAt_afterIdct_of_outside (s : State) {i : Nat}
    (h : ¬(i / 3 / width s < height8 s ∧ i / 3 % width s < width8 s)) :
    yccAt (afterIdct s) i = yccAt s i :=
  yccAt_mergeBlocks_of_outside (beginCommand s) h

/-- Sample `[r][c]` of tile `(ty, tx)` comes from that tile's block (R63, R134). -/
theorem reconstructedSample_of_tile (s : State) {r c : Nat} (hr : r < 8) (hc : c < 8)
    (ty tx ch : Nat) :
    reconstructedSample s (8 * ty + r) (8 * tx + c) ch
      = toReconstructed ((inverseDCT (dctBlock s (ty * blocksWide s + tx) ch)).at r c) := by
  have hplace : ∀ t k : Nat, k < 8 → (8 * t + k) / 8 = t ∧ (8 * t + k) % 8 = k := by omega
  obtain ⟨hty, hr'⟩ := hplace ty r hr
  obtain ⟨htx, hc'⟩ := hplace tx c hc
  rw [reconstructedSample, hty, hr', htx, hc']

/-- Settles O23: sample `[r][c]` of tile `(ty, tx)` stands at row `8 * ty + r` and column
`8 * tx + c` of the region `IDCT` merges the blocks into. -/
theorem idctReconstructs : Obligations.IdctReconstructs := by
  refine ⟨fun s h => exec_idct_of_not_valid h, fun s h => ?_⟩
  refine ⟨afterIdct s, exec_idct_of_valid h, afterIdct_frame s,
    fun ty hty tx htx ch hch r hr c hc => ?_, fun i hi => yccAt_afterIdct_of_outside s hi⟩
  have hy : 8 * ty + r < height8 s := by unfold blocksHigh at hty; omega
  have hx : 8 * tx + c < width8 s := by unfold blocksWide at htx; omega
  rw [yccAt_afterIdct s hy hx hch, reconstructedSample_of_tile s hr hc, toNat_toReconstructed]
  rfl

end Sys2Proof.Machine
end

