-- ==== Sys2Proof/Proofs/Quantizer.lean ====
section
/-! PROOFS. The two commands of the quantizer (`42_quantizer.md` R156 to R158). Both write a tabulated
run of words at the start of a buffer: `wordElem_write_tabulated` says what is read there afterwards,
`index_of_cell` which channel and table cell an index stands for. What is left is that both results fit
32 bits: a quotient lies between 0 and the coefficient (`quantize_between`), a product is saturated
(`sat32_eq`). -/

namespace Sys2Proof.Machine

/-! ### Parameter checks at the start of a command -/

/-- A command whose parameter check fails records `E_PARAM` and does nothing else (R312). -/
theorem requireParam_beginCommand_of_bad {ok : State → Bool} {s : State}
    (h : ok (beginCommand s) = false) (body : State → State) :
    requireParam ok body (beginCommand s) = diagnosed 3 s := by
  rw [requireParam_of_bad h, diag_beginCommand, diag_eq_diagnosed, Diag.code]

/-! ### Tabulated words -/

/-- Inside a tabulated run written to the start of a buffer of words, the table is read. -/
theorem wordElem_write_tabulated (s : State) (id : BufId) (b : Buf 32) (f : Nat → Word) {n i : Nat}
    (hi : i < n) : wordElem s id (Store.write b 0 ((List.range n).map f)) i = f i := by
  simp [wordElem, Store.read?_write, hi]

/-- Beyond the run the buffer keeps what it has. -/
theorem wordElem_write_tabulated_of_ge (s : State) (id : BufId) (b : Buf 32) (f : Nat → Word)
    {n i : Nat} (hi : n ≤ i) :
    wordElem s id (Store.write b 0 ((List.range n).map f)) i = wordElem s id b i := by
  rw [wordElem, Store.read?_write_of_ge b _ (by simpa using hi), ← wordElem]

/-! ### Coefficients and their table cells (R63) -/

/-- Every cell of every block lies in the first `192 * n` elements. -/
theorem cellIndex_lt {n b ch r c : Nat} (hb : b < n) (hch : ch < 3) (hr : r < 8) (hc : c < 8) :
    ((b * 3 + ch) * 8 + r) * 8 + c < 192 * n := by omega

/-- The channel and the natural index of a cell, from its place in the buffer. -/
theorem index_of_cell {ch r c : Nat} (b : Nat) (hch : ch < 3) (hr : r < 8) (hc : c < 8) :
    (((b * 3 + ch) * 8 + r) * 8 + c) / 64 % 3 = ch
      ∧ (((b * 3 + ch) * 8 + r) * 8 + c) % 64 = 8 * r + c := by omega

/-! ### Quotients and products in 32 bits -/

/-- No table entry is 0 (R152). -/
theorem one_le_tableEntry (q : Int) (ch j : Nat) : 1 ≤ tableEntry q ch j := by
  unfold tableEntry quantEntry
  split <;> exact le_max_left _ _

/-- Rounding half away from zero a number between 0 and an integer stays between the two. -/
theorem floor_add_half_between {x : ℚ} {n : Int} (h0 : 0 ≤ x) (hn : x ≤ n) :
    0 ≤ ⌊x + 1 / 2⌋ ∧ ⌊x + 1 / 2⌋ ≤ n :=
  ⟨Int.floor_nonneg.2 (by linarith), Int.lt_add_one_iff.1 (Int.floor_lt.2 (by push_cast; linarith))⟩

/-- With a step of at least 1 the quotient lies between 0 and the coefficient. -/
theorem quantize_between (v : Int) {t : Int} (ht : 1 ≤ t) :
    min 0 v ≤ quantize v t ∧ quantize v t ≤ max 0 v := by
  have ht' : (1 : ℚ) ≤ t := by exact_mod_cast ht
  have hq : quantize v t = rha ((v : ℚ) / t) := rfl
  rw [hq, rha]
  rcases le_or_gt 0 v with hv | hv
  · have hv' : (0 : ℚ) ≤ v := by exact_mod_cast hv
    have hx : 0 ≤ (v : ℚ) / t := by positivity
    have := floor_add_half_between hx (div_le_self hv' ht')
    rw [if_pos hx]
    omega
  · have hv' : (v : ℚ) < 0 := by exact_mod_cast hv
    have hx : (v : ℚ) / t < 0 := div_neg_of_neg_of_pos hv' (by linarith)
    have hle : -((v : ℚ) / t) ≤ ((-v : Int) : ℚ) := by
      rw [← neg_div, Int.cast_neg]
      exact div_le_self (by linarith) ht'
    have := floor_add_half_between (neg_nonneg.2 hx.le) hle
    rw [if_neg hx.not_ge]
    omega

/-- The quotient of a 32-bit coefficient is a 32-bit value. -/
theorem toInt_ofInt_quantize (v : Word) {t : Int} (ht : 1 ≤ t) :
    (BitVec.ofInt 32 (quantize v.toInt t)).toInt = quantize v.toInt t := by
  have hlo := v.le_toInt
  have hhi := v.toInt_lt
  obtain ⟨hmin, hmax⟩ := quantize_between v.toInt ht
  exact BitVec.toInt_ofInt_eq_self (by decide) (by omega) (by omega)

theorem sat32_eq (v : Int) : sat32 v = max (-2147483648) (min 2147483647 v) := by
  unfold sat32 clamp
  omega

/-- A saturated product is a 32-bit value. -/
theorem toInt_ofInt_dequantize (v t : Int) :
    (BitVec.ofInt 32 (dequantize v t)).toInt = max (-2147483648) (min 2147483647 (v * t)) := by
  rw [dequantize, sat32_eq]
  exact BitVec.toInt_ofInt_eq_self (by decide) (by omega) (by omega)

/-! ### The quality check (R155) -/

theorem qualityOk_iff (s : State) :
    qualityOk s = true ↔ 1 ≤ s.quality.toInt ∧ s.quality.toInt ≤ 100 := decide_eq_true_iff

theorem qualityOk_beginCommand (s : State) : qualityOk (beginCommand s) = qualityOk s := rfl

/-- A command with one flag and the quality check, the quality out of range. -/
theorem requireQuality_of_bad {f : Flag} {s : State} (hf : getFlag f s = true)
    (hq : ¬(1 ≤ s.quality.toInt ∧ s.quality.toInt ≤ 100)) (body : State → State) :
    requireFlags [f] (requireParam qualityOk body) (beginCommand s) = diagnosed 3 s := by
  rw [requireFlags_beginCommand_of_flag hf]
  refine requireParam_beginCommand_of_bad ?_ body
  rwa [qualityOk_beginCommand, ← Bool.not_eq_true, qualityOk_iff]

/-- A command with one flag and the quality check, the quality legal. -/
theorem requireQuality_of_ok {f : Flag} {s : State} (hf : getFlag f s = true)
    (hq : 1 ≤ s.quality.toInt ∧ s.quality.toInt ≤ 100) (body : State → State) :
    requireFlags [f] (requireParam qualityOk body) (beginCommand s) = body (beginCommand s) := by
  rw [requireFlags_beginCommand_of_flag hf]
  exact requireParam_of_ok ((qualityOk_beginCommand s).trans ((qualityOk_iff s).2 hq)) body

/-! ### `QUANT` -/

/-- The state `QUANT` leaves when its flag is set and the quality legal. -/
def afterQuant (s : State) : State := setFlag .qValid (writeQb 0 (quantized s) (beginCommand s))

theorem exec_quant_of_not_valid {s : State} (h : getFlag .dctValid s = false) :
    exec .quant s = .next (diagnosed 2 s) :=
  congrArg Host.Outcome.next (requireFlags_beginCommand_of_missing (List.mem_singleton.2 rfl) h _)

theorem exec_quant_of_bad_quality {s : State} (h : getFlag .dctValid s = true)
    (hq : ¬(1 ≤ s.quality.toInt ∧ s.quality.toInt ≤ 100)) :
    exec .quant s = .next (diagnosed 3 s) :=
  congrArg Host.Outcome.next (requireQuality_of_bad h hq _)

theorem exec_quant_of_valid {s : State} (h : getFlag .dctValid s = true)
    (hq : 1 ≤ s.quality.toInt ∧ s.quality.toInt ≤ 100) :
    exec .quant s = .next (afterQuant s) :=
  congrArg Host.Outcome.next (requireQuality_of_ok h hq _)

theorem afterQuant_frame (s : State) : afterQuant s = { s with
    lastdiag := 0#32, stage := s.stage ||| 0x8#32,
    mem := { s.mem with qb := (afterQuant s).mem.qb } } := rfl

theorem qbAt_afterQuant (s : State) {i : Nat} (hi : i < 192 * numBlocks s) :
    (qbAt (afterQuant s) i).toInt
      = quantize (dctbAt s i).toInt (tableEntry s.quality.toInt (i / 64 % 3) (i % 64)) :=
  (congrArg BitVec.toInt (wordElem_write_tabulated s .qb s.mem.qb _ hi)).trans
    (toInt_ofInt_quantize _ (one_le_tableEntry _ _ _))

theorem qbAt_afterQuant_of_ge (s : State) {i : Nat} (hi : 192 * numBlocks s ≤ i) :
    qbAt (afterQuant s) i = qbAt s i :=
  wordElem_write_tabulated_of_ge s .qb s.mem.qb _ hi

/-- Settles O26: a quotient lies between 0 and its coefficient, so `QB` holds it exactly. -/
theorem quantQuantizes : Obligations.QuantQuantizes := by
  refine ⟨fun s h => exec_quant_of_not_valid h, fun s h hq => exec_quant_of_bad_quality h hq,
    fun s h hlo hhi => ?_⟩
  refine ⟨afterQuant s, exec_quant_of_valid h ⟨hlo, hhi⟩, afterQuant_frame s,
    fun b hb ch hch r hr c hc => ?_, fun i hi => qbAt_afterQuant_of_ge s hi⟩
  obtain ⟨hchannel, hcell⟩ := index_of_cell b hch hr hc
  rw [qbAt_afterQuant s (cellIndex_lt hb hch hr hc), hchannel, hcell]

/-! ### `DEQUANT` -/

/-- The state `DEQUANT` leaves when its flag is set and the quality legal. -/
def afterDequant (s : State) : State :=
  setFlag .dctValid (writeDctb 0 (dequantized s) (beginCommand s))

theorem exec_dequant_of_not_valid {s : State} (h : getFlag .qValid s = false) :
    exec .dequant s = .next (diagnosed 2 s) :=
  congrArg Host.Outcome.next (requireFlags_beginCommand_of_missing (List.mem_singleton.2 rfl) h _)

theorem exec_dequant_of_bad_quality {s : State} (h : getFlag .qValid s = true)
    (hq : ¬(1 ≤ s.quality.toInt ∧ s.quality.toInt ≤ 100)) :
    exec .dequant s = .next (diagnosed 3 s) :=
  congrArg Host.Outcome.next (requireQuality_of_bad h hq _)

theorem exec_dequant_of_valid {s : State} (h : getFlag .qValid s = true)
    (hq : 1 ≤ s.quality.toInt ∧ s.quality.toInt ≤ 100) :
    exec .dequant s = .next (afterDequant s) :=
  congrArg Host.Outcome.next (requireQuality_of_ok h hq _)

theorem afterDequant_frame (s : State) : afterDequant s = { s with
    lastdiag := 0#32, stage := s.stage ||| 0x4#32,
    mem := { s.mem with dctb := (afterDequant s).mem.dctb } } := rfl

theorem dctbAt_afterDequant (s : State) {i : Nat} (hi : i < 192 * numBlocks s) :
    (dctbAt (afterDequant s) i).toInt = max (-2147483648) (min 2147483647
      ((qbAt s i).toInt * tableEntry s.quality.toInt (i / 64 % 3) (i % 64))) :=
  (congrArg BitVec.toInt (wordElem_write_tabulated s .dctb s.mem.dctb _ hi)).trans
    (toInt_ofInt_dequantize _ _)

theorem dctbAt_afterDequant_of_ge (s : State) {i : Nat} (hi : 192 * numBlocks s ≤ i) :
    dctbAt (afterDequant s) i = dctbAt s i :=
  wordElem_write_tabulated_of_ge s .dctb s.mem.dctb _ hi

/-- Settles O27: a saturated product fits 32 bits, so `DCTB` holds it exactly. -/
theorem dequantScales : Obligations.DequantScales := by
  refine ⟨fun s h => exec_dequant_of_not_valid h, fun s h hq => exec_dequant_of_bad_quality h hq,
    fun s h hlo hhi => ?_⟩
  refine ⟨afterDequant s, exec_dequant_of_valid h ⟨hlo, hhi⟩, afterDequant_frame s,
    fun b hb ch hch r hr c hc => ?_, fun i hi => dctbAt_afterDequant_of_ge s hi⟩
  obtain ⟨hchannel, hcell⟩ := index_of_cell b hch hr hc
  rw [dctbAt_afterDequant s (cellIndex_lt hb hch hr hc), hchannel, hcell]

end Sys2Proof.Machine
end

