-- ==== Sys2Proof/Proofs/Zigzag.lean ====
section
/-! PROOFS. The two commands of the zigzag scanner (`43_zigzag.md` R168, R169). Both write blocks of 64
words one after the other at the start of a buffer, and `flatMap_range_map` makes one tabulated run of
them. `blockIndex_div_mod` says which block and place an index stands for, `scanPosition_scanIndex`
that the scan visits no cell twice. -/

namespace Sys2Proof.Machine

/-! ### Blocks one after the other -/

/-- The blocks `f 0`, ..., `f (n - 1)` of `m` elements each are one run of `m * n` elements. -/
theorem flatMap_range_map {α : Type} (f : Nat → Nat → α) (m n : Nat) :
    (List.range n).flatMap (fun g => (List.range m).map (f g))
      = (List.range (m * n)).map fun i => f (i / m) (i % m) := by
  induction n with
  | zero => rfl
  | succ n ih =>
    have hlast : ∀ k ∈ List.range m, f n k = f ((m * n + k) / m) ((m * n + k) % m) := fun k hk => by
      have hk : k < m := List.mem_range.1 hk
      rw [Nat.mul_add_div (by omega), Nat.mul_add_mod, Nat.div_eq_of_lt hk, Nat.mod_eq_of_lt hk,
        Nat.add_zero]
    rw [List.range_succ, List.flatMap_append, ih, List.flatMap_singleton, Nat.mul_succ,
      List.range_add, List.map_append, List.map_map, List.map_congr_left hlast]
    rfl

/-- The block and the place in it that an index stands for (R63). -/
theorem blockIndex_div_mod (g : Nat) {k : Nat} (hk : k < 64) :
    (g * 64 + k) / 64 = g ∧ (g * 64 + k) % 64 = k := by omega

/-- Every place of every block lies in the first `192 * n` elements. -/
theorem blockIndex_lt {n g k : Nat} (hg : g < 3 * n) (hk : k < 64) : g * 64 + k < 192 * n := by omega

/-! ### The scan (R165) -/

theorem scanIndex_lt : ∀ {k : Nat}, k < 64 → scanIndex k < 64 := by decide

/-- The scan visits no cell twice. -/
theorem scanPosition_scanIndex : ∀ {k : Nat}, k < 64 → scanPosition (scanIndex k) = k := by
  decide +kernel

/-- The cell of scan position `k` in block `g`, by the row and the column of the ROM. -/
theorem cell_eq_scanIndex (g k : Nat) :
    g * 64 + 8 * zigzagRows.getD k 0 + zigzagCols.getD k 0 = g * 64 + scanIndex k :=
  Nat.add_assoc _ _ _

/-! ### The length of the sequence -/

/-- The blocks of a legal image have no more cells than three channels of the largest image. -/
theorem numBlocks_le {s : State} (h : GeometryLegal s) :
    192 * numBlocks s ≤ 3 * (Config.maxW * Config.maxH) := by
  obtain ⟨-, hw, -, hh⟩ := h
  have hwide : 8 * blocksWide s ≤ Config.maxW := by
    unfold blocksWide width8 width regLen; omega
  have hhigh : 8 * blocksHigh s ≤ Config.maxH := by
    unfold blocksHigh height8 height regLen; omega
  calc 192 * numBlocks s = 3 * (8 * blocksWide s * (8 * blocksHigh s)) := by unfold numBlocks; ring
    _ ≤ 3 * (Config.maxW * Config.maxH) := Nat.mul_le_mul_left 3 (Nat.mul_le_mul hwide hhigh)

/-- The number of cells of a legal image fits a signed length register. -/
theorem toInt_ofNat_numBlocks {s : State} (h : GeometryLegal s) :
    (BitVec.ofNat 32 (192 * numBlocks s)).toInt = 192 * numBlocks s := by
  have hcells := numBlocks_le h
  unfold Config.maxW Config.maxH at hcells
  rw [BitVec.toInt_ofNat', Int.bmod_eq_of_le (by omega) (by omega), Nat.cast_mul, Nat.cast_ofNat]

/-- An index is below a length as a count exactly when it is below the length itself: no index is
below a negative length, which counts as 0. -/
theorem lt_regLen_iff {r : Word} {i : Nat} : i < regLen r ↔ (i : Int) < r.toInt := Int.lt_toNat

/-! ### `ZIGZAG` -/

/-- Element `i` of the sequence: the cell of block `i / 64` at scan position `i % 64` (R168). -/
def scannedAt (s : State) (i : Nat) : Word := qbAt s (i / 64 * 64 + scanIndex (i % 64))

theorem scanned_eq (s : State) :
    scanned s = (List.range (192 * numBlocks s)).map (scannedAt s) := by
  rw [show 192 * numBlocks s = 64 * (3 * numBlocks s) by omega]
  exact flatMap_range_map (fun g k => qbAt s (g * 64 + scanIndex k)) 64 (3 * numBlocks s)

/-- The state `ZIGZAG` leaves when its flag is set. -/
def afterZigzag (s : State) : State :=
  setFlag .zzValid { writeZz 0 (scanned s) (beginCommand s) with
    zzLen := BitVec.ofNat 32 (192 * numBlocks s) }

theorem exec_zigzag_of_not_valid {s : State} (h : getFlag .qValid s = false) :
    exec .zigzag s = .next (diagnosed 2 s) :=
  congrArg Host.Outcome.next (requireFlags_beginCommand_of_missing (List.mem_singleton.2 rfl) h _)

theorem exec_zigzag_of_valid {s : State} (h : getFlag .qValid s = true) :
    exec .zigzag s = .next (afterZigzag s) :=
  congrArg Host.Outcome.next (requireFlags_beginCommand_of_flag h _)

theorem afterZigzag_frame (s : State) : afterZigzag s = { s with
    lastdiag := 0#32, stage := s.stage ||| 0x20#32, zzLen := (afterZigzag s).zzLen,
    mem := { s.mem with zz := (afterZigzag s).mem.zz } } := rfl

theorem mem_zz_afterZigzag (s : State) : (afterZigzag s).mem.zz
    = Store.write s.mem.zz 0 ((List.range (192 * numBlocks s)).map (scannedAt s)) :=
  congrArg (Store.write s.mem.zz 0) (scanned_eq s)

theorem zzAt_afterZigzag (s : State) {i : Nat} (hi : i < 192 * numBlocks s) :
    zzAt (afterZigzag s) i = scannedAt s i := by
  rw [zzAt, mem_zz_afterZigzag]
  exact wordElem_write_tabulated _ .zz s.mem.zz (scannedAt s) hi

theorem zzAt_afterZigzag_of_ge (s : State) {i : Nat} (hi : 192 * numBlocks s ≤ i) :
    zzAt (afterZigzag s) i = zzAt s i := by
  rw [zzAt, mem_zz_afterZigzag]
  exact wordElem_write_tabulated_of_ge _ .zz s.mem.zz (scannedAt s) hi

/-- Settles O29: element `g * 64 + k` of the sequence is scan position `k` of block `g`, and the whole
sequence of a legal image fits `ZZ_LEN`. -/
theorem zigzagScans : Obligations.ZigzagScans := by
  refine ⟨fun s h => exec_zigzag_of_not_valid h, fun s h hgeometry => ?_⟩
  refine ⟨afterZigzag s, exec_zigzag_of_valid h, afterZigzag_frame s, toInt_ofNat_numBlocks hgeometry,
    fun g hg k hk => ?_, fun i hi => zzAt_afterZigzag_of_ge s hi⟩
  obtain ⟨hblock, hplace⟩ := blockIndex_div_mod g hk
  rw [zzAt_afterZigzag s (blockIndex_lt hg hk), scannedAt, hblock, hplace, cell_eq_scanIndex]

/-! ### `DEZIGZAG` -/

/-- The element at index `i` of the sequence, 0 where the sequence has ended (R167). -/
def zzOrZero (s : State) (i : Nat) : Word := if i < regLen s.zzLen then zzAt s i else 0#32

/-- Cell `i` of the blocks: natural index `i % 64` of block `i / 64` (R169). -/
def unscannedAt (s : State) (i : Nat) : Word := zzOrZero s (i / 64 * 64 + scanPosition (i % 64))

theorem unscanned_eq (s : State) :
    unscanned s = (List.range (192 * numBlocks s)).map (unscannedAt s) := by
  rw [show 192 * numBlocks s = 64 * (3 * numBlocks s) by omega]
  exact flatMap_range_map (fun g j => zzOrZero s (g * 64 + scanPosition j)) 64 (3 * numBlocks s)

/-- The state `DEZIGZAG` leaves when its flag is set. -/
def afterDezigzag (s : State) : State :=
  setFlag .qValid (writeQb 0 (unscanned s) (beginCommand s))

theorem exec_dezigzag_of_not_valid {s : State} (h : getFlag .zzValid s = false) :
    exec .dezigzag s = .next (diagnosed 2 s) :=
  congrArg Host.Outcome.next (requireFlags_beginCommand_of_missing (List.mem_singleton.2 rfl) h _)

theorem exec_dezigzag_of_valid {s : State} (h : getFlag .zzValid s = true) :
    exec .dezigzag s = .next (afterDezigzag s) :=
  congrArg Host.Outcome.next (requireFlags_beginCommand_of_flag h _)

theorem afterDezigzag_frame (s : State) : afterDezigzag s = { s with
    lastdiag := 0#32, stage := s.stage ||| 0x8#32,
    mem := { s.mem with qb := (afterDezigzag s).mem.qb } } := rfl

theorem mem_qb_afterDezigzag (s : State) : (afterDezigzag s).mem.qb
    = Store.write s.mem.qb 0 ((List.range (192 * numBlocks s)).map (unscannedAt s)) :=
  congrArg (Store.write s.mem.qb 0) (unscanned_eq s)

theorem qbAt_afterDezigzag (s : State) {i : Nat} (hi : i < 192 * numBlocks s) :
    qbAt (afterDezigzag s) i = unscannedAt s i := by
  rw [qbAt, mem_qb_afterDezigzag]
  exact wordElem_write_tabulated _ .qb s.mem.qb (unscannedAt s) hi

theorem qbAt_afterDezigzag_of_ge (s : State) {i : Nat} (hi : 192 * numBlocks s ≤ i) :
    qbAt (afterDezigzag s) i = qbAt s i := by
  rw [qbAt, mem_qb_afterDezigzag]
  exact wordElem_write_tabulated_of_ge _ .qb s.mem.qb (unscannedAt s) hi

/-- Settles O30: the cell at scan position `k` looks up its own position, which is `k` again. -/
theorem dezigzagFills : Obligations.DezigzagFills := by
  refine ⟨fun s h => exec_dezigzag_of_not_valid h, fun s h _ => ?_⟩
  refine ⟨afterDezigzag s, exec_dezigzag_of_valid h, afterDezigzag_frame s, fun g hg k hk => ?_,
    fun i hi => qbAt_afterDezigzag_of_ge s hi⟩
  obtain ⟨hblock, hcell⟩ := blockIndex_div_mod g (scanIndex_lt hk)
  rw [cell_eq_scanIndex, qbAt_afterDezigzag s (blockIndex_lt hg (scanIndex_lt hk)), unscannedAt,
    hblock, hcell, scanPosition_scanIndex hk, zzOrZero]
  simp only [lt_regLen_iff]

end Sys2Proof.Machine
end

