-- ==== Sys2Proof/Proofs/Rle.lean ====
section
/-! PROOFS. The two commands of the run-length coder (`44_rle.md` R181 to R184). `runs_cons_cases` says
once how one more value changes the runs of a sequence: it opens a run or lengthens the first one. What
the runs are (`one_le_of_mem_runs`, `isChain_runs`, `flatMap_runs`) follows by induction, and because
their counts add up to the length of the sequence, every count and the length of the stream fit 32 bits.
For the decoder `expandPairs_tabulated` gives the expansion pair by pair. -/

namespace Sys2Proof.Machine

/-! ### Two words for each element -/

theorem length_flatMap_pair {α β : Type} (f g : α → β) (l : List α) :
    (l.flatMap fun a => [f a, g a]).length = 2 * l.length := by
  simp [List.length_flatMap, Nat.mul_comm]

/-- Element `j` of the list gives the elements `2 * j` and `2 * j + 1` of the stream. -/
theorem getElem?_flatMap_pair {α β : Type} (f g : α → β) (l : List α) (j : Nat) :
    (l.flatMap fun a => [f a, g a])[2 * j]? = l[j]?.map f
      ∧ (l.flatMap fun a => [f a, g a])[2 * j + 1]? = l[j]?.map g := by
  induction l generalizing j with
  | nil => simp
  | cons a l ih =>
    cases j with
    | zero => simp
    | succ j => simpa [Nat.mul_succ] using ih j

/-- A count below `2 ^ 31` is the value of the signed register that holds it. -/
theorem toInt_ofNat_of_lt {n : Nat} (h : n < 2 ^ 31) : (BitVec.ofNat 32 n).toInt = n := by
  rw [BitVec.toInt_ofNat', Int.bmod_eq_of_le (by omega) (by omega)]

/-- The capacity of `ZZ` in figures (R8). -/
theorem zzCap_eq : Config.zzCap = 3 * 16384 * 16384 := rfl

/-! ### Runs (R181) -/

/-- One more value in front opens a run, unless the first run is one of that value, which it then
lengthens. -/
theorem runs_cons_cases (x : Word) (xs : List Word) :
    ((∀ p ∈ (runs xs).head?, x ≠ p.1) ∧ runs (x :: xs) = (x, 1) :: runs xs)
      ∨ ∃ n rest, runs xs = (x, n) :: rest ∧ runs (x :: xs) = (x, n + 1) :: rest := by
  rw [runs]
  split
  next h => exact .inl (by simp [h])
  next v n rest h =>
    by_cases hv : v = x
    · subst hv
      exact .inr ⟨n, rest, h, if_pos rfl⟩
    · exact .inl ⟨by simpa [h] using Ne.symm hv, by rw [if_neg hv, h]⟩

/-- No run is empty. -/
theorem one_le_of_mem_runs (seq : List Word) : ∀ p ∈ runs seq, 1 ≤ p.2 := by
  induction seq with
  | nil => simp [runs]
  | cons x xs ih =>
    obtain ⟨-, hruns⟩ | ⟨n, rest, htail, hruns⟩ := runs_cons_cases x xs
    · rw [hruns]
      exact List.forall_mem_cons.2 ⟨Nat.le_refl 1, ih⟩
    · rw [htail] at ih
      rw [hruns]
      exact List.forall_mem_cons.2 ⟨Nat.le_add_left 1 n, (List.forall_mem_cons.1 ih).2⟩

/-- Neighbouring runs have different values. -/
theorem isChain_runs (seq : List Word) : (runs seq).IsChain fun p q => p.1 ≠ q.1 := by
  induction seq with
  | nil => exact .nil
  | cons x xs ih =>
    obtain ⟨hopens, hruns⟩ | ⟨n, rest, htail, hruns⟩ := runs_cons_cases x xs
    · rw [hruns]
      exact List.isChain_cons.2 ⟨hopens, ih⟩
    · rw [htail] at ih
      rw [hruns]
      exact List.isChain_cons.2 (List.isChain_cons.1 ih)

/-- The runs joined are the sequence. -/
theorem flatMap_runs (seq : List Word) :
    (runs seq).flatMap (fun p => List.replicate p.2 p.1) = seq := by
  induction seq with
  | nil => rfl
  | cons x xs ih =>
    obtain ⟨-, hruns⟩ | ⟨n, rest, htail, hruns⟩ := runs_cons_cases x xs
    · rw [hruns, List.flatMap_cons, ih]
      rfl
    · rw [htail, List.flatMap_cons] at ih
      rw [hruns, List.flatMap_cons, List.replicate_succ, List.cons_append, ih]

/-- The counts of the runs add up to the length of the sequence. -/
theorem sum_counts_runs (seq : List Word) : ((runs seq).map Prod.snd).sum = seq.length := by
  have hlength := congrArg List.length (flatMap_runs seq)
  simpa only [List.length_flatMap, List.length_replicate] using hlength

/-- There are no more runs than values. -/
theorem length_runs_le (seq : List Word) : (runs seq).length ≤ seq.length := by
  rw [← sum_counts_runs seq, ← List.length_map Prod.snd]
  exact List.length_le_sum_of_one_le _ (List.forall_mem_map.2 (one_le_of_mem_runs seq))

/-- No run is longer than the sequence. -/
theorem count_le_of_mem_runs {seq : List Word} {p : Word × Nat} (hp : p ∈ runs seq) :
    p.2 ≤ seq.length := by
  rw [← sum_counts_runs seq]
  exact List.le_sum_of_mem (List.mem_map_of_mem hp)

theorem length_encodeRLE (seq : List Word) : (encodeRLE seq).length = 2 * (runs seq).length :=
  length_flatMap_pair _ _ _

/-! ### `RLEENC` -/

/-- The state `RLEENC` leaves when its flag is set. -/
def afterRleenc (s : State) : State :=
  setFlag .rleValid { writeRle 0 (encodeRLE (zzSeq s)) (beginCommand s) with
    rleLen := BitVec.ofNat 32 (encodeRLE (zzSeq s)).length }

theorem exec_rleenc_of_not_valid {s : State} (h : getFlag .zzValid s = false) :
    exec .rleenc s = .next (diagnosed 2 s) :=
  congrArg Host.Outcome.next (requireFlags_beginCommand_of_missing (List.mem_singleton.2 rfl) h _)

theorem exec_rleenc_of_valid {s : State} (h : getFlag .zzValid s = true) :
    exec .rleenc s = .next (afterRleenc s) :=
  congrArg Host.Outcome.next (requireFlags_beginCommand_of_flag h _)

theorem afterRleenc_frame (s : State) : afterRleenc s = { s with
    lastdiag := 0#32, stage := s.stage ||| 0x40#32, rleLen := (afterRleenc s).rleLen,
    mem := { s.mem with rle := (afterRleenc s).mem.rle } } := rfl

/-- A legal sequence is no longer than `ZZ_CAP`. -/
theorem length_zzSeq_le {s : State} (h : LengthsLegal s) : (zzSeq s).length ≤ Config.zzCap := by
  obtain ⟨⟨-, hle⟩, -⟩ := h
  rw [zzSeq, List.length_map, List.length_range]
  exact Int.toNat_le.2 hle

theorem toInt_rleLen_afterRleenc {s : State} (h : LengthsLegal s) :
    (afterRleenc s).rleLen.toInt = 2 * (runs (zzSeq s)).length := by
  have hruns := (length_runs_le (zzSeq s)).trans (length_zzSeq_le h)
  rw [zzCap_eq] at hruns
  calc (BitVec.ofNat 32 (encodeRLE (zzSeq s)).length).toInt
      = ((2 * (runs (zzSeq s)).length : Nat) : Int) := by
        rw [length_encodeRLE, toInt_ofNat_of_lt (by omega)]
    _ = 2 * (runs (zzSeq s)).length := Nat.cast_mul _ _

theorem rleAt_afterRleenc (s : State) {i : Nat} {v : Word} (hv : (encodeRLE (zzSeq s))[i]? = some v) :
    rleAt (afterRleenc s) i = v := by
  obtain ⟨hi, hget⟩ := List.getElem?_eq_some_iff.1 hv
  calc rleAt (afterRleenc s) i = rleAt (writeRle 0 (encodeRLE (zzSeq s)) s) i := rfl
    _ = v := by rw [rleAt_writeRle, dif_pos (by omega)]; exact hget

theorem rleAt_afterRleenc_of_ge (s : State) {i : Nat} (hi : 2 * (runs (zzSeq s)).length ≤ i) :
    rleAt (afterRleenc s) i = rleAt s i := by
  rw [← length_encodeRLE] at hi
  calc rleAt (afterRleenc s) i = rleAt (writeRle 0 (encodeRLE (zzSeq s)) s) i := rfl
    _ = rleAt s i := by rw [rleAt_writeRle, dif_neg (by omega)]

/-- Pair `j` of the stream is run `j`: its value, and its length as a signed word. -/
theorem rlePair_afterRleenc {s : State} (h : LengthsLegal s) {j : Nat}
    (hj : j < (runs (zzSeq s)).length) :
    rleAt (afterRleenc s) (2 * j) = ((runs (zzSeq s))[j]).1
      ∧ (rleAt (afterRleenc s) (2 * j + 1)).toInt = ((runs (zzSeq s))[j]).2 := by
  have hcount := (count_le_of_mem_runs (List.getElem_mem hj)).trans (length_zzSeq_le h)
  rw [zzCap_eq] at hcount
  obtain ⟨hvalue, hlength⟩ := getElem?_flatMap_pair Prod.fst
    (fun p : Word × Nat => BitVec.ofNat 32 p.2) (runs (zzSeq s)) j
  rw [List.getElem?_eq_getElem hj] at hvalue hlength
  rw [rleAt_afterRleenc s hvalue, rleAt_afterRleenc s hlength, toInt_ofNat_of_lt (by omega)]
  exact ⟨rfl, rfl⟩

/-- Settles O32: the runs of the sequence are the list asked for, and the stream holds them pair by
pair. -/
theorem rleencListsRuns : Obligations.RleencListsRuns := by
  refine ⟨fun s h => exec_rleenc_of_not_valid h, fun s h hlegal => ?_⟩
  refine ⟨afterRleenc s, runs (zzSeq s), exec_rleenc_of_valid h, afterRleenc_frame s,
    toInt_rleLen_afterRleenc hlegal, one_le_of_mem_runs _, fun j hj => ?_, flatMap_runs _,
    fun j hj => rlePair_afterRleenc hlegal hj, fun i hi => rleAt_afterRleenc_of_ge s hi⟩
  simpa [hj, Nat.lt_of_succ_lt hj] using (isChain_runs (zzSeq s)).getElem j hj

/-! ### Expansion (R183, R184) -/

theorem expandedLength_eq (stream : List Word) :
    expandedLength stream = (expandPairs stream).length := by
  fun_induction expandPairs stream with
  | case1 v n rest ih => rw [expandedLength, ih, List.length_append, List.length_replicate]
  | case2 stream hshort => rw [expandedLength]; exacts [rfl, hshort]

/-- The expansion of a stream of `m` pairs, pair by pair. -/
theorem expandPairs_tabulated (f : Nat → Word) (m : Nat) :
    expandPairs ((List.range (2 * m)).map f)
      = (List.range m).flatMap fun j => List.replicate (regLen (f (2 * j + 1))) (f (2 * j)) := by
  induction m generalizing f with
  | zero => rfl
  | succ m ih =>
    have hstream : (List.range (2 * (m + 1))).map f
        = f 0 :: f 1 :: (List.range (2 * m)).map fun i => f (i + 2) := by
      simp [Nat.mul_succ, List.range_succ_eq_map, Function.comp_def]
    rw [hstream, expandPairs, ih, List.range_succ_eq_map, List.flatMap_cons, List.flatMap_map]
    rfl

/-! ### `RLEDEC` -/

/-- The state `RLEDEC` leaves when its flag is set and neither failure holds. -/
def afterRledec (s : State) : State :=
  setFlag .zzValid { writeZz 0 (expandPairs (rleSeq s)) (beginCommand s) with
    zzLen := BitVec.ofNat 32 (expandedLength (rleSeq s)) }

theorem exec_rledec_of_not_valid {s : State} (h : getFlag .rleValid s = false) :
    exec .rledec s = .next (diagnosed 2 s) :=
  congrArg Host.Outcome.next (requireFlags_beginCommand_of_missing (List.mem_singleton.2 rfl) h _)

/-- With its flag set `RLEDEC` ends in one of the two failures or with the expansion (R183). -/
theorem exec_rledec_of_valid {s : State} (h : getFlag .rleValid s = true) :
    exec .rledec s = .next (
      if rleMalformed s then diagnosed 5 { s with zzLen := 0#32 }
      else if Config.zzCap < (expandPairs (rleSeq s)).length then
        diagnosed 10 { s with zzLen := 0#32 }
      else afterRledec s) := by
  rw [← expandedLength_eq]
  exact congrArg Host.Outcome.next (requireFlags_beginCommand_of_flag h _)

theorem afterRledec_frame (s : State) : afterRledec s = { s with
    lastdiag := 0#32, stage := s.stage ||| 0x20#32, zzLen := (afterRledec s).zzLen,
    mem := { s.mem with zz := (afterRledec s).mem.zz } } := rfl

theorem toInt_zzLen_afterRledec {s : State} (h : (expandPairs (rleSeq s)).length ≤ Config.zzCap) :
    (afterRledec s).zzLen.toInt = (expandPairs (rleSeq s)).length := by
  rw [zzCap_eq] at h
  rw [← expandedLength_eq] at h ⊢
  exact toInt_ofNat_of_lt (by omega)

theorem zzAt_afterRledec (s : State) {i : Nat} (hi : i < (expandPairs (rleSeq s)).length) :
    zzAt (afterRledec s) i = (expandPairs (rleSeq s))[i] :=
  calc zzAt (afterRledec s) i = zzAt (writeZz 0 (expandPairs (rleSeq s)) s) i := rfl
    _ = (expandPairs (rleSeq s))[i] := by rw [zzAt_writeZz, dif_pos (by omega)]; rfl

theorem zzAt_afterRledec_of_ge (s : State) {i : Nat} (hi : (expandPairs (rleSeq s)).length ≤ i) :
    zzAt (afterRledec s) i = zzAt s i :=
  calc zzAt (afterRledec s) i = zzAt (writeZz 0 (expandPairs (rleSeq s)) s) i := rfl
    _ = zzAt s i := by rw [zzAt_writeZz, dif_neg (by omega)]

/-- For a length register that is not negative the decoder's first failure is about the integers the
registers hold. -/
theorem rleMalformed_iff {s : State} (h : 0 ≤ s.rleLen.toInt) : rleMalformed s = true ↔
    s.rleLen.toInt = 0 ∨ s.rleLen.toInt % 2 = 1 ∨ s.rleExp.toInt % 2 = 1 := by
  unfold rleMalformed regLen
  rw [decide_eq_true_eq]
  omega

/-- A stream of even length is a stream of pairs. -/
theorem expandPairs_rleSeq {s : State} (h : regLen s.rleLen % 2 = 0) : expandPairs (rleSeq s)
    = (List.range (regLen s.rleLen / 2)).flatMap fun j =>
        List.replicate (regLen (rleAt s (2 * j + 1))) (rleAt s (2 * j)) := by
  rw [← expandPairs_tabulated, Nat.mul_div_cancel' (Nat.dvd_of_mod_eq_zero h), rleSeq]

/-- Settles O33: the conditions of the command are those of the statement, and a stream that is not
malformed is one of pairs. -/
theorem rledecExpands : Obligations.RledecExpands := by
  refine ⟨fun s h => exec_rledec_of_not_valid h, ?_⟩
  intro s h hlength expansion
  rw [exec_rledec_of_valid h, zzCap_eq]
  split
  next hbad => rw [if_pos ((rleMalformed_iff hlength).2 hbad)]
  next hgood =>
    rw [if_neg (mt (rleMalformed_iff hlength).1 hgood)]
    have heven : regLen s.rleLen % 2 = 0 := by unfold regLen; omega
    have hexpansion : expansion = expandPairs (rleSeq s) := (expandPairs_rleSeq heven).symm
    rw [hexpansion]
    split
    next hlong => rfl
    next hfits =>
      exact ⟨afterRledec s, rfl, afterRledec_frame s,
        toInt_zzLen_afterRledec (Nat.le_of_not_lt hfits), fun i hi => zzAt_afterRledec s hi,
        fun i hi => zzAt_afterRledec_of_ge s hi⟩

end Sys2Proof.Machine
end

