-- ==== Sys2Proof/Proofs/Huffman.lean ====
section
/-! PROOFS. Three commands of the Huffman coder (`45_huffman.md` R196 to R205). `HFREQ`: inserting a
symbol keeps a list of distinct symbols ascending (`ascending_insertSymbol`), so the table lists each
symbol once. `HTREE`: the queue of the merge loop holds exactly the nodes that no node of the pool has
as a child (`QueueHoldsFree`), so each turn merges the two least of them. `HENC`: the least entry of
each symbol determines the joined codes, and each packed byte holds its eight bits in order
(`getLsbD_byteOfBits`). -/

namespace Sys2Proof.Machine

/-! ### Distinct symbols in ascending order (R196) -/

/-- Strictly ascending in the signed order. -/
abbrev Ascending (l : List Word) : Prop := l.Pairwise fun x y => x.toInt < y.toInt

theorem mem_insertSymbol {x z : Word} {l : List Word} :
    z ∈ insertSymbol x l ↔ z = x ∨ z ∈ l := by
  fun_induction insertSymbol x l with
  | case1 => exact List.mem_cons
  | case2 => exact List.mem_cons
  | case3 ys hge => rw [List.mem_cons]; exact (or_iff_right_of_imp .inl).symm
  | case4 y ys hge hne ih => rw [List.mem_cons, ih, List.mem_cons]; exact or_left_comm

theorem ascending_insertSymbol (x : Word) {l : List Word} (h : Ascending l) :
    Ascending (insertSymbol x l) := by
  fun_induction insertSymbol x l with
  | case1 => exact List.pairwise_singleton _ x
  | case2 y ys hlt =>
    obtain ⟨hy, -⟩ := List.pairwise_cons.1 h
    exact List.pairwise_cons.2 ⟨List.forall_mem_cons.2 ⟨hlt, fun z hz => hlt.trans (hy z hz)⟩, h⟩
  | case3 => exact h
  | case4 y ys hge hne ih =>
    obtain ⟨hy, hys⟩ := List.pairwise_cons.1 h
    have hyx : y.toInt < x.toInt :=
      lt_of_le_of_ne (Int.not_lt.1 hge) fun e => hne (BitVec.eq_of_toInt_eq e.symm)
    refine List.pairwise_cons.2 ⟨fun z hz => ?_, ih hys⟩
    obtain rfl | hz := mem_insertSymbol.1 hz
    · exact hyx
    · exact hy z hz

theorem mem_distinctSymbols {z : Word} {seq : List Word} : z ∈ distinctSymbols seq ↔ z ∈ seq := by
  induction seq with
  | nil => exact Iff.rfl
  | cons x xs ih =>
    rw [distinctSymbols, List.foldr_cons, ← distinctSymbols, mem_insertSymbol, ih, List.mem_cons]

theorem ascending_distinctSymbols (seq : List Word) : Ascending (distinctSymbols seq) := by
  induction seq with
  | nil => exact List.Pairwise.nil
  | cons x xs ih => exact ascending_insertSymbol x ih

/-- There is one entry for each element of the set of symbols. -/
theorem length_distinctSymbols (seq : List Word) :
    (distinctSymbols seq).length = seq.toFinset.card := by
  have hnodup : (distinctSymbols seq).Nodup :=
    (ascending_distinctSymbols seq).imp fun hlt heq => hlt.ne (congrArg BitVec.toInt heq)
  have hset : (distinctSymbols seq).toFinset = seq.toFinset :=
    Finset.ext fun z => by rw [List.mem_toFinset, List.mem_toFinset, mem_distinctSymbols]
  rw [← List.toFinset_card_of_nodup hnodup, hset]

theorem length_frequencyTable (seq : List Word) :
    (frequencyTable seq).length = 2 * (distinctSymbols seq).length :=
  length_flatMap_pair _ _ _

/-! ### `HFREQ` -/

/-- The state `HFREQ` leaves when its flag is set and the table fits. -/
def afterHfreq (s : State) : State :=
  setFlag .freqValid { writeFreq 0 (frequencyTable (rleSeq s)) (beginCommand s) with
    freqN := BitVec.ofNat 32 (distinctSymbols (rleSeq s)).length }

theorem exec_hfreq_of_not_valid {s : State} (h : getFlag .rleValid s = false) :
    exec .hfreq s = .next (diagnosed 2 s) :=
  congrArg Host.Outcome.next (requireFlags_beginCommand_of_missing (List.mem_singleton.2 rfl) h _)

/-- With its flag set `HFREQ` overflows or writes the table (R196). -/
theorem exec_hfreq_of_valid {s : State} (h : getFlag .rleValid s = true) :
    exec .hfreq s = .next (
      if s.cap.freqCap < (distinctSymbols (rleSeq s)).length then diagnosed 10 s
      else afterHfreq s) :=
  congrArg Host.Outcome.next (requireFlags_beginCommand_of_flag h _)

theorem afterHfreq_frame (s : State) : afterHfreq s = { s with
    lastdiag := 0#32, stage := s.stage ||| 0x80#32, freqN := (afterHfreq s).freqN,
    mem := { s.mem with freq := (afterHfreq s).mem.freq } } := rfl

theorem toInt_freqN_afterHfreq {s : State} (hcap : CapacitiesLegal s.cap)
    (hfits : (distinctSymbols (rleSeq s)).length ≤ s.cap.freqCap) :
    (afterHfreq s).freqN.toInt = (distinctSymbols (rleSeq s)).length := by
  obtain ⟨-, -, hfreqCap, -⟩ := hcap
  exact toInt_ofNat_of_lt (by omega)

theorem freqAt_afterHfreq (s : State) {i : Nat} {v : Word}
    (hv : (frequencyTable (rleSeq s))[i]? = some v) : freqAt (afterHfreq s) i = v := by
  obtain ⟨hi, hget⟩ := List.getElem?_eq_some_iff.1 hv
  calc freqAt (afterHfreq s) i = freqAt (writeFreq 0 (frequencyTable (rleSeq s)) s) i := rfl
    _ = v := by rw [freqAt_writeFreq, dif_pos (by omega)]; exact hget

theorem freqAt_afterHfreq_of_ge (s : State) {i : Nat}
    (hi : 2 * (distinctSymbols (rleSeq s)).length ≤ i) : freqAt (afterHfreq s) i = freqAt s i := by
  rw [← length_frequencyTable] at hi
  calc freqAt (afterHfreq s) i = freqAt (writeFreq 0 (frequencyTable (rleSeq s)) s) i := rfl
    _ = freqAt s i := by rw [freqAt_writeFreq, dif_neg (by omega)]

/-- A legal stream is no longer than `RLE_CAP`, so that every count fits a signed word. -/
theorem length_rleSeq_lt {s : State} (h : LengthsLegal s) : (rleSeq s).length < 2 ^ 31 := by
  obtain ⟨-, ⟨-, hle⟩, -⟩ := h
  have hcap : Config.rleCap = 1610612736 := rfl
  rw [rleSeq, List.length_map, List.length_range, regLen]
  omega

/-- The symbol of entry `k`. -/
theorem freqSymbol_afterHfreq (s : State) {k : Nat} (hk : k < (distinctSymbols (rleSeq s)).length) :
    freqAt (afterHfreq s) (2 * k) = (distinctSymbols (rleSeq s))[k] := by
  obtain ⟨hsymbol, -⟩ := getElem?_flatMap_pair id
    (fun x => BitVec.ofNat 32 ((rleSeq s).count x)) (distinctSymbols (rleSeq s)) k
  rw [List.getElem?_eq_getElem hk] at hsymbol
  exact freqAt_afterHfreq s hsymbol

/-- The count of entry `k`, as a signed word. -/
theorem freqCount_afterHfreq {s : State} (h : LengthsLegal s) {k : Nat}
    (hk : k < (distinctSymbols (rleSeq s)).length) :
    (freqAt (afterHfreq s) (2 * k + 1)).toInt
      = (rleSeq s).count (freqAt (afterHfreq s) (2 * k)) := by
  obtain ⟨-, hcount⟩ := getElem?_flatMap_pair id
    (fun x => BitVec.ofNat 32 ((rleSeq s).count x)) (distinctSymbols (rleSeq s)) k
  rw [List.getElem?_eq_getElem hk] at hcount
  rw [freqAt_afterHfreq s hcount, freqSymbol_afterHfreq s hk]
  exact toInt_ofNat_of_lt (List.count_le_length.trans_lt (length_rleSeq_lt h))

/-- Settles O35: the entries are the ascending list of the distinct symbols, one for each element of
the set of symbols. -/
theorem hfreqCounts : Obligations.HfreqCounts := by
  refine ⟨fun s h => exec_hfreq_of_not_valid h, ?_⟩
  intro s h hlegal hcap seq
  have hseq : seq = rleSeq s := rfl
  rw [exec_hfreq_of_valid h, hseq, ← length_distinctSymbols]
  split
  next hlong => rfl
  next hfits =>
    refine ⟨afterHfreq s, rfl, afterHfreq_frame s,
      toInt_freqN_afterHfreq hcap (Nat.le_of_not_lt hfits), fun j k hjk hk => ?_,
      fun k hk => ⟨?_, freqCount_afterHfreq hlegal hk⟩, fun x hx => ?_,
      fun i hi => freqAt_afterHfreq_of_ge s hi⟩
    · rw [freqSymbol_afterHfreq s (hjk.trans hk), freqSymbol_afterHfreq s hk]
      exact List.pairwise_iff_getElem.1 (ascending_distinctSymbols (rleSeq s)) j k _ hk hjk
    · rw [freqSymbol_afterHfreq s hk]
      exact mem_distinctSymbols.1 (List.getElem_mem hk)
    · obtain ⟨k, hk, hget⟩ := List.mem_iff_getElem.1 (mem_distinctSymbols.2 hx)
      exact ⟨k, hk, (freqSymbol_afterHfreq s hk).trans hget⟩

/-! ### The order of the queue (R198) -/

/-- What the queue orders the nodes by: frequency first, then index. -/
abbrev poolKey (pool : List Node) (i : Nat) : ℤ ×ₗ ℕ := toLex (poolWeight pool i, i)

theorem poolKey_lt_iff {pool : List Node} {i j : Nat} : poolKey pool i < poolKey pool j ↔
    poolWeight pool i < poolWeight pool j ∨ (poolWeight pool i = poolWeight pool j ∧ i < j) :=
  Prod.Lex.toLex_lt_toLex

/-- Different nodes have different keys. -/
theorem poolKey_injective (pool : List Node) : Function.Injective (poolKey pool) :=
  fun _ _ h => congrArg Prod.snd (toLex.injective h)

theorem leastFrom_mem (pool : List Node) (best : Nat) (l : List Nat) :
    leastFrom pool best l ∈ best :: l := by
  fun_induction leastFrom pool best l with
  | case1 best => exact List.mem_singleton.2 rfl
  | case2 best i rest hlt ih => exact List.mem_cons_of_mem best ih
  | case3 best i rest hge ih => exact List.cons_subset_cons best (List.subset_cons_self i rest) ih

theorem poolKey_leastFrom_le (pool : List Node) (best : Nat) (l : List Nat) :
    ∀ z ∈ best :: l, poolKey pool (leastFrom pool best l) ≤ poolKey pool z := by
  fun_induction leastFrom pool best l with
  | case1 best => exact List.forall_mem_singleton.2 le_rfl
  | case2 best i rest hlt ih =>
    have hi := ih i List.mem_cons_self
    exact List.forall_mem_cons.2 ⟨hi.trans (poolKey_lt_iff.2 hlt).le, ih⟩
  | case3 best i rest hge ih =>
    obtain ⟨hbest, hrest⟩ := List.forall_mem_cons.1 ih
    have hi := hbest.trans (not_lt.1 (mt poolKey_lt_iff.1 hge))
    exact List.forall_mem_cons.2 ⟨hbest, List.forall_mem_cons.2 ⟨hi, hrest⟩⟩

/-- What a pop can do: nothing on an empty queue, else take out the member whose key is least. -/
theorem popLeast_cases (pool : List Node) (queue : List Nat) :
    (queue = [] ∧ popLeast pool queue = none)
      ∨ ∃ x ∈ queue, popLeast pool queue = some (x, queue.erase x)
        ∧ ∀ z ∈ queue, z ≠ x → poolKey pool x < poolKey pool z := by
  cases queue with
  | nil => exact .inl ⟨rfl, rfl⟩
  | cons i rest =>
    refine .inr ⟨leastFrom pool i rest, leastFrom_mem pool i rest, rfl, fun z hz hne => ?_⟩
    exact lt_of_le_of_ne (poolKey_leastFrom_le pool i rest z hz)
      fun heq => hne (poolKey_injective pool heq).symm

/-! ### The merge loop (R198) -/

/-- The parent that the merge loop creates for the nodes `x` and `y`. -/
def parentNode (pool : List Node) (x y : Nat) : Node :=
  .internal (poolWeight pool x + poolWeight pool y) (some x) (some y)

/-- What a turn of the merge loop can do: stop at a queue of at most one member, else replace the two
least members by their parent. -/
theorem mergeNodes_succ_cases (fuel : Nat) (queue : List Nat) (pool : List Node) :
    (queue.length ≤ 1 ∧ mergeNodes (fuel + 1) queue pool = pool)
      ∨ ∃ x ∈ queue, ∃ y ∈ queue.erase x,
        (∀ z ∈ queue, z ≠ x → poolKey pool x < poolKey pool z)
        ∧ (∀ z ∈ queue.erase x, z ≠ y → poolKey pool y < poolKey pool z)
        ∧ mergeNodes (fuel + 1) queue pool
          = mergeNodes fuel ((queue.erase x).erase y ++ [pool.length])
              (pool ++ [parentNode pool x y]) := by
  obtain ⟨rfl, -⟩ | ⟨x, hx, hpopx, hleastx⟩ := popLeast_cases pool queue
  · exact .inl ⟨Nat.zero_le 1, rfl⟩
  obtain ⟨hnil, hpopy⟩ | ⟨y, hy, hpopy, hleasty⟩ := popLeast_cases pool (queue.erase x)
  · have hlength := List.length_erase_of_mem hx
    rw [hnil, List.length_nil] at hlength
    exact .inl ⟨by omega, by simp only [mergeNodes, hpopx, hpopy]⟩
  · exact .inr ⟨x, hx, y, hy, hleastx, hleasty, by simp only [mergeNodes, hpopx, hpopy]; rfl⟩

/-- Node `i` is one of the first `m` of the pool, and none of these has it as a child. -/
def IsFree (pool : List Node) (m i : Nat) : Prop :=
  i < m ∧ ∀ p ∈ pool.take m, i ∉ nodeChildren p

/-- Node `m` is the parent of the two free nodes whose keys are least. -/
def MergesLeastPair (pool : List Node) (m : Nat) : Prop :=
  ∃ x y, pool[m]? = some (parentNode pool x y) ∧ IsFree pool m x ∧ IsFree pool m y
    ∧ poolKey pool x < poolKey pool y
    ∧ ∀ z, IsFree pool m z → z ≠ x → z ≠ y → poolKey pool y < poolKey pool z

/-- The invariant of the merge loop: the queue holds exactly the free nodes, each once, and all
children are nodes of the pool. -/
structure QueueHoldsFree (queue : List Nat) (pool : List Node) : Prop where
  nodup : queue.Nodup
  mem_iff : ∀ i, i ∈ queue ↔ IsFree pool pool.length i
  children_lt : ∀ p ∈ pool, ∀ c ∈ nodeChildren p, c < pool.length

theorem poolWeight_append_of_lt {pool : List Node} (added : List Node) {i : Nat}
    (h : i < pool.length) : poolWeight (pool ++ added) i = poolWeight pool i := by
  rw [poolWeight, List.getElem?_append_left h, ← poolWeight]

theorem poolKey_append_of_lt {pool : List Node} (added : List Node) {i : Nat}
    (h : i < pool.length) : poolKey (pool ++ added) i = poolKey pool i := by
  rw [poolKey, poolWeight_append_of_lt added h]

/-- Later nodes do not change which nodes were free. -/
theorem isFree_append_iff {pool : List Node} (added : List Node) {i : Nat} :
    IsFree (pool ++ added) pool.length i ↔ IsFree pool pool.length i := by
  rw [IsFree, IsFree, List.take_left, List.take_length]

/-- After a merge the free nodes are the parent and what was free but its children. -/
theorem isFree_parentNode_iff {pool : List Node} {x y i : Nat}
    (hchildren : ∀ p ∈ pool, ∀ c ∈ nodeChildren p, c < pool.length)
    (hx : x < pool.length) (hy : y < pool.length) :
    IsFree (pool ++ [parentNode pool x y]) (pool ++ [parentNode pool x y]).length i
      ↔ (i ≠ y ∧ i ≠ x ∧ IsFree pool pool.length i) ∨ i = pool.length := by
  have hparent : i ∉ nodeChildren (parentNode pool x y) ↔ i ≠ x ∧ i ≠ y := by
    simp [parentNode, nodeChildren]
  rw [IsFree, IsFree, List.take_length, List.take_length, List.forall_mem_append,
    List.forall_mem_singleton, hparent, List.length_append, List.length_singleton]
  constructor
  · rintro ⟨hlt, hold, hnex, hney⟩
    rcases Nat.lt_succ_iff_lt_or_eq.1 hlt with hlt | heq
    · exact .inl ⟨hney, hnex, hlt, hold⟩
    · exact .inr heq
  · rintro (⟨hney, hnex, hlt, hold⟩ | rfl)
    · exact ⟨Nat.lt_succ_of_lt hlt, hold, hnex, hney⟩
    · exact ⟨Nat.lt_succ_self _, fun p hp hc => Nat.lt_irrefl _ (hchildren p hp _ hc), hx.ne', hy.ne'⟩

/-- A turn of the merge loop keeps its invariant. -/
theorem QueueHoldsFree.merge {queue : List Nat} {pool : List Node} (h : QueueHoldsFree queue pool)
    {x y : Nat} (hx : x ∈ queue) (hy : y ∈ queue.erase x) :
    QueueHoldsFree ((queue.erase x).erase y ++ [pool.length]) (pool ++ [parentNode pool x y]) := by
  have hxlt : x < pool.length := ((h.mem_iff x).1 hx).1
  have hylt : y < pool.length := ((h.mem_iff y).1 (List.mem_of_mem_erase hy)).1
  have hkept (i : Nat) : i ∈ (queue.erase x).erase y
      ↔ i ≠ y ∧ i ≠ x ∧ IsFree pool pool.length i := by
    rw [(h.nodup.erase x).mem_erase_iff, h.nodup.mem_erase_iff, h.mem_iff]
  refine ⟨?_, fun i => ?_, ?_⟩
  · refine List.nodup_append.2 ⟨(h.nodup.erase x).erase y, List.nodup_singleton _, ?_⟩
    intro i hi j hj
    obtain ⟨-, -, hlt, -⟩ := (hkept i).1 hi
    exact List.mem_singleton.1 hj ▸ hlt.ne
  · rw [isFree_parentNode_iff h.children_lt hxlt hylt, List.mem_append, hkept,
      List.mem_singleton]
  · have hparent : ∀ c ∈ nodeChildren (parentNode pool x y), c < pool.length :=
      List.forall_mem_cons.2 ⟨hxlt, List.forall_mem_singleton.2 hylt⟩
    intro p hp c hc
    rw [List.length_append, List.length_singleton]
    obtain hp | hp := List.mem_append.1 hp
    · exact Nat.lt_succ_of_lt (h.children_lt p hp c hc)
    · exact Nat.lt_succ_of_lt (hparent c (List.mem_singleton.1 hp ▸ hc))

/-- The node that a turn of the merge loop creates merges the two least free nodes, whatever is
created after it. -/
theorem QueueHoldsFree.mergesLeastPair {queue : List Nat} {pool : List Node}
    (h : QueueHoldsFree queue pool) {x y : Nat} (hx : x ∈ queue) (hy : y ∈ queue.erase x)
    (hleastx : ∀ z ∈ queue, z ≠ x → poolKey pool x < poolKey pool z)
    (hleasty : ∀ z ∈ queue.erase x, z ≠ y → poolKey pool y < poolKey pool z) (added : List Node) :
    MergesLeastPair (pool ++ (parentNode pool x y :: added)) pool.length := by
  obtain ⟨hyx, hyq⟩ := (h.nodup.mem_erase_iff).1 hy
  have hfreex := (h.mem_iff x).1 hx
  have hfreey := (h.mem_iff y).1 hyq
  refine ⟨x, y, ?_, (isFree_append_iff _).2 hfreex, (isFree_append_iff _).2 hfreey, ?_,
    fun z hz hzx hzy => ?_⟩
  · rw [List.getElem?_append_right le_rfl, Nat.sub_self, List.getElem?_cons_zero, parentNode,
      parentNode, poolWeight_append_of_lt _ hfreex.1, poolWeight_append_of_lt _ hfreey.1]
  · rw [poolKey_append_of_lt _ hfreex.1, poolKey_append_of_lt _ hfreey.1]
    exact hleastx y hyq hyx
  · have hfreez := (isFree_append_iff _).1 hz
    rw [poolKey_append_of_lt _ hfreey.1, poolKey_append_of_lt _ hfreez.1]
    exact hleasty z ((h.nodup.mem_erase_iff).2 ⟨hzx, (h.mem_iff z).2 hfreez⟩) hzy

/-- `result` is the pool and `n` more nodes, each of which merges the two least free nodes. -/
structure ExtendsByMerges (pool result : List Node) (n : Nat) : Prop where
  isPrefix : pool <+: result
  length_eq : result.length = pool.length + n
  merges : ∀ m, pool.length ≤ m → m < result.length → MergesLeastPair result m

theorem ExtendsByMerges.refl (pool : List Node) : ExtendsByMerges pool pool 0 :=
  ⟨List.prefix_refl pool, rfl, fun _ hge hlt => absurd hlt (Nat.not_lt.2 hge)⟩

/-- One merge before `n` merges. -/
theorem ExtendsByMerges.of_merge {pool result : List Node} {n x y : Nat}
    (h : ExtendsByMerges (pool ++ [parentNode pool x y]) result n)
    (hmerge : ∀ added, MergesLeastPair (pool ++ (parentNode pool x y :: added)) pool.length) :
    ExtendsByMerges pool result (n + 1) := by
  obtain ⟨⟨added, rfl⟩, hlength, hlater⟩ := h
  rw [List.length_append (as := pool), List.length_singleton] at hlength hlater
  refine ⟨⟨_, (List.append_assoc _ _ _).symm⟩, by omega, fun m hge hlt => ?_⟩
  rcases hge.eq_or_lt with rfl | hgt
  · rw [List.append_assoc, List.singleton_append]
    exact hmerge added
  · exact hlater m hgt hlt

/-- With fuel enough the merge loop adds one node less than the queue has members. -/
theorem extendsByMerges_mergeNodes (fuel : Nat) {queue : List Nat} {pool : List Node}
    (h : QueueHoldsFree queue pool) (hfuel : queue.length ≤ fuel + 1) :
    ExtendsByMerges pool (mergeNodes fuel queue pool) (queue.length - 1) := by
  induction fuel generalizing queue pool with
  | zero =>
    rw [Nat.sub_eq_zero_of_le hfuel]
    exact .refl pool
  | succ fuel ih =>
    obtain ⟨hshort, hstop⟩ | ⟨x, hx, y, hy, hleastx, hleasty, hturn⟩ :=
      mergeNodes_succ_cases fuel queue pool
    · rw [hstop, Nat.sub_eq_zero_of_le hshort]
      exact .refl pool
    · have hlengthx := List.length_erase_of_mem hx
      have hlengthy := List.length_erase_of_mem hy
      have hpos := List.length_pos_of_mem hy
      have hqueue : ((queue.erase x).erase y ++ [pool.length]).length = queue.length - 1 := by
        rw [List.length_append, List.length_singleton]
        omega
      have hrest := ih (h.merge hx hy) (by omega)
      rw [hqueue] at hrest
      rw [hturn, show queue.length - 1 = queue.length - 1 - 1 + 1 by omega]
      exact hrest.of_merge (h.mergesLeastPair hx hy hleastx hleasty)

/-! ### The tree (R198, R199) -/

theorem length_leafNodes (s : State) : (leafNodes s).length = regLen s.freqN := by
  rw [leafNodes, List.length_map, List.length_range]

theorem getElem?_leafNodes {s : State} {k : Nat} (hk : k < regLen s.freqN) :
    (leafNodes s)[k]? = some (.leaf (freqAt s (2 * k)) (freqAt s (2 * k + 1)).toInt) := by
  simp [leafNodes, hk]

theorem nodeChildren_of_mem_leafNodes {s : State} {p : Node} (hp : p ∈ leafNodes s) :
    nodeChildren p = [] := by
  obtain ⟨k, -, rfl⟩ := List.mem_map.1 hp
  rfl

/-- At the start of the merge loop every leaf is free. -/
theorem queueHoldsFree_leafNodes (s : State) :
    QueueHoldsFree (List.range (leafNodes s).length) (leafNodes s) := by
  refine ⟨List.nodup_range, fun i => ?_, fun p hp c hc => ?_⟩
  · rw [List.mem_range, IsFree, List.take_length]
    refine (and_iff_left fun p hp => ?_).symm
    rw [nodeChildren_of_mem_leafNodes hp]
    exact List.not_mem_nil
  · rw [nodeChildren_of_mem_leafNodes hp] at hc
    exact absurd hc List.not_mem_nil

/-- One entry gives the degenerate tree (R199). -/
theorem buildTree_of_one {s : State} (h : regLen s.freqN = 1) :
    buildTree (leafNodes s)
      = leafNodes s ++ [.internal (poolWeight (leafNodes s) 0) (some 0) none] := by
  rw [buildTree, if_pos ((length_leafNodes s).trans h)]

/-- Several entries give a tree of merges (R198). -/
theorem extendsByMerges_buildTree {s : State} (h : regLen s.freqN ≠ 1) :
    ExtendsByMerges (leafNodes s) (buildTree (leafNodes s)) (regLen s.freqN - 1) := by
  have hmerges := extendsByMerges_mergeNodes (leafNodes s).length (queueHoldsFree_leafNodes s)
    (by rw [List.length_range]; exact Nat.le_succ _)
  rw [List.length_range] at hmerges
  rwa [buildTree, if_neg (by rwa [length_leafNodes]), ← length_leafNodes s]

/-- The leaves stand first. -/
theorem leafNodes_isPrefix_buildTree (s : State) : leafNodes s <+: buildTree (leafNodes s) := by
  by_cases h : regLen s.freqN = 1
  · rw [buildTree_of_one h]
    exact List.prefix_append _ _
  · exact (extendsByMerges_buildTree h).isPrefix

/-! ### `HTREE` -/

/-- The state `HTREE` leaves when its flag is set and the table is not empty. -/
def afterHtree (s : State) : State :=
  setFlag .treeValid { beginCommand s with
    node := buildTree (leafNodes s)
    treeN := if regLen s.freqN = 1 then 2 else 2 * regLen s.freqN - 1
    treeRoot := some (if regLen s.freqN = 1 then 1 else 2 * regLen s.freqN - 2) }

theorem exec_htree_of_not_valid {s : State} (h : getFlag .freqValid s = false) :
    exec .htree s = .next (diagnosed 2 s) :=
  congrArg Host.Outcome.next (requireFlags_beginCommand_of_missing (List.mem_singleton.2 rfl) h _)

/-- With its flag set `HTREE` meets an empty table or builds the tree (R198). -/
theorem exec_htree_of_valid {s : State} (h : getFlag .freqValid s = true) :
    exec .htree s = .next (if regLen s.freqN = 0 then diagnosed 12 s else afterHtree s) :=
  congrArg Host.Outcome.next (requireFlags_beginCommand_of_flag h _)

theorem afterHtree_frame (s : State) : afterHtree s = { s with
    lastdiag := 0#32, stage := s.stage ||| 0x100#32, node := (afterHtree s).node,
    treeN := (afterHtree s).treeN, treeRoot := (afterHtree s).treeRoot } := rfl

theorem getElem?_node_afterHtree {s : State} {k : Nat} (hk : k < regLen s.freqN) :
    (afterHtree s).node[k]? = some (.leaf (freqAt s (2 * k)) (freqAt s (2 * k + 1)).toInt) := by
  obtain ⟨added, hadded⟩ := leafNodes_isPrefix_buildTree s
  have hnode : (afterHtree s).node = leafNodes s ++ added := hadded.symm
  rw [hnode, List.getElem?_append_left (by rwa [length_leafNodes]), getElem?_leafNodes hk]

/-- The degenerate tree (R199). -/
theorem afterHtree_of_one {s : State} (h : regLen s.freqN = 1) :
    (afterHtree s).treeN = 2 ∧ (afterHtree s).node.length = 2 ∧ (afterHtree s).treeRoot = some 1
      ∧ (afterHtree s).node[1]? = some (.internal (freqAt s 1).toInt (some 0) none) := by
  have hweight : poolWeight (leafNodes s) 0 = (freqAt s 1).toInt := by
    rw [poolWeight, getElem?_leafNodes (by omega)]
    rfl
  have hlength : (leafNodes s).length = 1 := (length_leafNodes s).trans h
  have hnode : (afterHtree s).node
      = leafNodes s ++ [.internal (freqAt s 1).toInt (some 0) none] := by
    rw [← hweight, ← buildTree_of_one h]
    rfl
  refine ⟨if_pos h, ?_, congrArg some (if_pos h), ?_⟩
  · rw [hnode, List.length_append, hlength, List.length_singleton]
  · rw [hnode, List.getElem?_append_right hlength.le, hlength, Nat.sub_self,
      List.getElem?_cons_zero]

/-- The tree of several entries (R198). -/
theorem afterHtree_of_several {s : State} (h : 1 < regLen s.freqN) :
    (afterHtree s).treeN = 2 * regLen s.freqN - 1
      ∧ (afterHtree s).node.length = 2 * regLen s.freqN - 1
      ∧ (afterHtree s).treeRoot = some (2 * regLen s.freqN - 2)
      ∧ ∀ m, regLen s.freqN ≤ m → m < 2 * regLen s.freqN - 1 →
        MergesLeastPair (afterHtree s).node m := by
  obtain ⟨-, hlength, hmerges⟩ := extendsByMerges_buildTree h.ne'
  rw [length_leafNodes] at hlength hmerges
  exact ⟨if_neg h.ne', by rw [afterHtree, setFlag_node, hlength]; omega,
    congrArg some (if_neg h.ne'), fun m hge hlt => hmerges m hge (by omega)⟩

/-- Settles O36: the leaves stand first, and every later node merges the two least free nodes. -/
theorem htreeMergesLeastPairs : Obligations.HtreeMergesLeastPairs := by
  refine ⟨fun s h => exec_htree_of_not_valid h, ?_⟩
  intro s h _ n
  rw [exec_htree_of_valid h]
  split
  next hempty => exact congrArg Host.Outcome.next (if_pos hempty)
  next hentries =>
    exact ⟨afterHtree s, congrArg Host.Outcome.next (if_neg hentries), afterHtree_frame s,
      fun k hk => getElem?_node_afterHtree hk, afterHtree_of_one, afterHtree_of_several⟩

/-! ### Joined codes (R204) -/

theorem entryOf_eq_none {s : State} {x : Word}
    (h : ∀ k < regLen s.freqN, freqAt s (2 * k) ≠ x) : entryOf s x = none :=
  List.find?_eq_none.2 fun k hk heq => h k (List.mem_range.1 hk) (eq_of_beq heq)

theorem entryOf_eq_some {s : State} {x : Word} {k : Nat} (hk : k < regLen s.freqN)
    (heq : freqAt s (2 * k) = x) (hleast : ∀ j < k, freqAt s (2 * j) ≠ x) :
    entryOf s x = some k :=
  List.find?_range_eq_some.2 ⟨beq_iff_eq.2 heq, List.mem_range.2 hk,
    fun j hj => by simpa using hleast j hj⟩

/-- One symbol without an entry and the sequence has no codes. -/
theorem codeSequence_eq_none {s : State} {x : Word} {seq : List Word} (hx : x ∈ seq)
    (h : entryOf s x = none) : codeSequence s seq = none := by
  have hcode : codeOf s x = none := by rw [codeOf, h, Option.map_none]
  induction seq with
  | nil => exact absurd hx List.not_mem_nil
  | cons y ys ih =>
    obtain rfl | hx := List.mem_cons.1 hx
    · rw [codeSequence, hcode]
    · rw [codeSequence, ih hx]
      cases codeOf s y <;> rfl

/-- Where every symbol has an entry, the codes of the entries are joined. -/
theorem codeSequence_map {s : State} {symbol : Nat → Word} {entry : Nat → Nat} {l : List Nat}
    (h : ∀ i ∈ l, entryOf s (symbol i) = some (entry i)) :
    codeSequence s (l.map symbol) = some (l.flatMap fun i => codeAt s (entry i)) := by
  induction l with
  | nil => rfl
  | cons i l ih =>
    obtain ⟨hi, hl⟩ := List.forall_mem_cons.1 h
    rw [List.map_cons, codeSequence, codeOf, hi, ih hl, List.flatMap_cons]
    rfl

/-! ### Packed bits (R205) -/

theorem getLsbD_shiftIn_zero (acc : Byte) (b : Bool) : (shiftIn acc b).getLsbD 0 = b := by
  cases b <;> simp [shiftIn]

theorem getLsbD_shiftIn_succ (acc : Byte) (b : Bool) {k : Nat} (hk : k + 1 < 8) :
    (shiftIn acc b).getLsbD (k + 1) = acc.getLsbD k := by
  cases b <;> simp [shiftIn, hk] <;> rfl

theorem byteOfBits_append_singleton (bits : List Bool) (b : Bool) :
    byteOfBits (bits ++ [b]) = shiftIn (byteOfBits bits) b := by
  rw [byteOfBits, List.foldl_append]
  rfl

/-- Of at most eight bits the last is the least significant. -/
theorem getLsbD_byteOfBits (bits : List Bool) (hlength : bits.length ≤ 8) {m : Nat}
    (hm : m < bits.length) : (byteOfBits bits).getLsbD (bits.length - 1 - m) = bits[m] := by
  induction bits using List.reverseRecOn with
  | nil => exact absurd hm (Nat.not_lt_zero m)
  | append_singleton bits b ih =>
    rw [List.length_append, List.length_singleton] at hlength hm
    rw [byteOfBits_append_singleton, List.length_append, List.length_singleton, Nat.add_sub_cancel]
    rcases Nat.lt_succ_iff_lt_or_eq.1 hm with hlt | rfl
    · rw [show bits.length - m = bits.length - 1 - m + 1 by omega,
        getLsbD_shiftIn_succ _ _ (by omega), ih (by omega) hlt, List.getElem_append_left]
    · rw [Nat.sub_self, getLsbD_shiftIn_zero, List.getElem_concat_length rfl]

theorem length_packBits (bits : List Bool) : (packBits bits).length = bytesFor bits.length := by
  rw [packBits, List.length_map, List.length_range]

/-- Bit `8 * j + m` of the joined codes stands in byte `j`, `m` places below the top; past the end
there are zeros. -/
theorem getLsbD_getElem_packBits {bits : List Bool} {j m : Nat} (hj : j < (packBits bits).length)
    (hm : m < 8) : ((packBits bits)[j]).getLsbD (7 - m) = bits.getD (8 * j + m) false := by
  have hlength : ((List.range 8).map fun m => bits.getD (8 * j + m) false).length = 8 := rfl
  have hbit := getLsbD_byteOfBits _ hlength.le (by rwa [hlength])
  rw [List.getElem_map, List.getElem_range] at hbit
  rw [← hbit]
  simp only [packBits, List.getElem_map, List.getElem_range]
  rfl

/-! ### `HENC` -/

/-- The state `HENC` leaves when its flags are set and the joined codes are `bits`, which fit. -/
def afterHenc (s : State) (bits : List Bool) : State :=
  setFlag .bitsValid { writePay 0 (packBits bits) (beginCommand s) with
    encBytes := BitVec.ofNat 32 (bytesFor bits.length) }

theorem exec_henc_of_not_valid {s : State}
    (h : ¬(getFlag .rleValid s = true ∧ getFlag .codesValid s = true)) :
    exec .henc s = .next (diagnosed 2 s) := by
  have hmissing : getFlag .rleValid s = false ∨ getFlag .codesValid s = false := by
    simpa [imp_iff_not_or] using h
  refine congrArg Host.Outcome.next ?_
  obtain hrle | hcodes := hmissing
  · exact requireFlags_beginCommand_of_missing List.mem_cons_self hrle _
  · exact requireFlags_beginCommand_of_missing
      (List.mem_cons_of_mem _ (List.mem_singleton.2 rfl)) hcodes _

/-- What the command clears at its start has no part in the codes. -/
theorem codeSequence_beginCommand (s : State) (seq : List Word) :
    codeSequence (beginCommand s) seq = codeSequence s seq := by
  induction seq with
  | nil => rfl
  | cons x xs ih => rw [codeSequence, ih, codeSequence]; rfl

/-- What `HENC` leaves for the joined codes, if every symbol has one (R204). -/
def hencOutcome (s : State) : Option (List Bool) → State
  | none => diagnosed 11 s
  | some bits =>
    if s.cap.payCap < bytesFor bits.length then diagnosed 10 s else afterHenc s bits

theorem exec_henc_of_valid {s : State} (hrle : getFlag .rleValid s = true)
    (hcodes : getFlag .codesValid s = true) :
    exec .henc s = .next (hencOutcome s (codeSequence s (rleSeq s))) := by
  rw [← codeSequence_beginCommand]
  exact congrArg Host.Outcome.next (requireFlags_of_all (s := beginCommand s)
    (List.forall_mem_cons.2 ⟨hrle, List.forall_mem_singleton.2 hcodes⟩) _)

theorem afterHenc_frame (s : State) (bits : List Bool) : afterHenc s bits = { s with
    lastdiag := 0#32, stage := s.stage ||| 0x400#32, encBytes := (afterHenc s bits).encBytes,
    mem := { s.mem with pay := (afterHenc s bits).mem.pay } } := rfl

theorem toInt_encBytes_afterHenc {s : State} {bits : List Bool} (hcap : CapacitiesLegal s.cap)
    (hfits : bytesFor bits.length ≤ s.cap.payCap) :
    (afterHenc s bits).encBytes.toInt = bytesFor bits.length := by
  obtain ⟨-, -, -, hpayCap⟩ := hcap
  exact toInt_ofNat_of_lt (by omega)

theorem payAt_afterHenc (s : State) {bits : List Bool} {j : Nat} (hj : j < (packBits bits).length) :
    payAt (afterHenc s bits) j = (packBits bits)[j] :=
  calc payAt (afterHenc s bits) j = payAt (writePay 0 (packBits bits) s) j := rfl
    _ = (packBits bits)[j] := by rw [payAt_writePay, dif_pos (by omega)]; rfl

theorem payAt_afterHenc_of_ge (s : State) {bits : List Bool} {j : Nat}
    (hj : bytesFor bits.length ≤ j) : payAt (afterHenc s bits) j = payAt s j := by
  rw [← length_packBits] at hj
  calc payAt (afterHenc s bits) j = payAt (writePay 0 (packBits bits) s) j := rfl
    _ = payAt s j := by rw [payAt_writePay, dif_neg (by omega)]

/-- Settles O40: the least entries of the symbols are the entries the command finds, and the bytes of
the payload are the packed codes. -/
theorem hencPacksCodes : Obligations.HencPacksCodes := by
  refine ⟨fun s h => exec_henc_of_not_valid h, ?_⟩
  intro s hrle hcodes _ _ hcap
  constructor
  · rintro ⟨i, hi, hmissing⟩
    have hmem : rleAt s i ∈ rleSeq s := List.mem_map_of_mem (List.mem_range.2 hi)
    rw [exec_henc_of_valid hrle hcodes, codeSequence_eq_none hmem (entryOf_eq_none hmissing),
      hencOutcome]
  · intro entry hentry bits bytes
    have hjoined : codeSequence s (rleSeq s) = some bits := codeSequence_map fun i hi => by
      obtain ⟨hlt, heq, hleast⟩ := hentry i (List.mem_range.1 hi)
      exact entryOf_eq_some hlt heq hleast
    rw [exec_henc_of_valid hrle hcodes, hjoined, hencOutcome]
    split
    next hlong => exact congrArg Host.Outcome.next (if_pos hlong)
    next hfits =>
      refine ⟨afterHenc s bits, congrArg Host.Outcome.next (if_neg hfits), afterHenc_frame s bits,
        toInt_encBytes_afterHenc hcap (Nat.le_of_not_lt hfits), fun j hj m hm => ?_,
        fun j hj => payAt_afterHenc_of_ge s hj⟩
      have hpacked : j < (packBits bits).length := (length_packBits bits).symm ▸ hj
      rw [payAt_afterHenc s hpacked, getLsbD_getElem_packBits hpacked hm]

end Sys2Proof.Machine
end

