-- ==== Sys2Proof/Proofs/Container.lean ====
section
/-! PROOFS. The two commands of the container serializer (`46_container.md` R225 to R228). All that
stands before the payload is a list of words (`containerWords`), four bytes each, so that
`getElem?_flatMap_le32` says what every byte of a container is. For the reader `containerOk_iff` lists
the checks. -/

namespace Sys2Proof.Machine

/-! ### Words as bytes, least significant first (R65) -/

theorem getElem?_le32 (v : Word) {j : Nat} (hj : j < 4) :
    (le32 v)[j]? = some (v.extractLsb' (8 * j) 8) := by
  interval_cases j <;> rfl

theorem length_flatMap_le32 (ws : List Word) : (ws.flatMap le32).length = 4 * ws.length := by
  have hle32 : ∀ v : Word, (le32 v).length = 4 := fun _ => rfl
  simp [List.length_flatMap, hle32, Nat.mul_comm]

/-- Byte `j` of word `i` stands at `4 * i + j`. -/
theorem getElem?_flatMap_le32 (ws : List Word) (i : Nat) {j : Nat} (hj : j < 4) :
    (ws.flatMap le32)[4 * i + j]? = ws[i]?.map fun v => v.extractLsb' (8 * j) 8 := by
  induction ws generalizing i with
  | nil => rfl
  | cons v ws ih =>
    have hlength : (le32 v).length = 4 := rfl
    rw [List.flatMap_cons]
    cases i with
    | zero =>
      rw [List.getElem?_append_left (by omega), Nat.mul_zero, Nat.zero_add, getElem?_le32 v hj]
      rfl
    | succ i =>
      rw [List.getElem?_append_right (by omega), List.getElem?_cons_succ, ← ih i, hlength]
      congr 1
      omega

/-! ### The container as words and payload (R225) -/

/-- The words of a container in order: the header, the table, the two lengths. -/
def containerWords (s : State) : List Word :=
  [s.quality, BitVec.ofNat 32 (height8 s), BitVec.ofNat 32 (width8 s), s.freqN]
    ++ (freqEntries s ++ [s.encBytes, s.rleLen])

theorem containerBytes_eq (s : State) :
    containerBytes s = (containerWords s).flatMap le32 ++ payload s := by
  simp [containerBytes, containerWords]

theorem length_freqEntries (s : State) : (freqEntries s).length = 2 * regLen s.freqN := by
  rw [freqEntries, List.length_map, List.length_range]

theorem length_containerWords (s : State) :
    (containerWords s).length = 6 + 2 * regLen s.freqN := by
  simp only [containerWords, List.length_append, length_freqEntries, List.length_cons,
    List.length_nil]
  omega

theorem length_payload (s : State) : (payload s).length = regLen s.encBytes := by
  rw [payload, List.length_map, List.length_range]

theorem length_containerBytes (s : State) :
    (containerBytes s).length = 24 + 8 * regLen s.freqN + regLen s.encBytes := by
  rw [containerBytes_eq, List.length_append, length_flatMap_le32, length_containerWords,
    length_payload]
  omega

/-- The words of the table follow the four of the header. -/
theorem getElem?_containerWords_table (s : State) {i : Nat} (hi : i < 2 * regLen s.freqN) :
    (containerWords s)[4 + i]? = some (freqAt s i) := by
  rw [Nat.add_comm, containerWords, List.getElem?_append_right (Nat.le_add_left 4 i)]
  simp [List.getElem?_append_left, freqEntries, hi]

/-- The two words after the table are `ENC_BYTES` and `RLE_LEN`. -/
theorem getElem?_containerWords_lengths (s : State) (i : Nat) :
    (containerWords s)[4 + 2 * regLen s.freqN + i]? = [s.encBytes, s.rleLen][i]? := by
  have hskip : 4 + 2 * regLen s.freqN + i = (freqEntries s).length + i + 4 := by
    rw [length_freqEntries]; omega
  rw [hskip, containerWords, List.getElem?_append_right (Nat.le_add_left 4 _)]
  simp [List.getElem?_append_right]

/-! ### `SER` -/

/-- The state `SER` leaves when its flags are set and the container fits. -/
def afterSer (s : State) : State :=
  setFlag .contValid { writeCont 0 (containerBytes s) (beginCommand s) with
    contLen := BitVec.ofNat 32 (containerBytes s).length }

theorem exec_ser_of_not_valid {s : State}
    (h : ¬(getFlag .freqValid s = true ∧ getFlag .rleValid s = true ∧ getFlag .bitsValid s = true)) :
    exec .ser s = .next (diagnosed 2 s) := by
  obtain ⟨f, hf, hmissing⟩ :
      ∃ f ∈ [Flag.freqValid, .rleValid, .bitsValid], getFlag f s = false := by
    simpa [imp_iff_not_or] using h
  exact congrArg Host.Outcome.next (requireFlags_beginCommand_of_missing hf hmissing _)

/-- With its flags set `SER` overflows or writes the container (R227). -/
theorem exec_ser_of_valid {s : State} (hfreq : getFlag .freqValid s = true)
    (hrle : getFlag .rleValid s = true) (hbits : getFlag .bitsValid s = true) :
    exec .ser s = .next (
      if s.cap.contCap < 24 + 8 * regLen s.freqN + regLen s.encBytes then diagnosed 10 s
      else afterSer s) :=
  congrArg Host.Outcome.next (requireFlags_of_all (s := beginCommand s)
    (List.forall_mem_cons.2 ⟨hfreq, List.forall_mem_cons.2 ⟨hrle, List.forall_mem_singleton.2 hbits⟩⟩)
    _)

theorem afterSer_frame (s : State) : afterSer s = { s with
    lastdiag := 0#32, stage := s.stage ||| 0x800#32, contLen := (afterSer s).contLen,
    mem := { s.mem with cont := (afterSer s).mem.cont } } := rfl

theorem toInt_contLen_afterSer {s : State} (hcap : s.cap.contCap < 2 ^ 31)
    (hfits : 24 + 8 * regLen s.freqN + regLen s.encBytes ≤ s.cap.contCap) :
    (afterSer s).contLen.toInt = 24 + 8 * regLen s.freqN + regLen s.encBytes :=
  calc (BitVec.ofNat 32 (containerBytes s).length).toInt
      = ((24 + 8 * regLen s.freqN + regLen s.encBytes : Nat) : Int) := by
        rw [length_containerBytes, toInt_ofNat_of_lt (by omega)]
    _ = 24 + 8 * regLen s.freqN + regLen s.encBytes := by push_cast; rfl

theorem contAt_afterSer (s : State) {i : Nat} {v : Byte} (hv : (containerBytes s)[i]? = some v) :
    contAt (afterSer s) i = v := by
  obtain ⟨hi, hget⟩ := List.getElem?_eq_some_iff.1 hv
  calc contAt (afterSer s) i = contAt (writeCont 0 (containerBytes s) s) i := rfl
    _ = v := by rw [contAt_writeCont, dif_pos (by omega)]; exact hget

theorem contAt_afterSer_of_ge (s : State) {i : Nat}
    (hi : 24 + 8 * regLen s.freqN + regLen s.encBytes ≤ i) :
    contAt (afterSer s) i = contAt s i := by
  rw [← length_containerBytes] at hi
  calc contAt (afterSer s) i = contAt (writeCont 0 (containerBytes s) s) i := rfl
    _ = contAt s i := by rw [contAt_writeCont, dif_neg (by omega)]

/-- Byte `j` of word `k` of the container. -/
theorem contAt_afterSer_word (s : State) {i j k : Nat} {v : Word}
    (hv : (containerWords s)[k]? = some v) (hj : j < 4) (hi : i = 4 * k + j) :
    contAt (afterSer s) i = v.extractLsb' (8 * j) 8 := by
  obtain ⟨hk, -⟩ := List.getElem?_eq_some_iff.1 hv
  refine contAt_afterSer s ?_
  rw [hi, containerBytes_eq, List.getElem?_append_left (by rw [length_flatMap_le32]; omega),
    getElem?_flatMap_le32 _ _ hj, hv]
  rfl

/-- The payload stands after the words. -/
theorem contAt_afterSer_payload (s : State) {i : Nat} (hi : i < regLen s.encBytes) :
    contAt (afterSer s) (24 + 8 * regLen s.freqN + i) = payAt s i := by
  have hwords : ((containerWords s).flatMap le32).length = 24 + 8 * regLen s.freqN := by
    rw [length_flatMap_le32, length_containerWords]; omega
  refine contAt_afterSer s ?_
  rw [containerBytes_eq, List.getElem?_append_right (by omega), hwords, Nat.add_sub_cancel_left]
  simp [payload, hi]

/-- Settles O43: every field is a word of the container, found at four times its place among the
words. -/
theorem serWritesContainer : Obligations.SerWritesContainer := by
  refine ⟨fun s h => exec_ser_of_not_valid h, ?_⟩
  intro s hfreq hrle hbits _ _ hcap n e
  have hn : n = regLen s.freqN := rfl
  have he : e = regLen s.encBytes := rfl
  rw [exec_ser_of_valid hfreq hrle hbits, hn, he]
  split
  next hlong => rfl
  next hfits =>
    refine ⟨afterSer s, rfl, afterSer_frame s,
      toInt_contLen_afterSer hcap (Nat.le_of_not_lt hfits), fun j hj => ?_,
      fun i hi => contAt_afterSer_payload s hi, fun i hi => contAt_afterSer_of_ge s hi⟩
    have hlengths := getElem?_containerWords_lengths s
    refine ⟨contAt_afterSer_word s (k := 0) rfl hj (Nat.zero_add j).symm,
      contAt_afterSer_word s (k := 1) rfl hj rfl, contAt_afterSer_word s (k := 2) rfl hj rfl,
      contAt_afterSer_word s (k := 3) rfl hj rfl, fun k hk => ⟨?_, ?_⟩,
      contAt_afterSer_word s (hlengths 0) hj (by omega),
      contAt_afterSer_word s (hlengths 1) hj (by omega)⟩
    · exact contAt_afterSer_word s
        (getElem?_containerWords_table s (i := 2 * k) (by omega)) hj (by omega)
    · exact contAt_afterSer_word s
        (getElem?_containerWords_table s (i := 2 * k + 1) (by omega)) hj (by omega)

/-! ### `DESER` -/

/-- The checks of R228, one by one. -/
theorem containerOk_iff (s : State) : containerOk s = true ↔
    16 ≤ s.contLen.toInt ∧ contEntries s ≤ s.cap.freqCap
      ∧ 24 + 8 * (contEntries s : Int) ≤ s.contLen.toInt
      ∧ 0 ≤ contPayloadBytes s ∧ contPayloadBytes s ≤ s.cap.payCap
      ∧ 24 + 8 * (contEntries s : Int) + contPayloadBytes s ≤ s.contLen.toInt
      ∧ 0 ≤ (contWord s 4).toInt ∧ (contWord s 4).toInt ≤ 16384
      ∧ 0 ≤ (contWord s 8).toInt ∧ (contWord s 8).toInt ≤ 16384 := by
  simp only [containerOk, Bool.and_eq_true, decide_eq_true_eq, and_assoc]
  rfl

/-- The state `DESER` leaves when its flag is set and every check passes. -/
def afterDeser (s : State) : State := loadContainer (beginCommand s)

theorem exec_deser_of_not_valid {s : State} (h : getFlag .contValid s = false) :
    exec .deser s = .next (diagnosed 2 s) :=
  congrArg Host.Outcome.next (requireFlags_beginCommand_of_missing (List.mem_singleton.2 rfl) h _)

/-- With its flag set `DESER` takes the container over or reports it (R228). -/
theorem exec_deser_of_valid {s : State} (h : getFlag .contValid s = true) :
    exec .deser s = .next (if containerOk s = true then afterDeser s else diagnosed 6 s) :=
  congrArg Host.Outcome.next (requireFlags_beginCommand_of_flag h _)

/-- The count of entries and the count of payload bytes go back to the words they were read from. -/
theorem afterDeser_frame (s : State) : afterDeser s = { s with
    lastdiag := 0#32, stage := s.stage ||| 0x480#32,
    quality := contWord s 0, h := contWord s 4, w := contWord s 8, freqN := contWord s 12,
    encBytes := contWord s (16 + 8 * contEntries s), rleExp := contWord s (20 + 8 * contEntries s),
    mem := { s.mem with freq := (afterDeser s).mem.freq, pay := (afterDeser s).mem.pay } } := by
  have hstage : s.stage ||| 0x480#32 = s.stage ||| 0x80#32 ||| 0x400#32 := by
    rw [BitVec.or_assoc]; rfl
  have hentries : contWord s 12 = BitVec.ofNat 32 (contEntries s) := by
    rw [contEntries, BitVec.ofNat_toNat, BitVec.setWidth_eq]
  have hbytes : contWord s (16 + 8 * contEntries s) = BitVec.ofInt 32 (contPayloadBytes s) :=
    BitVec.ofInt_toInt.symm
  rw [hstage, hentries, hbytes]
  rfl

theorem freqAt_afterDeser (s : State) {i : Nat} (hi : i < 2 * contEntries s) :
    freqAt (afterDeser s) i = contWord s (16 + 4 * i) :=
  wordElem_write_tabulated s .freq s.mem.freq (fun i => contWord s (16 + 4 * i)) hi

theorem freqAt_afterDeser_of_ge (s : State) {i : Nat} (hi : 2 * contEntries s ≤ i) :
    freqAt (afterDeser s) i = freqAt s i :=
  wordElem_write_tabulated_of_ge s .freq s.mem.freq (fun i => contWord s (16 + 4 * i)) hi

/-- Entry `k` of the table, symbol and frequency. -/
theorem freqEntry_afterDeser (s : State) {k : Nat} (hk : k < contEntries s) :
    freqAt (afterDeser s) (2 * k) = contWord s (16 + 8 * k)
      ∧ freqAt (afterDeser s) (2 * k + 1) = contWord s (20 + 8 * k) := by
  rw [freqAt_afterDeser s (by omega), freqAt_afterDeser s (by omega)]
  exact ⟨congrArg (contWord s) (by omega), congrArg (contWord s) (by omega)⟩

/-- The payload that `DESER` reads. -/
def containerPayload (s : State) : List Byte :=
  (List.range (contPayloadBytes s).toNat).map fun i => contAt s (24 + 8 * contEntries s + i)

theorem length_containerPayload (s : State) :
    (containerPayload s).length = (contPayloadBytes s).toNat := by
  rw [containerPayload, List.length_map, List.length_range]

theorem payAt_afterDeser (s : State) {i : Nat} (hi : i < (contPayloadBytes s).toNat) :
    payAt (afterDeser s) i = contAt s (24 + 8 * contEntries s + i) := by
  have hlength := length_containerPayload s
  calc payAt (afterDeser s) i = payAt (writePay 0 (containerPayload s) s) i := rfl
    _ = contAt s (24 + 8 * contEntries s + i) := by
      rw [payAt_writePay, dif_pos (by omega)]
      simp [containerPayload]

theorem payAt_afterDeser_of_ge (s : State) {i : Nat} (hi : (contPayloadBytes s).toNat ≤ i) :
    payAt (afterDeser s) i = payAt s i := by
  rw [← length_containerPayload] at hi
  calc payAt (afterDeser s) i = payAt (writePay 0 (containerPayload s) s) i := rfl
    _ = payAt s i := by rw [payAt_writePay, dif_neg (by omega)]

/-- Settles O44: the statement's `word` is `contWord`, and its conditions are the checks of the
command. -/
theorem deserLoadsContainer : Obligations.DeserLoadsContainer := by
  refine ⟨fun s h => exec_deser_of_not_valid h, ?_⟩
  intro s h word n e
  rw [exec_deser_of_valid h]
  split
  next hchecks =>
    exact ⟨afterDeser s, congrArg Host.Outcome.next (if_pos ((containerOk_iff s).2 hchecks)),
      afterDeser_frame s, fun k hk => freqEntry_afterDeser s hk,
      fun i hi => freqAt_afterDeser_of_ge s hi, fun i hi => payAt_afterDeser s hi,
      fun i hi => payAt_afterDeser_of_ge s hi⟩
  next hchecks =>
    exact congrArg Host.Outcome.next (if_neg fun hok => hchecks ((containerOk_iff s).1 hok))

end Sys2Proof.Machine
end

