-- ==== Sys2Proof/Proofs/LsbPixel.lean ====
section
/-! PROOFS. The pixel-domain embedder (`47_lsb_pixel.md` R240 to R243). `msgBits_message` gives the bits
to embed as a table of the statement's `messageBit`; `extractMessage_of_endsAfter` says what the extraction
loop finds, by induction on the bytes before the end. Both are about the message and the carrier's bits
alone, whatever the carrier. -/

namespace Sys2Proof.Machine

/-! ### The message bits (R240) -/

/-- Byte `i` of the message with its terminator. -/
def streamByte (s : State) (i : Nat) : Byte := if i < regLen s.msgLen then msgAt s i else 0#8

theorem message_append_terminator (s : State) :
    message s ++ [0#8] = (List.range (regLen s.msgLen + 1)).map (streamByte s) := by
  have hbytes : message s = (List.range (regLen s.msgLen)).map (streamByte s) :=
    List.map_congr_left fun i hi => (if_pos (List.mem_range.1 hi)).symm
  have hlast : streamByte s (regLen s.msgLen) = 0#8 := if_neg (Nat.lt_irrefl _)
  rw [hbytes, List.range_succ, List.map_append, List.map_singleton, hlast]

theorem bitsOfByte_eq (x : Byte) : bitsOfByte x = (List.range 8).map fun k => x.getLsbD (7 - k) := rfl

/-- Bit `j` of the stream is bit `j % 8` of byte `j / 8`, most significant first. -/
theorem messageBit_eq (s : State) (j : Nat) :
    messageBit s j = (streamByte s (j / 8)).getLsbD (7 - j % 8) := by
  have hregLen : s.msgLen.toInt.toNat = regLen s.msgLen := rfl
  rw [messageBit, streamByte, hregLen]
  split
  next h => rw [decide_eq_true (by omega), Bool.true_and]
  next h => rw [decide_eq_false (by omega), Bool.false_and, BitVec.getLsbD_zero]

theorem msgBits_message (s : State) :
    msgBits (message s) = (List.range (8 * (regLen s.msgLen + 1))).map (messageBit s) := by
  simp only [msgBits, message_append_terminator, List.flatMap_map, bitsOfByte_eq,
    funext (messageBit_eq s)]
  exact flatMap_range_map (fun i k => (streamByte s i).getLsbD (7 - k)) 8 _

theorem length_msgBits_message (s : State) :
    (msgBits (message s)).length = 8 * (regLen s.msgLen + 1) := by
  rw [msgBits_message, List.length_map, List.length_range]

theorem getD_msgBits_message (s : State) {j : Nat} (hj : j < 8 * (regLen s.msgLen + 1)) :
    (msgBits (message s)).getD j false = messageBit s j := by
  simp [msgBits_message, hj]

/-! ### The parameter check of the embedders (R242, R257) -/

theorem msgParamOk_iff (s : State) :
    msgParamOk s = true ↔ 0 ≤ s.msgLen.toInt ∧ s.msgLen.toInt ≤ s.cap.msgCap := decide_eq_true_iff

theorem msgParamOk_beginCommand (s : State) : msgParamOk (beginCommand s) = msgParamOk s := rfl

/-- A command with one flag and the length check, the message length out of range. -/
theorem requireMessage_of_bad {f : Flag} {s : State} (hf : getFlag f s = true)
    (hlen : ¬(0 ≤ s.msgLen.toInt ∧ s.msgLen.toInt ≤ s.cap.msgCap)) (body : State → State) :
    requireFlags [f] (requireParam msgParamOk body) (beginCommand s) = diagnosed 3 s := by
  rw [requireFlags_beginCommand_of_flag hf]
  refine requireParam_beginCommand_of_bad ?_ body
  rwa [msgParamOk_beginCommand, ← Bool.not_eq_true, msgParamOk_iff]

/-- A command with one flag and the length check, the message length legal. -/
theorem requireMessage_of_ok {f : Flag} {s : State} (hf : getFlag f s = true)
    (hlen : 0 ≤ s.msgLen.toInt ∧ s.msgLen.toInt ≤ s.cap.msgCap) (body : State → State) :
    requireFlags [f] (requireParam msgParamOk body) (beginCommand s) = body (beginCommand s) := by
  rw [requireFlags_beginCommand_of_flag hf]
  exact requireParam_of_ok ((msgParamOk_beginCommand s).trans ((msgParamOk_iff s).2 hlen)) body

/-! ### `PXEMBED` -/

/-- `setlsb` of a byte, by the mask R242 prints. -/
theorem setLsb_byte (v : Byte) (b : Bool) :
    setLsb v b = (v &&& 0xFE#8) ||| (if b then 1#8 else 0#8) := by
  cases b <;> rfl

/-- The state `PXEMBED` leaves when its flag is set, the length legal and the carrier long enough. -/
def afterPxembed (s : State) : State :=
  setFlag .embedded (writeRgb 0 (embeddedPixels s (msgBits (message s))) (beginCommand s))

theorem exec_pxembed_of_not_loaded {s : State} (h : getFlag .rgbLoaded s = false) :
    exec .pxembed s = .next (diagnosed 2 s) :=
  congrArg Host.Outcome.next (requireFlags_beginCommand_of_missing (List.mem_singleton.2 rfl) h _)

theorem exec_pxembed_of_bad_length {s : State} (h : getFlag .rgbLoaded s = true)
    (hlen : ¬(0 ≤ s.msgLen.toInt ∧ s.msgLen.toInt ≤ s.cap.msgCap)) :
    exec .pxembed s = .next (diagnosed 3 s) :=
  congrArg Host.Outcome.next (requireMessage_of_bad h hlen _)

/-- With its flag set and a legal length `PXEMBED` runs out of slots or writes the bits (R242). -/
theorem exec_pxembed_of_valid {s : State} (h : getFlag .rgbLoaded s = true)
    (hlen : 0 ≤ s.msgLen.toInt ∧ s.msgLen.toInt ≤ s.cap.msgCap) :
    exec .pxembed s = .next (
      if 3 * width s * height s < 8 * (regLen s.msgLen + 1) then capacityFailure (beginCommand s)
      else afterPxembed s) := by
  rw [← length_msgBits_message]
  exact congrArg Host.Outcome.next (requireMessage_of_ok h hlen _)

theorem capacityFailure_beginCommand (s : State) : capacityFailure (beginCommand s) = { s with
    lastdiag := 4#32, diagacc := s.diagacc ||| 0x10#32, stage := s.stage &&& 0xFFFFDFFF#32 } := rfl

theorem afterPxembed_frame (s : State) : afterPxembed s = { s with
    lastdiag := 0#32, stage := s.stage ||| 0x10#32,
    mem := { s.mem with rgb := (afterPxembed s).mem.rgb } } := rfl

theorem length_embeddedPixels (s : State) (bits : List Bool) :
    (embeddedPixels s bits).length = bits.length := by
  rw [embeddedPixels, List.length_map, List.length_range]

theorem rgbAt_afterPxembed (s : State) {j : Nat} (hj : j < 8 * (regLen s.msgLen + 1)) :
    rgbAt (afterPxembed s) j = setLsb (rgbAt s j) (messageBit s j) := by
  have hlength := length_embeddedPixels s (msgBits (message s))
  rw [length_msgBits_message] at hlength
  calc rgbAt (afterPxembed s) j
      = rgbAt (writeRgb 0 (embeddedPixels s (msgBits (message s))) s) j := rfl
    _ = setLsb (rgbAt s j) ((msgBits (message s)).getD j false) := by
      rw [rgbAt_writeRgb, dif_pos (by omega)]
      simp only [embeddedPixels, List.getElem_map, List.getElem_range, Nat.sub_zero]
    _ = setLsb (rgbAt s j) (messageBit s j) := by rw [getD_msgBits_message s hj]

theorem rgbAt_afterPxembed_of_ge (s : State) {j : Nat} (hj : 8 * (regLen s.msgLen + 1) ≤ j) :
    rgbAt (afterPxembed s) j = rgbAt s j := by
  rw [← length_msgBits_message, ← length_embeddedPixels s] at hj
  calc rgbAt (afterPxembed s) j
      = rgbAt (writeRgb 0 (embeddedPixels s (msgBits (message s))) s) j := rfl
    _ = rgbAt s j := by rw [rgbAt_writeRgb, dif_neg (by omega)]

/-- Settles O46: the stream has eight bits for each byte of the message and eight for the
terminator. -/
theorem pxembedEmbeds : Obligations.PxembedEmbeds := by
  refine ⟨fun s h => exec_pxembed_of_not_loaded h, fun s h hlen => exec_pxembed_of_bad_length h hlen,
    fun s h hlo hhi => ?_⟩
  intro count
  have hcount : count = 8 * (regLen s.msgLen + 1) := rfl
  rw [exec_pxembed_of_valid h ⟨hlo, hhi⟩, hcount]
  split
  next hfull => rw [capacityFailure_beginCommand]
  next hfits =>
    exact ⟨afterPxembed s, rfl, afterPxembed_frame s,
      fun j hj => (rgbAt_afterPxembed s hj).trans (setLsb_byte _ _),
      fun j hj => rgbAt_afterPxembed_of_ge s hj⟩

/-! ### The extraction loop (R243) -/

/-- Bits that do not complete a byte go into the accumulator. -/
theorem extractBytes_append_of_lt (cap : Nat) (bits : List Bool) (out : List Byte) {taken : List Bool}
    {acc : Byte} {nb : Nat} (h : nb + taken.length < 8) :
    extractBytes cap (taken ++ bits) acc nb out
      = extractBytes cap bits (taken.foldl shiftIn acc) (nb + taken.length) out := by
  induction taken generalizing acc nb with
  | nil => rfl
  | cons b taken ih =>
    rw [List.length_cons] at h
    rw [List.cons_append, extractBytes, if_neg (by omega), ih (by omega), List.foldl_cons,
      List.length_cons, Nat.add_right_comm, Nat.add_assoc]

/-- An incomplete last byte is dropped. -/
theorem extractBytes_of_length_lt (cap : Nat) {bits : List Bool} (h : bits.length < 8)
    (out : List Byte) : extractBytes cap bits 0#8 0 out = (out, .exhausted) := by
  have hrest := extractBytes_append_of_lt cap [] out (taken := bits) (acc := 0#8) (nb := 0) (by omega)
  rwa [List.append_nil, extractBytes] at hrest

/-- What one whole byte does to the loop: it ends the message, overflows the buffer or joins the
output. -/
theorem extractBytes_byte (cap : Nat) {eight : List Bool} (h : eight.length = 8) (bits : List Bool)
    (out : List Byte) : extractBytes cap (eight ++ bits) 0#8 0 out =
      if byteOfBits eight = 0#8 then (out, .terminated)
      else if out.length = cap then (out, .overflowed)
      else extractBytes cap bits 0#8 0 (out ++ [byteOfBits eight]) := by
  obtain rfl | ⟨seven, b, rfl⟩ := List.eq_nil_or_concat' eight
  · exact absurd h (by decide)
  · rw [List.length_append, List.length_singleton] at h
    rw [List.append_assoc, extractBytes_append_of_lt cap _ out (by omega), List.singleton_append,
      extractBytes, if_pos (by omega), byteOfBits_append_singleton, byteOfBits]

/-! ### The bytes of a carrier -/

/-- Byte `m` of a sequence of bits. -/
def carrierByte (bits : List Bool) (m : Nat) : Byte := byteOfBits ((bits.drop (8 * m)).take 8)

theorem length_take_drop_of_lt {bits : List Bool} {m : Nat} (hm : m < bits.length / 8) :
    ((bits.drop (8 * m)).take 8).length = 8 := by
  rw [List.length_take, List.length_drop]; omega

theorem getLsbD_carrierByte {bits : List Bool} {m k : Nat} (hm : m < bits.length / 8) (hk : k < 8) :
    (carrierByte bits m).getLsbD (7 - k) = bits.getD (8 * m + k) false := by
  have hlength := length_take_drop_of_lt hm
  calc (carrierByte bits m).getLsbD (7 - k)
      = (carrierByte bits m).getLsbD (((bits.drop (8 * m)).take 8).length - 1 - k) := by rw [hlength]
    _ = ((bits.drop (8 * m)).take 8)[k] := getLsbD_byteOfBits _ hlength.le (by omega)
    _ = bits.getD (8 * m + k) false := by
      rw [List.getElem_take, List.getElem_drop, List.getD_eq_getElem _ _ (by omega)]

/-- Byte `m` is the only byte with these bits. -/
theorem carrierByte_eq {bits : List Bool} {m : Nat} (hm : m < bits.length / 8) {x : Byte}
    (hx : ∀ k < 8, x.getLsbD (7 - k) = bits.getD (8 * m + k) false) : carrierByte bits m = x := by
  refine BitVec.eq_of_getLsbD_eq fun i hi => ?_
  have hplace : 7 - (7 - i) = i := by omega
  have hbit := (getLsbD_carrierByte hm (k := 7 - i) (by omega)).trans (hx (7 - i) (by omega)).symm
  rwa [hplace] at hbit

/-- The loop at a byte boundary inside the carrier. -/
theorem extractBytes_drop (cap : Nat) {bits : List Bool} {m : Nat} (hm : m < bits.length / 8)
    (out : List Byte) : extractBytes cap (bits.drop (8 * m)) 0#8 0 out =
      if carrierByte bits m = 0#8 then (out, .terminated)
      else if out.length = cap then (out, .overflowed)
      else extractBytes cap (bits.drop (8 * (m + 1))) 0#8 0 (out ++ [carrierByte bits m]) := by
  have hbyte := extractBytes_byte cap (length_take_drop_of_lt hm) ((bits.drop (8 * m)).drop 8) out
  rwa [List.take_append_drop, List.drop_drop] at hbyte

/-- Whole bytes other than zero that fit the buffer are taken over. -/
theorem extractMessage_of_nonzero {cap z : Nat} {bits : List Bool} (hcap : z ≤ cap)
    (hz : z ≤ bits.length / 8) (hnonzero : ∀ m < z, carrierByte bits m ≠ 0#8) :
    extractMessage cap bits
      = extractBytes cap (bits.drop (8 * z)) 0#8 0 ((List.range z).map (carrierByte bits)) := by
  induction z with
  | zero => rfl
  | succ z ih =>
    have hroom : ¬((List.range z).map (carrierByte bits)).length = cap := by
      rw [List.length_map, List.length_range]; omega
    rw [ih (by omega) (by omega) fun m hm => hnonzero m (by omega), extractBytes_drop cap (by omega),
      if_neg (hnonzero z (by omega)), if_neg hroom, List.range_succ, List.map_append,
      List.map_singleton]

/-- What ends an extraction after `z` bytes of a carrier with `count` whole bytes (R243). -/
def EndsAfter (cap count : Nat) (byte : Nat → Byte) (z : Nat) : ExtractEnd → Prop
  | .terminated => z < count ∧ byte z = 0#8 ∧ z ≤ cap
  | .overflowed => z < count ∧ byte z ≠ 0#8 ∧ z = cap
  | .exhausted => z = count ∧ z ≤ cap

theorem EndsAfter.le {cap count z : Nat} {byte : Nat → Byte} {e : ExtractEnd}
    (h : EndsAfter cap count byte z e) : z ≤ cap ∧ z ≤ count := by
  cases e with
  | terminated => obtain ⟨hlt, -, hcap⟩ := h; exact ⟨hcap, hlt.le⟩
  | overflowed => obtain ⟨hlt, -, hfull⟩ := h; exact ⟨hfull.le, hlt.le⟩
  | exhausted => obtain ⟨hall, hcap⟩ := h; exact ⟨hcap, hall.le⟩

/-- The result of an extraction: the bytes before its end, and how it ended. -/
theorem extractMessage_of_endsAfter {cap z : Nat} {bits : List Bool} {byte : Nat → Byte}
    {e : ExtractEnd}
    (hbyte : ∀ m < bits.length / 8, ∀ k < 8,
      (byte m).getLsbD (7 - k) = bits.getD (8 * m + k) false)
    (hnonzero : ∀ m < z, byte m ≠ 0#8) (hend : EndsAfter cap (bits.length / 8) byte z e) :
    extractMessage cap bits = ((List.range z).map byte, e) := by
  have hcarrier : ∀ m < bits.length / 8, carrierByte bits m = byte m := fun m hm =>
    carrierByte_eq hm (hbyte m hm)
  obtain ⟨hcap, hz⟩ := hend.le
  have hbytes : (List.range z).map (carrierByte bits) = (List.range z).map byte :=
    List.map_congr_left fun m hm => hcarrier m (Nat.lt_of_lt_of_le (List.mem_range.1 hm) hz)
  rw [extractMessage_of_nonzero hcap hz fun m hm => hcarrier m (by omega) ▸ hnonzero m hm, hbytes]
  cases e with
  | terminated =>
    obtain ⟨hlt, hzero, -⟩ := hend
    rw [extractBytes_drop cap hlt, if_pos ((hcarrier z hlt).trans hzero)]
  | overflowed =>
    obtain ⟨hlt, hne, hfull⟩ := hend
    rw [extractBytes_drop cap hlt, if_neg (hcarrier z hlt ▸ hne), if_pos (by simpa using hfull)]
  | exhausted =>
    obtain ⟨hall, -⟩ := hend
    exact extractBytes_of_length_lt cap (by rw [List.length_drop]; omega) _

/-! ### Storing the message (R243, R258) -/

/-- The diagnostic code of an end, 0 for none. -/
def ExtractEnd.code : ExtractEnd → Nat
  | .terminated => 0
  | .overflowed => 10
  | .exhausted => 9

/-- The three ends with their codes, as the statements of both extractors list them. -/
theorem exists_endsAfter {cap count z code : Nat} {byte : Nat → Byte}
    (h : z < count ∧ byte z = 0#8 ∧ z ≤ cap ∧ code = 0
      ∨ z < count ∧ byte z ≠ 0#8 ∧ z = cap ∧ code = 10
      ∨ z = count ∧ z ≤ cap ∧ code = 9) :
    ∃ e, EndsAfter cap count byte z e ∧ e.code = code := by
  obtain ⟨hlt, hzero, hcap, rfl⟩ | ⟨hlt, hne, hfull, rfl⟩ | ⟨hall, hcap, rfl⟩ := h
  · exact ⟨.terminated, ⟨hlt, hzero, hcap⟩, rfl⟩
  · exact ⟨.overflowed, ⟨hlt, hne, hfull⟩, rfl⟩
  · exact ⟨.exhausted, ⟨hall, hcap⟩, rfl⟩

/-- The state an extractor leaves when its flag is set and `r` is what it found. -/
def afterExtract (r : List Byte × ExtractEnd) (s : State) : State := storeMessage r (beginCommand s)

theorem afterExtract_frame (r : List Byte × ExtractEnd) (s : State) : afterExtract r s = { s with
    lastdiag := BitVec.ofNat 32 r.2.code
    diagacc := if r.2.code = 0 then s.diagacc else s.diagacc ||| (1#32 <<< r.2.code)
    stage := s.stage ||| 0x1000#32, msgLen := (afterExtract r s).msgLen
    mem := { s.mem with msg := (afterExtract r s).mem.msg } } := by
  obtain ⟨bytes, e⟩ := r
  cases e <;> rfl

theorem msgLen_afterExtract (r : List Byte × ExtractEnd) (s : State) :
    (afterExtract r s).msgLen = BitVec.ofNat 32 r.1.length := by
  obtain ⟨bytes, e⟩ := r
  cases e <;> rfl

theorem msgAt_afterExtract (r : List Byte × ExtractEnd) (s : State) (m : Nat) :
    msgAt (afterExtract r s) m = if h : m < r.1.length then r.1[m] else msgAt s m := by
  obtain ⟨bytes, e⟩ := r
  have hwrite : msgAt (afterExtract (bytes, e) s) m = msgAt (writeMsg 0 bytes s) m := by
    cases e <;> rfl
  simpa [msgAt_writeMsg] using hwrite

/-! ### `PXEXTRACT` -/

theorem exec_pxextract_of_not_loaded {s : State} (h : getFlag .rgbLoaded s = false) :
    exec .pxextract s = .next (diagnosed 2 s) :=
  congrArg Host.Outcome.next (requireFlags_beginCommand_of_missing (List.mem_singleton.2 rfl) h _)

theorem exec_pxextract_of_loaded {s : State} (h : getFlag .rgbLoaded s = true) :
    exec .pxextract s = .next (afterExtract (extractMessage s.cap.msgCap (pixelBits s)) s) :=
  congrArg Host.Outcome.next (requireFlags_beginCommand_of_flag h _)

theorem length_pixelBits (s : State) : (pixelBits s).length = 3 * width s * height s := by
  rw [pixelBits, List.length_map, List.length_range, pixelSlots]

theorem getD_pixelBits (s : State) {i : Nat} (hi : i < 3 * width s * height s) :
    (pixelBits s).getD i false = (rgbAt s i).getLsbD 0 := by
  have hslots : i < pixelSlots s := hi
  simp [pixelBits, hslots]

/-- Settles O47: the statement's bytes are those of the carrier, and its three cases the ends of the
extraction. -/
theorem pxextractReads : Obligations.PxextractReads := by
  refine ⟨fun s h => exec_pxextract_of_not_loaded h, ?_⟩
  intro s byte z h hcap hbyte hnonzero code hcode
  obtain ⟨e, hend, rfl⟩ := exists_endsAfter hcode
  rw [← length_pixelBits] at hbyte hend
  have hfound : extractMessage s.cap.msgCap (pixelBits s) = ((List.range z).map byte, e) :=
    extractMessage_of_endsAfter (fun m hm k hk => (hbyte m hm k hk).trans
      (getD_pixelBits s (by rw [length_pixelBits] at hm; omega)).symm) hnonzero hend
  obtain ⟨hz, -⟩ := hend.le
  rw [exec_pxextract_of_loaded h, hfound]
  refine ⟨_, rfl, afterExtract_frame _ s, ?_, fun m hm => ?_, fun m hm => ?_⟩
  · rw [msgLen_afterExtract, List.length_map, List.length_range, toInt_ofNat_of_lt (by omega)]
  · simp [msgAt_afterExtract, hm]
  · simp [msgAt_afterExtract, Nat.not_lt.2 hm]

end Sys2Proof.Machine
end

