-- ==== Sys2Proof/Proofs/LsbCoef.lean ====
section
/-! PROOFS. The coefficient-domain extractor (`48_lsb_coef.md` R255, R258). An ascending list is
determined by its members, so the statement's slots are the slots that the model enumerates
(`AreSlots.eq_coefSlots`); what the extraction loop finds in their bits and what is then stored is shared
with the pixel domain (`extractMessage_of_endsAfter`, `afterExtract_frame`). -/

namespace Sys2Proof.Machine

/-! ### The slots of the coefficient carrier (R255) -/

theorem pairwise_coefSlots (s : State) : (coefSlots s).Pairwise (· < ·) :=
  List.pairwise_lt_range.filter _

theorem mem_coefSlots (s : State) (i : Nat) : i ∈ coefSlots s ↔
    i < 192 * numBlocks s ∧ i % 64 ≠ 0 ∧ qbAt s i ≠ 0#32 ∧ qbAt s i ≠ 1#32 := by
  rw [coefSlots, List.mem_filter, List.mem_range, slotEligible, decide_eq_true_iff]

theorem AreSlots.eq_coefSlots {s : State} {slots : List Nat} (h : AreSlots s slots) :
    slots = coefSlots s := by
  obtain ⟨hascending, hmem⟩ := h
  exact hascending.eq_of_mem_iff (pairwise_coefSlots s) fun i =>
    (hmem i).trans (mem_coefSlots s i).symm

/-! ### The bits of the slots (R258) -/

theorem length_coefBits (s : State) : (coefBits s).length = (coefSlots s).length := List.length_map _

theorem getD_coefBits (s : State) {j : Nat} (hj : j < (coefSlots s).length) :
    (coefBits s).getD j false = (qbAt s ((coefSlots s).getD j 0)).getLsbD 0 := by
  rw [List.getD_eq_getElem _ _ (length_coefBits s ▸ hj), List.getD_eq_getElem _ _ hj]
  simp only [coefBits, List.getElem_map, lsb]

/-! ### What an extractor stores (R243, R258) -/

theorem toInt_msgLen_afterExtract {bytes : List Byte} (h : bytes.length < 2 ^ 31) (e : ExtractEnd)
    (s : State) : (afterExtract (bytes, e) s).msgLen.toInt = bytes.length := by
  rw [msgLen_afterExtract, toInt_ofNat_of_lt h]

theorem msgAt_afterExtract_tabulated (s : State) (byte : Nat → Byte) (e : ExtractEnd) {z m : Nat}
    (hm : m < z) : msgAt (afterExtract ((List.range z).map byte, e) s) m = byte m := by
  simp [msgAt_afterExtract, hm]

theorem msgAt_afterExtract_of_ge (s : State) {bytes : List Byte} (e : ExtractEnd) {m : Nat}
    (hm : bytes.length ≤ m) : msgAt (afterExtract (bytes, e) s) m = msgAt s m := by
  rw [msgAt_afterExtract, dif_neg (Nat.not_lt.2 hm)]

/-! ### `CFEXTRACT` -/

theorem exec_cfextract_of_not_valid {s : State} (h : getFlag .qValid s = false) :
    exec .cfextract s = .next (diagnosed 2 s) :=
  congrArg Host.Outcome.next (requireFlags_beginCommand_of_missing (List.mem_singleton.2 rfl) h _)

theorem exec_cfextract_of_valid {s : State} (h : getFlag .qValid s = true) :
    exec .cfextract s = .next (afterExtract (extractMessage s.cap.msgCap (coefBits s)) s) :=
  congrArg Host.Outcome.next (requireFlags_beginCommand_of_flag h _)

/-- Settles O50: the statement's slots are the model's, so its bytes are those of the carrier, and its
three cases the ends of the extraction. -/
theorem cfextractReads : Obligations.CfextractReads := by
  refine ⟨fun s h => exec_cfextract_of_not_valid h, ?_⟩
  intro s slots byte z h hcap hslots hbyte hnonzero code hcode
  obtain rfl := hslots.eq_coefSlots
  obtain ⟨e, hend, rfl⟩ := exists_endsAfter hcode
  have hcarrier : ∀ m < (coefBits s).length / 8, ∀ k < 8,
      (byte m).getLsbD (7 - k) = (coefBits s).getD (8 * m + k) false := fun m hm k hk => by
    rw [length_coefBits] at hm
    rw [hbyte m hm k hk, getD_coefBits s (by omega)]
  obtain ⟨hz, -⟩ := hend.le
  rw [← length_coefBits] at hend
  have hlength : ((List.range z).map byte).length = z := by rw [List.length_map, List.length_range]
  rw [exec_cfextract_of_valid h, extractMessage_of_endsAfter hcarrier hnonzero hend]
  refine ⟨_, rfl, afterExtract_frame _ s, ?_, fun m hm => msgAt_afterExtract_tabulated s byte e hm,
    fun m hm => msgAt_afterExtract_of_ge s e (hlength.le.trans hm)⟩
  rw [toInt_msgLen_afterExtract (by omega), hlength]

end Sys2Proof.Machine
end

section
/-! PROOFS. The two commands that take in what the host has placed (`49_orchestrator.md` R271, R272).
Neither has a precondition, so each is its parameter check followed by its effect, and the check reads no
register that the start of a command changes. -/

namespace Sys2Proof.Machine

/-! ### `LDRGB` -/

theorem ldrgbParamOk_iff (s : State) : ldrgbParamOk s = true ↔
    0 ≤ s.imgW.toInt ∧ s.imgW.toInt ≤ 16384 ∧ 0 ≤ s.imgH.toInt ∧ s.imgH.toInt ≤ 16384 :=
  decide_eq_true_iff

theorem ldrgbParamOk_beginCommand (s : State) : ldrgbParamOk (beginCommand s) = ldrgbParamOk s := rfl

/-- The state `LDRGB` leaves when the dimensions are legal. -/
def afterLdrgb (s : State) : State :=
  setFlag .rgbLoaded { beginCommand s with w := s.imgW, h := s.imgH }

theorem exec_ldrgb_of_legal {s : State}
    (h : 0 ≤ s.imgW.toInt ∧ s.imgW.toInt ≤ 16384
      ∧ 0 ≤ s.imgH.toInt ∧ s.imgH.toInt ≤ 16384) :
    exec .ldrgb s = .next (afterLdrgb s) :=
  congrArg Host.Outcome.next
    (requireParam_of_ok ((ldrgbParamOk_beginCommand s).trans ((ldrgbParamOk_iff s).2 h)) _)

theorem exec_ldrgb_of_illegal {s : State}
    (h : ¬(0 ≤ s.imgW.toInt ∧ s.imgW.toInt ≤ 16384
      ∧ 0 ≤ s.imgH.toInt ∧ s.imgH.toInt ≤ 16384)) :
    exec .ldrgb s = .next (diagnosed 3 s) := by
  refine congrArg Host.Outcome.next (requireParam_beginCommand_of_bad ?_ _)
  rwa [ldrgbParamOk_beginCommand, ← Bool.not_eq_true, ldrgbParamOk_iff]

theorem afterLdrgb_frame (s : State) : afterLdrgb s = { s with
    lastdiag := 0#32, w := s.imgW, h := s.imgH, stage := s.stage ||| 0x1#32 } := rfl

/-! ### `LDCONT` -/

theorem ldcontParamOk_iff (s : State) :
    ldcontParamOk s = true ↔ 0 ≤ s.contLen.toInt ∧ s.contLen.toInt ≤ s.cap.contCap :=
  decide_eq_true_iff

theorem ldcontParamOk_beginCommand (s : State) :
    ldcontParamOk (beginCommand s) = ldcontParamOk s := rfl

/-- The state `LDCONT` leaves when the container's length is in range. -/
def afterLdcont (s : State) : State := setFlag .contValid (beginCommand s)

theorem exec_ldcont_of_legal {s : State}
    (h : 0 ≤ s.contLen.toInt ∧ s.contLen.toInt ≤ s.cap.contCap) :
    exec .ldcont s = .next (afterLdcont s) :=
  congrArg Host.Outcome.next
    (requireParam_of_ok ((ldcontParamOk_beginCommand s).trans ((ldcontParamOk_iff s).2 h)) _)

theorem exec_ldcont_of_illegal {s : State}
    (h : ¬(0 ≤ s.contLen.toInt ∧ s.contLen.toInt ≤ s.cap.contCap)) :
    exec .ldcont s = .next (diagnosed 3 s) := by
  refine congrArg Host.Outcome.next (requireParam_beginCommand_of_bad ?_ _)
  rwa [ldcontParamOk_beginCommand, ← Bool.not_eq_true, ldcontParamOk_iff]

theorem afterLdcont_frame (s : State) : afterLdcont s = { s with
    lastdiag := 0#32, stage := s.stage ||| 0x800#32 } := rfl

/-- Settles O15: each command splits on its parameter check, which is the range the statement names. -/
theorem loadCommands : Obligations.LoadCommands := by
  refine fun s => ⟨?ldrgb, ?ldcont⟩
  case ldrgb =>
    split
    case isTrue h => rw [exec_ldrgb_of_legal h, afterLdrgb_frame]
    case isFalse h => exact exec_ldrgb_of_illegal h
  case ldcont =>
    split
    case isTrue h => rw [exec_ldcont_of_legal h, afterLdcont_frame]
    case isFalse h => exact exec_ldcont_of_illegal h

end Sys2Proof.Machine
end

section
/-! PROOFS. What a command that is no macro can do (`30_encoding.md` R81): `ends_of_exec` lists the ways in
which it ends, one constructor of `Ends` for each, so that a fact about every command is a case analysis
over `Ends`. The preconditions and the parameter checks (`60_exceptions.md` R311, R312) are among them. -/

namespace Sys2Proof.Machine

/-! ### Stage preconditions (R311) -/

/-- The stage flags that a command needs; a macro needs those of its first constituent. -/
def requiredFlags : Instr → List Flag
  | .reset | .ldrgb | .ldcont => []
  | .rgb2ycc | .pxembed | .pxextract | .runenc | .runencm => [.rgbLoaded]
  | .ycc2rgb | .fdct => [.yccValid]
  | .idct | .quant => [.dctValid]
  | .dequant | .zigzag | .cfembed | .cfextract => [.qValid]
  | .dezigzag | .rleenc => [.zzValid]
  | .rledec | .hfreq => [.rleValid]
  | .htree => [.freqValid]
  | .hcodes => [.treeValid]
  | .henc => [.rleValid, .codesValid]
  | .hdec => [.treeValid, .bitsValid]
  | .ser => [.freqValid, .rleValid, .bitsValid]
  | .deser | .rundec | .rundecm => [.contValid]

/-- A macro ends where its first constituent meets a missing flag. -/
theorem runConstituents_of_missing {fs : List Flag} {s : State} {f : Flag} (hf : f ∈ fs)
    (h : getFlag f s = false) (body : State → State) (rest : List (State → State)) :
    runConstituents (requireFlags fs body :: rest) (beginCommand s) = diagnosed 2 s := by
  have hfirst := requireFlags_beginCommand_of_missing hf h body
  rw [runConstituents_of_diag (hfirst ▸ diag_lastdiag_ne_zero .precond s), hfirst]

/-- A command with a flag missing records `E_PRECOND` and does nothing else. -/
theorem exec_of_missing {i : Instr} {f : Flag} {s : State} (hf : f ∈ requiredFlags i)
    (h : getFlag f s = false) : exec i s = .next (diagnosed 2 s) := by
  cases i
  case reset | ldrgb | ldcont => exact absurd hf List.not_mem_nil
  case runenc | runencm | rundec | rundecm =>
    exact congrArg Host.Outcome.next (runConstituents_of_missing hf h _ _)
  all_goals exact congrArg Host.Outcome.next (requireFlags_beginCommand_of_missing hf h _)

/-- The bits of `STAGE` that hold the flags of a list. -/
def flagsMask (fs : List Flag) : Word := fs.foldr (fun f m => f.mask ||| m) 0#32

theorem Flag.bit_lt (f : Flag) : f.bit < 14 := by cases f <;> decide

theorem getLsbD_mask (f : Flag) (k : Nat) : f.mask.getLsbD k = decide (k = f.bit) := by
  have hbit := f.bit_lt
  rw [Flag.mask, ← BitVec.twoPow_eq, BitVec.getLsbD_twoPow]
  simp only [eq_comm, ← Bool.decide_and]
  exact decide_eq_decide.2 (by omega)

/-- A flag that is set is the whole of its mask. -/
theorem stage_and_mask {f : Flag} {s : State} (h : getFlag f s = true) :
    s.stage &&& f.mask = f.mask := by
  refine BitVec.eq_of_getLsbD_eq fun k _ => ?_
  rw [BitVec.getLsbD_and, getLsbD_mask]
  by_cases hk : k = f.bit
  · rw [hk, ← getFlag, h, Bool.true_and]
  · rw [decide_eq_false hk, Bool.and_false]

theorem stage_and_flagsMask {fs : List Flag} {s : State} (h : ∀ f ∈ fs, getFlag f s = true) :
    s.stage &&& flagsMask fs = flagsMask fs := by
  induction fs with
  | nil => exact BitVec.and_zero
  | cons f fs ih =>
    obtain ⟨hf, hfs⟩ := List.forall_mem_cons.1 h
    have hand : s.stage &&& (f.mask ||| flagsMask fs)
        = (s.stage &&& f.mask) ||| (s.stage &&& flagsMask fs) := by
      ext k; simp [Bool.and_or_distrib_left]
    rw [flagsMask, List.foldr_cons, ← flagsMask, hand, stage_and_mask hf, ih hfs]

/-- A command whose flags are not all in `STAGE` has a flag missing. -/
theorem exec_of_stage_and_ne {i : Instr} {s : State}
    (h : s.stage &&& flagsMask (requiredFlags i) ≠ flagsMask (requiredFlags i)) :
    exec i s = .next (diagnosed 2 s) := by
  obtain ⟨f, hf, hmissing⟩ : ∃ f ∈ requiredFlags i, getFlag f s = false := by
    by_contra hnone
    push Not at hnone
    exact h (stage_and_flagsMask fun f hf => Bool.not_eq_false _ ▸ hnone f hf)
  exact exec_of_missing hf hmissing

/-- Settles O8: the masks of the statement are those of the commands' flags. -/
theorem preconditions : Obligations.Preconditions := by
  intro p hp s hs
  have hmask : p.2 = flagsMask (requiredFlags p.1) := by
    clear hs
    revert p
    decide
  rw [hmask] at hs
  exact exec_of_stage_and_ne hs

/-! ### Parameter checks (R312) -/

theorem exec_cfembed_of_bad_length {s : State} (h : getFlag .qValid s = true)
    (hlen : ¬(0 ≤ s.msgLen.toInt ∧ s.msgLen.toInt ≤ s.cap.msgCap)) :
    exec .cfembed s = .next (diagnosed 3 s) :=
  congrArg Host.Outcome.next (requireMessage_of_bad h hlen _)

/-- The capacity of `RLE` in figures (R8). -/
theorem rleCap_eq : Config.rleCap = 1610612736 := rfl

theorem hdecParamOk_iff (s : State) : hdecParamOk s = true ↔ s.rleExp.toInt ≤ 1610612736 :=
  decide_eq_true_iff

/-- The flags of `HDEC` are set: what is left is its parameter check. -/
theorem exec_hdec_of_flags {s : State} (htree : getFlag .treeValid s = true)
    (hbits : getFlag .bitsValid s = true) :
    exec .hdec s = .next (if s.rleExp.toInt ≤ 1610612736 then cmdHdec (beginCommand s)
      else diagnosed 3 s) := by
  split
  next => rfl
  next hbig =>
    refine congrArg Host.Outcome.next ((requireFlags_of_all (s := beginCommand s)
      (List.forall_mem_cons.2 ⟨htree, List.forall_mem_singleton.2 hbits⟩) _).trans
      (requireParam_beginCommand_of_bad ?_ _))
    rw [← Bool.not_eq_true, hdecParamOk_iff]
    exact hbig

/-- Settles O9: the check of each command is the range that the statement names. -/
theorem parameterChecks : Obligations.ParameterChecks := by
  refine fun s => ⟨exec_ldrgb_of_illegal, exec_ldcont_of_illegal, fun hquality =>
    ⟨fun h => exec_quant_of_bad_quality h hquality, fun h => exec_dequant_of_bad_quality h hquality⟩,
    fun hlen => ⟨fun h => exec_pxembed_of_bad_length h hlen,
      fun h => exec_cfembed_of_bad_length h hlen⟩, fun hbig htree hbits => ?_⟩
  rw [exec_hdec_of_flags htree hbits, if_neg (not_le.2 hbig)]

end Sys2Proof.Machine
end

section
/-! PROOFS. What a command that is no macro can do (`30_encoding.md` R81): `ends_of_exec` lists the ways in
which it ends, one constructor of `Ends` for each, so that a fact about every command is a case analysis
over `Ends`. -/

namespace Sys2Proof.Machine

/-! ### What the remaining commands leave -/

/-- The state `FDCT` leaves when its flag is set. -/
def afterFdct (s : State) : State :=
  setFlag .dctValid (writeDctb 0 (coefficientsOfYcc s) (beginCommand s))

theorem exec_fdct_of_valid {s : State} (h : getFlag .yccValid s = true) :
    exec .fdct s = .next (afterFdct s) :=
  congrArg Host.Outcome.next (requireFlags_beginCommand_of_flag h _)

/-- The state `HCODES` leaves when its flag is set. -/
def afterHcodes (s : State) : State :=
  setFlag .codesValid { beginCommand s with code := Store.writeEach s.code (treeCodes s) }

theorem exec_hcodes_of_valid {s : State} (h : getFlag .treeValid s = true) :
    exec .hcodes s = .next (afterHcodes s) :=
  congrArg Host.Outcome.next (requireFlags_beginCommand_of_flag h _)

/-- What `HDEC` writes before it reports how the decoding ended (R206). -/
def hdecWritten (s : State) : State :=
  setFlag .rleValid { writeRle 0 (decodePayload s).1 (beginCommand s) with
    rleLen := BitVec.ofNat 32 (decodePayload s).1.length }

/-- The diagnostic of the end of the decoding, if it has one (R206). -/
def hdecDiag (s : State) : Option Diag :=
  match (decodePayload s).2 with
  | .badCode => some .huffBadcode
  | .stopped => if (decodePayload s).1.length < s.rleExp.toInt then some .huffShort else none

/-- A diagnostic, if there is one. -/
def report (d : Option Diag) (s : State) : State := d.elim s (diag · s)

/-- The state `HDEC` leaves when its flags are set and its parameter check passes. -/
def afterHdec (s : State) : State := report (hdecDiag s) (hdecWritten s)

theorem exec_hdec_of_valid {s : State} (htree : getFlag .treeValid s = true)
    (hbits : getFlag .bitsValid s = true) (hexp : s.rleExp.toInt ≤ 1610612736) :
    exec .hdec s = .next (afterHdec s) := by
  have hbody : cmdHdec (beginCommand s) = afterHdec s := by
    refine (requireFlags_of_all (s := beginCommand s)
      (List.forall_mem_cons.2 ⟨htree, List.forall_mem_singleton.2 hbits⟩) _).trans
      ((requireParam_of_ok (s := beginCommand s) ((hdecParamOk_iff s).2 hexp) _).trans ?_)
    have hsame : decodePayload (beginCommand s) = decodePayload s := rfl
    dsimp only
    rw [afterHdec, hdecDiag, hsame]
    cases (decodePayload s).2 with
    | badCode => rfl
    | stopped => rw [apply_ite (report · (hdecWritten s))]; rfl
  rw [exec_hdec, hbody]

/-- The state `CFEMBED` leaves when its checks pass and there are slots enough. -/
def afterCfembed (s : State) : State :=
  setFlag .embedded (writeQbEach (embeddedSlots s (msgBits (message s))) (beginCommand s))

/-- The state `CFEMBED` leaves when it runs out of slots (R257). -/
def failedCfembed (s : State) : State :=
  capacityFailure { writeQbEach (disturbedSlots s) (beginCommand s) with draws := s.draws + 1 }

/-- With its flag set and a legal length `CFEMBED` runs out of slots or writes the bits (R257). -/
theorem exec_cfembed_of_valid {s : State} (h : getFlag .qValid s = true)
    (hlen : 0 ≤ s.msgLen.toInt ∧ s.msgLen.toInt ≤ s.cap.msgCap) :
    exec .cfembed s = .next (
      if (coefSlots s).length < 8 * (regLen s.msgLen + 1) then failedCfembed s
      else afterCfembed s) := by
  rw [← length_msgBits_message]
  exact congrArg Host.Outcome.next (requireMessage_of_ok h hlen _)

/-! ### The ways a command ends -/

/-- The macros, made of other commands (`49_orchestrator.md` R275). -/
def macroCommands : List Instr := [.runenc, .runencm, .rundec, .rundecm]

/-- How a command that is no macro ends: with a diagnostic and nothing else changed, or as its rule
says, under the conditions that its checks have established. -/
inductive Ends (s : State) : Instr → State → Prop
  | reported (i : Instr) (d : Diag) (hd : d ≠ .illegal) : Ends s i (diag d s)
  | reset : Ends s .reset (cmdReset s)
  | ldrgb (h : 0 ≤ s.imgW.toInt ∧ s.imgW.toInt ≤ 16384 ∧ 0 ≤ s.imgH.toInt ∧ s.imgH.toInt ≤ 16384) :
    Ends s .ldrgb (afterLdrgb s)
  | ldcont : Ends s .ldcont (afterLdcont s)
  | rgb2ycc : Ends s .rgb2ycc (afterRgb2ycc s)
  | ycc2rgb : Ends s .ycc2rgb (afterYcc2rgb s)
  | fdct : Ends s .fdct (afterFdct s)
  | idct : Ends s .idct (afterIdct s)
  | quant : Ends s .quant (afterQuant s)
  | dequant : Ends s .dequant (afterDequant s)
  | zigzag : Ends s .zigzag (afterZigzag s)
  | dezigzag : Ends s .dezigzag (afterDezigzag s)
  | rleenc : Ends s .rleenc (afterRleenc s)
  | rledecFailed (d : Diag) (hd : d ≠ .illegal) : Ends s .rledec (diag d { s with zzLen := 0#32 })
  | rledec (h : (expandPairs (rleSeq s)).length ≤ Config.zzCap) : Ends s .rledec (afterRledec s)
  | hfreq (h : (distinctSymbols (rleSeq s)).length ≤ s.cap.freqCap) : Ends s .hfreq (afterHfreq s)
  | htree (h : 1 ≤ regLen s.freqN) : Ends s .htree (afterHtree s)
  | hcodes : Ends s .hcodes (afterHcodes s)
  | henc (bits : List Bool) (h : bytesFor bits.length ≤ s.cap.payCap) :
    Ends s .henc (afterHenc s bits)
  | hdec (h : s.rleExp.toInt ≤ 1610612736) : Ends s .hdec (afterHdec s)
  | ser (h : 24 + 8 * regLen s.freqN + regLen s.encBytes ≤ s.cap.contCap) : Ends s .ser (afterSer s)
  | deser (h : containerOk s = true) : Ends s .deser (afterDeser s)
  | pxembedFailed : Ends s .pxembed (capacityFailure s)
  | pxembed (h : getFlag .rgbLoaded s = true)
    (hlen : 0 ≤ s.msgLen.toInt ∧ s.msgLen.toInt ≤ s.cap.msgCap)
    (hfits : 8 * (regLen s.msgLen + 1) ≤ 3 * width s * height s) : Ends s .pxembed (afterPxembed s)
  | pxextract (r : List Byte × ExtractEnd) : Ends s .pxextract (afterExtract r s)
  | cfembedFailed : Ends s .cfembed (failedCfembed s)
  | cfembed (h : getFlag .qValid s = true)
    (hlen : 0 ≤ s.msgLen.toInt ∧ s.msgLen.toInt ≤ s.cap.msgCap)
    (hfits : 8 * (regLen s.msgLen + 1) ≤ (coefSlots s).length) : Ends s .cfembed (afterCfembed s)
  | cfextract (r : List Byte × ExtractEnd) : Ends s .cfextract (afterExtract r s)

/-- A command with all its flags that is no macro ends in one of these ways. -/
theorem ends_of_flags {i : Instr} {s : State} (hi : i ∉ macroCommands)
    (hflags : ∀ f ∈ requiredFlags i, getFlag f s = true) :
    ∃ t, exec i s = .next t ∧ Ends s i t := by
  have hparam (i : Instr) : Ends s i (diagnosed 3 s) := .reported i .param (by decide)
  have hfirst {f : Flag} {fs : List Flag} (h : ∀ g ∈ f :: fs, getFlag g s = true) :
      getFlag f s = true := h f List.mem_cons_self
  cases i
  case runenc | runencm | rundec | rundecm => exact absurd (by decide) hi
  case reset => exact ⟨_, rfl, .reset⟩
  case ldrgb =>
    by_cases h : 0 ≤ s.imgW.toInt ∧ s.imgW.toInt ≤ 16384 ∧ 0 ≤ s.imgH.toInt ∧ s.imgH.toInt ≤ 16384
    · exact ⟨_, exec_ldrgb_of_legal h, .ldrgb h⟩
    · exact ⟨_, exec_ldrgb_of_illegal h, hparam _⟩
  case ldcont =>
    by_cases h : 0 ≤ s.contLen.toInt ∧ s.contLen.toInt ≤ s.cap.contCap
    · exact ⟨_, exec_ldcont_of_legal h, .ldcont⟩
    · exact ⟨_, exec_ldcont_of_illegal h, hparam _⟩
  case rgb2ycc => exact ⟨_, exec_rgb2ycc_of_loaded (hfirst hflags), .rgb2ycc⟩
  case ycc2rgb => exact ⟨_, exec_ycc2rgb_of_valid (hfirst hflags), .ycc2rgb⟩
  case fdct => exact ⟨_, exec_fdct_of_valid (hfirst hflags), .fdct⟩
  case idct => exact ⟨_, exec_idct_of_valid (hfirst hflags), .idct⟩
  case quant =>
    by_cases h : 1 ≤ s.quality.toInt ∧ s.quality.toInt ≤ 100
    · exact ⟨_, exec_quant_of_valid (hfirst hflags) h, .quant⟩
    · exact ⟨_, exec_quant_of_bad_quality (hfirst hflags) h, hparam _⟩
  case dequant =>
    by_cases h : 1 ≤ s.quality.toInt ∧ s.quality.toInt ≤ 100
    · exact ⟨_, exec_dequant_of_valid (hfirst hflags) h, .dequant⟩
    · exact ⟨_, exec_dequant_of_bad_quality (hfirst hflags) h, hparam _⟩
  case zigzag => exact ⟨_, exec_zigzag_of_valid (hfirst hflags), .zigzag⟩
  case dezigzag => exact ⟨_, exec_dezigzag_of_valid (hfirst hflags), .dezigzag⟩
  case rleenc => exact ⟨_, exec_rleenc_of_valid (hfirst hflags), .rleenc⟩
  case rledec =>
    refine ⟨_, exec_rledec_of_valid (hfirst hflags), ?_⟩
    split
    · exact .rledecFailed .rleMalformed (by decide)
    · split
      · exact .rledecFailed .overflow (by decide)
      next hfits => exact .rledec (not_lt.1 hfits)
  case hfreq =>
    refine ⟨_, exec_hfreq_of_valid (hfirst hflags), ?_⟩
    split
    · exact .reported _ .overflow (by decide)
    next hfits => exact .hfreq (not_lt.1 hfits)
  case htree =>
    refine ⟨_, exec_htree_of_valid (hfirst hflags), ?_⟩
    split
    · exact .reported _ .emptyFreq (by decide)
    next hentries => exact .htree (Nat.one_le_iff_ne_zero.2 hentries)
  case hcodes => exact ⟨_, exec_hcodes_of_valid (hfirst hflags), .hcodes⟩
  case henc =>
    obtain ⟨hrle, hcodes⟩ := List.forall_mem_cons.1 hflags
    refine ⟨_, exec_henc_of_valid hrle (hfirst hcodes), ?_⟩
    cases codeSequence s (rleSeq s) with
    | none => exact .reported _ .noSymbol (by decide)
    | some bits =>
      rw [hencOutcome]
      split
      · exact .reported _ .overflow (by decide)
      next hfits => exact .henc bits (not_lt.1 hfits)
  case hdec =>
    obtain ⟨htree, hbits⟩ := List.forall_mem_cons.1 hflags
    by_cases hexp : s.rleExp.toInt ≤ 1610612736
    · exact ⟨_, exec_hdec_of_valid htree (hfirst hbits) hexp, .hdec hexp⟩
    · exact ⟨_, (exec_hdec_of_flags htree (hfirst hbits)).trans (if_neg hexp ▸ rfl), hparam _⟩
  case ser =>
    obtain ⟨hfreq, hrest⟩ := List.forall_mem_cons.1 hflags
    obtain ⟨hrle, hbits⟩ := List.forall_mem_cons.1 hrest
    refine ⟨_, exec_ser_of_valid hfreq hrle (hfirst hbits), ?_⟩
    split
    · exact .reported _ .overflow (by decide)
    next hfits => exact .ser (not_lt.1 hfits)
  case deser =>
    refine ⟨_, exec_deser_of_valid (hfirst hflags), ?_⟩
    split
    next hok => exact .deser hok
    · exact .reported _ .container (by decide)
  case pxembed =>
    by_cases hlen : 0 ≤ s.msgLen.toInt ∧ s.msgLen.toInt ≤ s.cap.msgCap
    · refine ⟨_, exec_pxembed_of_valid (hfirst hflags) hlen, ?_⟩
      split
      · exact .pxembedFailed
      next hfits => exact .pxembed (hfirst hflags) hlen (not_lt.1 hfits)
    · exact ⟨_, exec_pxembed_of_bad_length (hfirst hflags) hlen, hparam _⟩
  case pxextract => exact ⟨_, exec_pxextract_of_loaded (hfirst hflags), .pxextract _⟩
  case cfembed =>
    by_cases hlen : 0 ≤ s.msgLen.toInt ∧ s.msgLen.toInt ≤ s.cap.msgCap
    · refine ⟨_, exec_cfembed_of_valid (hfirst hflags) hlen, ?_⟩
      split
      · exact .cfembedFailed
      next hfits => exact .cfembed (hfirst hflags) hlen (not_lt.1 hfits)
    · exact ⟨_, exec_cfembed_of_bad_length (hfirst hflags) hlen, hparam _⟩
  case cfextract => exact ⟨_, exec_cfextract_of_valid (hfirst hflags), .cfextract _⟩

/-- Every command that is no macro ends in one of these ways, in every state. -/
theorem exists_ends {i : Instr} (hi : i ∉ macroCommands) (s : State) :
    ∃ t, exec i s = .next t ∧ Ends s i t := by
  by_cases hflags : ∀ f ∈ requiredFlags i, getFlag f s = true
  · exact ends_of_flags hi hflags
  · push Not at hflags
    obtain ⟨f, hf, hmissing⟩ := hflags
    exact ⟨_, exec_of_missing hf (Bool.not_eq_true _ ▸ hmissing), .reported i .precond (by decide)⟩

/-- The inversion of `exec` for the commands that are no macros. -/
theorem ends_of_exec {i : Instr} {s t : State} (hi : i ∉ macroCommands) (h : exec i s = .next t) :
    Ends s i t := by
  obtain ⟨t', hexec, hends⟩ := exists_ends hi s
  obtain rfl : t' = t := Host.Outcome.next.inj (hexec.symm.trans h)
  exact hends

end Sys2Proof.Machine
end

section
/-! PROOFS. The macros (`49_orchestrator.md` R275 to R281). A macro is its constituents issued one by one
(`exec_eq_issue`), with the success check before `SER` where it encodes (`exec_eq_issue_then_ser`). So a
relation between the state before and after that holds of every constituent and composes holds of every
command (`exec_induction`). -/

namespace Sys2Proof.Machine

/-! ### Commands as functions of the state -/

/-- The rule of a command, after `LASTDIAG` is cleared (R81). -/
def rule : Instr → State → State
  | .reset => cmdReset | .ldrgb => cmdLdrgb | .ldcont => cmdLdcont
  | .rgb2ycc => cmdRgb2ycc | .ycc2rgb => cmdYcc2rgb | .fdct => cmdFdct | .idct => cmdIdct
  | .quant => cmdQuant | .dequant => cmdDequant | .zigzag => cmdZigzag | .dezigzag => cmdDezigzag
  | .rleenc => cmdRleenc | .rledec => cmdRledec | .hfreq => cmdHfreq | .htree => cmdHtree
  | .hcodes => cmdHcodes | .henc => cmdHenc | .hdec => cmdHdec | .ser => cmdSer | .deser => cmdDeser
  | .pxembed => cmdPxembed | .pxextract => cmdPxextract
  | .cfembed => cmdCfembed | .cfextract => cmdCfextract
  | .runenc => cmdRunenc | .runencm => cmdRunencm | .rundec => cmdRundec | .rundecm => cmdRundecm

theorem exec_eq_rule (i : Instr) (s : State) : exec i s = .next (rule i (beginCommand s)) := by
  cases i <;> rfl

/-- A command does not depend on the `LASTDIAG` before it. -/
theorem exec_beginCommand (i : Instr) (s : State) : exec i (beginCommand s) = exec i s := by
  rw [exec_eq_rule, exec_eq_rule]; rfl

/-- In a state without a diagnostic a command is its rule. -/
theorem exec_of_clean (i : Instr) {s : State} (h : s.lastdiag = 0#32) :
    exec i s = .next (rule i s) := by
  rw [exec_eq_rule, beginCommand_of_clean h]

/-! ### Commands issued one by one -/

/-- What `issue` does first: it ends at a diagnostic, or goes on. -/
theorem issue_cons (i : Instr) (rest : List Instr) (s : State) : issue (i :: rest) s =
    if (rule i (beginCommand s)).lastdiag = 0#32 then issue rest (rule i (beginCommand s))
    else .next (rule i (beginCommand s)) := by
  rw [issue, exec_eq_rule]

theorem issue_beginCommand (i : Instr) (rest : List Instr) (s : State) :
    issue (i :: rest) (beginCommand s) = issue (i :: rest) s := by
  rw [issue, issue, exec_beginCommand]

/-- Commands issued one by one end in some state, and a macro that starts with their rules goes on from
there when no diagnostic is recorded. -/
theorem exists_issue (is : List Instr) {s : State} (hs : s.lastdiag = 0#32) :
    ∃ t, issue is s = .next t ∧ ∀ rest, runConstituents (is.map rule ++ rest) s
      = if t.lastdiag = 0#32 then runConstituents rest t else t := by
  induction is generalizing s with
  | nil => exact ⟨s, rfl, fun rest => (if_pos hs).symm⟩
  | cons i is ih =>
    have hrule : exec i s = .next (rule i s) := exec_of_clean i hs
    by_cases hdiag : (rule i s).lastdiag = 0#32
    · obtain ⟨t, hissue, hrest⟩ := ih hdiag
      refine ⟨t, (issue_of_clean hrule hdiag is).trans hissue, fun rest => ?_⟩
      rw [List.map_cons, List.cons_append, runConstituents_of_clean hdiag, hrest]
    · refine ⟨_, issue_of_diag hrule hdiag is, fun rest => ?_⟩
      rw [List.map_cons, List.cons_append, runConstituents_of_diag hdiag, if_neg hdiag]

/-- A macro whose rules start with those of some commands runs these commands first. -/
theorem exec_macro {m i : Instr} {is : List Instr} {rest : List (State → State)}
    (hm : rule m = runConstituents ((i :: is).map rule ++ rest)) (s : State) :
    ∃ t, issue (i :: is) s = .next t
      ∧ exec m s = .next (if t.lastdiag = 0#32 then runConstituents rest t else t) := by
  obtain ⟨t, hissue, hrest⟩ := exists_issue (i :: is) (s := beginCommand s) rfl
  exact ⟨t, issue_beginCommand i is s ▸ hissue, by rw [exec_eq_rule, hm, hrest]⟩

/-- A macro without a success check is its constituents issued one by one (R279, R280). -/
theorem exec_eq_issue {m i : Instr} {is : List Instr}
    (hm : rule m = runConstituents ((i :: is).map rule)) (s : State) :
    exec m s = issue (i :: is) s := by
  obtain ⟨t, hissue, hexec⟩ := exec_macro (rest := []) (hm.trans (by rw [List.append_nil])) s
  rw [hexec, hissue, runConstituents_nil, ite_self]

theorem exec_rundec_eq_issue (s : State) : exec .rundec s = issue decodeStages s :=
  exec_eq_issue (m := .rundec) (i := .deser)
    (is := [.htree, .hdec, .rledec, .dezigzag, .dequant, .idct, .ycc2rgb]) rfl s

theorem exec_rundecm_eq_issue (s : State) : exec .rundecm s = issue decodeMessageStages s :=
  exec_eq_issue (m := .rundecm) (i := .deser) (is := [.htree, .hdec, .rledec, .dezigzag, .cfextract])
    rfl s

/-- The success check, and `SER` when it passes (R276). -/
theorem runConstituents_successCheck {t : State} (ht : t.lastdiag = 0#32) :
    Host.Outcome.next (runConstituents [successCheck, cmdSer] t)
      = if getFlag .success t = true then exec .ser t else .next (diag .capacity t) := by
  split
  next hsuccess =>
    have hcheck : successCheck t = t := if_pos hsuccess
    rw [runConstituents_of_clean (hcheck.symm ▸ ht), hcheck, exec_of_clean .ser ht]
    exact congrArg Host.Outcome.next (ite_self _)
  next hcleared =>
    have hcheck : successCheck t = diag .capacity t := if_neg hcleared
    rw [runConstituents_of_diag (hcheck.symm ▸ diag_lastdiag_ne_zero _ _), hcheck]

/-- A macro that encodes is its stages issued one by one, the success check and `SER` (R277, R278). -/
theorem exec_eq_issue_then_ser {m i : Instr} {is : List Instr}
    (hm : rule m = runConstituents ((i :: is).map rule ++ [successCheck, cmdSer])) (s : State) :
    ∃ t, issue (i :: is) s = .next t ∧ exec m s =
      if t.lastdiag ≠ 0#32 then .next t
      else if getFlag .success t = true then exec .ser t else .next (diag .capacity t) := by
  obtain ⟨t, hissue, hexec⟩ := exec_macro hm s
  refine ⟨t, hissue, hexec.trans ?_⟩
  by_cases ht : t.lastdiag = 0#32
  · rw [if_pos ht, if_neg (not_not.2 ht), runConstituents_successCheck ht]
  · rw [if_neg ht, if_pos ht]

/-! ### What holds of every command -/

/-- The commands that a command is made of: a macro's constituents, any other command itself. -/
def constituents : Instr → List Instr
  | .runenc => encodeStages ++ [.ser]
  | .runencm => encodeMessageStages ++ [.ser]
  | .rundec => decodeStages
  | .rundecm => decodeMessageStages
  | i => [i]

theorem not_mem_macroCommands_of_mem_constituents :
    ∀ {i j : Instr}, j ∈ constituents i → j ∉ macroCommands := by
  have htable : ∀ i ∈ Instr.table, ∀ j ∈ constituents i, j ∉ macroCommands := by decide
  exact fun {i j} hj => htable i i.mem_table j hj

section
variable {R : State → State → Prop} (htrans : ∀ s u t, R s u → u.lastdiag = 0#32 → R u t → R s t)
include htrans

/-- A relation that holds of each command and composes over states without a diagnostic holds of the
commands issued one by one. -/
theorem issue_induction {is : List Instr} (hne : is ≠ [])
    (hexec : ∀ i ∈ is, ∀ s t, exec i s = .next t → R s t) {s t : State}
    (h : issue is s = .next t) : R s t := by
  induction is generalizing s with
  | nil => exact absurd rfl hne
  | cons i is ih =>
    obtain ⟨hi, his⟩ := List.forall_mem_cons.1 hexec
    have hfirst := hi s _ (exec_eq_rule i s)
    rw [issue_cons] at h
    split at h
    next hclean =>
      cases is with
      | nil => exact Host.Outcome.next.inj h ▸ hfirst
      | cons j is => exact htrans _ _ _ hfirst hclean (ih (List.cons_ne_nil j is) his h)
    next => exact Host.Outcome.next.inj h ▸ hfirst

/-- A relation that holds of the commands that are no macros, and of the success check of the macros,
and composes over states without a diagnostic, holds of every command. -/
theorem exec_induction {i : Instr} (hends : ∀ j ∈ constituents i, ∀ s t, Ends s j t → R s t)
    (hcheck : ∀ s, s.lastdiag = 0#32 → R s (diag .capacity s)) {s t : State}
    (h : exec i s = .next t) : R s t := by
  have hsingle : ∀ j ∈ constituents i, ∀ s t, exec j s = .next t → R s t := fun j hj s t hexec =>
    hends j hj s t (ends_of_exec (not_mem_macroCommands_of_mem_constituents hj) hexec)
  have hstages {j : Instr} {is : List Instr} (hi : constituents i = (j :: is) ++ [.ser])
      (hm : rule i = runConstituents ((j :: is).map rule ++ [successCheck, cmdSer])) : R s t := by
    rw [hi] at hsingle
    obtain ⟨hstage, hser⟩ := List.forall_mem_append.1 hsingle
    obtain ⟨u, hissue, hexec⟩ := exec_eq_issue_then_ser hm s
    have hu : R s u := issue_induction htrans (List.cons_ne_nil j is) hstage hissue
    rw [hexec] at h
    split at h
    next => exact Host.Outcome.next.inj h ▸ hu
    next hclean =>
      have hclean := not_not.1 hclean
      split at h
      next => exact htrans _ _ _ hu hclean (hser .ser (List.mem_singleton.2 rfl) _ _ h)
      next => exact Host.Outcome.next.inj h ▸ htrans _ _ _ hu hclean (hcheck u hclean)
  cases i
  case runenc => exact hstages rfl rfl
  case runencm => exact hstages rfl rfl
  case rundec =>
    exact issue_induction htrans (List.cons_ne_nil _ _) hsingle ((exec_rundec_eq_issue s).symm.trans h)
  case rundecm =>
    exact issue_induction htrans (List.cons_ne_nil _ _) hsingle ((exec_rundecm_eq_issue s).symm.trans h)
  all_goals exact hsingle _ (List.mem_singleton.2 rfl) s t h

end

end Sys2Proof.Machine
end

section
/-! PROOFS. What a command does to the stage flags and the diagnostics (`10_state.md` R31, R32,
`60_exceptions.md` R300, R301): `ends_status` says once that it sets flags and records at most one
diagnostic, or clears `SUCCESS` and records `E_CAPACITY`. Everything here follows from that. -/

namespace Sys2Proof.Machine

/-! ### Flags and diagnostics after a command -/

/-- `LASTDIAG` and `DIAGACC` of `t` are those of a command that started in `s` and recorded `d`. -/
def Records (d : Option Diag) (s t : State) : Prop :=
  t.lastdiag = (report d (beginCommand s)).lastdiag ∧ t.diagacc = (report d s).diagacc

/-- `FLAG(SUCCESS) <- 0` with `E_CAPACITY` (R242, R257). -/
def FailsCapacity (s t : State) : Prop :=
  t.stage = s.stage &&& ~~~Flag.success.mask ∧ Records (some .capacity) s t

/-- The flags that a command sets (R31); a macro leaves that to its constituents. -/
def flagsSet : Instr → List Flag
  | .ldrgb | .ycc2rgb => [.rgbLoaded]
  | .rgb2ycc | .idct => [.yccValid]
  | .fdct | .dequant => [.dctValid]
  | .quant | .dezigzag => [.qValid]
  | .pxembed | .cfembed => [.embedded]
  | .zigzag | .rledec => [.zzValid]
  | .rleenc | .hdec => [.rleValid]
  | .hfreq => [.freqValid]
  | .htree => [.treeValid]
  | .hcodes => [.codesValid]
  | .henc => [.bitsValid]
  | .ldcont | .ser => [.contValid]
  | .deser => [.freqValid, .bitsValid]
  | .pxextract | .cfextract => [.msgValid]
  | .reset | .runenc | .runencm | .rundec | .rundecm => []

theorem success_not_mem_flagsSet (i : Instr) : Flag.success ∉ flagsSet i := by
  cases i <;> decide

/-- Some of the flags `allowed` are set, and at most one diagnostic is recorded, which is not
`E_ILLEGAL`. -/
def SetsFlags (allowed : List Flag) (s t : State) : Prop :=
  ∃ fs d, fs ⊆ allowed ∧ d ≠ some Diag.illegal ∧ t.stage = s.stage ||| flagsMask fs
    ∧ Records d s t

/-- A command that sets one flag and records nothing. -/
theorem SetsFlags.of_flag {s t : State} (f : Flag) (hstage : t.stage = s.stage ||| f.mask)
    (hrecords : Records none s t) : SetsFlags [f] s t :=
  ⟨[f], none, List.Subset.refl _, by simp, by simpa [flagsMask] using hstage, hrecords⟩

/-- A command that records a diagnostic and sets no flag. -/
theorem SetsFlags.of_diag {allowed : List Flag} {s t : State} {d : Diag} (hd : d ≠ .illegal)
    (hstage : t.stage = s.stage) (hrecords : Records (some d) s t) : SetsFlags allowed s t :=
  ⟨[], some d, List.nil_subset _, by simpa using hd, by simpa [flagsMask] using hstage, hrecords⟩

theorem hdecDiag_ne_illegal (s : State) : hdecDiag s ≠ some .illegal := by
  unfold hdecDiag
  split
  · decide
  · split <;> decide

/-- `HDEC` reports the end of the decoding on what it has written. -/
theorem afterHdec_frame (s : State) : afterHdec s = { hdecWritten s with
    lastdiag := (report (hdecDiag s) (beginCommand s)).lastdiag
    diagacc := (report (hdecDiag s) s).diagacc } := by
  rw [afterHdec]
  cases hdecDiag s <;> rfl

theorem setsFlags_afterHdec (s : State) : SetsFlags [.rleValid] s (afterHdec s) := by
  rw [afterHdec_frame]
  exact ⟨_, _, List.Subset.refl _, hdecDiag_ne_illegal s, rfl, rfl, rfl⟩

theorem setsFlags_afterExtract (r : List Byte × ExtractEnd) (s : State) :
    SetsFlags [.msgValid] s (afterExtract r s) := by
  obtain ⟨bytes, e⟩ := r
  cases e with
  | terminated => exact ⟨_, none, List.Subset.refl _, by decide, rfl, rfl, rfl⟩
  | overflowed => exact ⟨_, some .overflow, List.Subset.refl _, by decide, rfl, rfl, rfl⟩
  | exhausted => exact ⟨_, some .noTerminator, List.Subset.refl _, by decide, rfl, rfl, rfl⟩

/-- The flags and the diagnostics after a command that is no macro. -/
theorem ends_status {s t : State} {i : Instr} (hi : i ≠ .reset) (h : Ends s i t) :
    SetsFlags (flagsSet i) s t ∨ (i ∈ [Instr.pxembed, .cfembed] ∧ FailsCapacity s t) := by
  cases h
  case reset => exact absurd rfl hi
  case pxembedFailed | cfembedFailed => exact .inr ⟨by decide, rfl, rfl, rfl⟩
  case reported d hd => exact .inl (.of_diag hd rfl ⟨rfl, rfl⟩)
  case rledecFailed d hd => exact .inl (.of_diag hd rfl ⟨rfl, rfl⟩)
  case hdec => exact .inl (setsFlags_afterHdec s)
  case pxextract r | cfextract r => exact .inl (setsFlags_afterExtract r s)
  case deser =>
    rw [afterDeser_frame]
    exact .inl ⟨_, none, List.Subset.refl _, by decide, rfl, rfl, rfl⟩
  case ldrgb | ycc2rgb => exact .inl (.of_flag .rgbLoaded rfl ⟨rfl, rfl⟩)
  case ldcont | ser => exact .inl (.of_flag .contValid rfl ⟨rfl, rfl⟩)
  case rgb2ycc => exact .inl (.of_flag .yccValid rfl ⟨rfl, rfl⟩)
  case idct =>
    rw [afterIdct_frame]
    exact .inl (.of_flag .yccValid rfl ⟨rfl, rfl⟩)
  case fdct | dequant => exact .inl (.of_flag .dctValid rfl ⟨rfl, rfl⟩)
  case quant | dezigzag => exact .inl (.of_flag .qValid rfl ⟨rfl, rfl⟩)
  case zigzag | rledec => exact .inl (.of_flag .zzValid rfl ⟨rfl, rfl⟩)
  case rleenc => exact .inl (.of_flag .rleValid rfl ⟨rfl, rfl⟩)
  case hfreq => exact .inl (.of_flag .freqValid rfl ⟨rfl, rfl⟩)
  case htree => exact .inl (.of_flag .treeValid rfl ⟨rfl, rfl⟩)
  case hcodes => exact .inl (.of_flag .codesValid rfl ⟨rfl, rfl⟩)
  case henc => exact .inl (.of_flag .bitsValid rfl ⟨rfl, rfl⟩)
  case pxembed | cfembed => exact .inl (.of_flag .embedded rfl ⟨rfl, rfl⟩)

/-- The success check of a macro sets no flag. -/
theorem setsFlags_diag_capacity (s : State) : SetsFlags [] s (diag .capacity s) :=
  .of_diag (by decide) rfl ⟨rfl, rfl⟩

theorem ne_reset_of_mem_constituents :
    ∀ {i j : Instr}, i ≠ .reset → j ∈ constituents i → j ≠ .reset := by
  have htable : ∀ i ∈ Instr.table, i ≠ .reset → ∀ j ∈ constituents i, j ≠ .reset := by decide
  exact fun {i j} hi hj => htable i i.mem_table hi j hj

/-! ### Stage flags (R31, R32) -/

theorem getLsbD_flagsMask (fs : List Flag) (k : Nat) :
    (flagsMask fs).getLsbD k = fs.any fun f => decide (k = f.bit) := by
  induction fs with
  | nil => exact BitVec.getLsbD_zero
  | cons f fs ih =>
    rw [flagsMask, List.foldr_cons, ← flagsMask, BitVec.getLsbD_or, getLsbD_mask, ih, List.any_cons]

/-- Setting flags other than `SUCCESS` leaves the bits 31:13 alone. -/
theorem getLsbD_flagsMask_of_ge {fs : List Flag} (hfs : Flag.success ∉ fs) {k : Nat} (hk : 13 ≤ k) :
    (flagsMask fs).getLsbD k = false := by
  rw [getLsbD_flagsMask, List.any_eq_false]
  intro f hf
  have hbit : f.bit < 13 := by
    cases f
    case success => exact absurd hf hfs
    all_goals decide
  simpa using by omega

theorem getLsbD_clearSuccess (w : Word) (k : Nat) :
    (w &&& ~~~Flag.success.mask).getLsbD k = (w.getLsbD k && decide (k ≠ 13)) := by
  rw [BitVec.getLsbD_and, BitVec.getLsbD_not, getLsbD_mask]
  by_cases hk : k < 32
  · rw [decide_eq_true hk, Bool.true_and, decide_not, Flag.bit]
  · rw [BitVec.getLsbD_of_ge w k (not_lt.1 hk), Bool.false_and, Bool.false_and]

/-- No flag but `SUCCESS` is cleared, `SUCCESS` is not set, and not cleared where `kept` holds; the
reserved bits stay. -/
def FlagsKept (kept : Prop) (s t : State) : Prop :=
  (∀ k < 13, s.stage.getLsbD k = true → t.stage.getLsbD k = true)
    ∧ (t.stage.getLsbD 13 = true → s.stage.getLsbD 13 = true)
    ∧ (kept → t.stage.getLsbD 13 = s.stage.getLsbD 13)
    ∧ ∀ k, 14 ≤ k → t.stage.getLsbD k = s.stage.getLsbD k

theorem FlagsKept.trans {kept : Prop} {s u t : State} (hsu : FlagsKept kept s u)
    (hut : FlagsKept kept u t) : FlagsKept kept s t := by
  obtain ⟨hset, hsuccess, hkept, hreserved⟩ := hsu
  obtain ⟨hset', hsuccess', hkept', hreserved'⟩ := hut
  exact ⟨fun k hk hs => hset' k hk (hset k hk hs), fun ht => hsuccess (hsuccess' ht),
    fun h => (hkept' h).trans (hkept h), fun k hk => (hreserved' k hk).trans (hreserved k hk)⟩

theorem SetsFlags.flagsKept {allowed : List Flag} {s t : State} (h : SetsFlags allowed s t)
    (hallowed : Flag.success ∉ allowed) (kept : Prop) : FlagsKept kept s t := by
  obtain ⟨fs, d, hfs, -, hstage, -⟩ := h
  replace hfs : Flag.success ∉ fs := fun hmem => hallowed (hfs hmem)
  have hhigh : ∀ k, 13 ≤ k → t.stage.getLsbD k = s.stage.getLsbD k := fun k hk => by
    rw [hstage, BitVec.getLsbD_or, getLsbD_flagsMask_of_ge hfs hk, Bool.or_false]
  refine ⟨fun k _ hs => ?_, fun ht => hhigh 13 le_rfl ▸ ht, fun _ => hhigh 13 le_rfl,
    fun k hk => hhigh k (Nat.le_of_succ_le hk)⟩
  rw [hstage, BitVec.getLsbD_or, hs, Bool.true_or]

theorem FailsCapacity.flagsKept {s t : State} (h : FailsCapacity s t) {kept : Prop} (hkept : ¬kept) :
    FlagsKept kept s t := by
  obtain ⟨hstage, -⟩ := h
  have hbit : ∀ k, t.stage.getLsbD k = (s.stage.getLsbD k && decide (k ≠ 13)) := fun k =>
    hstage ▸ getLsbD_clearSuccess _ k
  refine ⟨fun k hk hs => ?_, fun ht => ?_, fun h => absurd h hkept, fun k hk => ?_⟩
  · rw [hbit, hs, decide_eq_true hk.ne, Bool.and_true]
  · rw [hbit, decide_eq_false (not_not.2 rfl), Bool.and_false] at ht
    exact absurd ht Bool.false_ne_true
  · rw [hbit, decide_eq_true (by omega), Bool.and_true]

theorem mem_embedders_of_constituents : ∀ {i j : Instr}, j ∈ constituents i →
    j ∈ [Instr.pxembed, .cfembed] → i ∈ [Instr.pxembed, .cfembed, .runencm] := by
  have htable : ∀ i ∈ Instr.table, ∀ j ∈ constituents i, j ∈ [Instr.pxembed, .cfembed] →
      i ∈ [Instr.pxembed, .cfembed, .runencm] := by decide
  exact fun {i j} hj => htable i i.mem_table j hj

/-- Settles O10: flags are only added, except where an embedder fails. -/
theorem flagsAdvance : Obligations.FlagsAdvance := by
  intro i s t hi h
  refine exec_induction (R := FlagsKept (i ∉ [Instr.pxembed, .cfembed, .runencm]))
    (fun s u t hsu _ hut => hsu.trans hut) (fun j hj s t hends => ?_)
    (fun s _ => (setsFlags_diag_capacity s).flagsKept List.not_mem_nil _) h
  obtain hsets | ⟨hembedder, hfails⟩ := ends_status (ne_reset_of_mem_constituents hi hj) hends
  · exact hsets.flagsKept (success_not_mem_flagsSet j) _
  · exact hfails.flagsKept (not_not.2 (mem_embedders_of_constituents hj hembedder))

/-! ### Diagnostics (R300, R301) -/

/-- One code is recorded, which is not `E_ILLEGAL`; a code other than 0 sets its bit of `DIAGACC`. -/
def RecordsCode (s t : State) : Prop :=
  ∃ k ≤ 12, k ≠ 1 ∧ t.lastdiag = BitVec.ofNat 32 k
    ∧ t.diagacc = if k = 0 then s.diagacc else s.diagacc ||| (1#32 <<< k)

theorem Diag.code_eq_one_iff (d : Diag) : d.code = 1 ↔ d = .illegal := by
  cases d <;> simp [Diag.code]

theorem Records.code {d : Option Diag} {s t : State} (hd : d ≠ some .illegal) (h : Records d s t) :
    RecordsCode s t := by
  obtain ⟨hlast, hacc⟩ := h
  cases d with
  | none => exact ⟨0, by decide, by decide, hlast, hacc⟩
  | some d =>
    obtain ⟨hpos, hle⟩ := d.code_range
    refine ⟨d.code, hle, fun hone => hd (congrArg some (d.code_eq_one_iff.1 hone)), hlast, ?_⟩
    rw [if_neg (Nat.one_le_iff_ne_zero.1 hpos), hacc]
    rfl

theorem recordsCode_of_ends {s t : State} {i : Instr} (hi : i ≠ .reset) (h : Ends s i t) :
    RecordsCode s t := by
  obtain ⟨-, d, -, hd, -, hrecords⟩ | ⟨-, -, hrecords⟩ := ends_status hi h
  · exact hrecords.code hd
  · exact hrecords.code (by decide)

/-- A state without a diagnostic has the `DIAGACC` of the state before. -/
theorem RecordsCode.diagacc_of_clean {s t : State} (h : RecordsCode s t) (ht : t.lastdiag = 0#32) :
    t.diagacc = s.diagacc := by
  obtain ⟨k, hle, -, hlast, hacc⟩ := h
  have hk : k = 0 := by
    have hnat := congrArg BitVec.toNat (hlast.symm.trans ht)
    rw [BitVec.toNat_ofNat, BitVec.toNat_ofNat] at hnat
    omega
  rw [hacc, if_pos hk]

/-- Settles O11: only the last command of a sequence that stops at a diagnostic records one. -/
theorem diagnosticsAccumulate : Obligations.DiagnosticsAccumulate := by
  intro i s t hi h
  refine exec_induction (R := RecordsCode) (fun s u t hsu hclean hut => ?_)
    (fun j hj s t hends => recordsCode_of_ends (ne_reset_of_mem_constituents hi hj) hends)
    (fun s _ => Records.code (d := some .capacity) (by decide) ⟨rfl, rfl⟩) h
  rwa [RecordsCode, ← hsu.diagacc_of_clean hclean]

/-! ### A cleared `SUCCESS` is recorded (R32, R313) -/

theorem successRecorded_of_setsFlags {allowed : List Flag} {s t : State}
    (h : SetsFlags allowed s t) (hs : SuccessRecorded s) : SuccessRecorded t := by
  obtain ⟨fs, d, -, -, hstage, -, hacc⟩ := h
  have hkept : ∀ k, s.diagacc.getLsbD k = true → t.diagacc.getLsbD k = true := fun k hk => by
    rw [hacc]
    cases d with
    | none => exact hk
    | some d => exact (BitVec.getLsbD_or ..).trans (by rw [hk, Bool.true_or])
  refine hs.imp (fun hsuccess => ?_) (hkept 4)
  rw [getFlag] at hsuccess ⊢
  rw [hstage, BitVec.getLsbD_or, hsuccess, Bool.true_or]

theorem successRecorded_of_failsCapacity {s t : State} (h : FailsCapacity s t) :
    SuccessRecorded t := by
  obtain ⟨-, -, hacc⟩ := h
  refine .inr ?_
  rw [hacc]
  exact (BitVec.getLsbD_or ..).trans (Bool.or_true _)

theorem successRecorded_of_ends {s t : State} {i : Instr} (hi : i ≠ .reset) (h : Ends s i t)
    (hs : SuccessRecorded s) : SuccessRecorded t := by
  obtain hsets | ⟨-, hfails⟩ := ends_status hi h
  · exact successRecorded_of_setsFlags hsets hs
  · exact successRecorded_of_failsCapacity hfails

theorem successRecorded_of_issue {is : List Instr} (hne : is ≠ [])
    (his : ∀ i ∈ is, i ≠ .reset ∧ i ∉ macroCommands) {s t : State} (h : issue is s = .next t)
    (hs : SuccessRecorded s) : SuccessRecorded t := by
  refine issue_induction (R := fun s t => SuccessRecorded s → SuccessRecorded t)
    (fun s u t hsu _ hut hs => hut (hsu hs)) hne (fun i hi s t hexec => ?_) h hs
  obtain ⟨hreset, hmacro⟩ := his i hi
  exact successRecorded_of_ends hreset (ends_of_exec hmacro hexec)

/-- With the failure recorded already, the success check changes `LASTDIAG` alone. -/
theorem diag_capacity_of_recorded {s : State} (h : SuccessRecorded s)
    (hcleared : getFlag .success s ≠ true) : diag .capacity s = { s with lastdiag := 4#32 } := by
  have hbit := h.resolve_left hcleared
  have hacc : s.diagacc ||| (1#32 <<< 4) = s.diagacc := by
    refine BitVec.eq_of_getLsbD_eq fun k _ => ?_
    rw [BitVec.getLsbD_or]
    by_cases hk : k = 4
    · rw [hk, hbit, Bool.true_or]
    · rw [← BitVec.twoPow_eq, BitVec.getLsbD_twoPow, decide_eq_false (Ne.symm hk), Bool.and_false,
        Bool.or_false]
  exact congrArg (fun acc => { s with lastdiag := 4#32, diagacc := acc }) hacc

/-- An encoding macro in a state whose cleared `SUCCESS` is recorded. -/
theorem exec_encode_macro {m i : Instr} {is : List Instr}
    (hm : rule m = runConstituents ((i :: is).map rule ++ [successCheck, cmdSer]))
    (his : ∀ j ∈ i :: is, j ≠ .reset ∧ j ∉ macroCommands) {s : State} (hs : SuccessRecorded s) :
    ∃ t, issue (i :: is) s = .next t ∧ exec m s =
      if t.lastdiag ≠ 0#32 then .next t
      else if getFlag .success t = true then exec .ser t
      else .next { t with lastdiag := 4#32 } := by
  obtain ⟨t, hissue, hexec⟩ := exec_eq_issue_then_ser hm s
  refine ⟨t, hissue, hexec.trans ?_⟩
  by_cases hcleared : getFlag .success t = true
  · rw [if_pos hcleared, if_pos hcleared]
  · have ht := successRecorded_of_issue (List.cons_ne_nil i is) his hissue hs
    rw [diag_capacity_of_recorded ht hcleared]

/-- Settles O53: a macro issues its constituents, and a cleared `SUCCESS` has left its mark in
`DIAGACC` before the success check. -/
theorem macrosAreTheirConstituents : Obligations.MacrosAreTheirConstituents := by
  refine fun s => ⟨⟨exec_rundec_eq_issue s, exec_rundecm_eq_issue s⟩, fun hs => ?_⟩
  exact List.forall_mem_cons.2 ⟨exec_encode_macro (m := .runenc) rfl (by decide) hs,
    List.forall_mem_singleton.2 (exec_encode_macro (m := .runencm) rfl (by decide) hs)⟩

end Sys2Proof.Machine
end

section
/-! PROOFS. Which command writes which state (`10_state.md` R21, `70_reset_and_hazards.md` R347). `Keeps`
says for each part of the state which of the commands that are no macros may write it (`Ends.keeps`).
For a macro that is what its constituents may write (`exec_keeps`). -/

namespace Sys2Proof.Machine

/-- What no command but `RESET` writes. -/
def hostParts (s : State) : Word × Word × Capacities × Nat × List HostAction × List Word :=
  (s.imgW, s.imgH, s.cap, s.epoch, s.host, s.replies)

/-- The tree of R26. -/
def treeParts (s : State) : List Node × Nat × Option Nat := (s.node, s.treeN, s.treeRoot)

/-- What a command that is no macro leaves as it was, part by part: `i` is the command. -/
structure Keeps (s : State) (i : Instr) (t : State) : Prop where
  outside : hostParts t = hostParts s
  quality : i ∉ [Instr.deser] → t.quality = s.quality ∧ t.rleExp = s.rleExp
  geometry : i ∉ [Instr.ldrgb, .deser] → t.w = s.w ∧ t.h = s.h
  message : i ∉ [Instr.pxextract, .cfextract] → t.msgLen = s.msgLen ∧ t.mem.msg = s.mem.msg
  container : i ∉ [Instr.ser] → t.contLen = s.contLen ∧ t.mem.cont = s.mem.cont
  sequence : i ∉ [Instr.zigzag, .rledec] → t.zzLen = s.zzLen ∧ t.mem.zz = s.mem.zz
  stream : i ∉ [Instr.rleenc, .hdec] → t.rleLen = s.rleLen ∧ t.mem.rle = s.mem.rle
  table : i ∉ [Instr.hfreq, .deser] → t.freqN = s.freqN ∧ t.mem.freq = s.mem.freq
  payload : i ∉ [Instr.henc, .deser] → t.encBytes = s.encBytes ∧ t.mem.pay = s.mem.pay
  rgb : i ∉ [Instr.ycc2rgb, .pxembed] → t.mem.rgb = s.mem.rgb
  ycc : i ∉ [Instr.rgb2ycc, .idct] → t.mem.ycc = s.mem.ycc
  dctb : i ∉ [Instr.fdct, .dequant] → t.mem.dctb = s.mem.dctb
  qb : i ∉ [Instr.quant, .dezigzag, .cfembed] → t.mem.qb = s.mem.qb
  tree : i ∉ [Instr.htree] → treeParts t = treeParts s
  codes : i ∉ [Instr.hcodes] → t.code = s.code

/-- A change of the flags and the diagnostics alone. -/
theorem keeps_of_status {s t : State} (i : Instr)
    (h : t = { s with stage := t.stage, lastdiag := t.lastdiag, diagacc := t.diagacc }) :
    Keeps s i t := by
  rw [h]
  constructor <;> simp [hostParts, treeParts]

/-- What each ending of a command leaves as it was. -/
theorem Ends.keeps {s t : State} {i : Instr} (hi : i ≠ .reset) (h : Ends s i t) : Keeps s i t := by
  cases h
  case reset => exact absurd rfl hi
  case reported | ldcont | pxembedFailed => exact keeps_of_status _ rfl
  case idct => rw [afterIdct_frame]; constructor <;> simp [hostParts, treeParts]
  case hdec => rw [afterHdec_frame]; constructor <;> simp [hdecWritten, hostParts, treeParts]
  case pxextract | cfextract => rw [afterExtract_frame]; constructor <;> simp [hostParts, treeParts]
  case deser => rw [afterDeser_frame]; constructor <;> simp [hostParts, treeParts]
  case ldrgb => rw [afterLdrgb_frame]; constructor <;> simp [hostParts, treeParts]
  case rgb2ycc => rw [afterRgb2ycc_frame]; constructor <;> simp [hostParts, treeParts]
  case ycc2rgb => rw [afterYcc2rgb_frame]; constructor <;> simp [hostParts, treeParts]
  case fdct => constructor <;> simp [afterFdct, hostParts, treeParts]
  case quant => rw [afterQuant_frame]; constructor <;> simp [hostParts, treeParts]
  case dequant => rw [afterDequant_frame]; constructor <;> simp [hostParts, treeParts]
  case zigzag => rw [afterZigzag_frame]; constructor <;> simp [hostParts, treeParts]
  case dezigzag => rw [afterDezigzag_frame]; constructor <;> simp [hostParts, treeParts]
  case rleenc => rw [afterRleenc_frame]; constructor <;> simp [hostParts, treeParts]
  case rledecFailed => constructor <;> simp [hostParts, treeParts]
  case rledec => rw [afterRledec_frame]; constructor <;> simp [hostParts, treeParts]
  case hfreq => rw [afterHfreq_frame]; constructor <;> simp [hostParts, treeParts]
  case htree => rw [afterHtree_frame]; constructor <;> simp [hostParts, treeParts]
  case hcodes => constructor <;> simp [afterHcodes, hostParts, treeParts]
  case henc => rw [afterHenc_frame]; constructor <;> simp [hostParts, treeParts]
  case ser => rw [afterSer_frame]; constructor <;> simp [hostParts, treeParts]
  case pxembed => rw [afterPxembed_frame]; constructor <;> simp [hostParts, treeParts]
  case cfembedFailed => constructor <;> simp [failedCfembed, capacityFailure, hostParts, treeParts]
  case cfembed => constructor <;> simp [afterCfembed, hostParts, treeParts]

/-- A part of the state that no constituent of a command writes keeps its value. `macros` lists the
commands with a constituent among the writers. -/
theorem exec_keeps {α : Type} (part : State → α) {writers macros : List Instr} {i : Instr}
    {s t : State} (hi : i ≠ .reset) (h : exec i s = .next t)
    (hends : ∀ {s j t}, Keeps s j t → j ∉ writers → part t = part s) (hmacros : i ∉ macros)
    (htable : ∀ i ∈ Instr.table, i ∈ macros ∨ ∀ j ∈ constituents i, j ∉ writers := by decide)
    (hcheck : ∀ s, part (diag .capacity s) = part s := by exact fun _ => rfl) : part t = part s := by
  have hwriters := (htable i i.mem_table).resolve_left hmacros
  exact exec_induction (R := fun s t => part t = part s) (fun _ _ _ hsu _ hut => hut.trans hsu)
    (fun j hj _ _ hend => hends (hend.keeps (ne_reset_of_mem_constituents hi hj)) (hwriters j hj))
    (fun s _ => hcheck s) h

/-- Two parts of the state that the same commands write. -/
theorem exec_keeps_pair {α β : Type} (part : State → α) (part' : State → β)
    {writers macros : List Instr} {i : Instr} {s t : State} (hi : i ≠ .reset)
    (h : exec i s = .next t)
    (hends : ∀ {s j t}, Keeps s j t → j ∉ writers → part t = part s ∧ part' t = part' s)
    (hmacros : i ∉ macros)
    (htable : ∀ i ∈ Instr.table, i ∈ macros ∨ ∀ j ∈ constituents i, j ∉ writers := by decide)
    (hcheck : ∀ s, (part (diag .capacity s), part' (diag .capacity s)) = (part s, part' s) := by
      exact fun _ => rfl) : part t = part s ∧ part' t = part' s :=
  Prod.ext_iff.1 (exec_keeps (fun s => (part s, part' s)) hi h
    (fun hk hj => Prod.ext_iff.2 (hends hk hj)) hmacros htable hcheck)

/-- Settles O12: for each part of the state the statement lists the commands with a constituent that
writes it. -/
theorem commandWriteSets : Obligations.CommandWriteSets := by
  intro i s t hi h
  have houtside := exec_keeps hostParts (writers := []) (macros := []) hi h (fun hk _ => hk.outside)
    List.not_mem_nil
  have htree := exec_keeps treeParts hi h Keeps.tree
    (macros := [.htree, .runenc, .runencm, .rundec, .rundecm])
  simp only [hostParts, treeParts, Prod.mk.injEq] at houtside htree
  exact ⟨houtside,
    exec_keeps_pair State.quality State.rleExp hi h Keeps.quality,
    exec_keeps_pair State.w State.h hi h Keeps.geometry,
    exec_keeps_pair State.msgLen (·.mem.msg) hi h Keeps.message,
    exec_keeps_pair State.contLen (·.mem.cont) hi h Keeps.container,
    exec_keeps_pair State.zzLen (·.mem.zz) hi h Keeps.sequence,
    exec_keeps_pair State.rleLen (·.mem.rle) hi h Keeps.stream,
    exec_keeps_pair State.freqN (·.mem.freq) hi h Keeps.table,
    exec_keeps_pair State.encBytes (·.mem.pay) hi h Keeps.payload,
    exec_keeps (·.mem.rgb) hi h Keeps.rgb,
    exec_keeps (·.mem.ycc) hi h Keeps.ycc,
    exec_keeps (·.mem.dctb) hi h Keeps.dctb,
    exec_keeps (·.mem.qb) hi h Keeps.qb,
    htree,
    exec_keeps State.code hi h Keeps.codes⟩

end Sys2Proof.Machine
end

section
/-! PROOFS. The host's actions (`20_memory.md` R60 to R72) and the step. A command word decodes to its
command, an access the spec gives a meaning answers a next state, and `step_induction` says what an
invariant of the step has to be kept by. -/

namespace Sys2Proof.Machine

/-! ### Command words (`30_encoding.md` R81, R82) -/

theorem decodeWord_encode (i : Instr) : decodeWord (encode i) = .ok i :=
  (decodeWord_eq_ok_iff _ i).2 rfl

/-- Settles O2: a word decodes to a command exactly when it is its encoding. -/
theorem decodeOfEncode : Obligations.DecodeOfEncode :=
  ⟨fun i _ => decodeWord_encode i, decodeWord_encode .reset, decodeWord_encode .fdct,
    decodeWord_encode .hdec, decodeWord_encode .deser, decodeWord_encode .rundecm⟩

theorem execWord_of_decodeWord {w : Word} {i : Instr} (h : decodeWord w = .ok i) (s : State) :
    execWord w s = exec i s := by
  rw [execWord, h]

theorem tableWord_encode (i : Instr) : tableWord 32 (encode i).toNat = encode i := by
  rw [tableWord, Nat.mod_eq_of_lt (encode i).isLt, BitVec.ofNat_toNat, BitVec.setWidth_eq]

/-- Settles O4: the step takes the action from the list and executes its word. -/
theorem stepRunsDecodedCommand : Obligations.StepRunsDecodedCommand := by
  refine ⟨fun s w rest i hhost hdecode _ => ?_, fun s i => ?_, fun s h => step_idle h⟩
  · rw [step_writeCmd hhost, execWord_of_decodeWord hdecode]
  · have hhost : (s.withFetchWord 32 (encode i).toNat).host = .writeReg 0 (encode i) :: s.host := by
      rw [State.withFetchWord, tableWord_encode]; rfl
    rw [step_writeCmd hhost, execWord_of_decodeWord (decodeWord_encode i)]
    rfl

/-! ### What a step can do -/

/-- Every command answers a next state. -/
theorem exists_exec (i : Instr) (s : State) : ∃ t, exec i s = .next t := ⟨_, exec_eq_rule i s⟩

/-- Executing a word runs a command or records `E_ILLEGAL`. -/
theorem execWord_cases (w : Word) (s : State) :
    (∃ i, execWord w s = exec i s) ∨ execWord w s = .next (diag .illegal s) := by
  by_cases hw : commandWordWellFormed w = true
  · rw [execWord]
    split
    next i _ => exact .inl ⟨i, rfl⟩
    next => exact .inr rfl
  · exact .inr (execWord_of_not_wellFormed hw s)

theorem exists_execWord (w : Word) (s : State) : ∃ t, execWord w s = .next t := by
  obtain ⟨i, hi⟩ | hillegal := execWord_cases w s
  · exact hi ▸ exists_exec i s
  · exact ⟨_, hillegal⟩

/-- Settles O5: a host action stops only where its offset is unaligned or its index out of the
buffer. -/
theorem nothingIsFatal : Obligations.NothingIsFatal := by
  refine ⟨exists_exec, fun s => ?_⟩
  cases hhost : s.host with
  | nil => exact .inl ⟨s, step_idle hhost⟩
  | cons a rest =>
    rw [step_action hhost]
    cases a with
    | writeReg off v =>
      rw [hostStep]
      split
      next hoff => exact .inr (.inr ⟨off, rfl, hoff, .inl ⟨v, rest, rfl⟩⟩)
      next =>
        split
        · exact .inl (exists_execWord v _)
        · exact .inl ⟨_, rfl⟩
    | readReg off =>
      rw [hostStep]
      split
      next hoff => exact .inr (.inr ⟨off, rfl, hoff, .inr ⟨rest, rfl⟩⟩)
      next => exact .inl ⟨_, rfl⟩
    | writeBuf id i v =>
      rw [hostStep]
      split
      next => exact .inl ⟨_, rfl⟩
      next hi => exact .inr (.inl ⟨id, i, rfl, not_lt.1 hi, .inl ⟨v, rest, rfl⟩⟩)
    | readBuf id i =>
      rw [hostStep]
      split
      next => exact .inl ⟨_, rfl⟩
      next hi => exact .inr (.inl ⟨id, i, rfl, not_lt.1 hi, .inr ⟨rest, rfl⟩⟩)

/-- What a step keeps: anything that taking an action from the list, a reply, a write to a register or
to a buffer, the diagnostic of an illegal word, and every command keep. -/
theorem step_induction {P : State → Prop} (haction : ∀ s rest, P s → P { s with host := rest })
    (hreply : ∀ s v, P s → P (reply v s)) (hregister : ∀ s off v, P s → P (writeRegister off v s))
    (hbuffer : ∀ s id i v, P s → P (writeBuffer id i v s))
    (hillegal : ∀ s, P s → P (diag .illegal s))
    (hexec : ∀ i s t, exec i s = .next t → P s → P t) {s t : State} (hs : P s)
    (h : step s = .next t) : P t := by
  have hnext {u v : State} (hu : P u)
      (hv : (.next u : Host.Outcome State Fault Refusal) = .next v) : P v :=
    Host.Outcome.next.inj hv ▸ hu
  cases hhost : s.host with
  | nil => exact hnext hs ((step_idle hhost).symm.trans h)
  | cons a rest =>
    have hrest := haction s rest hs
    rw [step_action hhost] at h
    cases a with
    | writeReg off v =>
      rw [hostStep] at h
      split at h
      · cases h
      · split at h
        · obtain ⟨i, hi⟩ | hdiag := execWord_cases v { s with host := rest }
          · exact hexec i _ t (hi.symm.trans h) hrest
          · exact hnext (hillegal _ hrest) (hdiag.symm.trans h)
        · exact hnext (hregister _ off v hrest) h
    | readReg off =>
      rw [hostStep] at h
      split at h
      · cases h
      · exact hnext (hreply _ _ hrest) h
    | writeBuf id i v =>
      rw [hostStep] at h
      split at h
      · exact hnext (hbuffer _ id i v hrest) h
      · cases h
    | readBuf id i =>
      rw [hostStep] at h
      split at h
      · exact hnext (hreply _ _ hrest) h
      · cases h

/-! ### The register space (R60, R62, R72) -/

theorem step_writeReg {s : State} {rest : List HostAction} {off : Nat} {v : Word}
    (halign : off % 4 = 0) (hoff : off ≠ 0) (h : s.host = .writeReg off v :: rest) :
    step s = .next (writeRegister off v { s with host := rest }) := by
  rw [step_action h, hostStep, if_neg (not_not.2 halign), if_neg hoff]

/-- A write to a read-only or reserved offset is ignored. -/
theorem writeRegister_of_not_mem {off : Nat} (h : off ∉ [0x00, 0x10, 0x14, 0x18, 0x24, 0x28])
    (v : Word) (s : State) : writeRegister off v s = s := by
  unfold writeRegister
  split
  case h_6 => rfl
  all_goals exact absurd (by decide) h

/-- The registers in the order of their offsets; `CMD` and the offsets above read 0. -/
theorem readRegister_eq (s : State) {off : Nat} (halign : off % 4 = 0) : readRegister s off =
    [0#32, s.stage, s.lastdiag, s.diagacc, s.quality, s.imgW, s.imgH, s.w, s.h, s.msgLen, s.contLen,
      s.zzLen, s.rleLen, s.rleExp, s.freqN, s.encBytes].getD (off / 4) 0#32 := by
  obtain ⟨k, rfl⟩ : ∃ k, off = 4 * k := ⟨off / 4, by omega⟩
  rw [Nat.mul_div_cancel_left k (by decide)]
  by_cases hk : k < 16
  · interval_cases k <;> rfl
  · rw [List.getD_eq_default _ _ (by simpa using not_lt.1 hk)]
    unfold readRegister
    split
    case h_16 => rfl
    all_goals omega

/-- Settles O6: the offsets of the five `RW` registers are the arms of `writeRegister`. -/
theorem hostAccessesRegisters : Obligations.HostAccessesRegisters := by
  refine fun s rest off v halign => ⟨fun h => ?_, fun h => ?_⟩
  · refine ⟨?_, ?_, ?_, ?_, ?_, fun hoff => ?_⟩
    case refine_6 =>
      rw [step_writeReg halign (fun hz => hoff (hz ▸ List.mem_cons_self)) h,
        writeRegister_of_not_mem hoff]
    all_goals
      rintro rfl
      exact step_writeReg halign (by decide) h
  · rw [step_action h, hostStep, if_neg (not_not.2 halign), readRegister_eq _ halign]
    rfl

/-! ### The buffers (R61, R62, R72) -/

theorem step_writeBuf {s : State} {rest : List HostAction} {id : BufId} {i : Nat} {v : Byte}
    (hi : i < id.capacity s.cap) (h : s.host = .writeBuf id i v :: rest) :
    step s = .next (writeBuffer id i v { s with host := rest }) := by
  rw [step_action h, hostStep, if_pos hi]

/-- A write reaches no buffer but `RGB`, `CONT` and `MSG`. -/
theorem writeBuffer_frame (id : BufId) (i : Nat) (v : Byte) (s : State) :
    writeBuffer id i v s = { s with mem := { s.mem with
      rgb := (writeBuffer id i v s).mem.rgb, cont := (writeBuffer id i v s).mem.cont
      msg := (writeBuffer id i v s).mem.msg } } := by
  cases id <;> rfl

/-- A write of one element, among the elements of a buffer. -/
theorem byteElem_write_single (s : State) (id : BufId) (b : Buf 8) (i : Nat) (v : Byte) (j : Nat) :
    byteElem s id (Store.write b i [v]) j = if j = i then v else byteElem s id b j := by
  rw [byteElem, Store.read?_write_single, apply_ite (Option.getD · _)]
  rfl

theorem rgbAt_writeBuffer (id : BufId) (i : Nat) (v : Byte) (s : State) (j : Nat) :
    rgbAt (writeBuffer id i v s) j = if id = .rgb ∧ j = i then v else rgbAt s j := by
  cases id
  case rgb => exact (byteElem_write_single s .rgb s.mem.rgb i v j).trans (by simp [rgbAt])
  all_goals exact (if_neg (by simp)).symm

theorem contAt_writeBuffer (id : BufId) (i : Nat) (v : Byte) (s : State) (j : Nat) :
    contAt (writeBuffer id i v s) j = if id = .cont ∧ j = i then v else contAt s j := by
  cases id
  case cont => exact (byteElem_write_single s .cont s.mem.cont i v j).trans (by simp [contAt])
  all_goals exact (if_neg (by simp)).symm

theorem msgAt_writeBuffer (id : BufId) (i : Nat) (v : Byte) (s : State) (j : Nat) :
    msgAt (writeBuffer id i v s) j = if id = .msg ∧ j = i then v else msgAt s j := by
  cases id
  case msg => exact (byteElem_write_single s .msg s.mem.msg i v j).trans (by simp [msgAt])
  all_goals exact (if_neg (by simp)).symm

theorem step_readBuf {s : State} {later : List HostAction} {id : BufId} {i : Nat}
    (hi : i < id.capacity s.cap) (h : s.host = .readBuf id i :: later) :
    step s = .next { s with host := later, replies := bufferValue s id i :: s.replies } := by
  rw [step_action h, hostStep, if_pos hi, readBuffer]
  exact congrArg (fun x => Host.Outcome.next (reply x { s with host := later }))
    (bufferValue_of_replies s later s.replies id i)

/-- Settles O7: the value read is `bufferValue`, which depends on neither the pending actions nor the
replies. -/
theorem hostAccessesBuffers : Obligations.HostAccessesBuffers := by
  refine fun s rest id i v => ⟨fun hi h => ?_, fun hi => ?_, fun hi h => ?_⟩
  · exact ⟨_, step_writeBuf hi h, writeBuffer_frame id i v { s with host := rest },
      rgbAt_writeBuffer id i v { s with host := rest },
      contAt_writeBuffer id i v { s with host := rest },
      msgAt_writeBuffer id i v { s with host := rest }⟩
  · refine ⟨bufferValue s id i, bufferValue_inside, fun later earlier => ?_⟩
    have hread := step_readBuf (s := { s with host := .readBuf id i :: later, replies := earlier })
      hi rfl
    rwa [bufferValue_of_replies] at hread
  · obtain h | h := h <;> rw [step_action h, hostStep, if_neg (not_lt.2 hi)]

/-! ### The canonical form (log 3) -/

/-- Every buffer and the code store are in canonical form. -/
def MemoryForm (s : State) : Prop := Memory.wf s.mem = true ∧ Store.wf s.code = true

theorem memory_wf_writeYccRows {w n : Nat} {row : Nat → List Byte} {s : State}
    (h : Memory.wf s.mem = true) : Memory.wf (writeYccRows w row n s).mem = true := by
  induction n with
  | zero => exact h
  | succ n ih => exact writeYccRows_succ w row n s ▸ writeYcc_wf ih _ _

theorem mem_afterExtract (r : List Byte × ExtractEnd) (s : State) :
    (afterExtract r s).mem = (writeMsg 0 r.1 s).mem := by
  obtain ⟨bytes, e⟩ := r
  cases e <;> rfl

theorem memoryForm_of_ends {s t : State} {i : Instr} (h : Ends s i t) (hs : MemoryForm s) :
    MemoryForm t := by
  obtain ⟨hmem, hcode⟩ := hs
  cases h
  case reset => exact ⟨memory_wf_blank, rfl⟩
  case reported | ldrgb | ldcont | htree | rledecFailed | pxembedFailed => exact ⟨hmem, hcode⟩
  case rgb2ycc => exact ⟨writeYcc_wf hmem _ _, hcode⟩
  case ycc2rgb | pxembed => exact ⟨writeRgb_wf hmem _ _, hcode⟩
  case fdct | dequant => exact ⟨writeDctb_wf hmem _ _, hcode⟩
  case idct =>
    refine ⟨?_, afterIdct_frame s ▸ hcode⟩
    rw [afterIdct, mergeBlocks_eq]
    exact memory_wf_writeYccRows hmem
  case quant | dezigzag => exact ⟨writeQb_wf hmem _ _, hcode⟩
  case cfembed | cfembedFailed => exact ⟨writeQbEach_wf hmem _, hcode⟩
  case zigzag | rledec => exact ⟨writeZz_wf hmem _ _, hcode⟩
  case rleenc => exact ⟨writeRle_wf hmem _ _, hcode⟩
  case hdec => rw [afterHdec_frame]; exact ⟨writeRle_wf hmem _ _, hcode⟩
  case hfreq => exact ⟨writeFreq_wf hmem _ _, hcode⟩
  case hcodes => exact ⟨hmem, Store.wf_writeEach _ hcode⟩
  case henc => exact ⟨writePay_wf hmem _ _, hcode⟩
  case ser => exact ⟨writeCont_wf hmem _ _, hcode⟩
  case deser => exact ⟨writePay_wf (writeFreq_wf hmem _ _) _ _, hcode⟩
  case pxextract r | cfextract r =>
    exact ⟨mem_afterExtract r s ▸ writeMsg_wf hmem _ _, afterExtract_frame r s ▸ hcode⟩

theorem memoryForm_of_exec {s t : State} {i : Instr} (h : exec i s = .next t) (hs : MemoryForm s) :
    MemoryForm t :=
  exec_induction (R := fun s t => MemoryForm s → MemoryForm t)
    (fun _ _ _ hsu _ hut hs => hut (hsu hs)) (fun _ _ _ _ => memoryForm_of_ends) (fun _ _ => id) h hs

theorem writeRegister_frame (off : Nat) (v : Word) (s : State) :
    writeRegister off v s = { s with
      quality := (writeRegister off v s).quality, imgW := (writeRegister off v s).imgW
      imgH := (writeRegister off v s).imgH, msgLen := (writeRegister off v s).msgLen
      contLen := (writeRegister off v s).contLen } := by
  unfold writeRegister
  split <;> rfl

theorem memory_wf_writeBuffer {s : State} (h : Memory.wf s.mem = true) (id : BufId) (i : Nat)
    (v : Byte) : Memory.wf (writeBuffer id i v s).mem = true := by
  cases id
  case rgb => exact writeRgb_wf h _ _
  case cont => exact writeCont_wf h _ _
  case msg => exact writeMsg_wf h _ _
  all_goals exact h

/-- Settles O59: every write keeps the canonical form, and a step does nothing else to the buffers and
the code store. -/
theorem stepKeepsMemoryForm : Obligations.StepKeepsMemoryForm := by
  intro s t hmem hcode h
  refine step_induction (P := MemoryForm) (fun _ _ hs => hs) (fun _ _ hs => hs) (fun s off v hs => ?_)
    (fun s id i v hs => ⟨memory_wf_writeBuffer hs.1 id i v, ?_⟩) (fun _ hs => hs)
    (fun _ _ _ => memoryForm_of_exec) ⟨hmem, hcode⟩ h
  · exact writeRegister_frame off v s ▸ hs
  · exact writeBuffer_frame id i v s ▸ hs.2

end Sys2Proof.Machine
end

section
/-! PROOFS. Trees of the legal shape (`45_huffman.md` R200). Every node but the root is the child of
exactly one node by exactly one branch (`TreeShape.exists_parent`, `TreeShape.parent_unique`), so there is
one path to it (`TreeShape.exists_path`, `TreeShape.path_unique`). `treeLegal_afterHtree` says that `HTREE`
builds such a tree: each merge takes two nodes that no earlier one took. -/

namespace Sys2Proof.Machine

/-! ### Children and paths -/

/-- A node by its index is what stands there in the pool, with its children. -/
theorem childOf_eq_some_iff {pool : List Node} {n c : Nat} {b : Bool} : childOf pool n b = some c ↔
    ∃ f first second, pool[n]? = some (.internal f first second)
      ∧ (if b then first else second) = some c := by
  unfold childOf
  split
  next f first second h =>
    refine ⟨fun hc => ⟨f, first, second, h, hc⟩, ?_⟩
    rintro ⟨f', first', second', hnode, hc⟩
    cases h.symm.trans hnode
    exact hc
  next h =>
    refine ⟨nofun, ?_⟩
    rintro ⟨f, first, second, hnode, -⟩
    exact absurd hnode (h f first second)

theorem mem_nodeChildren_iff {f : Int} {first second : Option Nat} {c : Nat} :
    c ∈ nodeChildren (.internal f first second) ↔
      ∃ b : Bool, (if b then first else second) = some c := by
  simp [nodeChildren, or_comm]

/-- The children of the node at `n` are where its branches lead. -/
theorem mem_nodeChildren_of_childOf {pool : List Node} {n c : Nat} {b : Bool}
    (h : childOf pool n b = some c) : ∃ p, pool[n]? = some p ∧ c ∈ nodeChildren p := by
  obtain ⟨f, first, second, hnode, hc⟩ := childOf_eq_some_iff.1 h
  exact ⟨_, hnode, mem_nodeChildren_iff.2 ⟨b, hc⟩⟩

@[simp] theorem followPath_nil (pool : List Node) (n : Nat) : followPath pool n [] = some n := by
  simp [followPath]

/-- A path takes a branch and goes on from the child. -/
theorem followPath_cons (pool : List Node) (n : Nat) (b : Bool) (bits : List Bool) :
    followPath pool n (b :: bits) = (childOf pool n b).bind (followPath pool · bits) := by
  rw [followPath.eq_def, childOf]
  dsimp only
  cases pool[n]? with
  | none => rfl
  | some p =>
    cases p with
    | leaf sym f => rfl
    | internal f first second =>
      dsimp only
      cases (if b then first else second) with
      | none => rfl
      | some c => rfl

theorem followPath_append (pool : List Node) (n : Nat) (bits later : List Bool) :
    followPath pool n (bits ++ later)
      = (followPath pool n bits).bind (followPath pool · later) := by
  induction bits generalizing n with
  | nil => rw [followPath_nil]; rfl
  | cons b bits ih =>
    rw [List.cons_append, followPath_cons, followPath_cons, Option.bind_assoc]
    exact congrArg _ (funext ih)

theorem followPath_append_singleton {pool : List Node} {n c : Nat} {bits : List Bool} {b : Bool} :
    followPath pool n (bits ++ [b]) = some c ↔
      ∃ p, followPath pool n bits = some p ∧ childOf pool p b = some c := by
  rw [followPath_append, Option.bind_eq_some_iff]
  simp only [followPath_cons, followPath_nil, Option.bind_fun_some]

theorem leafSymbol_isSome_iff {pool : List Node} {k : Nat} :
    (leafSymbol pool k).isSome = true ↔ ∃ sym f, pool[k]? = some (.leaf sym f) := by
  unfold leafSymbol
  split
  next sym f h => exact iff_of_true rfl ⟨sym, f, h⟩
  next h => exact iff_of_false nofun fun ⟨sym, f, hk⟩ => h sym f hk

/-- A leaf has no children. -/
theorem childOf_of_leaf {pool : List Node} {k : Nat} (h : (leafSymbol pool k).isSome = true)
    (b : Bool) : childOf pool k b = none := by
  obtain ⟨sym, f, hk⟩ := leafSymbol_isSome_iff.1 h
  rw [childOf, hk]

/-- A path from a leaf has no branches. -/
theorem eq_nil_of_followPath_leaf {pool : List Node} {k n : Nat} {bits : List Bool}
    (hk : (leafSymbol pool k).isSome = true) (h : followPath pool k bits = some n) : bits = [] := by
  cases bits with
  | nil => rfl
  | cons b bits => rw [followPath_cons, childOf_of_leaf hk] at h; exact nomatch h

/-! ### The legal shape (R200) -/

/-- The shape of a tree with the root `root`, as `treeLegal` asks for. -/
structure TreeShape (pool : List Node) (root : Nat) : Prop where
  nodes : ∀ i p, pool[i]? = some p → nodeLegal i p = true
  children : (pool.flatMap nodeChildren).Perm (List.range (pool.length - 1))
  root_last : root + 1 = pool.length
  root_internal : ∃ f x y, pool[root]? = some (.internal f x y)

theorem nodesLegal_iff (pool : List Node) : (pool.zipIdx.all fun p => nodeLegal p.2 p.1) = true ↔
    ∀ i p, pool[i]? = some p → nodeLegal i p = true := by
  rw [List.all_eq_true]
  constructor
  · exact fun h i p hp => h (p, i) (List.mk_mem_zipIdx_iff_getElem?.2 hp)
  · exact fun h p hp => h p.2 p.1 (List.mk_mem_zipIdx_iff_getElem?.1 hp)

/-- `treeLegal` of a state with a tree. -/
theorem treeLegal_iff {s : State} {r : Nat} (hr : s.treeRoot = some r) :
    treeLegal s = true ↔ s.treeN = s.node.length ∧ TreeShape s.node r := by
  have hinternal : (match s.node[r]? with | some (.internal _ _ _) => true | _ => false) = true
      ↔ ∃ f x y, s.node[r]? = some (.internal f x y) := by
    split
    next f x y h => exact iff_of_true rfl ⟨f, x, y, h⟩
    next h => exact iff_of_false nofun fun ⟨f, x, y, hr⟩ => h f x y hr
  rw [treeLegal, hr]
  simp only [Bool.and_eq_true, decide_eq_true_eq, nodesLegal_iff, List.isPerm_iff]
  constructor
  · rintro ⟨⟨⟨hn, hnodes⟩, hchildren⟩, hlast, hroot⟩
    exact ⟨hn, hnodes, hchildren, hlast, hinternal.1 hroot⟩
  · rintro ⟨hn, hnodes, hchildren, hlast, hroot⟩
    exact ⟨⟨⟨hn, hnodes⟩, hchildren⟩, hlast, hinternal.2 hroot⟩

/-- Without a root there are no nodes. -/
theorem node_eq_nil_of_treeLegal {s : State} (h : treeLegal s = true) (hr : s.treeRoot = none) :
    s.node = [] := by
  rw [treeLegal, hr] at h
  simpa using (Bool.and_eq_true_iff.1 h).2

namespace TreeShape

variable {pool : List Node} {root : Nat} (h : TreeShape pool root)
include h

/-- Children lie below their parent. -/
theorem child_lt {n c : Nat} {b : Bool} (hc : childOf pool n b = some c) : c < n := by
  obtain ⟨f, first, second, hnode, hbranch⟩ := childOf_eq_some_iff.1 hc
  have hlegal := h.nodes _ _ hnode
  match first, second with
  | none, _ => exact absurd hlegal Bool.false_ne_true
  | some x, none =>
    cases b
    · exact nomatch hbranch
    · exact Option.some.inj hbranch ▸ of_decide_eq_true hlegal
  | some x, some y =>
    obtain ⟨hx, hy⟩ := of_decide_eq_true hlegal
    cases b
    · exact Option.some.inj hbranch ▸ hy
    · exact Option.some.inj hbranch ▸ hx

theorem nodup_children : (pool.flatMap nodeChildren).Nodup :=
  h.children.nodup_iff.2 List.nodup_range

theorem lt_root_of_childOf {n c : Nat} {b : Bool} (hc : childOf pool n b = some c) : c < root := by
  obtain ⟨p, hp, hmem⟩ := mem_nodeChildren_of_childOf hc
  have hrange := h.children.mem_iff.1 (List.mem_flatMap.2 ⟨p, List.mem_of_getElem? hp, hmem⟩)
  have hlast := h.root_last
  have := List.mem_range.1 hrange
  omega

/-- Every node but the root is a child. -/
theorem exists_parent {c : Nat} (hc : c < root) : ∃ n b, childOf pool n b = some c := by
  have hlast := h.root_last
  obtain ⟨p, hp, hmem⟩ := List.mem_flatMap.1 (h.children.mem_iff.2 (List.mem_range.2
    (show c < pool.length - 1 by omega)))
  obtain ⟨n, hn⟩ := List.mem_iff_getElem?.1 hp
  cases p with
  | leaf sym f => exact absurd hmem List.not_mem_nil
  | internal f first second =>
    obtain ⟨b, hb⟩ := mem_nodeChildren_iff.1 hmem
    exact ⟨n, b, childOf_eq_some_iff.2 ⟨f, first, second, hn, hb⟩⟩

/-- It is the child of one node, by one branch. -/
theorem parent_unique {n n' c : Nat} {b b' : Bool} (hc : childOf pool n b = some c)
    (hc' : childOf pool n' b' = some c) : n = n' ∧ b = b' := by
  obtain ⟨hnodup, hdisjoint⟩ := List.nodup_flatMap.1 h.nodup_children
  obtain ⟨p, hp, hmem⟩ := mem_nodeChildren_of_childOf hc
  obtain ⟨p', hp', hmem'⟩ := mem_nodeChildren_of_childOf hc'
  obtain ⟨hlt, rfl⟩ := List.getElem?_eq_some_iff.1 hp
  obtain ⟨hlt', rfl⟩ := List.getElem?_eq_some_iff.1 hp'
  have hn : n = n' := by
    rcases Nat.lt_trichotomy n n' with hlow | heq | hhigh
    · exact (List.pairwise_iff_getElem.1 hdisjoint n n' hlt hlt' hlow hmem hmem').elim
    · exact heq
    · exact (List.pairwise_iff_getElem.1 hdisjoint n' n hlt' hlt hhigh hmem' hmem).elim
  subst hn
  obtain ⟨f, first, second, hnode, hbranch⟩ := childOf_eq_some_iff.1 hc
  obtain ⟨f', first', second', hnode', hbranch'⟩ := childOf_eq_some_iff.1 hc'
  cases hnode.symm.trans hnode'
  have hchildren := hnodup _ (List.mem_of_getElem? hnode)
  refine ⟨rfl, by_contra fun hne => ?_⟩
  have hboth : first = some c ∧ second = some c := by
    cases b <;> cases b' <;> simp_all
  simp [nodeChildren, hboth] at hchildren

/-- Every node has a path from the root: that of its parent and one more branch. -/
theorem exists_path {k : Nat} (hk : k ≤ root) : ∃ path, followPath pool root path = some k := by
  induction hd : root - k using Nat.strongRecOn generalizing k with
  | ind d ih =>
    rcases hk.eq_or_lt with rfl | hlt
    · exact ⟨[], followPath_nil _ _⟩
    · obtain ⟨n, b, hchild⟩ := h.exists_parent hlt
      have hkn := h.child_lt hchild
      obtain ⟨p, hp, -⟩ := mem_nodeChildren_of_childOf hchild
      have hn := (List.getElem?_eq_some_iff.1 hp).1
      have hlast := h.root_last
      obtain ⟨path, hpath⟩ := ih (root - n) (by omega) (k := n) (by omega) rfl
      exact ⟨path ++ [b], followPath_append_singleton.2 ⟨n, hpath, hchild⟩⟩

/-- There is only one path to a node. -/
theorem path_unique {k : Nat} {path path' : List Bool} (hp : followPath pool root path = some k)
    (hp' : followPath pool root path' = some k) : path = path' := by
  have hnotRoot {bits : List Bool} {b : Bool} : followPath pool root (bits ++ [b]) ≠ some root := by
    intro hb
    obtain ⟨p, -, hchild⟩ := followPath_append_singleton.1 hb
    exact Nat.lt_irrefl _ (h.lt_root_of_childOf hchild)
  induction path using List.reverseRecOn generalizing k path' with
  | nil =>
    obtain rfl : root = k := Option.some.inj hp
    obtain rfl | ⟨bits', b', rfl⟩ := List.eq_nil_or_concat' path'
    · rfl
    · exact absurd hp' hnotRoot
  | append_singleton bits b ih =>
    obtain rfl | ⟨bits', b', rfl⟩ := List.eq_nil_or_concat' path'
    · obtain rfl : root = k := Option.some.inj hp'
      exact absurd hp hnotRoot
    · obtain ⟨n, hn, hchild⟩ := followPath_append_singleton.1 hp
      obtain ⟨n', hn', hchild'⟩ := followPath_append_singleton.1 hp'
      obtain ⟨rfl, rfl⟩ := h.parent_unique hchild hchild'
      rw [ih hn hn']

/-- The root is no leaf. -/
theorem leafSymbol_root : (leafSymbol pool root).isSome = false := by
  obtain ⟨f, x, y, hroot⟩ := h.root_internal
  rw [leafSymbol, hroot]
  rfl

theorem path_to_leaf_ne_nil {k : Nat} {path : List Bool} (hp : followPath pool root path = some k)
    (hk : (leafSymbol pool k).isSome = true) : path ≠ [] := by
  rintro rfl
  obtain rfl : root = k := Option.some.inj hp
  rw [h.leafSymbol_root] at hk
  exact Bool.false_ne_true hk

theorem lt_of_leaf {k : Nat} (hk : (leafSymbol pool k).isSome = true) : k ≤ root := by
  obtain ⟨sym, f, hnode⟩ := leafSymbol_isSome_iff.1 hk
  have hlt := (List.getElem?_eq_some_iff.1 hnode).1
  have hlast := h.root_last
  omega

/-- Below `n` first nodes that are leaves a path has no more branches than there are internal nodes on
the way. -/
theorem length_path_le {n m k : Nat} (hleaves : ∀ i < n, (leafSymbol pool i).isSome = true)
    {path : List Bool} (hp : followPath pool m path = some k) :
    path.length ≤ m + 1 - n := by
  induction path generalizing m with
  | nil => exact Nat.zero_le _
  | cons b path ih =>
    have hm : n ≤ m := by
      by_contra hm
      have := eq_nil_of_followPath_leaf (hleaves m (not_le.1 hm)) hp
      cases this
    rw [followPath_cons, Option.bind_eq_some_iff] at hp
    obtain ⟨c, hc, hrest⟩ := hp
    have hlt := h.child_lt hc
    have := ih hrest
    rw [List.length_cons]
    omega

end TreeShape

/-! ### The tree that `HTREE` builds -/

/-- `n` leaves with `n - 1` merges after them. -/
structure LeavesThenMerges (pool : List Node) (n : Nat) : Prop where
  several : 1 < n
  length_eq : pool.length = 2 * n - 1
  leaves : ∀ k < n, (leafSymbol pool k).isSome = true
  merges : ∀ m, n ≤ m → m < 2 * n - 1 → MergesLeastPair pool m

namespace LeavesThenMerges

variable {pool : List Node} {n : Nat} (h : LeavesThenMerges pool n)
include h

/-- The children of a node: none of a leaf, two different free nodes of a merge. -/
theorem node_cases {i : Nat} {p : Node} (hp : pool[i]? = some p) :
    (i < n ∧ ∃ sym f, p = .leaf sym f)
      ∨ (n ≤ i ∧ ∃ f x y, p = .internal f (some x) (some y) ∧ IsFree pool i x ∧ IsFree pool i y
        ∧ x ≠ y) := by
  obtain ⟨hlt, -⟩ := List.getElem?_eq_some_iff.1 hp
  rw [h.length_eq] at hlt
  rcases Nat.lt_or_ge i n with hi | hi
  · obtain ⟨sym, f, hleaf⟩ := leafSymbol_isSome_iff.1 (h.leaves i hi)
    exact .inl ⟨hi, sym, f, Option.some.inj (hp.symm.trans hleaf)⟩
  · obtain ⟨x, y, hnode, hx, hy, hkey, -⟩ := h.merges i hi hlt
    exact .inr ⟨hi, _, x, y, Option.some.inj (hp.symm.trans hnode), hx, hy,
      fun hxy => (hxy ▸ hkey).ne rfl⟩

/-- The children of a node are free when it is created. -/
theorem isFree_of_mem_children {i c : Nat} {p : Node} (hp : pool[i]? = some p)
    (hc : c ∈ nodeChildren p) : IsFree pool i c := by
  obtain ⟨-, sym, f, rfl⟩ | ⟨-, f, x, y, rfl, hx, hy, -⟩ := h.node_cases hp
  · exact absurd hc List.not_mem_nil
  · obtain rfl | hc := List.mem_cons.1 hc
    · exact hx
    · exact List.mem_singleton.1 hc ▸ hy

theorem length_children {i : Nat} {p : Node} (hp : pool[i]? = some p) :
    (nodeChildren p).length = if i < n then 0 else 2 := by
  obtain ⟨hi, sym, f, rfl⟩ | ⟨hi, f, x, y, rfl, -⟩ := h.node_cases hp
  · rw [if_pos hi]; rfl
  · rw [if_neg (not_lt.2 hi)]; rfl

theorem nodup_children : (pool.flatMap nodeChildren).Nodup := by
  refine List.nodup_flatMap.2 ⟨fun p hp => ?_, List.pairwise_iff_getElem.2 ?_⟩
  · obtain ⟨i, hi⟩ := List.mem_iff_getElem?.1 hp
    obtain ⟨-, sym, f, rfl⟩ | ⟨-, f, x, y, rfl, -, -, hxy⟩ := h.node_cases hi
    · exact List.nodup_nil
    · simpa [nodeChildren] using hxy
  · intro i j hi hj hij c hci hcj
    obtain ⟨-, hfree⟩ := h.isFree_of_mem_children (List.getElem?_eq_getElem hj) hcj
    refine hfree pool[i] (List.mem_take_iff_getElem.2 ⟨i, ?_, rfl⟩) hci
    rw [Nat.lt_min]
    exact ⟨hij, hi⟩

/-- All children together: two for each merge. -/
theorem length_flatMap_children : (pool.flatMap nodeChildren).length = 2 * (n - 1) := by
  have hcounts : pool.map (fun p => (nodeChildren p).length)
      = List.replicate n 0 ++ List.replicate (n - 1) 2 := by
    refine List.ext_getElem ?_ fun i hi _ => ?_
    · have := h.several
      rw [List.length_map, h.length_eq, List.length_append, List.length_replicate,
        List.length_replicate]
      omega
    · rw [List.getElem_map, List.getElem_append,
        h.length_children (List.getElem?_eq_getElem (by simpa using hi))]
      simp
  rw [List.length_flatMap, hcounts]
  simp [Nat.mul_comm]

/-- The merges make a tree of the legal shape (R200). -/
theorem treeShape : TreeShape pool (2 * n - 2) := by
  have hseveral := h.several
  have hlength := h.length_eq
  refine ⟨fun i p hp => ?_, ?_, by omega, ?_⟩
  · obtain ⟨-, sym, f, rfl⟩ | ⟨-, f, x, y, rfl, ⟨hx, -⟩, ⟨hy, -⟩, -⟩ := h.node_cases hp
    · rfl
    · exact decide_eq_true ⟨hx, hy⟩
  · have hsubset : pool.flatMap nodeChildren ⊆ List.range (pool.length - 1) := fun c hc => by
      obtain ⟨p, hp, hc⟩ := List.mem_flatMap.1 hc
      obtain ⟨i, hi⟩ := List.mem_iff_getElem?.1 hp
      obtain ⟨hlt, -⟩ := h.isFree_of_mem_children hi hc
      obtain ⟨hi, -⟩ := List.getElem?_eq_some_iff.1 hi
      exact List.mem_range.2 (by omega)
    refine (List.subperm_of_subset h.nodup_children hsubset).perm_of_length_le ?_
    rw [List.length_range, h.length_flatMap_children]
    omega
  · obtain ⟨x, y, hnode, -⟩ := h.merges (2 * n - 2) (by omega) (by omega)
    exact ⟨_, _, _, hnode⟩

end LeavesThenMerges

theorem leafSymbol_afterHtree {s : State} {k : Nat} (hk : k < regLen s.freqN) :
    leafSymbol (afterHtree s).node k = some (freqAt s (2 * k)) := by
  rw [leafSymbol, getElem?_node_afterHtree hk]

theorem leavesThenMerges_afterHtree {s : State} (h : 1 < regLen s.freqN) :
    LeavesThenMerges (afterHtree s).node (regLen s.freqN) := by
  obtain ⟨-, hlength, -, hmerges⟩ := afterHtree_of_several h
  exact ⟨h, hlength, fun k hk => leafSymbol_afterHtree hk ▸ rfl, hmerges⟩

/-- The degenerate tree (R199). -/
theorem treeShape_afterHtree_of_one {s : State} (h : regLen s.freqN = 1) :
    TreeShape (afterHtree s).node 1 := by
  obtain ⟨-, hlength, -, hroot⟩ := afterHtree_of_one h
  have hleaf := getElem?_node_afterHtree (s := s) (k := 0) (by omega)
  have hnode : (afterHtree s).node = [.leaf (freqAt s (2 * 0)) (freqAt s (2 * 0 + 1)).toInt,
      .internal (freqAt s 1).toInt (some 0) none] := by
    refine List.ext_getElem? fun i => ?_
    match i with
    | 0 => exact hleaf
    | 1 => exact hroot
    | i + 2 => rw [List.getElem?_eq_none (by omega), List.getElem?_eq_none (by simp)]
  rw [hnode]
  refine ⟨fun i p hp => ?_, .refl _, rfl, _, _, _, rfl⟩
  match i with
  | 0 => cases hp; rfl
  | 1 => cases hp; rfl
  | i + 2 => exact nomatch hp

/-- The index of the root of the tree that `HTREE` builds. -/
def htreeRoot (s : State) : Nat := if regLen s.freqN = 1 then 1 else 2 * regLen s.freqN - 2

theorem treeRoot_afterHtree (s : State) : (afterHtree s).treeRoot = some (htreeRoot s) := rfl

theorem treeShape_afterHtree {s : State} (h : 1 ≤ regLen s.freqN) :
    TreeShape (afterHtree s).node (htreeRoot s) := by
  rw [htreeRoot]
  split
  next hone => exact treeShape_afterHtree_of_one hone
  next hne => exact (leavesThenMerges_afterHtree (by omega)).treeShape

theorem treeN_afterHtree {s : State} (h : 1 ≤ regLen s.freqN) :
    (afterHtree s).treeN = (afterHtree s).node.length := by
  rcases h.eq_or_lt with hone | hseveral
  · obtain ⟨hn, hlength, -⟩ := afterHtree_of_one hone.symm
    rw [hn, hlength]
  · obtain ⟨hn, hlength, -⟩ := afterHtree_of_several hseveral
    rw [hn, hlength]

/-- `HTREE` builds a tree of the legal shape. -/
theorem treeLegal_afterHtree {s : State} (h : 1 ≤ regLen s.freqN) :
    treeLegal (afterHtree s) = true :=
  (treeLegal_iff (treeRoot_afterHtree s)).2 ⟨treeN_afterHtree h, treeShape_afterHtree h⟩

/-- With `n` entries a leaf is at most `n - 1` branches below the root, at least one (R200). -/
theorem length_path_afterHtree {s : State} (h : 1 ≤ regLen s.freqN) {k : Nat}
    (hk : k < regLen s.freqN) {path : List Bool}
    (hp : followPath (afterHtree s).node (htreeRoot s) path = some k) :
    1 ≤ path.length ∧ path.length ≤ max 1 (regLen s.freqN - 1) := by
  have hshape := treeShape_afterHtree h
  have hleaf : ∀ i < regLen s.freqN, (leafSymbol (afterHtree s).node i).isSome = true := fun i hi =>
    leafSymbol_afterHtree hi ▸ rfl
  refine ⟨List.length_pos_iff.2 (hshape.path_to_leaf_ne_nil hp (hleaf k hk)), ?_⟩
  have hle := hshape.length_path_le hleaf hp
  rw [htreeRoot] at hle
  split at hle <;> omega

/-- Settles O37: merges make a tree of the legal shape, in which every node has one path from the root
and a path to a leaf visits internal nodes alone. -/
theorem htreeShape : Obligations.HtreeShape := by
  intro s hfreq hpos n
  have hn : n = regLen s.freqN := rfl
  have hentries : 1 ≤ regLen s.freqN := by unfold regLen; omega
  have hshape := treeShape_afterHtree hentries
  have hroot : (afterHtree s).node.length - 1 = htreeRoot s := by
    have := hshape.root_last
    omega
  have hleaf : ∀ k < regLen s.freqN, (leafSymbol (afterHtree s).node k).isSome = true := fun k hk =>
    leafSymbol_afterHtree hk ▸ rfl
  rw [hn, exec_htree_of_valid hfreq, if_neg (by omega)]
  refine ⟨afterHtree s, rfl, treeLegal_afterHtree hentries, fun k hk => ?_, fun k hk path hp => ?_,
    fun hone => ?_, fun hseveral => ?_⟩
  · rw [hroot]
    obtain ⟨path, hp⟩ := hshape.exists_path (hshape.lt_of_leaf (hleaf k hk))
    exact ⟨path, hp, fun path' hp' => hshape.path_unique hp' hp⟩
  · exact length_path_afterHtree hentries hk (hroot ▸ hp)
  · obtain ⟨-, hlength, -⟩ := afterHtree_of_one hone
    exact hlength
  · obtain ⟨htreeN, hlength, htreeRoot, -⟩ := afterHtree_of_several hseveral
    refine ⟨htreeN, htreeRoot, hleaf, fun m hge hlt => ?_⟩
    have hnode := List.getElem?_eq_getElem (l := (afterHtree s).node) (i := m) (by omega)
    obtain ⟨hm, -⟩ | ⟨-, f, x, y, hp, ⟨hx, -⟩, ⟨hy, -⟩, hxy⟩ :=
      (leavesThenMerges_afterHtree hseveral).node_cases hnode
    · exact absurd hm (not_lt.2 hge)
    · exact ⟨f, x, y, hnode.trans (congrArg some hp), hx, hy, hxy⟩

end Sys2Proof.Machine
end

section
/-! PROOFS. The codes of a tree of the legal shape (`45_huffman.md` R202). The walk assigns to every leaf
its path from the root (`mem_walkCodes_iff`), so that the code store holds the paths
(`codeAt_afterHcodes`); a leaf has no children, so no path begins another one. -/

namespace Sys2Proof.Machine

/-- Single writes at an index to which all of them give the same value. -/
theorem Store.read?_writeEach_of_unique {α : Type} {us : List (Nat × α)} {i : Nat} {v : α}
    (hmem : (i, v) ∈ us) (hunique : ∀ w, (i, w) ∈ us → w = v) (b : Store α) :
    Store.read? (Store.writeEach b us) i = some v := by
  induction us using List.reverseRecOn with
  | nil => exact absurd hmem List.not_mem_nil
  | append_singleton us u ih =>
    rw [Store.writeEach, List.foldl_append, List.foldl_cons, List.foldl_nil, ← Store.writeEach,
      Store.read?_write_single]
    split
    next hi => exact congrArg some (hunique u.2 (List.mem_append_right us (by simp [hi])))
    next hi =>
      refine ih ?_ fun w hw => hunique w (List.mem_append_left _ hw)
      exact (List.mem_append.1 hmem).resolve_right fun hu =>
        hi (congrArg Prod.fst (List.mem_singleton.1 hu))

/-- What the walk gives below a branch: nothing where there is no child. -/
def branchCodes (pool : List Node) (fuel : Nat) (child : Option Nat) (c : List Bool) :
    List (Nat × List Bool) := child.elim [] fun x => walkCodes pool fuel x c

/-- The walk from a node: the leaf's own code, or the codes below both branches. -/
theorem walkCodes_succ (pool : List Node) (fuel i : Nat) (c : List Bool) :
    walkCodes pool (fuel + 1) i c =
      if (leafSymbol pool i).isSome then [(i, c)]
      else branchCodes pool fuel (childOf pool i true) (c ++ [true])
        ++ branchCodes pool fuel (childOf pool i false) (c ++ [false]) := by
  unfold walkCodes leafSymbol childOf
  cases pool[i]? with
  | none => rfl
  | some p =>
    cases p with
    | leaf sym f => rfl
    | internal f first second => cases first <;> cases second <;> rfl

theorem mem_branchCodes_iff {pool : List Node} {fuel k : Nat} {child : Option Nat}
    {c code : List Bool} : (k, code) ∈ branchCodes pool fuel child c ↔
      ∃ x, child = some x ∧ (k, code) ∈ walkCodes pool fuel x c := by
  cases child <;> simp [branchCodes]

/-- A path from a node that is no leaf to a leaf goes through a child. -/
theorem followPath_to_leaf_iff {pool : List Node} {i k : Nat} {path : List Bool}
    (hi : (leafSymbol pool i).isSome = false) (hk : (leafSymbol pool k).isSome = true) :
    followPath pool i path = some k ↔
      ∃ b x later, path = b :: later ∧ childOf pool i b = some x
        ∧ followPath pool x later = some k := by
  cases path with
  | nil =>
    refine iff_of_false (fun h => ?_) (by simp)
    obtain rfl : i = k := Option.some.inj h
    rw [hi] at hk
    exact Bool.false_ne_true hk
  | cons b path =>
    rw [followPath_cons, Option.bind_eq_some_iff]
    constructor
    · rintro ⟨x, hx, hpath⟩
      exact ⟨b, x, path, rfl, hx, hpath⟩
    · rintro ⟨b, x, later, heq, hx, hpath⟩
      obtain ⟨rfl, rfl⟩ := List.cons.inj heq
      exact ⟨x, hx, hpath⟩

/-- The walk from a node assigns to each leaf below it the path to it, after the code so far. -/
theorem mem_walkCodes_iff {pool : List Node} {root : Nat} (h : TreeShape pool root) {fuel i k : Nat}
    (hi : i < fuel) {c code : List Bool} : (k, code) ∈ walkCodes pool fuel i c ↔
      (leafSymbol pool k).isSome = true ∧
        ∃ path, code = c ++ path ∧ followPath pool i path = some k := by
  induction fuel generalizing i c with
  | zero => exact absurd hi (Nat.not_lt_zero i)
  | succ fuel ih =>
    rw [walkCodes_succ]
    cases hleaf : (leafSymbol pool i).isSome with
    | true =>
      rw [if_pos rfl, List.mem_singleton, Prod.mk.injEq]
      constructor
      · rintro ⟨rfl, rfl⟩
        exact ⟨hleaf, [], (List.append_nil _).symm, followPath_nil _ _⟩
      · rintro ⟨-, path, rfl, hpath⟩
        obtain rfl := eq_nil_of_followPath_leaf hleaf hpath
        exact ⟨(Option.some.inj hpath).symm, List.append_nil c⟩
    | false =>
      have hbranch (b : Bool) : (k, code) ∈ branchCodes pool fuel (childOf pool i b) (c ++ [b]) ↔
          (leafSymbol pool k).isSome = true ∧ ∃ x later, childOf pool i b = some x
            ∧ code = c ++ b :: later ∧ followPath pool x later = some k := by
        rw [mem_branchCodes_iff]
        constructor
        · rintro ⟨x, hx, hmem⟩
          have hlt := h.child_lt hx
          obtain ⟨hk, later, rfl, hpath⟩ := (ih (by omega)).1 hmem
          exact ⟨hk, x, later, hx, by simp, hpath⟩
        · rintro ⟨hk, x, later, hx, rfl, hpath⟩
          have hlt := h.child_lt hx
          exact ⟨x, hx, (ih (by omega)).2 ⟨hk, later, by simp, hpath⟩⟩
      rw [if_neg Bool.false_ne_true, List.mem_append, hbranch, hbranch, ← and_or_left]
      refine and_congr_right fun hk => ?_
      simp only [followPath_to_leaf_iff hleaf hk]
      constructor
      · rintro (⟨x, later, hx, rfl, hpath⟩ | ⟨x, later, hx, rfl, hpath⟩)
        · exact ⟨_, rfl, true, x, later, rfl, hx, hpath⟩
        · exact ⟨_, rfl, false, x, later, rfl, hx, hpath⟩
      · rintro ⟨_, rfl, b, x, later, rfl, hx, hpath⟩
        cases b
        · exact .inr ⟨x, later, hx, rfl, hpath⟩
        · exact .inl ⟨x, later, hx, rfl, hpath⟩

/-! ### `HCODES` -/

section
variable {s : State} {r : Nat} (htree : treeLegal s = true) (hr : s.treeRoot = some r)
include htree hr

/-- The tree's codes are the paths to its leaves. -/
theorem mem_treeCodes_iff {k : Nat} {code : List Bool} : (k, code) ∈ treeCodes s ↔
    (leafSymbol s.node k).isSome = true ∧ followPath s.node r code = some k := by
  obtain ⟨hn, hshape⟩ := (treeLegal_iff hr).1 htree
  have hlast := hshape.root_last
  rw [treeCodes, hr]
  dsimp only
  rw [mem_walkCodes_iff hshape (by omega)]
  simp

/-- The code of a leaf is its path. -/
theorem codeAt_afterHcodes {k : Nat} {path : List Bool}
    (hk : (leafSymbol s.node k).isSome = true) (hp : followPath s.node r path = some k) :
    codeAt (afterHcodes s) k = path := by
  obtain ⟨-, hshape⟩ := (treeLegal_iff hr).1 htree
  have hmem := (mem_treeCodes_iff htree hr).2 ⟨hk, hp⟩
  have hread : Store.read? (afterHcodes s).code k = some path :=
    Store.read?_writeEach_of_unique hmem (fun code hcode => by
      obtain ⟨-, hcode⟩ := (mem_treeCodes_iff htree hr).1 hcode
      exact hshape.path_unique hcode hp) _
  rw [codeAt, hread, Option.getD_some]

/-- Entries that are no leaf's keep their codes. -/
theorem codeAt_afterHcodes_of_not_leaf {k : Nat} (hk : (leafSymbol s.node k).isSome = false) :
    codeAt (afterHcodes s) k = codeAt s k := by
  have hread : Store.read? (afterHcodes s).code k = Store.read? s.code k :=
    Store.read?_writeEach_of_not_mem _ _ _ fun u hu heq => by
      obtain ⟨hleaf, -⟩ := (mem_treeCodes_iff htree hr (k := u.1) (code := u.2)).1 hu
      rw [heq, hk] at hleaf
      exact Bool.false_ne_true hleaf
  rw [codeAt, hread]
  rfl

theorem exists_path_to_leaf {k : Nat} (hk : (leafSymbol s.node k).isSome = true) :
    ∃ path, followPath s.node r path = some k := by
  obtain ⟨-, hshape⟩ := (treeLegal_iff hr).1 htree
  exact hshape.exists_path (hshape.lt_of_leaf hk)

end

/-- Settles O38: the walk reaches every leaf by its path. -/
theorem hcodesAssignPaths : Obligations.HcodesAssignPaths := by
  intro s r hvalid htree hr
  exact ⟨afterHcodes s, exec_hcodes_of_valid hvalid, rfl, fun k hk => exists_path_to_leaf htree hr hk,
    fun k path hk hp => codeAt_afterHcodes htree hr hk hp,
    fun k hk => codeAt_afterHcodes_of_not_leaf htree hr hk⟩

/-- Settles O39: a path that goes on from a leaf has no more branches. -/
theorem codesPrefixFree : Obligations.CodesPrefixFree := by
  intro s hvalid htree
  refine ⟨afterHcodes s, exec_hcodes_of_valid hvalid, fun j k hj hk hprefix => ?_⟩
  cases hr : s.treeRoot with
  | none =>
    rw [node_eq_nil_of_treeLegal htree hr] at hj
    exact absurd hj Bool.false_ne_true
  | some r =>
    obtain ⟨path, hpath⟩ := exists_path_to_leaf htree hr hj
    obtain ⟨path', hpath'⟩ := exists_path_to_leaf htree hr hk
    rw [codeAt_afterHcodes htree hr hj hpath, codeAt_afterHcodes htree hr hk hpath'] at hprefix
    obtain ⟨later, rfl⟩ := hprefix
    rw [followPath_append, hpath] at hpath'
    obtain rfl := eq_nil_of_followPath_leaf hj hpath'
    exact Option.some.inj hpath'

end Sys2Proof.Machine
end

section
/-! PROOFS. The invariant of every run (`10_state.md` R21 to R32, `60_exceptions.md` R300). What a command
does to the flags, the diagnostics and the parts it does not write is known (`ends_status`, `Ends.keeps`);
what is left are the new values of the geometry, the lengths and the tree. -/

namespace Sys2Proof.Machine

/-! ### The state after reset -/

/-- Settles O13: nothing but what the model keeps outside the hardware survives. -/
theorem resetCommand : Obligations.ResetCommand := fun _ => rfl

theorem legalState_reset : LegalState State.reset :=
  ⟨by decide, by decide, by decide, by decide, by decide, by decide, rfl, rfl, rfl, by decide⟩

/-- Settles O14. -/
theorem resetState : Obligations.ResetState :=
  ⟨rfl, rfl, rfl, rfl, rfl, rfl, rfl, rfl, rfl, rfl, rfl, rfl, rfl, rfl, rfl, rfl, rfl,
    legalState_reset⟩

/-! ### Flags and diagnostics -/

theorem stageReservedZero_iff (s : State) :
    StageReservedZero s ↔ ∀ k, 14 ≤ k → s.stage.getLsbD k = false := by
  constructor
  · intro h k hk
    have hbit := congrArg (BitVec.getLsbD · (k - 14)) h
    simpa [Nat.add_sub_cancel' hk] using hbit
  · exact fun h => BitVec.eq_of_getLsbD_eq fun k _ => by simpa using h (14 + k) (by omega)

theorem diagnosticsLegal_of_recordsCode {s t : State} (h : RecordsCode s t)
    (hs : DiagnosticsLegal s) : DiagnosticsLegal t := by
  obtain ⟨k, hle, -, hlast, hacc⟩ := h
  obtain ⟨-, hzero, hhigh⟩ := hs
  refine ⟨?_, ?_⟩
  · rw [hlast, BitVec.toNat_ofNat]
    omega
  · rw [hacc]
    split
    next => exact ⟨hzero, hhigh⟩
    next hk =>
      constructor
      · rw [BitVec.getLsbD_or, hzero, ← BitVec.twoPow_eq, BitVec.getLsbD_twoPow,
          decide_eq_false hk, Bool.and_false, Bool.or_false]
      · rw [BitVec.ushiftRight_or_distrib, hhigh]
        interval_cases k <;> rfl

theorem stageReservedZero_of_ends {s t : State} {i : Instr} (hi : i ≠ .reset) (h : Ends s i t)
    (hs : StageReservedZero s) : StageReservedZero t := by
  have hkept : FlagsKept False s t := by
    obtain hsets | ⟨-, hfails⟩ := ends_status hi h
    · exact hsets.flagsKept (success_not_mem_flagsSet i) _
    · exact hfails.flagsKept not_false
  obtain ⟨-, -, -, hreserved⟩ := hkept
  rw [stageReservedZero_iff] at hs ⊢
  exact fun k hk => (hreserved k hk).trans (hs k hk)

/-- A flag that is set after a command was set before it or is one of those the command sets. -/
theorem getFlag_of_ends {s t : State} {i : Instr} (hi : i ≠ .reset) (h : Ends s i t) {f : Flag}
    (hf : getFlag f t = true) : getFlag f s = true ∨ f ∈ flagsSet i := by
  obtain ⟨fs, -, hfs, -, hstage, -⟩ | ⟨-, hstage, -⟩ := ends_status hi h
  · rw [getFlag, hstage, BitVec.getLsbD_or, Bool.or_eq_true, getLsbD_flagsMask] at hf
    refine hf.imp_right fun hmem => ?_
    obtain ⟨g, hg, hbit⟩ := List.any_eq_true.1 hmem
    have hfg : f = g := by
      revert hbit
      cases f <;> cases g <;> decide
    exact hfg ▸ hfs hg
  · rw [getFlag, hstage, getLsbD_clearSuccess, Bool.and_eq_true] at hf
    exact .inl hf.1

/-! ### The lengths (R23) -/

theorem lengthLegal_of_ofNat {n cap : Nat} (hn : n ≤ cap) (hcap : cap < 2 ^ 31) :
    0 ≤ (BitVec.ofNat 32 n).toInt ∧ (BitVec.ofNat 32 n).toInt ≤ cap := by
  rw [toInt_ofNat_of_lt (by omega)]
  omega

theorem zzLength_afterZigzag {s : State} (h : GeometryLegal s) :
    0 ≤ (afterZigzag s).zzLen.toInt ∧ (afterZigzag s).zzLen.toInt ≤ Config.zzCap :=
  lengthLegal_of_ofNat (numBlocks_le h) (by decide)

theorem rleLength_afterRleenc {s : State} (h : LengthsLegal s) :
    0 ≤ (afterRleenc s).rleLen.toInt ∧ (afterRleenc s).rleLen.toInt ≤ Config.rleCap := by
  refine lengthLegal_of_ofNat ?_ (by decide)
  rw [length_encodeRLE]
  exact Nat.mul_le_mul_left 2 ((length_runs_le _).trans (length_zzSeq_le h))

/-- The decoding loop stops at the symbol count. -/
theorem length_decodeSymbols_le (pool : List Node) (root : Nat) (expected : Int) (bits : List Bool)
    (n : Nat) (out : List Word) :
    ((decodeSymbols pool root expected bits n out).1.length : Int) ≤ max (out.length : Int) expected := by
  fun_induction decodeSymbols pool root expected bits n out with
  | case1 => exact le_max_left _ _
  | case2 => exact le_max_left _ _
  | case3 => exact le_max_left _ _
  | case4 b bits n out hlt c hc sym f hleaf ih =>
    rw [List.length_append, List.length_singleton] at ih
    omega
  | case5 b bits n out hlt c hc hnode ih => exact ih

theorem length_decodePayload_le {s : State} (h : s.rleExp.toInt ≤ 1610612736) :
    (decodePayload s).1.length ≤ Config.rleCap := by
  have hle := length_decodeSymbols_le s.node (s.treeRoot.getD 0) s.rleExp.toInt (payloadBits s)
    (s.treeRoot.getD 0) []
  rw [List.length_nil] at hle
  have hcap := rleCap_eq
  unfold decodePayload
  dsimp only
  omega

/-- The lengths that `DESER` takes over have passed its checks. -/
theorem lengths_afterDeser {s : State} (hcap : CapacitiesLegal s.cap) (h : containerOk s = true) :
    (0 ≤ (afterDeser s).freqN.toInt ∧ (afterDeser s).freqN.toInt ≤ s.cap.freqCap)
      ∧ (0 ≤ (afterDeser s).encBytes.toInt ∧ (afterDeser s).encBytes.toInt ≤ s.cap.payCap) := by
  obtain ⟨-, hentries, -, hlo, hhi, -⟩ := (containerOk_iff s).1 h
  obtain ⟨-, -, hfreqCap, -⟩ := hcap
  refine ⟨lengthLegal_of_ofNat hentries (by omega), ?_⟩
  rw [afterDeser_frame]
  exact ⟨hlo, hhi⟩

theorem lengthsLegal_of_ends {s t : State} {i : Instr} (hi : i ≠ .reset) (h : Ends s i t)
    (hcap : CapacitiesLegal s.cap) (hgeometry : GeometryLegal s) (hs : LengthsLegal s) :
    LengthsLegal t := by
  have hkeeps := h.keeps hi
  have hcaps : t.cap = s.cap := congrArg (·.2.2.1) hkeeps.outside
  obtain ⟨hzz, hrle, hfreq, hpay⟩ := hs
  have hcap' := hcap
  obtain ⟨-, -, hfreqCap, hpayCap⟩ := hcap'
  unfold LengthsLegal
  rw [hcaps]
  refine ⟨?_, ?_, ?_, ?_⟩
  · by_cases hw : i ∈ [Instr.zigzag, .rledec]
    · cases h
      case reported => exact hzz
      case zigzag => exact zzLength_afterZigzag hgeometry
      case rledecFailed => exact ⟨le_rfl, Int.natCast_nonneg _⟩
      case rledec hfits =>
        rw [← expandedLength_eq] at hfits
        exact lengthLegal_of_ofNat hfits (by decide)
      all_goals exact absurd hw (by decide)
    · rwa [(hkeeps.sequence hw).1]
  · by_cases hw : i ∈ [Instr.rleenc, .hdec]
    · cases h
      case reported => exact hrle
      case rleenc => exact rleLength_afterRleenc ⟨hzz, hrle, hfreq, hpay⟩
      case hdec hexp =>
        rw [afterHdec_frame]
        exact lengthLegal_of_ofNat (length_decodePayload_le hexp) (by decide)
      all_goals exact absurd hw (by decide)
    · rwa [(hkeeps.stream hw).1]
  · by_cases hw : i ∈ [Instr.hfreq, .deser]
    · cases h
      case reported => exact hfreq
      case hfreq hfits => exact lengthLegal_of_ofNat hfits (by omega)
      case deser hok => exact (lengths_afterDeser hcap hok).1
      all_goals exact absurd hw (by decide)
    · rwa [(hkeeps.table hw).1]
  · by_cases hw : i ∈ [Instr.henc, .deser]
    · cases h
      case reported => exact hpay
      case henc bits hfits => exact lengthLegal_of_ofNat hfits hpayCap
      case deser hok => exact (lengths_afterDeser hcap hok).2
      all_goals exact absurd hw (by decide)
    · rwa [(hkeeps.payload hw).1]

/-! ### Geometry and tree -/

theorem geometryLegal_of_ends {s t : State} {i : Instr} (hi : i ≠ .reset) (h : Ends s i t)
    (hs : GeometryLegal s) : GeometryLegal t := by
  by_cases hw : i ∈ [Instr.ldrgb, .deser]
  · cases h
    case reported => exact hs
    case ldrgb hrange => exact hrange
    case deser hok =>
      obtain ⟨-, -, -, -, -, -, hh, hh', hw, hw'⟩ := (containerOk_iff s).1 hok
      exact ⟨hw, hw', hh, hh'⟩
    all_goals exact absurd hw (by decide)
  · obtain ⟨hwidth, hheight⟩ := (h.keeps hi).geometry hw
    rwa [GeometryLegal, hwidth, hheight]

/-- A legal tree, present when its flag says so. -/
def TreeKept (s : State) : Prop :=
  treeLegal s = true ∧ (getFlag .treeValid s = true → s.treeRoot.isSome = true)

theorem treeLegal_congr {s t : State} (h : treeParts t = treeParts s) :
    treeLegal t = treeLegal s := by
  obtain ⟨hnode, hn, hroot⟩ : t.node = s.node ∧ t.treeN = s.treeN ∧ t.treeRoot = s.treeRoot := by
    simpa [treeParts] using h
  rw [treeLegal, treeLegal, hnode, hn, hroot]

theorem treeKept_of_ends {s t : State} {i : Instr} (hi : i ≠ .reset) (h : Ends s i t)
    (hs : TreeKept s) : TreeKept t := by
  obtain ⟨htree, hpresent⟩ := hs
  by_cases hw : i ∈ [Instr.htree]
  · cases h
    case reported => exact ⟨htree, hpresent⟩
    case htree hentries => exact ⟨treeLegal_afterHtree hentries, fun _ => rfl⟩
    all_goals exact absurd hw (by decide)
  · have hparts := (h.keeps hi).tree hw
    refine ⟨(treeLegal_congr hparts).trans htree, fun hvalid => ?_⟩
    have hroot : t.treeRoot = s.treeRoot := congrArg (·.2.2) hparts
    have hbefore := (getFlag_of_ends hi h hvalid).resolve_right fun hset => hw (by
      revert hset
      cases i <;> decide)
    exact hroot ▸ hpresent hbefore

/-! ### The invariant -/

theorem legalState_of_ends_of_ne_reset {s t : State} {i : Instr} (hi : i ≠ .reset)
    (h : Ends s i t) (hs : LegalState s) : LegalState t := by
  obtain ⟨htree, hpresent⟩ := treeKept_of_ends hi h ⟨hs.tree, hs.treePresent⟩
  obtain ⟨hmemory, hcodes⟩ := memoryForm_of_ends h ⟨hs.memory, hs.codes⟩
  have hcaps : t.cap = s.cap := congrArg (·.2.2.1) (h.keeps hi).outside
  exact {
    stage := stageReservedZero_of_ends hi h hs.stage
    diagnostics := diagnosticsLegal_of_recordsCode (recordsCode_of_ends hi h) hs.diagnostics
    success := successRecorded_of_ends hi h hs.success
    capacities := hcaps ▸ hs.capacities
    geometry := geometryLegal_of_ends hi h hs.geometry
    lengths := lengthsLegal_of_ends hi h hs.capacities hs.geometry hs.lengths
    memory := hmemory
    codes := hcodes
    tree := htree
    treePresent := hpresent }

/-- `RESET` keeps the capacities and puts everything else at its reset value. -/
theorem legalState_cmdReset {s : State} (hs : LegalState s) : LegalState (cmdReset s) :=
  { legalState_reset with
    capacities := hs.capacities
    lengths := ⟨⟨le_rfl, Int.natCast_nonneg _⟩, ⟨le_rfl, Int.natCast_nonneg _⟩,
      ⟨le_rfl, Int.natCast_nonneg _⟩, ⟨le_rfl, Int.natCast_nonneg _⟩⟩ }

theorem legalState_of_ends {s t : State} {i : Instr} (h : Ends s i t) (hs : LegalState s) :
    LegalState t := by
  by_cases hi : i = .reset
  · subst hi
    cases h with
    | reported _ d hd =>
      exact legalState_of_ends_of_ne_reset (i := .ldcont) (by decide) (.reported _ d hd) hs
    | reset => exact legalState_cmdReset hs
  · exact legalState_of_ends_of_ne_reset hi h hs

theorem legalState_diag {s : State} {d : Diag} (hd : d ≠ .illegal) (hs : LegalState s) :
    LegalState (diag d s) :=
  legalState_of_ends (i := .ldcont) (.reported _ d hd) hs

theorem legalState_of_exec {s t : State} {i : Instr} (h : exec i s = .next t) (hs : LegalState s) :
    LegalState t :=
  exec_induction (R := fun s t => LegalState s → LegalState t)
    (fun _ _ _ hsu _ hut hs => hut (hsu hs)) (fun _ _ _ _ => legalState_of_ends)
    (fun _ _ => legalState_diag (by decide)) h hs

/-- The diagnostic of an illegal word is a code like the others. -/
theorem legalState_diag_illegal {s : State} (hs : LegalState s) : LegalState (diag .illegal s) := by
  obtain ⟨-, hzero, hhigh⟩ := hs.diagnostics
  have hacc : (diag .illegal s).diagacc = s.diagacc ||| 2#32 := rfl
  have hsuccess : SuccessRecorded (diag .illegal s) := hs.success.imp_right fun hbit => by
    rw [hacc, BitVec.getLsbD_or, hbit, Bool.true_or]
  refine { hs with diagnostics := ⟨(by decide : (1#32).toNat ≤ 12), ?_, ?_⟩, success := hsuccess }
  · rw [hacc, BitVec.getLsbD_or, hzero]
    rfl
  · rw [hacc, BitVec.ushiftRight_or_distrib, hhigh]
    rfl

/-- Settles O60: a step runs a command, or changes a register or a buffer that the invariant does not
speak of. -/
theorem stepKeepsLegalState : Obligations.StepKeepsLegalState := by
  intro s t hs h
  refine step_induction (P := LegalState) (fun s rest hs => { hs with }) (fun s v hs => { hs with })
    (fun s off v hs => ?_) (fun s id i v hs => ?_) (fun _ => legalState_diag_illegal)
    (fun _ _ _ => legalState_of_exec) hs h
  · rw [writeRegister_frame]
    exact { hs with }
  · have hmemory := memory_wf_writeBuffer hs.memory id i v
    rw [writeBuffer_frame] at hmemory ⊢
    exact { hs with memory := hmemory }

end Sys2Proof.Machine
end

section
/-! PROOFS. The decoding loop of `HDEC` (`45_huffman.md` R206). Along a path that ends at no leaf the loop
only moves (`decodeSymbols_walk`), so a path to a leaf yields its symbol and leads back to the root; the
three ends of the statement are what can follow the last whole path. -/

namespace Sys2Proof.Machine

/-! ### One turn of the decoding loop -/

section
variable {pool : List Node} {root : Nat} {expected : Int} {out : List Word}

/-- With the expected number of symbols the loop stops. -/
theorem decodeSymbols_of_full (h : expected ≤ out.length) (bits : List Bool) (n : Nat) :
    decodeSymbols pool root expected bits n out = (out, .stopped) := by
  cases bits with
  | nil => rfl
  | cons b bits => rw [decodeSymbols, if_pos h]

variable (h : (out.length : Int) < expected) (bits : List Bool) {n c : Nat} {b : Bool}
include h

theorem decodeSymbols_of_missing_child (hc : childOf pool n b = none) :
    decodeSymbols pool root expected (b :: bits) n out = (out, .badCode) := by
  rw [decodeSymbols, if_neg (not_le.2 h), hc]

theorem decodeSymbols_to_leaf (hc : childOf pool n b = some c) {sym : Word}
    (hleaf : leafSymbol pool c = some sym) :
    decodeSymbols pool root expected (b :: bits) n out
      = decodeSymbols pool root expected bits root (out ++ [sym]) := by
  obtain ⟨sym', f, hnode⟩ := leafSymbol_isSome_iff.1 (Option.isSome_of_mem hleaf)
  obtain rfl : sym' = sym := by simpa [leafSymbol, hnode] using hleaf
  rw [decodeSymbols, if_neg (not_le.2 h), hc]
  dsimp only
  rw [hnode]

theorem decodeSymbols_to_internal (hc : childOf pool n b = some c)
    (hleaf : (leafSymbol pool c).isSome = false) :
    decodeSymbols pool root expected (b :: bits) n out
      = decodeSymbols pool root expected bits c out := by
  rw [decodeSymbols, if_neg (not_le.2 h), hc]
  dsimp only
  split
  next sym f hnode => simp [leafSymbol, hnode] at hleaf
  next => rfl

/-- Along a path that ends at no leaf the loop only moves: a leaf on the way would end the path. -/
theorem decodeSymbols_walk {walked : List Bool} {m : Nat} (hpath : followPath pool n walked = some m)
    (hm : (leafSymbol pool m).isSome = false) :
    decodeSymbols pool root expected (walked ++ bits) n out
      = decodeSymbols pool root expected bits m out := by
  induction walked generalizing n with
  | nil => rw [Option.some.inj hpath, List.nil_append]
  | cons b walked ih =>
    rw [followPath_cons, Option.bind_eq_some_iff] at hpath
    obtain ⟨c, hc, hrest⟩ := hpath
    have hleaf : (leafSymbol pool c).isSome = false := by
      by_contra hleaf
      rw [Bool.not_eq_false] at hleaf
      obtain rfl := eq_nil_of_followPath_leaf hleaf hrest
      rw [← Option.some.inj hrest, hleaf] at hm
      exact Bool.false_ne_true hm.symm
    rw [List.cons_append, decodeSymbols_to_internal h _ hc hleaf, ih hrest]

/-- A path to a leaf yields its symbol. -/
theorem decodeSymbols_path {path : List Bool} {k : Nat} {sym : Word} (hne : path ≠ [])
    (hpath : followPath pool n path = some k) (hk : leafSymbol pool k = some sym) :
    decodeSymbols pool root expected (path ++ bits) n out
      = decodeSymbols pool root expected bits root (out ++ [sym]) := by
  obtain rfl | ⟨walked, b, rfl⟩ := List.eq_nil_or_concat' path
  · exact absurd rfl hne
  · obtain ⟨p, hwalked, hchild⟩ := followPath_append_singleton.1 hpath
    have hp : (leafSymbol pool p).isSome = false := by
      by_contra hleaf
      rw [childOf_of_leaf (Bool.not_eq_false _ ▸ hleaf)] at hchild
      exact nomatch hchild
    rw [List.append_assoc, decodeSymbols_walk h _ hwalked hp, List.singleton_append,
      decodeSymbols_to_leaf h _ hchild hk]

end

/-! ### Whole paths -/

/-- The symbols of a list of leaves. -/
def symbolsOf (pool : List Node) (leaves : List (List Bool × Nat)) : List Word :=
  leaves.map fun p => (leafSymbol pool p.2).getD 0#32

theorem length_symbolsOf (pool : List Node) (leaves : List (List Bool × Nat)) :
    (symbolsOf pool leaves).length = leaves.length := List.length_map _

/-- The paths of leaves one after the other yield their symbols. -/
theorem decodeSymbols_leaves {pool : List Node} {root : Nat} (hshape : TreeShape pool root)
    {leaves : List (List Bool × Nat)}
    (hleaves : ∀ p ∈ leaves, followPath pool root p.1 = some p.2
      ∧ (leafSymbol pool p.2).isSome = true)
    {expected : Int} {out : List Word} (hcount : (out.length + leaves.length : Int) ≤ expected)
    (rest : List Bool) :
    decodeSymbols pool root expected (leaves.flatMap Prod.fst ++ rest) root out
      = decodeSymbols pool root expected rest root (out ++ symbolsOf pool leaves) := by
  induction leaves generalizing out with
  | nil => rw [symbolsOf, List.map_nil, List.append_nil]; rfl
  | cons p leaves ih =>
    obtain ⟨⟨hpath, hleaf⟩, hrest⟩ := List.forall_mem_cons.1 hleaves
    obtain ⟨sym, hsym⟩ := Option.isSome_iff_exists.1 hleaf
    rw [List.length_cons] at hcount
    have hroom : (out.length : Int) < expected := by omega
    rw [List.flatMap_cons, List.append_assoc,
      decodeSymbols_path hroom _ (hshape.path_to_leaf_ne_nil hpath hleaf) hpath hsym,
      ih hrest (by rw [List.length_append, List.length_singleton]; omega), List.append_assoc,
      symbolsOf, symbolsOf, List.map_cons, hsym]
    rfl

/-! ### The payload as bits (R205) -/

theorem payloadBits_eq (s : State) : payloadBits s = (List.range (8 * regLen s.encBytes)).map
    fun i => (payAt s (i / 8)).getLsbD (7 - i % 8) := by
  simp only [payloadBits, bitsOfByte_eq]
  exact flatMap_range_map (fun j k => (payAt s j).getLsbD (7 - k)) 8 _

/-- Bits that are those of the payload byte by byte are the payload's bits. -/
theorem payloadBits_eq_of_bytes {s : State} {bits : List Bool}
    (hbits : ∀ j < regLen s.encBytes, ∀ m < 8,
      bits[8 * j + m]? = some ((payAt s j).getLsbD (7 - m)))
    (hlength : bits.length = 8 * regLen s.encBytes) : payloadBits s = bits := by
  rw [payloadBits_eq]
  refine List.ext_getElem (by simp [hlength]) fun i hi hi' => ?_
  have hbit := hbits (i / 8) (by omega) (i % 8) (by omega)
  rw [Nat.div_add_mod, List.getElem?_eq_getElem hi', Option.some.injEq] at hbit
  rw [List.getElem_map, List.getElem_range, hbit]

/-! ### `HDEC` -/

theorem hdecDiag_of_stopped {s : State} {out : List Word} (h : decodePayload s = (out, .stopped)) :
    hdecDiag s = if (out.length : Int) < s.rleExp.toInt then some .huffShort else none := by
  rw [hdecDiag, h]

theorem hdecDiag_of_badCode {s : State} {out : List Word} (h : decodePayload s = (out, .badCode)) :
    hdecDiag s = some .huffBadcode := by
  rw [hdecDiag, h]

theorem rleLen_afterHdec (s : State) :
    (afterHdec s).rleLen = BitVec.ofNat 32 (decodePayload s).1.length := by
  rw [afterHdec_frame]
  rfl

theorem rleAt_afterHdec (s : State) (j : Nat) : rleAt (afterHdec s) j =
    if h : j < (decodePayload s).1.length then (decodePayload s).1[j] else rleAt s j := by
  have hwrite : rleAt (afterHdec s) j = rleAt (writeRle 0 (decodePayload s).1 s) j := by
    rw [afterHdec_frame]
    rfl
  simpa [rleAt_writeRle] using hwrite

/-- The frame of `HDEC`, by the diagnostic of the end. -/
theorem afterHdec_of_diag {s : State} {d : Option Diag} (h : hdecDiag s = d) :
    afterHdec s = { s with
      lastdiag := (report d (beginCommand s)).lastdiag, diagacc := (report d s).diagacc
      stage := s.stage ||| 0x40#32, rleLen := (afterHdec s).rleLen
      mem := { s.mem with rle := (afterHdec s).mem.rle } } := by
  subst h
  rw [afterHdec_frame]
  rfl

/-- The stream that `HDEC` leaves, from the symbols decoded. -/
theorem stream_afterHdec {s : State} {leaves : List (List Bool × Nat)}
    (hleaves : ∀ p ∈ leaves, (leafSymbol s.node p.2).isSome = true)
    (hlength : leaves.length ≤ Config.rleCap)
    (h : (decodePayload s).1 = symbolsOf s.node leaves) :
    (afterHdec s).rleLen.toInt = leaves.length
      ∧ (∀ j (h : j < leaves.length),
        some (rleAt (afterHdec s) j) = leafSymbol s.node (leaves[j]).2)
      ∧ ∀ j, leaves.length ≤ j → rleAt (afterHdec s) j = rleAt s j := by
  have hcount : (decodePayload s).1.length = leaves.length := h ▸ length_symbolsOf _ _
  have hcap := rleCap_eq
  refine ⟨?_, fun j hj => ?_, fun j hj => ?_⟩
  · rw [rleLen_afterHdec, hcount, toInt_ofNat_of_lt (by omega)]
  · obtain ⟨sym, hsym⟩ := Option.isSome_iff_exists.1 (hleaves _ (List.getElem_mem hj))
    rw [rleAt_afterHdec, dif_pos (by omega), hsym]
    simp [h, symbolsOf, hsym]
  · rw [rleAt_afterHdec, dif_neg (by omega)]

/-- Settles O41: after the whole paths the loop is at the root with the leaves' symbols; then it has
enough of them, or moves on to no leaf, or meets a missing child. -/
theorem hdecDecodesPaths : Obligations.HdecDecodesPaths := by
  intro s r leaves rest htreeValid hbitsValid htree hr hexp hbytes hleaves hbits hlength
  obtain ⟨-, hshape⟩ := (treeLegal_iff hr).1 htree
  have hpayload : payloadBits s = leaves.flatMap Prod.fst ++ rest :=
    payloadBits_eq_of_bytes hbits hlength
  have hdecode (hcount : (leaves.length : Int) ≤ s.rleExp.toInt) : decodePayload s
      = decodeSymbols s.node r s.rleExp.toInt rest r (symbolsOf s.node leaves) := by
    have hroot : s.treeRoot.getD 0 = r := by rw [hr]; rfl
    rw [decodePayload, hpayload, hroot, decodeSymbols_leaves hshape hleaves (by simpa using hcount),
      List.nil_append]
  have hsymbols := length_symbolsOf s.node leaves
  have henough (hcount : (leaves.length : Int) = max 0 s.rleExp.toInt) :
      decodePayload s = (symbolsOf s.node leaves, .stopped) := by
    rcases le_or_gt 0 s.rleExp.toInt with hpos | hneg
    · rw [hdecode (by omega), decodeSymbols_of_full (by omega)]
    · obtain rfl : leaves = [] := List.eq_nil_of_length_eq_zero (by omega)
      exact decodeSymbols_of_full (by rw [List.length_nil]; omega) _ _
  have hshort {n : Nat} (hcount : (leaves.length : Int) < s.rleExp.toInt)
      (hrest : followPath s.node r rest = some n) (hn : (leafSymbol s.node n).isSome = false) :
      decodePayload s = (symbolsOf s.node leaves, .stopped) := by
    rw [hdecode hcount.le, ← List.append_nil rest, decodeSymbols_walk (by omega) [] hrest hn]
    rfl
  have hbad {walked later : List Bool} {b : Bool} {n : Nat}
      (hcount : (leaves.length : Int) < s.rleExp.toInt) (heq : rest = walked ++ b :: later)
      (hwalked : followPath s.node r walked = some n) (hn : (leafSymbol s.node n).isSome = false)
      (hmissing : followPath s.node r (walked ++ [b]) = none) :
      decodePayload s = (symbolsOf s.node leaves, .badCode) := by
    have hchild : childOf s.node n b = none := by
      rw [followPath_append, hwalked] at hmissing
      simpa [followPath_cons] using hmissing
    rw [hdecode hcount.le, heq, decodeSymbols_walk (by omega) _ hwalked hn,
      decodeSymbols_of_missing_child (by omega) _ hchild]
  refine ⟨afterHdec s, exec_hdec_of_valid htreeValid hbitsValid hexp, fun hcount => ?_,
    fun n hcount hrest hn => ?_, fun walked b later n hcount heq hwalked hn hmissing => ?_,
    fun hends => ?_⟩
  · refine afterHdec_of_diag (d := none) ?_
    rw [hdecDiag_of_stopped (henough hcount)]
    exact if_neg (by omega)
  · refine afterHdec_of_diag (d := some .huffShort) ?_
    rw [hdecDiag_of_stopped (hshort hcount hrest hn)]
    exact if_pos (by omega)
  · refine afterHdec_of_diag (d := some .huffBadcode) ?_
    exact hdecDiag_of_badCode (hbad hcount heq hwalked hn hmissing)
  · have hcap := rleCap_eq
    obtain hcount | ⟨hcount, n, hrest, hn⟩ | ⟨hcount, walked, b, later, n, heq, hwalked, hn, hmissing⟩
      := hends
    · exact stream_afterHdec (fun p hp => (hleaves p hp).2) (by omega)
        (congrArg Prod.fst (henough hcount))
    · exact stream_afterHdec (fun p hp => (hleaves p hp).2) (by omega)
        (congrArg Prod.fst (hshort hcount hrest hn))
    · exact stream_afterHdec (fun p hp => (hleaves p hp).2) (by omega)
        (congrArg Prod.fst (hbad hcount heq hwalked hn hmissing))

end Sys2Proof.Machine
end

section
/-! PROOFS. The Huffman coder end to end (`45_huffman.md` R207). `issue_huffman` says what `HFREQ`,
`HTREE`, `HCODES` and `HENC` leave together: the codes of the symbols joined (`codedBits`), packed. The
symbol of each entry stands in the leaf of that entry, so that decoding the joined codes gives the
stream back (`decodeSymbols_codedBits`), whatever bits follow. -/

namespace Sys2Proof.Machine

/-! ### Flags after a command -/

/-- A flag after a command that sets the flag `f`. -/
theorem getFlag_of_or_mask {s t : State} {f : Flag} (h : t.stage = s.stage ||| f.mask) (g : Flag) :
    getFlag g t = (decide (g = f) || getFlag g s) := by
  have hbit : decide (g.bit = f.bit) = decide (g = f) := by cases g <;> cases f <;> rfl
  rw [getFlag, h, BitVec.getLsbD_or, getLsbD_mask, hbit, Bool.or_comm]
  rfl

theorem getFlag_of_or_mask_self {s t : State} {f : Flag} (h : t.stage = s.stage ||| f.mask) :
    getFlag f t = true := by
  rw [getFlag_of_or_mask h, decide_eq_true rfl, Bool.true_or]

/-- A command that sets a flag clears none. -/
theorem getFlag_of_or_mask_of_set {s t : State} {f g : Flag} (h : t.stage = s.stage ||| f.mask)
    (hg : getFlag g s = true) : getFlag g t = true := by
  rw [getFlag_of_or_mask h, hg, Bool.or_true]

/-! ### Table, tree and codes together -/

/-- The state after `HFREQ`, `HTREE` and `HCODES`. -/
def huffmanCoded (s : State) : State := afterHcodes (afterHtree (afterHfreq s))

/-- The entry of a symbol: its place among the distinct symbols of the stream. -/
def entryIndex (s : State) (x : Word) : Nat := (distinctSymbols (rleSeq s)).idxOf x

/-- The codes of the symbols of the stream one after the other. -/
def codedBits (s : State) : List Bool :=
  (rleSeq s).flatMap fun x => codeAt (huffmanCoded s) (entryIndex s x)

/-- The symbols of the stream as leaves with their paths. -/
def codedLeaves (s : State) : List (List Bool × Nat) :=
  (rleSeq s).map fun x => (codeAt (huffmanCoded s) (entryIndex s x), entryIndex s x)

/-- The pool of the stream's tree. -/
def streamPool (s : State) : List Node := (afterHtree (afterHfreq s)).node

/-- The root of the stream's tree. -/
def streamRoot (s : State) : Nat := htreeRoot (afterHfreq s)

theorem nodup_distinctSymbols (seq : List Word) : (distinctSymbols seq).Nodup :=
  (ascending_distinctSymbols seq).imp fun hlt heq => hlt.ne (congrArg BitVec.toInt heq)

theorem entryIndex_lt {s : State} {x : Word} (hx : x ∈ rleSeq s) :
    entryIndex s x < (distinctSymbols (rleSeq s)).length :=
  List.idxOf_lt_length_of_mem (mem_distinctSymbols.2 hx)

theorem distinctSymbols_pos {s : State} (h : 1 ≤ regLen s.rleLen) :
    1 ≤ (distinctSymbols (rleSeq s)).length := by
  have hx : rleAt s 0 ∈ distinctSymbols (rleSeq s) :=
    mem_distinctSymbols.2 (List.mem_map_of_mem (List.mem_range.2 h))
  exact List.length_pos_of_mem hx

theorem freqAt_entryIndex {s : State} {x : Word} (hx : x ∈ rleSeq s) :
    freqAt (afterHfreq s) (2 * entryIndex s x) = x :=
  (freqSymbol_afterHfreq s (entryIndex_lt hx)).trans
    (List.getElem_idxOf (entryIndex_lt hx))

section
variable {s : State} (hcap : CapacitiesLegal s.cap)
  (hfits : (distinctSymbols (rleSeq s)).length ≤ s.cap.freqCap)
include hcap hfits

theorem regLen_freqN_afterHfreq :
    regLen (afterHfreq s).freqN = (distinctSymbols (rleSeq s)).length := by
  rw [regLen, toInt_freqN_afterHfreq hcap hfits]
  rfl

/-- The entry that `HENC` finds for a symbol is the symbol's, because the table lists each symbol
once. -/
theorem entryOf_huffmanCoded {x : Word} (hx : x ∈ rleSeq s) :
    entryOf (huffmanCoded s) x = some (entryIndex s x) := by
  have hlt := entryIndex_lt hx
  have hlength : regLen (huffmanCoded s).freqN = (distinctSymbols (rleSeq s)).length :=
    regLen_freqN_afterHfreq hcap hfits
  refine entryOf_eq_some (hlength ▸ hlt) (freqAt_entryIndex hx) fun j hj heq => ?_
  have hsymbol : (distinctSymbols (rleSeq s))[j]'(hj.trans hlt) = x :=
    (freqSymbol_afterHfreq s (hj.trans hlt)).symm.trans heq
  have hindex : entryIndex s x = j := by
    rw [entryIndex, ← hsymbol]
    exact (nodup_distinctSymbols (rleSeq s)).idxOf_getElem j _
  exact Nat.lt_irrefl _ (hindex ▸ hj)

theorem codeSequence_huffmanCoded :
    codeSequence (huffmanCoded s) (rleSeq (huffmanCoded s)) = some (codedBits s) := by
  have hstream : rleSeq (huffmanCoded s) = (List.range (regLen s.rleLen)).map (rleAt s) := rfl
  rw [hstream, codeSequence_map (entry := fun i => entryIndex s (rleAt s i)) fun i hi =>
    entryOf_huffmanCoded hcap hfits (List.mem_map_of_mem hi), codedBits, rleSeq, List.flatMap_map]

theorem leafSymbol_entryIndex {x : Word} (hx : x ∈ rleSeq s) :
    leafSymbol (streamPool s) (entryIndex s x) = some x :=
  (leafSymbol_afterHtree ((regLen_freqN_afterHfreq hcap hfits).symm ▸ entryIndex_lt hx)).trans
    (congrArg some (freqAt_entryIndex hx))

variable (hpos : 1 ≤ regLen s.rleLen)
include hpos

theorem one_le_freqN_afterHfreq : 1 ≤ regLen (afterHfreq s).freqN :=
  regLen_freqN_afterHfreq hcap hfits ▸ distinctSymbols_pos hpos

theorem treeShape_stream : TreeShape (streamPool s) (streamRoot s) :=
  treeShape_afterHtree (one_le_freqN_afterHfreq hcap hfits hpos)

/-- The code of a symbol is the path to its leaf. -/
theorem followPath_code {x : Word} (hx : x ∈ rleSeq s) :
    followPath (streamPool s) (streamRoot s) (codeAt (huffmanCoded s) (entryIndex s x))
      = some (entryIndex s x) := by
  have htree := treeLegal_afterHtree (one_le_freqN_afterHfreq hcap hfits hpos)
  have hleaf : (leafSymbol (streamPool s) (entryIndex s x)).isSome = true :=
    leafSymbol_entryIndex hcap hfits hx ▸ rfl
  obtain ⟨path, hpath⟩ := exists_path_to_leaf htree (treeRoot_afterHtree _) hleaf
  rw [huffmanCoded, codeAt_afterHcodes htree (treeRoot_afterHtree _) hleaf hpath]
  exact hpath

/-- Decoding the joined codes gives the stream back, whatever bits follow (R207). -/
theorem decodeSymbols_codedBits (rest : List Bool) :
    decodeSymbols (streamPool s) (streamRoot s) (rleSeq s).length (codedBits s ++ rest)
      (streamRoot s) [] = (rleSeq s, .stopped) := by
  have hlength : (codedLeaves s).length = (rleSeq s).length := List.length_map _
  have hcoded : codedBits s = (codedLeaves s).flatMap Prod.fst := by
    rw [codedLeaves, List.flatMap_map, codedBits]
  have hsymbols : symbolsOf (streamPool s) (codedLeaves s) = rleSeq s := by
    rw [symbolsOf, codedLeaves, List.map_map]
    refine (List.map_congr_left fun x hx => ?_).trans (List.map_id _)
    rw [Function.comp_apply, leafSymbol_entryIndex hcap hfits hx]
    rfl
  have hleaves : ∀ p ∈ codedLeaves s, followPath (streamPool s) (streamRoot s) p.1 = some p.2
      ∧ (leafSymbol (streamPool s) p.2).isSome = true := List.forall_mem_map.2 fun x hx =>
    ⟨followPath_code hcap hfits hpos hx, leafSymbol_entryIndex hcap hfits hx ▸ rfl⟩
  rw [hcoded, decodeSymbols_leaves (treeShape_stream hcap hfits hpos) hleaves (by simp [hlength]),
    List.nil_append, hsymbols, decodeSymbols_of_full le_rfl]

/-- No code is longer than the table has entries. -/
theorem length_codedBits_le : (codedBits s).length ≤ (rleSeq s).length * (rleSeq s).length := by
  have hentries := regLen_freqN_afterHfreq hcap hfits
  have hsymbols : (distinctSymbols (rleSeq s)).length ≤ (rleSeq s).length :=
    length_distinctSymbols (rleSeq s) ▸ List.toFinset_card_le _
  have hcode : ∀ n ∈ (rleSeq s).map fun x =>
      (codeAt (huffmanCoded s) (entryIndex s x)).length, n ≤ (rleSeq s).length :=
    List.forall_mem_map.2 fun x hx => by
      obtain ⟨-, hle⟩ := length_path_afterHtree (one_le_freqN_afterHfreq hcap hfits hpos)
        (hentries.symm ▸ entryIndex_lt hx) (followPath_code hcap hfits hpos hx)
      have := List.length_pos_of_mem hx
      omega
  rw [codedBits, List.length_flatMap]
  refine (List.sum_le_card_nsmul _ _ hcode).trans ?_
  rw [List.length_map, smul_eq_mul]

end

/-! ### The four commands -/

/-- The state after `HFREQ`, `HTREE`, `HCODES` and `HENC`. -/
def afterHuffman (s : State) : State := afterHenc (huffmanCoded s) (codedBits s)

/-- On a non-empty stream the four commands overflow the table or the payload, or leave the packed
codes. -/
theorem issue_huffman {s : State} (hvalid : getFlag .rleValid s = true)
    (hcap : CapacitiesLegal s.cap) (hpos : 1 ≤ regLen s.rleLen) :
    issue [.hfreq, .htree, .hcodes, .henc] s = .next (
      if s.cap.freqCap < (distinctSymbols (rleSeq s)).length then diagnosed 10 s
      else if s.cap.payCap < bytesFor (codedBits s).length then diagnosed 10 (huffmanCoded s)
      else afterHuffman s) := by
  split
  next hlong =>
    exact issue_of_diag ((exec_hfreq_of_valid hvalid).trans (congrArg _ (if_pos hlong)))
      (diag_lastdiag_ne_zero .overflow s) _
  next hfits =>
    have hentries := one_le_freqN_afterHfreq hcap (not_lt.1 hfits) hpos
    have hfreq : getFlag .freqValid (afterHfreq s) = true := getFlag_of_or_mask_self rfl
    have htree : getFlag .treeValid (afterHtree (afterHfreq s)) = true := getFlag_of_or_mask_self rfl
    have hcodes : getFlag .codesValid (huffmanCoded s) = true := getFlag_of_or_mask_self rfl
    have hrle : getFlag .rleValid (huffmanCoded s) = true :=
      getFlag_of_or_mask_of_set rfl (getFlag_of_or_mask_of_set rfl (getFlag_of_or_mask_of_set rfl hvalid))
    have hhenc : exec .henc (huffmanCoded s) = .next (
        if s.cap.payCap < bytesFor (codedBits s).length then diagnosed 10 (huffmanCoded s)
        else afterHuffman s) := by
      rw [exec_henc_of_valid hrle hcodes, codeSequence_huffmanCoded hcap (not_lt.1 hfits)]
      rfl
    rw [issue_of_clean ((exec_hfreq_of_valid hvalid).trans (congrArg _ (if_neg hfits))) rfl,
      issue_of_clean ((exec_htree_of_valid hfreq).trans (congrArg _ (if_neg (by omega)))) rfl,
      issue_of_clean (exec_hcodes_of_valid htree) rfl, issue_cons]
    rw [exec_eq_rule, Host.Outcome.next.injEq] at hhenc
    rw [← huffmanCoded, hhenc, issue_nil, ite_self]

/-- The payload of the four commands: the joined codes and zeros after them. -/
theorem payloadBits_afterHuffman {s : State} (hcap : CapacitiesLegal s.cap)
    (hfits : bytesFor (codedBits s).length ≤ s.cap.payCap) :
    ∃ padding, payloadBits (afterHuffman s) = codedBits s ++ padding := by
  have hbytes : regLen (afterHuffman s).encBytes = bytesFor (codedBits s).length := by
    rw [regLen, afterHuffman, toInt_encBytes_afterHenc (s := huffmanCoded s) hcap hfits]
    rfl
  have hroom : (codedBits s).length ≤ 8 * bytesFor (codedBits s).length := by
    unfold bytesFor; omega
  refine ⟨List.replicate (8 * bytesFor (codedBits s).length - (codedBits s).length) false,
    payloadBits_eq_of_bytes (fun j hj m hm => ?_) ?_⟩
  · rw [hbytes, ← length_packBits] at hj
    rw [afterHuffman, payAt_afterHenc _ hj, getLsbD_getElem_packBits hj hm]
    rw [length_packBits] at hj
    by_cases hbit : 8 * j + m < (codedBits s).length
    · rw [List.getElem?_append_left hbit, List.getD_eq_getElem _ _ hbit,
        List.getElem?_eq_getElem hbit]
    · rw [List.getElem?_append_right (not_lt.1 hbit), List.getD_eq_default _ _ (not_lt.1 hbit),
        List.getElem?_replicate, if_pos (by omega)]
  · rw [List.length_append, List.length_replicate, hbytes]
    omega

/-- What `HDEC` leaves when it decodes a whole stream. -/
theorem afterHdec_of_stream {s : State} {seq : List Word} (h : decodePayload s = (seq, .stopped))
    (hexp : s.rleExp.toInt = seq.length) : afterHdec s = hdecWritten s := by
  rw [afterHdec, hdecDiag_of_stopped h, if_neg (by omega)]
  rfl

theorem length_rleSeq (s : State) : (rleSeq s).length = regLen s.rleLen := by
  rw [rleSeq, List.length_map, List.length_range]

/-- Settles O42: the four commands leave the stream as it is, and the payload begins with its joined
codes. -/
theorem huffmanRoundTrip : Obligations.HuffmanRoundTrip := by
  intro s t hvalid hlegal hcap hpos hexp hissue hclean
  have hstream : 1 ≤ regLen s.rleLen := by unfold regLen; omega
  have hlength : s.rleExp.toInt = (rleSeq s).length := by
    rw [hexp, length_rleSeq, regLen]
    omega
  rw [issue_huffman hvalid hcap hstream] at hissue
  obtain rfl := Host.Outcome.next.inj hissue
  have hnotDiag (s : State) : (diagnosed 10 s).lastdiag ≠ 0#32 := diag_lastdiag_ne_zero .overflow s
  split at hclean
  next => exact absurd hclean (hnotDiag s)
  next hfits =>
    rw [if_neg hfits]
    split at hclean
    next => exact absurd hclean (hnotDiag _)
    next hpay =>
      rw [if_neg hpay]
      obtain ⟨padding, hbits⟩ := payloadBits_afterHuffman hcap (not_lt.1 hpay)
      have hdecode : decodePayload (afterHuffman s) = (rleSeq s, .stopped) := by
        rw [← decodeSymbols_codedBits hcap (not_lt.1 hfits) hstream padding, ← hbits, ← hlength]
        rfl
      have htree : getFlag .treeValid (afterHuffman s) = true :=
        getFlag_of_or_mask_of_set rfl (getFlag_of_or_mask_of_set rfl (getFlag_of_or_mask_self rfl))
      have hlt := length_rleSeq_lt hlegal
      obtain ⟨-, ⟨-, hrleLen⟩, -⟩ := hlegal
      refine ⟨_, exec_hdec_of_valid htree (getFlag_of_or_mask_self rfl) (hexp ▸ hrleLen), ?_, ?_,
        fun i => ?_⟩
      · rw [afterHdec_of_stream hdecode hlength]
        rfl
      · rw [rleLen_afterHdec, hdecode, ← hexp]
        exact BitVec.eq_of_toInt_eq (by rw [toInt_ofNat_of_lt hlt, hlength])
      · rw [rleAt_afterHdec, hdecode]
        split
        next hi => simp [rleSeq]
        next => rfl

end Sys2Proof.Machine
end

section
/-! PROOFS. Round trips of the scanner and the run-length coder (`43_zigzag.md` R165 to R170, `44_rle.md`
R185), and the two tables of the quantizer (`42_quantizer.md` R153). -/

namespace Sys2Proof.Machine

/-! ### The scan (R165, R166) -/

theorem scanPosition_lt : ∀ {j : Nat}, j < 64 → scanPosition j < 64 := by decide +kernel

/-- The scan visits every cell. -/
theorem scanIndex_scanPosition : ∀ {j : Nat}, j < 64 → scanIndex (scanPosition j) = j := by
  decide +kernel

/-- Settles O28: the scan is a table of 64 entries. -/
theorem scanOrder : Obligations.ScanOrder :=
  ⟨by decide, fun _ hk => ⟨scanPosition_scanIndex hk, scanIndex_scanPosition hk, scanPosition_lt hk,
    scanIndex_lt hk⟩, by decide +kernel⟩

/-! ### `ZIGZAG` and `DEZIGZAG` -/

/-- The cells of a sequence that was scanned from `QB` are those of `QB`. -/
theorem unscannedAt_afterZigzag {s : State} (h : GeometryLegal s) {i : Nat}
    (hi : i < 192 * numBlocks s) : unscannedAt (afterZigzag s) i = qbAt s i := by
  have hcell : i % 64 < 64 := Nat.mod_lt i (by decide)
  have hplace := scanPosition_lt hcell
  have hindex : i / 64 * 64 + scanPosition (i % 64) < 192 * numBlocks s := by omega
  have hlength : regLen (afterZigzag s).zzLen = 192 * numBlocks s :=
    (congrArg Int.toNat (toInt_ofNat_numBlocks h)).trans (by omega)
  obtain ⟨hblock, hscan⟩ := blockIndex_div_mod (i / 64) hplace
  rw [unscannedAt, zzOrZero, if_pos (hlength ▸ hindex), zzAt_afterZigzag s hindex, scannedAt, hblock,
    hscan, scanIndex_scanPosition hcell, Nat.div_add_mod' i 64]

/-- The sequence scanned from cells that a full sequence filled is that sequence. -/
theorem scannedAt_afterDezigzag {s : State} (h : s.zzLen.toInt = 192 * numBlocks s) {i : Nat}
    (hi : i < 192 * numBlocks s) : scannedAt (afterDezigzag s) i = zzAt s i := by
  have hscan : i % 64 < 64 := Nat.mod_lt i (by decide)
  have hcell := scanIndex_lt hscan
  have hindex : i / 64 * 64 + scanIndex (i % 64) < 192 * numBlocks s := by omega
  have hlength : regLen s.zzLen = 192 * numBlocks s := by rw [regLen, h]; omega
  obtain ⟨hblock, hplace⟩ := blockIndex_div_mod (i / 64) hcell
  rw [scannedAt, qbAt_afterDezigzag s hindex, unscannedAt, hblock, hplace,
    scanPosition_scanIndex hscan, Nat.div_add_mod' i 64, zzOrZero, if_pos (hlength ▸ hi)]

/-- Settles O31: each of the two looks up what the other has put at the place of a cell. -/
theorem zigzagRoundTrip : Obligations.ZigzagRoundTrip := by
  refine fun s hgeometry => ⟨fun hq => ?_, fun hzz hlength => ?_⟩
  · have hvalid : getFlag .zzValid (afterZigzag s) = true := getFlag_of_or_mask_self rfl
    refine ⟨afterDezigzag (afterZigzag s), ?_, rfl, fun i => ?_⟩
    · rw [issue_of_clean (exec_zigzag_of_valid hq) rfl,
        issue_of_clean (exec_dezigzag_of_valid hvalid) rfl, issue_nil]
    · rcases Nat.lt_or_ge i (192 * numBlocks s) with hi | hi
      · exact (qbAt_afterDezigzag (afterZigzag s) hi).trans (unscannedAt_afterZigzag hgeometry hi)
      · exact qbAt_afterDezigzag_of_ge (afterZigzag s) hi
  · have hvalid : getFlag .qValid (afterDezigzag s) = true := getFlag_of_or_mask_self rfl
    refine ⟨afterZigzag (afterDezigzag s), ?_, rfl, ?_, fun i => ?_⟩
    · rw [issue_of_clean (exec_dezigzag_of_valid hzz) rfl,
        issue_of_clean (exec_zigzag_of_valid hvalid) rfl, issue_nil]
    · exact BitVec.eq_of_toInt_eq ((toInt_ofNat_numBlocks hgeometry).trans hlength.symm)
    · rcases Nat.lt_or_ge i (192 * numBlocks s) with hi | hi
      · exact (zzAt_afterZigzag (afterDezigzag s) hi).trans (scannedAt_afterDezigzag hlength hi)
      · exact zzAt_afterZigzag_of_ge (afterDezigzag s) hi

/-! ### `RLEENC` and `RLEDEC` (R185) -/

/-- The expansion of a list of runs whose counts fit a signed word. -/
theorem expandPairs_flatMap {ps : List (Word × Nat)} (h : ∀ p ∈ ps, p.2 < 2 ^ 31) :
    expandPairs (ps.flatMap fun p => [p.1, BitVec.ofNat 32 p.2])
      = ps.flatMap fun p => List.replicate p.2 p.1 := by
  induction ps with
  | nil => rfl
  | cons p ps ih =>
    obtain ⟨hp, hps⟩ := List.forall_mem_cons.1 h
    have hcount : regLen (BitVec.ofNat 32 p.2) = p.2 := by
      rw [regLen, toInt_ofNat_of_lt hp, Int.toNat_natCast]
    rw [List.flatMap_cons, List.flatMap_cons, ← ih hps, List.cons_append, List.cons_append,
      List.nil_append, expandPairs, hcount]

/-- Decoding the encoding of a sequence gives the sequence back. -/
theorem expandPairs_encodeRLE {seq : List Word} (h : seq.length < 2 ^ 31) :
    expandPairs (encodeRLE seq) = seq :=
  (expandPairs_flatMap fun _ hp => (count_le_of_mem_runs hp).trans_lt h).trans (flatMap_runs seq)

theorem length_zzSeq (s : State) : (zzSeq s).length = regLen s.zzLen := by
  rw [zzSeq, List.length_map, List.length_range]

/-- The stream after `RLEENC` has two words for every run. -/
theorem regLen_rleLen_afterRleenc {s : State} (h : (zzSeq s).length ≤ Config.zzCap) :
    regLen (afterRleenc s).rleLen = (encodeRLE (zzSeq s)).length := by
  have hruns := length_runs_le (zzSeq s)
  have hlength := length_encodeRLE (zzSeq s)
  rw [zzCap_eq] at h
  exact congrArg Int.toNat (toInt_ofNat_of_lt (by omega))

/-- The stream after `RLEENC` is the encoding of the sequence. -/
theorem rleSeq_afterRleenc {s : State} (h : (zzSeq s).length ≤ Config.zzCap) :
    rleSeq (afterRleenc s) = encodeRLE (zzSeq s) := by
  refine List.ext_getElem (by rw [length_rleSeq, regLen_rleLen_afterRleenc h]) fun i hi hi' => ?_
  simp only [rleSeq, List.getElem_map, List.getElem_range]
  exact rleAt_afterRleenc s (List.getElem?_eq_getElem hi')

theorem runs_ne_nil {seq : List Word} (h : seq ≠ []) : runs seq ≠ [] := fun hnil =>
  h (by rw [← flatMap_runs seq, hnil, List.flatMap_nil])

/-- Settles O34: the stream of a sequence that is not empty is not malformed, and its expansion is the
sequence. -/
theorem rleRoundTrip : Obligations.RleRoundTrip := by
  intro s hzz hlegal hpos hexp
  have hvalid : getFlag .rleValid (afterRleenc s) = true := getFlag_of_or_mask_self rfl
  have hle := length_zzSeq_le hlegal
  have hlength : (zzSeq s).length = s.zzLen.toInt := by rw [length_zzSeq, regLen]; omega
  rw [zzCap_eq] at hle
  have hexpand : expandPairs (rleSeq (afterRleenc s)) = zzSeq s := by
    rw [rleSeq_afterRleenc (length_zzSeq_le hlegal), expandPairs_encodeRLE (by omega)]
  have hruns : 0 < (runs (zzSeq s)).length := List.length_pos_iff.2 (runs_ne_nil fun hnil => by
    rw [hnil, List.length_nil] at hlength
    omega)
  have hrleLen := toInt_rleLen_afterRleenc hlegal
  have hgood : ¬rleMalformed (afterRleenc s) = true := by
    have hexp' : (afterRleenc s).rleExp = s.rleExp := rfl
    rw [rleMalformed_iff (by omega), hexp', hrleLen, hexp]
    omega
  have hrledec : exec .rledec (afterRleenc s) = .next (afterRledec (afterRleenc s)) := by
    rw [exec_rledec_of_valid hvalid, if_neg hgood, hexpand, if_neg (by rw [zzCap_eq]; omega)]
  refine ⟨afterRledec (afterRleenc s), ?_, rfl, ?_, fun i => ?_⟩
  · rw [issue_of_clean (exec_rleenc_of_valid hzz) rfl, issue_of_clean hrledec rfl, issue_nil]
  · refine BitVec.eq_of_toInt_eq ?_
    rw [toInt_zzLen_afterRledec (by rw [hexpand, zzCap_eq]; omega), hexpand, hlength]
  · rcases Nat.lt_or_ge i (zzSeq s).length with hi | hi
    · rw [zzAt_afterRledec _ (by rwa [hexpand])]
      simp [hexpand, zzSeq]
    · rw [zzAt_afterRledec_of_ge _ (by rwa [hexpand])]
      rfl

/-! ### The quantization tables (R150 to R153) -/

theorem baseL_range : ∀ j < 64, 1 ≤ baseL.getD j 0 ∧ baseL.getD j 0 ≤ 121 := by decide

theorem baseC_range : ∀ j < 64, 1 ≤ baseC.getD j 0 ∧ baseC.getD j 0 ≤ 99 := by decide

/-- The scale of a legal quality, greatest for quality 1. -/
theorem qualityScale_range {q : Int} (hlo : 1 ≤ q) (hhi : q ≤ 100) :
    1 ≤ qualityScale q ∧ qualityScale q ≤ 5000 := by
  unfold qualityScale
  split
  · omega
  · split
    next hlow =>
      exact ⟨Int.le_ediv_of_mul_le (by omega) (by omega),
        Int.ediv_le_of_le_mul (by omega) (by omega)⟩
    next => omega

/-- A table entry is bounded by that of quality 1 for the greatest base value. -/
theorem quantEntry_range {base : List Int} {q bound : Int} {j : Nat} (hlo : 1 ≤ q) (hhi : q ≤ 100)
    (hbase : 1 ≤ base.getD j 0 ∧ base.getD j 0 ≤ bound) :
    1 ≤ quantEntry base q j ∧ quantEntry base q j ≤ 50 * bound := by
  obtain ⟨hscale, hscale'⟩ := qualityScale_range hlo hhi
  have hproduct : qualityScale q * base.getD j 0 ≤ 5000 * bound :=
    mul_le_mul hscale' hbase.2 (by omega) (by omega)
  unfold quantEntry
  omega

/-- Quality 50 gives the base table, quality 100 gives ones. -/
theorem quantEntry_fifty_hundred {base : List Int} {j : Nat}
    (hbase : 1 ≤ base.getD j 0 ∧ base.getD j 0 ≤ 149) :
    quantEntry base 50 j = base.getD j 0 ∧ quantEntry base 100 j = 1 := by
  have hfifty : qualityScale 50 = 100 := rfl
  have hhundred : qualityScale 100 = 1 := rfl
  rw [quantEntry, quantEntry, hfifty, hhundred]
  omega

/-- Settles O24: the entries are bounded by the base values, and the printed ones are computed. -/
theorem quantTables : Obligations.QuantTables := by
  refine ⟨fun q hq j hj => ?_, fun j hj => ?_, by decide, by decide, by decide, by decide⟩
  · obtain ⟨hlo, hhi⟩ : (1 : Int) ≤ q ∧ (q : Int) ≤ 100 := by
      have hrange := List.mem_range'_1.1 hq
      omega
    obtain ⟨hl, hl'⟩ := quantEntry_range hlo hhi (baseL_range j hj)
    obtain ⟨hc, hc'⟩ := quantEntry_range hlo hhi (baseC_range j hj)
    exact ⟨hl, hl', hc, hc', rfl⟩
  · obtain ⟨hl, hl'⟩ := quantEntry_fifty_hundred (base := baseL) (j := j)
      ⟨(baseL_range j hj).1, (baseL_range j hj).2.trans (by decide)⟩
    obtain ⟨hc, hc'⟩ := quantEntry_fifty_hundred (base := baseC) (j := j)
      ⟨(baseC_range j hj).1, (baseC_range j hj).2.trans (by decide)⟩
    exact ⟨hl, hc, hl', hc'⟩

end Sys2Proof.Machine
end

section
/-! PROOFS. The container round trip (`46_container.md` R230). `HoldsContainer s c` says that the state
`c` holds the container that `SER` writes in the state `s`; all that `DESER` reads there are the words and
the payload of `s`, wherever the bytes were written. -/

namespace Sys2Proof.Machine

/-! ### Words in a container (R65) -/

/-- The four bytes of a word, put together again. -/
theorem wordOfBytes_extractLsb (v : Word) :
    wordOfBytes Config.byteOrder (v.extractLsb' 0 8) (v.extractLsb' 8 8) (v.extractLsb' 16 8)
      (v.extractLsb' 24 8) = v := by
  have hlittle (b0 b1 b2 b3 : Byte) :
      wordOfBytes Config.byteOrder b0 b1 b2 b3 = b3 ++ b2 ++ b1 ++ b0 := rfl
  rw [hlittle, BitVec.extractLsb'_append_extractLsb'_eq_extractLsb' (by decide),
    BitVec.extractLsb'_append_extractLsb'_eq_extractLsb' (by decide),
    BitVec.extractLsb'_append_extractLsb'_eq_extractLsb' (by decide)]
  exact BitVec.extractLsb'_eq_self

/-- The state `c` holds the container that `SER` writes in the state `s`. -/
structure HoldsContainer (s c : State) : Prop where
  declared : getFlag .contValid c = true
  cap : c.cap = s.cap
  contLen : c.contLen.toInt = 24 + 8 * regLen s.freqN + regLen s.encBytes
  bytes : ∀ i < 24 + 8 * regLen s.freqN + regLen s.encBytes, contAt c i = contAt (afterSer s) i

/-- What the lengths in a container and the capacities have to satisfy. -/
structure SerLegal (s : State) : Prop where
  geometry : GeometryLegal s
  lengths : LengthsLegal s
  capacities : CapacitiesLegal s.cap

theorem holdsContainer_afterSer {s : State} (hcap : s.cap.contCap < 2 ^ 31)
    (hfits : 24 + 8 * regLen s.freqN + regLen s.encBytes ≤ s.cap.contCap) :
    HoldsContainer s (afterSer s) :=
  ⟨getFlag_of_or_mask_self rfl, rfl, toInt_contLen_afterSer hcap hfits, fun _ _ => rfl⟩

theorem toInt_height8 {s : State} (h : GeometryLegal s) :
    (BitVec.ofNat 32 (height8 s)).toInt = height8 s ∧ height8 s ≤ 16384 := by
  obtain ⟨-, -, -, hheight⟩ := h
  have hle : height8 s ≤ 16384 := by
    unfold height8 height regLen
    unfold Config.maxH at hheight
    omega
  exact ⟨toInt_ofNat_of_lt (by omega), hle⟩

theorem toInt_width8 {s : State} (h : GeometryLegal s) :
    (BitVec.ofNat 32 (width8 s)).toInt = width8 s ∧ width8 s ≤ 16384 := by
  obtain ⟨-, hwidth, -, -⟩ := h
  have hle : width8 s ≤ 16384 := by
    unfold width8 width regLen
    unfold Config.maxW at hwidth
    omega
  exact ⟨toInt_ofNat_of_lt (by omega), hle⟩

namespace HoldsContainer

variable {s c : State} (h : HoldsContainer s c)
include h

/-- A word of the container, read at its place. -/
theorem contWord_eq {k : Nat} {v : Word} (hv : (containerWords s)[k]? = some v) :
    contWord c (4 * k) = v := by
  obtain ⟨hk, -⟩ := List.getElem?_eq_some_iff.1 hv
  rw [length_containerWords] at hk
  have hbyte {j : Nat} (hj : j < 4) : contAt c (4 * k + j) = v.extractLsb' (8 * j) 8 := by
    rw [h.bytes _ (by omega), contAt_afterSer_word s hv hj rfl]
  rw [contWord, hbyte (j := 1) (by decide), hbyte (j := 2) (by decide), hbyte (j := 3) (by decide),
    ← Nat.add_zero (4 * k), hbyte (j := 0) (by decide)]
  exact wordOfBytes_extractLsb v

theorem contWord_header : contWord c 0 = s.quality ∧ contWord c 4 = BitVec.ofNat 32 (height8 s)
    ∧ contWord c 8 = BitVec.ofNat 32 (width8 s) ∧ contWord c 12 = s.freqN :=
  ⟨h.contWord_eq (k := 0) rfl, h.contWord_eq (k := 1) rfl, h.contWord_eq (k := 2) rfl,
    h.contWord_eq (k := 3) rfl⟩

/-- The words of the table. -/
theorem contWord_table {i : Nat} (hi : i < 2 * regLen s.freqN) :
    contWord c (16 + 4 * i) = freqAt s i := by
  rw [show 16 + 4 * i = 4 * (4 + i) by omega]
  exact h.contWord_eq (getElem?_containerWords_table s hi)

variable (hlegal : SerLegal s)
include hlegal

theorem contEntries_eq : contEntries c = regLen s.freqN := by
  obtain ⟨-, -, -, hfreqN⟩ := h.contWord_header
  obtain ⟨-, -, ⟨hpos, -⟩, -⟩ := hlegal.lengths
  have hcases := s.freqN.toInt_eq_toNat_cond
  rw [contEntries, hfreqN, regLen]
  split at hcases <;> omega

theorem contWord_lengths : contWord c (16 + 8 * contEntries c) = s.encBytes
    ∧ contWord c (20 + 8 * contEntries c) = s.rleLen := by
  have hlengths := getElem?_containerWords_lengths s
  rw [h.contEntries_eq hlegal,
    show 16 + 8 * regLen s.freqN = 4 * (4 + 2 * regLen s.freqN + 0) by omega,
    show 20 + 8 * regLen s.freqN = 4 * (4 + 2 * regLen s.freqN + 1) by omega]
  exact ⟨h.contWord_eq (hlengths 0), h.contWord_eq (hlengths 1)⟩

theorem contPayloadBytes_eq : contPayloadBytes c = s.encBytes.toInt := by
  rw [contPayloadBytes, (h.contWord_lengths hlegal).1]

/-- A byte of the payload. -/
theorem contAt_payload {i : Nat} (hi : i < regLen s.encBytes) :
    contAt c (24 + 8 * contEntries c + i) = payAt s i := by
  rw [h.contEntries_eq hlegal, h.bytes _ (by omega), contAt_afterSer_payload s hi]

/-- Every check of `DESER` passes. -/
theorem containerOk_eq_true : containerOk c = true := by
  obtain ⟨-, hheight, hwidth, -⟩ := h.contWord_header
  obtain ⟨hh, hh'⟩ := toInt_height8 hlegal.geometry
  obtain ⟨hw, hw'⟩ := toInt_width8 hlegal.geometry
  obtain ⟨-, -, ⟨hn, hn'⟩, ⟨he, he'⟩⟩ := hlegal.lengths
  have hcontLen := h.contLen
  have hregLen : (regLen s.freqN : Int) = s.freqN.toInt ∧ (regLen s.encBytes : Int)
      = s.encBytes.toInt := ⟨Int.toNat_of_nonneg hn, Int.toNat_of_nonneg he⟩
  rw [containerOk_iff, h.contEntries_eq hlegal, h.contPayloadBytes_eq hlegal, h.cap, hheight, hwidth,
    hh, hw]
  omega

/-- `DESER` takes over the table (R228). -/
theorem freqAt_afterDeser_eq {i : Nat} (hi : i < 2 * regLen s.freqN) :
    freqAt (afterDeser c) i = freqAt s i := by
  rw [freqAt_afterDeser c (h.contEntries_eq hlegal ▸ hi), h.contWord_table hi]

/-- `DESER` takes over the payload (R228). -/
theorem payAt_afterDeser_eq {i : Nat} (hi : i < regLen s.encBytes) :
    payAt (afterDeser c) i = payAt s i := by
  rw [payAt_afterDeser c (by rw [h.contPayloadBytes_eq hlegal]; exact hi), h.contAt_payload hlegal hi]

/-- `DESER` reads the container and leaves what `SER` has read. -/
theorem exec_deser : exec .deser c = .next (afterDeser c) := by
  rw [exec_deser_of_valid h.declared, if_pos (h.containerOk_eq_true hlegal)]

/-- The registers that `DESER` leaves. -/
theorem registers_afterDeser : (afterDeser c).quality = s.quality
    ∧ (afterDeser c).freqN = s.freqN ∧ (afterDeser c).encBytes = s.encBytes
    ∧ (afterDeser c).rleExp = s.rleLen ∧ (afterDeser c).w.toInt = width8 s
    ∧ (afterDeser c).h.toInt = height8 s := by
  obtain ⟨hquality, hheight, hwidth, hfreqN⟩ := h.contWord_header
  obtain ⟨hencBytes, hrleLen⟩ := h.contWord_lengths hlegal
  rw [afterDeser_frame]
  exact ⟨hquality, hfreqN, hencBytes, hrleLen,
    (congrArg BitVec.toInt hwidth).trans (toInt_width8 hlegal.geometry).1,
    (congrArg BitVec.toInt hheight).trans (toInt_height8 hlegal.geometry).1⟩

end HoldsContainer

/-- A `SER` that succeeds has written a container that fits. -/
theorem exec_ser_clean {s t : State} (h : exec .ser s = .next t) (ht : t.lastdiag = 0#32) :
    t = afterSer s ∧ 24 + 8 * regLen s.freqN + regLen s.encBytes ≤ s.cap.contCap := by
  cases ends_of_exec (by decide) h with
  | reported _ d hd => exact absurd ht (diag_lastdiag_ne_zero d s)
  | ser hfits => exact ⟨rfl, hfits⟩

/-- Settles O45: `SER` leaves the table and the payload as they are, so that beyond what `DESER` writes
they are those of the state before. -/
theorem containerRoundTrip : Obligations.ContainerRoundTrip := by
  intro s t hgeometry hlengths hcap hser hclean
  obtain ⟨rfl, hfits⟩ := exec_ser_clean hser hclean
  have hlegal : SerLegal s := ⟨hgeometry, hlengths, hcap⟩
  have hholds : HoldsContainer s (afterSer s) := holdsContainer_afterSer hcap.2.1 hfits
  obtain ⟨hquality, hfreqN, hencBytes, hrleExp, hw, hh⟩ := hholds.registers_afterDeser hlegal
  refine ⟨afterDeser (afterSer s), hholds.exec_deser hlegal, rfl, hquality, hfreqN, hencBytes, hrleExp,
    hw, hh, fun i => ?_, fun i => ?_⟩
  · rcases Nat.lt_or_ge i (2 * regLen s.freqN) with hi | hi
    · exact hholds.freqAt_afterDeser_eq hlegal hi
    · exact freqAt_afterDeser_of_ge _ (by rwa [hholds.contEntries_eq hlegal])
  · rcases Nat.lt_or_ge i (regLen s.encBytes) with hi | hi
    · exact hholds.payAt_afterDeser_eq hlegal hi
    · exact payAt_afterDeser_of_ge _ (by rw [hholds.contPayloadBytes_eq hlegal]; exact hi)

end Sys2Proof.Machine
end

section
/-! PROOFS. The embedders end to end (`47_lsb_pixel.md` R244, `48_lsb_coef.md` R255 to R259). What an
extractor finds in a carrier that begins with the bits of a message is shared
(`extractMessage_of_messageBits`). For the coefficients, every write of `CFEMBED` changes the least
significant bit of a slot alone (`CarrierChange`), which keeps the slots. -/

namespace Sys2Proof.Machine

/-! ### A carrier that begins with a message (R243, R244) -/

/-- The part of the message before its first zero byte. -/
def messageBeforeZero (s : State) : List Byte := (message s).takeWhile (· ≠ 0#8)

theorem length_message (s : State) : (message s).length = regLen s.msgLen := by
  rw [message, List.length_map, List.length_range]

theorem length_messageBeforeZero_le (s : State) : (messageBeforeZero s).length ≤ regLen s.msgLen :=
  length_message s ▸ (List.takeWhile_prefix _).length_le

/-- Before its end the stream holds the bytes of the message before the first zero. -/
theorem map_streamByte (s : State) :
    (List.range (messageBeforeZero s).length).map (streamByte s) = messageBeforeZero s := by
  have hle := length_messageBeforeZero_le s
  refine List.ext_getElem (by simp) fun i hi hi' => ?_
  have hmessage : i < (message s).length := by rw [length_message]; omega
  have hget : (messageBeforeZero s)[i] = (message s)[i] :=
    (List.takeWhile_prefix _).getElem hi'
  rw [hget, List.getElem_map, List.getElem_range, streamByte, if_pos (by omega)]
  simp [message]

/-- What follows the longest beginning of elements with a property does not have it. -/
theorem getElem_length_takeWhile {α : Type} {p : α → Bool} : ∀ {l : List α}
    (h : (l.takeWhile p).length < l.length), p (l[(l.takeWhile p).length]) = false
  | x :: l, h => by
    by_cases hx : p x = true
    · simp only [List.takeWhile_cons_of_pos hx, List.length_cons, List.getElem_cons_succ]
      simp only [List.takeWhile_cons_of_pos hx, List.length_cons] at h
      exact getElem_length_takeWhile (Nat.lt_of_succ_lt_succ h)
    · simp only [List.takeWhile_cons_of_neg hx, List.length_nil, List.getElem_cons_zero]
      exact eq_false_of_ne_true hx

/-- The stream's byte there is zero: the message's own first zero byte, or the terminator. -/
theorem streamByte_length_messageBeforeZero (s : State) :
    streamByte s (messageBeforeZero s).length = 0#8 := by
  rw [streamByte]
  split
  next hlt =>
    have hmessage : (messageBeforeZero s).length < (message s).length := by rwa [length_message]
    have hzero : (message s)[(messageBeforeZero s).length] = 0#8 := by
      simpa [messageBeforeZero] using getElem_length_takeWhile (p := (· ≠ 0#8)) hmessage
    rw [← hzero]
    simp [message]
  next => rfl

theorem streamByte_ne_zero {s : State} {m : Nat} (hm : m < (messageBeforeZero s).length) :
    streamByte s m ≠ 0#8 := by
  have hmem : streamByte s m ∈ messageBeforeZero s := by
    rw [← map_streamByte s]
    exact List.mem_map_of_mem (List.mem_range.2 hm)
  simpa using List.mem_takeWhile_imp hmem

/-- From a carrier that begins with the bits of the message and its terminator the extraction loop
reads the message up to its first zero byte. -/
theorem extractMessage_of_messageBits {s : State} {cap : Nat} {bits : List Bool}
    (hcap : regLen s.msgLen ≤ cap) (hroom : 8 * (regLen s.msgLen + 1) ≤ bits.length)
    (hbits : ∀ j < 8 * (regLen s.msgLen + 1), bits.getD j false = messageBit s j) :
    extractMessage cap bits = (messageBeforeZero s, .terminated) := by
  have hle := length_messageBeforeZero_le s
  have hbyte : ∀ m ≤ regLen s.msgLen, carrierByte bits m = streamByte s m := fun m hm => by
    refine carrierByte_eq (by omega) fun k hk => ?_
    rw [hbits _ (by omega), messageBit_eq, Nat.mul_add_div (by decide), Nat.mul_add_mod,
      Nat.div_eq_of_lt hk, Nat.mod_eq_of_lt hk, Nat.add_zero]
  have hfound := extractMessage_of_endsAfter (cap := cap) (z := (messageBeforeZero s).length)
    (e := .terminated) (fun m hm k hk => getLsbD_carrierByte hm hk)
    (fun m hm => hbyte m (by omega) ▸ streamByte_ne_zero hm)
    ⟨by omega, (hbyte _ hle).trans (streamByte_length_messageBeforeZero s), by omega⟩
  have hbytes : (List.range (messageBeforeZero s).length).map (carrierByte bits)
      = (List.range (messageBeforeZero s).length).map (streamByte s) :=
    List.map_congr_left fun m hm => hbyte m (by have := List.mem_range.1 hm; omega)
  rw [hfound, hbytes, map_streamByte]

/-- The message that an extractor stores. -/
theorem message_afterExtract {bytes : List Byte} (h : bytes.length < 2 ^ 31) (e : ExtractEnd)
    (s : State) : (List.range (afterExtract (bytes, e) s).msgLen.toInt.toNat).map
      (msgAt (afterExtract (bytes, e) s)) = bytes := by
  rw [toInt_msgLen_afterExtract h, Int.toNat_natCast]
  refine List.ext_getElem (by simp) fun i hi hi' => ?_
  rw [List.getElem_map, List.getElem_range, msgAt_afterExtract, dif_pos hi']

/-! ### `PXEMBED` then `PXEXTRACT` (R244) -/

theorem getLsbD_setLsb_zero {n : Nat} (hn : 0 < n) (v : BitVec n) (b : Bool) :
    (setLsb v b).getLsbD 0 = b := by
  cases b <;> simp [setLsb, hn]

/-- The pixel carrier after a `PXEMBED` begins with the bits of the message. -/
theorem getD_pixelBits_afterPxembed {s : State} {j : Nat}
    (hfits : 8 * (regLen s.msgLen + 1) ≤ 3 * width s * height s)
    (hj : j < 8 * (regLen s.msgLen + 1)) :
    (pixelBits (afterPxembed s)).getD j false = messageBit s j := by
  have hslot : j < 3 * width (afterPxembed s) * height (afterPxembed s) := hj.trans_le hfits
  rw [getD_pixelBits _ hslot, rgbAt_afterPxembed s hj, getLsbD_setLsb_zero (by decide)]

/-- Settles O48: the carrier begins with the bits of the message, so that the extractor finds it. -/
theorem pixelRoundTrip : Obligations.PixelRoundTrip := by
  intro s t h hclean hcap
  cases ends_of_exec (by decide) h with
  | reported _ d hd => exact absurd hclean (diag_lastdiag_ne_zero d s)
  | pxembedFailed => exact absurd hclean (diag_lastdiag_ne_zero _ _)
  | pxembed hloaded hlen hfits =>
    have hlegal : regLen s.msgLen ≤ s.cap.msgCap := Int.toNat_le.2 hlen.2
    have hle := length_messageBeforeZero_le s
    have hroom : 8 * (regLen s.msgLen + 1) ≤ (pixelBits (afterPxembed s)).length := by
      rw [length_pixelBits]
      exact hfits
    have hexec := exec_pxextract_of_loaded (s := afterPxembed s)
      (getFlag_of_or_mask_of_set rfl hloaded)
    have hfound : extractMessage (afterPxembed s).cap.msgCap (pixelBits (afterPxembed s))
        = (messageBeforeZero s, .terminated) :=
      extractMessage_of_messageBits hlegal hroom fun j hj => getD_pixelBits_afterPxembed hfits hj
    rw [hfound] at hexec
    exact ⟨_, hexec, by rw [afterExtract_frame]; rfl, message_afterExtract (by omega) _ _⟩

/-! ### Writes to the slots of the coefficient carrier (R256) -/

/-- `setlsb` of a word, by the mask R257 prints. -/
theorem setLsb_word (v : Word) (b : Bool) :
    setLsb v b = (v &&& 0xFFFFFFFE#32) ||| (if b then 1#32 else 0#32) := by
  cases b <;> rfl

theorem setLsb_true (v : Word) : setLsb v true = v ||| 1#32 := by
  refine BitVec.eq_of_getLsbD_eq fun i hi => ?_
  rw [setLsb, BitVec.getLsbD_or, BitVec.getLsbD_and, BitVec.getLsbD_not, BitVec.getLsbD_or]
  by_cases hlow : (1#32).getLsbD i = true <;> simp_all

theorem setLsb_ushiftRight (v : Word) (b : Bool) : setLsb v b >>> 1 = v >>> 1 := by
  refine BitVec.eq_of_getLsbD_eq fun i hi => ?_
  have hother : (~~~1#32).getLsbD (1 + i) = decide (1 + i < 32) := by
    simp only [BitVec.getLsbD_not, BitVec.getLsbD_one]
    simp
  have hlow : (BitVec.ofNat 32 b.toNat).getLsbD (1 + i) = false := by
    cases b <;> simp [BitVec.getLsbD_one]
  rw [BitVec.getLsbD_ushiftRight, BitVec.getLsbD_ushiftRight, setLsb, BitVec.getLsbD_or,
    BitVec.getLsbD_and, hother, hlow, Bool.or_false]
  by_cases h : 1 + i < 32
  · simp [h]
  · simp [BitVec.getLsbD_of_ge v (1 + i) (by omega)]

/-- A value is 0 or 1 when its other bits are zero. -/
theorem ne_zero_and_ne_one_iff (v : Word) : v ≠ 0#32 ∧ v ≠ 1#32 ↔ v >>> 1 ≠ 0#32 := by
  simp only [ne_eq, BitVec.toNat_eq, BitVec.toNat_ushiftRight, BitVec.toNat_ofNat,
    Nat.shiftRight_eq_div_pow]
  omega

/-- Setting the least significant bit keeps a value out of 0 and 1, and in. -/
theorem setLsb_ne_iff (v : Word) (b : Bool) :
    setLsb v b ≠ 0#32 ∧ setLsb v b ≠ 1#32 ↔ v ≠ 0#32 ∧ v ≠ 1#32 := by
  rw [ne_zero_and_ne_one_iff, setLsb_ushiftRight, ← ne_zero_and_ne_one_iff]

theorem qbAt_writeQbEach_of_mem {us : List (Nat × Word)} {i : Nat} {v : Word}
    (hn : (us.map Prod.fst).Nodup) (h : (i, v) ∈ us) (s : State) : qbAt (writeQbEach us s) i = v := by
  rw [qbAt, writeQbEach_mem_qb, wordElem, Store.read?_writeEach_of_mem us _ (i, v) hn h]
  rfl

theorem qbAt_writeQbEach_of_not_mem {us : List (Nat × Word)} {i : Nat} (h : i ∉ us.map Prod.fst)
    (s : State) : qbAt (writeQbEach us s) i = qbAt s i := by
  rw [qbAt, writeQbEach_mem_qb, wordElem, Store.read?_writeEach_of_not_mem us _ i fun u hu heq =>
    h (heq ▸ List.mem_map_of_mem hu)]
  rfl

theorem nodup_coefSlots (s : State) : (coefSlots s).Nodup :=
  (pairwise_coefSlots s).imp fun h => h.ne

theorem map_fst_disturbedSlots (s : State) : (disturbedSlots s).map Prod.fst = coefSlots s := by
  simp [disturbedSlots, Function.comp_def]

theorem map_fst_embeddedSlots (s : State) {bits : List Bool}
    (h : bits.length ≤ (coefSlots s).length) :
    (embeddedSlots s bits).map Prod.fst = (coefSlots s).take bits.length := by
  rw [embeddedSlots, List.map_map, List.zip_eq_zip_take_min, Nat.min_eq_right h]
  exact List.map_fst_zip (by simp)

/-! ### `CFEMBED` (R257) -/

/-- An embed that ran out of slots leaves every slot with some least significant bit (log 5). -/
theorem qbAt_failedCfembed_of_mem {s : State} {i : Nat} (h : i ∈ coefSlots s) :
    ∃ b, qbAt (failedCfembed s) i = setLsb (qbAt s i) b :=
  ⟨_, qbAt_writeQbEach_of_mem (us := disturbedSlots s)
    ((map_fst_disturbedSlots s).symm ▸ nodup_coefSlots s) (List.mem_map.2 ⟨i, h, rfl⟩) s⟩

theorem qbAt_failedCfembed_of_not_mem {s : State} {i : Nat} (h : i ∉ coefSlots s) :
    qbAt (failedCfembed s) i = qbAt s i :=
  qbAt_writeQbEach_of_not_mem ((map_fst_disturbedSlots s).symm ▸ h) s

section
variable {s : State} (hfits : 8 * (regLen s.msgLen + 1) ≤ (coefSlots s).length)
include hfits

theorem map_fst_embeddedSlots_message :
    (embeddedSlots s (msgBits (message s))).map Prod.fst
      = (coefSlots s).take (8 * (regLen s.msgLen + 1)) := by
  rw [← length_msgBits_message] at hfits ⊢
  exact map_fst_embeddedSlots s hfits

/-- Slot `j` gets bit `j` of the message. -/
theorem qbAt_afterCfembed_slot {j : Nat} (hj : j < 8 * (regLen s.msgLen + 1)) :
    qbAt (afterCfembed s) ((coefSlots s)[j]'(hj.trans_le hfits))
      = setLsb (qbAt s ((coefSlots s)[j]'(hj.trans_le hfits))) (messageBit s j) := by
  refine qbAt_writeQbEach_of_mem ?_ ?_ s
  · rw [map_fst_embeddedSlots_message hfits]
    exact (nodup_coefSlots s).sublist (List.take_sublist _ _)
  · rw [← getD_msgBits_message s hj]
    have hbit : j < (msgBits (message s)).length := by rwa [length_msgBits_message]
    rw [List.getD_eq_getElem _ _ hbit]
    exact List.mem_map.2 ⟨((coefSlots s)[j]'(hj.trans_le hfits), (msgBits (message s))[j]),
      List.mem_iff_getElem.2 ⟨j, by rw [List.length_zip]; omega, List.getElem_zip⟩, rfl⟩

theorem qbAt_afterCfembed_of_not_mem {i : Nat}
    (h : i ∉ (coefSlots s).take (8 * (regLen s.msgLen + 1))) :
    qbAt (afterCfembed s) i = qbAt s i :=
  qbAt_writeQbEach_of_not_mem ((map_fst_embeddedSlots_message hfits).symm ▸ h) s

end

/-- Settles O49: the statement's slots are the model's, and the command splits as the statement. -/
theorem cfembedEmbeds : Obligations.CfembedEmbeds := by
  intro s slots h hnonneg hcap hslots
  obtain rfl := hslots.eq_coefSlots
  rw [exec_cfembed_of_valid h ⟨hnonneg, hcap⟩]
  dsimp only
  split
  case isTrue hshort =>
    rw [if_pos (show (coefSlots s).length < 8 * (regLen s.msgLen + 1) from hshort)]
    refine ⟨_, rfl, rfl, fun i hi => ?_, fun i hi => qbAt_failedCfembed_of_not_mem hi⟩
    obtain ⟨b, hb⟩ := qbAt_failedCfembed_of_mem hi
    rw [hb]
    cases b
    case false => exact .inl (by rw [setLsb_word]; simp)
    case true => exact .inr (setLsb_true _)
  case isFalse hlong =>
    have hfits : 8 * (regLen s.msgLen + 1) ≤ (coefSlots s).length := Nat.not_lt.1 hlong
    rw [if_neg hfits.not_gt]
    exact ⟨_, rfl, rfl,
      fun j _ hj => (qbAt_afterCfembed_slot hfits hj).trans (setLsb_word _ _),
      fun i hi => qbAt_afterCfembed_of_not_mem hfits hi⟩

/-! ### The slots are kept (R256) -/

/-- The coefficients of `t` are those of `s`, up to the least significant bits of slots. -/
def CarrierChange (s t : State) : Prop :=
  numBlocks t = numBlocks s
    ∧ ∀ i, qbAt t i = qbAt s i ∨ ∃ b, qbAt t i = setLsb (qbAt s i) b

theorem areSlots_self (s : State) : AreSlots s (coefSlots s) :=
  ⟨pairwise_coefSlots s, mem_coefSlots s⟩

theorem CarrierChange.coefSlots_eq {s t : State} (h : CarrierChange s t) :
    coefSlots t = coefSlots s := by
  obtain ⟨hblocks, hchange⟩ := h
  refine (pairwise_coefSlots t).eq_of_mem_iff (pairwise_coefSlots s) fun i => ?_
  rw [mem_coefSlots, mem_coefSlots, hblocks]
  obtain heq | ⟨b, hb⟩ := hchange i
  · rw [heq]
  · rw [hb, setLsb_ne_iff]

theorem carrierChange_failedCfembed (s : State) : CarrierChange s (failedCfembed s) := by
  refine ⟨rfl, fun i => ?_⟩
  by_cases hi : i ∈ coefSlots s
  · exact .inr (qbAt_failedCfembed_of_mem hi)
  · exact .inl (qbAt_failedCfembed_of_not_mem hi)

theorem carrierChange_afterCfembed {s : State}
    (hfits : 8 * (regLen s.msgLen + 1) ≤ (coefSlots s).length) :
    CarrierChange s (afterCfembed s) := by
  refine ⟨rfl, fun i => ?_⟩
  by_cases hi : i ∈ (coefSlots s).take (8 * (regLen s.msgLen + 1))
  · obtain ⟨j, hj, rfl⟩ := List.mem_iff_getElem.1 hi
    rw [List.length_take] at hj
    rw [List.getElem_take]
    exact .inr ⟨_, qbAt_afterCfembed_slot hfits (by omega)⟩
  · exact .inl (qbAt_afterCfembed_of_not_mem hfits hi)

theorem carrierChange_of_exec {s t : State} (h : exec .cfembed s = .next t) : CarrierChange s t := by
  cases ends_of_exec (by decide) h with
  | reported => exact ⟨rfl, fun i => .inl rfl⟩
  | cfembedFailed => exact carrierChange_failedCfembed s
  | cfembed _ _ hfits => exact carrierChange_afterCfembed hfits

/-- Settles O51: every end of the command changes least significant bits alone, and those keep a value
out of 0 and 1. -/
theorem slotsKept : Obligations.SlotsKept := by
  refine ⟨fun v b h0 h1 => (setLsb_ne_iff v b).2 ⟨h0, h1⟩, fun s t slots h => ?_⟩
  have hslots := (carrierChange_of_exec h).coefSlots_eq
  constructor
  · intro ht
    rw [ht.eq_coefSlots, hslots]
    exact areSlots_self s
  · intro hs
    rw [hs.eq_coefSlots, ← hslots]
    exact areSlots_self t

/-! ### `CFEMBED` then `CFEXTRACT` (R259) -/

/-- Where `t` has the slots of an embed of `s` and its least significant bits in them, `CFEXTRACT`
finds the message. -/
theorem extractMessage_coefBits {s t : State} (hlegal : regLen s.msgLen ≤ t.cap.msgCap)
    (hfits : 8 * (regLen s.msgLen + 1) ≤ (coefSlots s).length)
    (hslots : coefSlots t = coefSlots s)
    (hbits : ∀ i ∈ coefSlots s, qbAt t i = qbAt (afterCfembed s) i) :
    extractMessage t.cap.msgCap (coefBits t) = (messageBeforeZero s, .terminated) := by
  refine extractMessage_of_messageBits hlegal (by rwa [length_coefBits, hslots]) fun j hj => ?_
  have hslot := hj.trans_le hfits
  rw [getD_coefBits t (by rwa [hslots]), hslots, List.getD_eq_getElem _ _ hslot,
    hbits _ (List.getElem_mem hslot), qbAt_afterCfembed_slot hfits hj,
    getLsbD_setLsb_zero (by decide)]

/-- Settles O52: the carrier begins with the bits of the message, so that the extractor finds it. -/
theorem coefficientRoundTrip : Obligations.CoefficientRoundTrip := by
  intro s t h hclean hcap
  cases ends_of_exec (by decide) h with
  | reported _ d hd => exact absurd hclean (diag_lastdiag_ne_zero d s)
  | cfembedFailed => exact absurd hclean (diag_lastdiag_ne_zero _ _)
  | cfembed hvalid hlen hfits =>
    have hlegal : regLen s.msgLen ≤ s.cap.msgCap := Int.toNat_le.2 hlen.2
    have hle := length_messageBeforeZero_le s
    have hexec := exec_cfextract_of_valid (s := afterCfembed s)
      (getFlag_of_or_mask_of_set rfl hvalid)
    rw [extractMessage_coefBits (t := afterCfembed s) hlegal hfits 
      (carrierChange_afterCfembed hfits).coefSlots_eq fun _ _ => rfl] at hexec
    exact ⟨_, hexec, by rw [afterExtract_frame]; rfl, message_afterExtract (by omega) _ _⟩

end Sys2Proof.Machine
end

section
/-! PROOFS. The rounding functions in integers (`00_scope.md` R13), and what the quantizer
(`42_quantizer.md` R159, R160) and the colour transform (`40_color.md` R118) say of them. Everything
rests on one fact: adding a half to a quotient of integers and flooring is an integer division
(`floor_div_add_half`). -/

namespace Sys2Proof.Machine

/-- Adding a half to a quotient and flooring, in integers. -/
theorem floor_div_add_half (n : Int) {t : Int} (ht : 0 < t) :
    ⌊(n : ℚ) / t + 1 / 2⌋ = (n + t / 2) / t := by
  have ht' : (0 : ℚ) < t := by exact_mod_cast ht
  have hlo : t * ((n + t / 2) / t) ≤ n + t / 2 := Int.mul_ediv_self_le ht.ne'
  have hhi : n + t / 2 < t * ((n + t / 2) / t) + t := Int.lt_mul_ediv_self_add ht
  generalize (n + t / 2) / t = q at hlo hhi
  have hlo' : 2 * ((t * q : Int) : ℚ) ≤ 2 * n + t := by exact_mod_cast (show _ ≤ _ by omega)
  have hhi' : 2 * (n : ℚ) + t < 2 * ((t * q : Int) : ℚ) + 2 * t := by
    exact_mod_cast (show 2 * n + t < 2 * (t * q) + 2 * t by omega)
  push_cast at hlo' hhi'
  have hsum : (n : ℚ) / t + 1 / 2 = (2 * n + t) / (2 * t) := by field_simp
  rw [Int.floor_eq_iff, hsum, le_div_iff₀ (by linarith), div_lt_iff₀ (by linarith)]
  constructor <;> nlinarith

/-- Rounding half away from zero of a quotient, in integers. -/
theorem rha_div (n : Int) {t : Int} (ht : 0 < t) :
    rha ((n : ℚ) / t) = n.sign * ((|n| + t / 2) / t) := by
  have ht' : (0 : ℚ) < t := by exact_mod_cast ht
  rw [rha]
  rcases lt_trichotomy n 0 with hn | rfl | hn
  · have hneg : (n : ℚ) / t < 0 := div_neg_of_neg_of_pos (by exact_mod_cast hn) ht'
    rw [if_neg hneg.not_ge, ← neg_div, ← Int.cast_neg, floor_div_add_half _ ht, abs_of_neg hn,
      Int.sign_eq_neg_one_of_neg hn, neg_one_mul]
  · norm_num
  · have hpos : (0 : ℚ) ≤ (n : ℚ) / t := div_nonneg (by exact_mod_cast hn.le) ht'.le
    rw [if_pos hpos, floor_div_add_half _ ht, abs_of_pos hn, Int.sign_eq_one_of_pos hn, one_mul]

/-! ### The quantizer (R159, R160) -/

theorem quantize_eq (v : Int) {t : Int} (ht : 1 ≤ t) :
    quantize v t = v.sign * ((|v| + t / 2) / t) := rha_div v ht

/-- The multiple of the step that the quotient stands for is a nearest one. -/
theorem quantize_nearest (v : Int) {t : Int} (ht : 1 ≤ t) : 2 * |quantize v t * t - v| ≤ t := by
  have hlo : t * ((|v| + t / 2) / t) ≤ |v| + t / 2 := Int.mul_ediv_self_le (by omega)
  have hhi : |v| + t / 2 < t * ((|v| + t / 2) / t) + t := Int.lt_mul_ediv_self_add (by omega)
  have hdist : |quantize v t * t - v| = |t * ((|v| + t / 2) / t) - (|v|)| := by
    rw [quantize_eq v ht]
    rcases lt_trichotomy v 0 with hv | rfl | hv
    · rw [Int.sign_eq_neg_one_of_neg hv, ← abs_neg]
      congr 1
      rw [abs_of_neg hv]
      ring
    · have : t / 2 / t = 0 := Int.ediv_eq_zero_of_lt (by omega) (by omega)
      simp [this]
    · rw [Int.sign_eq_one_of_pos hv, abs_of_pos hv]
      congr 1
      ring
  rw [hdist]
  generalize t * ((|v| + t / 2) / t) = p at hlo hhi ⊢
  generalize |v| = a at hlo hhi ⊢
  rcases abs_cases (p - a) with ⟨habs, -⟩ | ⟨habs, -⟩ <;> omega

/-- Half a step away from a multiple of the step is where the remainder is half a step. -/
theorem two_mul_abs_eq_iff {v t q : Int} (h : 2 * |q * t - v| ≤ t) (ht : 1 ≤ t) :
    2 * |q * t - v| = t ↔ 2 * (v % t) = t := by
  obtain ⟨d, rfl⟩ : ∃ d, v = d + q * t := ⟨v - q * t, by ring⟩
  have habs : |q * t - (d + q * t)| = |d| := by rw [← abs_neg]; congr 1; ring
  rw [habs] at h ⊢
  rw [Int.add_mul_emod_self_right]
  rcases le_or_gt 0 d with hd | hd
  · rw [abs_of_nonneg hd] at h ⊢
    rw [Int.emod_eq_of_lt hd (by omega)]
  · rw [abs_of_neg hd] at h ⊢
    rw [← Int.add_emod_right, Int.emod_eq_of_lt (by omega) (by omega)]
    omega

/-- Settles O25: the quotient is a nearest one (`quantize_nearest`), and 32-bit values are not
saturated. -/
theorem quantizerLoss : Obligations.QuantizerLoss := by
  intro v t hlo hhi ht
  refine ⟨quantize_eq v ht, fun hmin hmax => ?_, ?_⟩
  · have hproduct : dequantize (quantize v t) t = quantize v t * t := by
      rw [dequantize, sat32_eq]
      omega
    have hnearest := quantize_nearest v ht
    rw [hproduct]
    exact ⟨hnearest, two_mul_abs_eq_iff hnearest ht⟩
  · rintro rfl
    constructor
    · rw [quantize_eq v le_rfl]
      norm_num [Int.sign_mul_abs]
    · rw [dequantize, sat32_eq]
      omega

/-! ### The colour transform (R118) -/

/-- A channel in integers: scaled, rounded half up, clamped. -/
theorem toNat_toSample {x : ℚ} (n : Int) (hx : x = (n : ℚ) / (1000000 : Int)) :
    ((toSample x).toNat : Int) = max 0 (min 255 ((n + 500000) / 1000000)) := by
  have hround : roundNearest x = n.sign * ((|n| + 500000) / 1000000) := by
    rw [hx]
    exact rha_div n (by decide)
  have hclamp : clamp (roundNearest x) 0 255 = max 0 (min 255 ((n + 500000) / 1000000)) := by
    rw [hround, clamp]
    rcases lt_trichotomy n 0 with hn | rfl | hn
    · rw [Int.sign_eq_neg_one_of_neg hn, abs_of_neg hn]
      omega
    · norm_num
    · rw [Int.sign_eq_one_of_pos hn, abs_of_pos hn]
      omega
  rw [toSample, hclamp, BitVec.toNat_ofInt]
  omega

/-- A sum that is not negative is not clamped from below. -/
theorem toNat_toSample_of_nonneg {x : ℚ} {n : Int} (hx : x = (n : ℚ) / (1000000 : Int)) (h : 0 ≤ n) :
    ((toSample x).toNat : Int) = min 255 ((n + 500000) / 1000000) :=
  (toNat_toSample n hx).trans (max_eq_right (by omega))

/-- A sum in the range of a byte is not clamped at all. -/
theorem toNat_toSample_of_le {x : ℚ} {n : Int} (hx : x = (n : ℚ) / (1000000 : Int)) (h : 0 ≤ n)
    (hle : n ≤ 255000000) : ((toSample x).toNat : Int) = (n + 500000) / 1000000 :=
  (toNat_toSample_of_nonneg hx h).trans (min_eq_right (by omega))

/-- The same in natural numbers, as the statement says it. -/
theorem toNat_toSample_of_natCast {x : ℚ} {m : Nat} (n : Int) (hx : x = (n : ℚ) / (1000000 : Int))
    (h : 0 ≤ n) (hm : (m : Int) = n + 500000) :
    ((toSample x).toNat : Int) = (min 255 (m / 1000000) : Nat) := by
  rw [toNat_toSample_of_nonneg hx h, ← hm]
  norm_cast

/-- Settles O16: each channel is its scaled sum (`toNat_toSample`); the sums of the forward transform
of bytes are not negative, and that of the luma stays within a byte. -/
theorem colorInIntegers : Obligations.ColorInIntegers := by
  refine ⟨fun r g b => ?forward, fun y cb cr => ?inverse⟩
  case forward =>
    have hr := r.isLt
    have hg := g.isLt
    have hb := b.isLt
    refine ⟨toNat_toSample_of_le (by push_cast [colorDot, colorFwdY]; ring) (by omega) (by omega),
      toNat_toSample_of_natCast
        (128000000 - 168736 * r.toNat - 331264 * g.toNat + 500000 * b.toNat)
        (by push_cast [colorDot, colorFwdCb]; ring) (by omega) (by omega),
      toNat_toSample_of_natCast
        (128000000 + 500000 * r.toNat - 418688 * g.toNat - 81312 * b.toNat)
        (by push_cast [colorDot, colorFwdCr]; ring) (by omega) (by omega)⟩
  case inverse =>
    exact ⟨toNat_toSample _ (by push_cast [colorDot, colorInvR]; ring),
      toNat_toSample _ (by push_cast [colorDot, colorInvG]; ring),
      toNat_toSample _ (by push_cast [colorDot, colorInvB]; ring)⟩

end Sys2Proof.Machine
end

section
/-! PROOFS. The block transform (`41_dct.md` R129 to R133). Each butterfly is a linear map of eight
values; its weights are what it gives of the unit vectors (`weight`). An element of the two passes is
then a double sum (`Linear.pass2d_at`), from which the order of the passes, the transforms of flat blocks
and the range of the outputs are read off. -/

namespace Sys2Proof.Machine

/-! ### Elements of vectors and grids -/

theorem Vec8.get_ofFn {α : Type} (f : Nat → α) {i : Nat} (hi : i < 8) : (Vec8.ofFn f).get i = f i := by
  interval_cases i <;> rfl

theorem Vec8.get_map {α β : Type} (f : α → β) (v : Vec8 α) {i : Nat} (hi : i < 8) :
    (v.map f).get i = f (v.get i) := by
  interval_cases i <;> rfl

theorem Vec8.get_zipWith {α β γ : Type} (f : α → β → γ) (v : Vec8 α) (w : Vec8 β) {i : Nat}
    (hi : i < 8) : (v.zipWith f w).get i = f (v.get i) (w.get i) := by
  interval_cases i <;> rfl

theorem Vec8.ext_get {α : Type} {v w : Vec8 α} (h : ∀ i < 8, v.get i = w.get i) : v = w := by
  obtain ⟨v0, v1, v2, v3, v4, v5, v6, v7⟩ := v
  obtain ⟨w0, w1, w2, w3, w4, w5, w6, w7⟩ := w
  congr 1
  exacts [h 0 (by decide), h 1 (by decide), h 2 (by decide), h 3 (by decide), h 4 (by decide),
    h 5 (by decide), h 6 (by decide), h 7 (by decide)]

theorem Grid.ext_at {α : Type} {g k : Grid α} (h : ∀ r < 8, ∀ c < 8, g.at r c = k.at r c) : g = k :=
  Vec8.ext_get fun r hr => Vec8.ext_get (h r hr)

theorem Grid.at_ofFn {α : Type} (f : Nat → Nat → α) {r c : Nat} (hr : r < 8) (hc : c < 8) :
    (Grid.ofFn f).at r c = f r c := by
  rw [Grid.at, Grid.ofFn, Vec8.get_ofFn _ hr, Vec8.get_ofFn _ hc]

theorem Grid.get_transpose {α : Type} (g : Grid α) {r : Nat} (hr : r < 8) :
    (Grid.transpose g).get r = Vec8.map (fun v => v.get r) g := by
  interval_cases r <;> rfl

theorem Grid.at_transpose {α : Type} (g : Grid α) {r c : Nat} (hr : r < 8) (hc : c < 8) :
    (Grid.transpose g).at r c = g.at c r := by
  rw [Grid.at, Grid.get_transpose g hr, Vec8.get_map _ _ hc, Grid.at]

theorem Grid.at_map {α β : Type} (f : α → β) (g : Grid α) {r c : Nat} (hr : r < 8) (hc : c < 8) :
    (Grid.map f g).at r c = f (g.at r c) := by
  rw [Grid.at, Grid.map, Vec8.get_map _ _ hr, Vec8.get_map _ _ hc, Grid.at]

theorem Grid.at_scale {α β γ : Type} (us : Vec8 α) (f : α → α → β → γ) (g : Grid β) {r c : Nat}
    (hr : r < 8) (hc : c < 8) :
    (Grid.scale us f g).at r c = f (us.get r) (us.get c) (g.at r c) := by
  rw [Grid.at, Grid.scale, Vec8.get_zipWith _ _ _ hr, Vec8.get_zipWith _ _ _ hc, Grid.at]

/-! ### The butterflies as linear maps (R127, R128) -/

/-- What a map gives at place `i` of the unit vector `j`. -/
def weight (f : Vec8 ℚ → Vec8 ℚ) (i j : Nat) : ℚ :=
  (f (Vec8.ofFn fun k => if k = j then 1 else 0)).get i

/-- The map gives sums of its inputs, each with its weight. -/
def Linear (f : Vec8 ℚ → Vec8 ℚ) : Prop :=
  ∀ d, ∀ i < 8, (f d).get i = ∑ j ∈ Finset.range 8, weight f i j * d.get j

theorem linear_forwardButterfly : Linear forwardButterfly := by
  intro d i hi
  interval_cases i <;>
    simp [Finset.sum_range_succ, weight, forwardButterfly, Vec8.ofFn, Vec8.get] <;> ring

theorem linear_inverseButterfly : Linear inverseButterfly := by
  intro d i hi
  interval_cases i <;>
    simp [Finset.sum_range_succ, weight, inverseButterfly, Vec8.ofFn, Vec8.get] <;> ring

/-- An element of the two passes, as a double sum. -/
theorem Linear.pass2d_at {f : Vec8 ℚ → Vec8 ℚ} (hf : Linear f) (m : Grid ℚ) {u v : Nat}
    (hu : u < 8) (hv : v < 8) :
    (pass2d f m).at u v = ∑ r ∈ Finset.range 8, ∑ c ∈ Finset.range 8,
      weight f u r * weight f v c * m.at r c := by
  have hrows : ∀ r < 8, (Grid.transpose (Vec8.map f m)).at v r
      = ∑ c ∈ Finset.range 8, weight f v c * m.at r c := fun r hr => by
    rw [Grid.at_transpose _ hv hr, Grid.at, Vec8.get_map _ _ hr, hf _ v hv]
    rfl
  rw [pass2d, Grid.at_transpose _ hu hv, Grid.at, Vec8.get_map _ _ hv, hf _ u hu]
  refine Finset.sum_congr rfl fun r hr => ?_
  rw [show ((Grid.transpose (Vec8.map f m)).get v).get r = _ from hrows r (Finset.mem_range.1 hr),
    Finset.mul_sum]
  exact Finset.sum_congr rfl fun c _ => (mul_assoc _ _ _).symm

/-- A double sum does not depend on its order, so neither do the passes. -/
theorem Linear.pass2d_transpose {f : Vec8 ℚ → Vec8 ℚ} (hf : Linear f) (m : Grid ℚ) :
    pass2d f m = Grid.transpose (pass2d f (Grid.transpose m)) := by
  refine Grid.ext_at fun u hu v hv => ?_
  rw [Grid.at_transpose _ hu hv, hf.pass2d_at _ hu hv, hf.pass2d_at _ hv hu, Finset.sum_comm]
  refine Finset.sum_congr rfl fun c hc => Finset.sum_congr rfl fun r hr => ?_
  rw [Grid.at_transpose _ (Finset.mem_range.1 hc) (Finset.mem_range.1 hr), mul_comm (weight f u r)]

/-- Settles O19: both butterflies are linear. -/
theorem dctPassOrder : Obligations.DctPassOrder := fun m =>
  ⟨linear_forwardButterfly.pass2d_transpose m, linear_inverseButterfly.pass2d_transpose m⟩

/-! ### The two transforms as sums (R130, R131) -/

theorem forwardDCT_at (b : Grid Int) {u v : Nat} (hu : u < 8) (hv : v < 8) :
    (forwardDCT b).at u v = rhu ((∑ r ∈ Finset.range 8, ∑ c ∈ Finset.range 8,
      weight forwardButterfly u r * weight forwardButterfly v c * (b.at r c : ℚ))
        / (8 * aanS.get u * aanS.get v)) := by
  rw [forwardDCT, Grid.at_scale _ _ _ hu hv, linear_forwardButterfly.pass2d_at _ hu hv]
  refine congrArg (fun x => rhu (x / (8 * aanS.get u * aanS.get v))) ?_
  refine Finset.sum_congr rfl fun r hr => Finset.sum_congr rfl fun c hc => ?_
  rw [Grid.at_map _ _ (Finset.mem_range.1 hr) (Finset.mem_range.1 hc)]

theorem inverseDCT_at (b : Grid Int) {r c : Nat} (hr : r < 8) (hc : c < 8) :
    (inverseDCT b).at r c = rhu (∑ u ∈ Finset.range 8, ∑ v ∈ Finset.range 8,
      weight inverseButterfly r u * weight inverseButterfly c v
        * ((b.at u v : ℚ) * aanS.get u * aanS.get v / 8)) := by
  rw [inverseDCT, Grid.at_map _ _ hr hc, linear_inverseButterfly.pass2d_at _ hr hc]
  refine congrArg rhu ?_
  refine Finset.sum_congr rfl fun u hu => Finset.sum_congr rfl fun v hv => ?_
  rw [Grid.at_scale _ _ _ (Finset.mem_range.1 hu) (Finset.mem_range.1 hv)]

/-! ### Flat blocks (R135, R136) -/

/-- The weights of an output sum to 8 at the DC term and cancel elsewhere. -/
theorem sum_weight_forward {u : Nat} (hu : u < 8) :
    ∑ j ∈ Finset.range 8, weight forwardButterfly u j = if u = 0 then 8 else 0 := by
  interval_cases u <;>
    norm_num [Finset.sum_range_succ, weight, forwardButterfly, Vec8.ofFn, Vec8.get] <;> ring

/-- The DC term has the weight 1 in every output of the inverse. -/
theorem weight_inverse_zero {r : Nat} (hr : r < 8) : weight inverseButterfly r 0 = 1 := by
  interval_cases r <;> simp [weight, inverseButterfly, Vec8.ofFn, Vec8.get]

theorem weight_forward_zero {j : Nat} (hj : j < 8) : weight forwardButterfly 0 j = 1 := by
  interval_cases j <;> simp [weight, forwardButterfly, Vec8.ofFn, Vec8.get]

theorem aanS_zero : aanS.get 0 = 1 := rfl

/-- Rounding an eighth half up, in integers. -/
theorem rhu_div_eight (n : Int) : rhu ((n : ℚ) / 8) = (n + 4) / 8 :=
  floor_div_add_half n (t := 8) (by decide)

/-- Settles O20: a flat block leaves the sums of the weights, a DC term alone its own weights. -/
theorem dctOfFlatBlocks : Obligations.DctOfFlatBlocks := by
  refine ⟨fun v r c hr hc => ?forward, fun d r c hr hc => ?inverse⟩
  case forward =>
    have hsum : (∑ i ∈ Finset.range 8, ∑ j ∈ Finset.range 8,
        weight forwardButterfly r i * weight forwardButterfly c j
          * (((Grid.ofFn fun _ _ => v).at i j : Int) : ℚ))
        = (if r = 0 then 8 else 0) * (if c = 0 then 8 else 0) * v := by
      rw [← sum_weight_forward hr, ← sum_weight_forward hc, Finset.sum_mul_sum, Finset.sum_mul]
      refine Finset.sum_congr rfl fun i hi => ?_
      rw [Finset.sum_mul]
      refine Finset.sum_congr rfl fun j hj => ?_
      rw [Grid.at_ofFn _ (Finset.mem_range.1 hi) (Finset.mem_range.1 hj)]
    rw [forwardDCT_at _ hr hc, hsum]
    by_cases h : r = 0 ∧ c = 0
    · obtain ⟨rfl, rfl⟩ := h
      have hscaled : (8 : ℚ) * 8 * v / (8 * 1 * 1) = ((64 * v : Int) : ℚ) / 8 := by push_cast; ring
      simp only [aanS_zero, if_true, and_self]
      rw [hscaled, rhu_div_eight]
      omega
    · have hzero : (if r = 0 then 8 else 0 : ℚ) * (if c = 0 then 8 else 0) = 0 := by
        rw [mul_eq_zero]
        by_cases hr0 : r = 0
        · exact .inr (if_neg fun hc0 => h ⟨hr0, hc0⟩)
        · exact .inl (if_neg hr0)
      rw [if_neg h, hzero, zero_mul, zero_div]
      norm_num [rhu]
  case inverse =>
    have hsum : (∑ i ∈ Finset.range 8, ∑ j ∈ Finset.range 8,
        weight inverseButterfly r i * weight inverseButterfly c j
          * (((Grid.ofFn fun u v => if u = 0 ∧ v = 0 then d else 0).at i j : Int)
            * aanS.get i * aanS.get j / 8)) = (d : ℚ) / 8 := by
      rw [Finset.sum_eq_single_of_mem 0 (by decide) fun i hi hne => ?_,
        Finset.sum_eq_single_of_mem 0 (by decide) fun j hj hne => ?_]
      · rw [Grid.at_ofFn _ (by decide) (by decide), weight_inverse_zero hr, weight_inverse_zero hc,
          aanS_zero]
        simp
      · rw [Grid.at_ofFn _ (by decide) (Finset.mem_range.1 hj)]
        simp [hne]
      · refine Finset.sum_eq_zero fun j hj => ?_
        rw [Grid.at_ofFn _ (Finset.mem_range.1 hi) (Finset.mem_range.1 hj)]
        simp [hne]
    rw [inverseDCT_at _ hr hc, hsum, rhu_div_eight]

/-! ### The range of the forward transform (R133) -/

/-- The magnitudes of the weights of an output, against its scale factor. -/
theorem sum_abs_weight_forward {u : Nat} (hu : u < 8) :
    ∑ j ∈ Finset.range 8, |weight forwardButterfly u j| ≤ 9 * aanS.get u := by
  interval_cases u <;>
    norm_num [Finset.sum_range_succ, weight, forwardButterfly, Vec8.ofFn, Vec8.get, aanS, k707, k382,
      k541, k1306, abs_of_pos, abs_of_neg]

theorem aanS_pos {u : Nat} (hu : u < 8) : 0 < aanS.get u := by
  interval_cases u <;> norm_num [aanS, Vec8.get]

/-- Samples have outputs below 4096 in magnitude. -/
theorem forwardDCT_bounds {b : Grid Int}
    (hb : ∀ r < 8, ∀ c < 8, 0 ≤ b.at r c ∧ b.at r c ≤ 255) {u v : Nat} (hu : u < 8) (hv : v < 8) :
    -4096 < (forwardDCT b).at u v ∧ (forwardDCT b).at u v < 4096 := by
  have hupos := aanS_pos hu
  have hvpos := aanS_pos hv
  have hsum : |∑ r ∈ Finset.range 8, ∑ c ∈ Finset.range 8,
      weight forwardButterfly u r * weight forwardButterfly v c * (b.at r c : ℚ)|
      ≤ 9 * aanS.get u * (9 * aanS.get v) * 255 := by
    calc _ ≤ ∑ r ∈ Finset.range 8, ∑ c ∈ Finset.range 8,
          |weight forwardButterfly u r * weight forwardButterfly v c * (b.at r c : ℚ)| :=
          (Finset.abs_sum_le_sum_abs _ _).trans
            (Finset.sum_le_sum fun r _ => Finset.abs_sum_le_sum_abs _ _)
      _ ≤ ∑ r ∈ Finset.range 8, ∑ c ∈ Finset.range 8,
          |weight forwardButterfly u r| * |weight forwardButterfly v c| * 255 := by
        refine Finset.sum_le_sum fun r hr => Finset.sum_le_sum fun c hc => ?_
        obtain ⟨h0, h255⟩ := hb r (Finset.mem_range.1 hr) c (Finset.mem_range.1 hc)
        rw [abs_mul, abs_mul, abs_of_nonneg (by exact_mod_cast h0 : (0 : ℚ) ≤ b.at r c)]
        gcongr
        exact_mod_cast h255
      _ = (∑ r ∈ Finset.range 8, |weight forwardButterfly u r|)
          * (∑ c ∈ Finset.range 8, |weight forwardButterfly v c|) * 255 := by
        rw [Finset.sum_mul_sum, Finset.sum_mul]
        exact Finset.sum_congr rfl fun r _ => (Finset.sum_mul _ _ _).symm
      _ ≤ _ := by
        gcongr
        · exact sum_abs_weight_forward hu
        · exact sum_abs_weight_forward hv
  rw [forwardDCT_at _ hu hv]
  generalize (∑ r ∈ Finset.range 8, ∑ c ∈ Finset.range 8,
      weight forwardButterfly u r * weight forwardButterfly v c * (b.at r c : ℚ)) = x at hsum ⊢
  have hquotient : |x / (8 * aanS.get u * aanS.get v)| ≤ 2600 := by
    rw [abs_div, abs_of_pos (by positivity : 0 < 8 * aanS.get u * aanS.get v),
      div_le_iff₀ (by positivity)]
    nlinarith [mul_pos hupos hvpos]
  obtain ⟨hlo, hhi⟩ := abs_le.1 hquotient
  constructor
  · exact Int.lt_of_lt_of_le (by decide) (Int.le_floor.2 (by push_cast; linarith : ((-2600 : Int) : ℚ) ≤ _))
  · exact Int.floor_lt.2 (by push_cast; linarith)

theorem Grid.sum_flatten (g : Grid Int) :
    g.flatten.sum = ∑ r ∈ Finset.range 8, ∑ c ∈ Finset.range 8, g.at r c := by
  simp [Finset.sum_range_succ, Grid.flatten, Vec8.toList, Grid.at, Vec8.get]
  ring

/-- The DC output is the mean times 8, rounded half up. -/
theorem forwardDCT_dc (b : Grid Int) : (forwardDCT b).at 0 0 = (b.flatten.sum + 4) / 8 := by
  have hsum : (∑ r ∈ Finset.range 8, ∑ c ∈ Finset.range 8,
      weight forwardButterfly 0 r * weight forwardButterfly 0 c * (b.at r c : ℚ))
      = (b.flatten.sum : Int) := by
    rw [Grid.sum_flatten]
    push_cast
    refine Finset.sum_congr rfl fun r hr => Finset.sum_congr rfl fun c hc => ?_
    rw [weight_forward_zero (Finset.mem_range.1 hr), weight_forward_zero (Finset.mem_range.1 hc),
      one_mul, one_mul]
  rw [forwardDCT_at _ (by decide) (by decide), hsum, aanS_zero, ← rhu_div_eight]
  norm_num

/-- A grid of samples, whose elements are bytes. -/
theorem samples_bounds (f : Nat → Nat → Byte) {r c : Nat} (hr : r < 8) (hc : c < 8) :
    0 ≤ (Grid.ofFn fun y x => ((f y x).toNat : Int)).at r c
      ∧ (Grid.ofFn fun y x => ((f y x).toNat : Int)).at r c ≤ 255 := by
  rw [Grid.at_ofFn _ hr hc]
  have := (f r c).isLt
  omega

/-- Settles O21: the range is that of the sums of magnitudes, the DC output a sum of 64 samples. -/
theorem fdctRange : Obligations.FdctRange := by
  intro b g
  have hg : ∀ r ∈ Finset.range 8, ∀ c ∈ Finset.range 8, 0 ≤ g.at r c ∧ g.at r c ≤ 255 :=
    fun r hr c hc => samples_bounds b (Finset.mem_range.1 hr) (Finset.mem_range.1 hc)
  have hnonneg : 0 ≤ g.flatten.sum := by
    rw [Grid.sum_flatten]
    exact Finset.sum_nonneg fun r hr => Finset.sum_nonneg fun c hc => (hg r hr c hc).1
  have hle : g.flatten.sum ≤ 8 * (8 * 255) := by
    rw [Grid.sum_flatten]
    simpa using Finset.sum_le_card_nsmul _ _ _ fun r hr =>
      Finset.sum_le_card_nsmul _ _ _ fun c hc => (hg r hr c hc).2
  refine ⟨fun u hu v hv => forwardDCT_bounds (fun r hr c hc => samples_bounds b hr hc) hu hv,
    forwardDCT_dc g, ?_, ?_⟩ <;> rw [forwardDCT_dc] <;> omega

/-! ### `FDCT` (R133) -/

theorem Grid.flatten_eq (g : Grid Int) :
    g.flatten = (List.range 64).map fun j => g.at (j / 8) (j % 8) := rfl

/-- The coefficients in the order of the buffer (R63). -/
theorem coefficientsOfYcc_eq (s : State) : coefficientsOfYcc s =
    (List.range (64 * (3 * numBlocks s))).map fun i => BitVec.ofInt 32
      ((forwardDCT (tileSamples s (i / 64 / 3) (i / 64 % 3))).at (i % 64 / 8) (i % 64 % 8)) := by
  rw [← flatMap_range_map fun k j => BitVec.ofInt 32
    ((forwardDCT (tileSamples s (k / 3) (k % 3))).at (j / 8) (j % 8)), coefficientsOfYcc]
  simp only [Grid.flatten_eq, List.map_map, Function.comp_def]

theorem dctbAt_afterFdct (s : State) {i : Nat} (hi : i < 192 * numBlocks s) :
    dctbAt (afterFdct s) i = BitVec.ofInt 32
      ((forwardDCT (tileSamples s (i / 64 / 3) (i / 64 % 3))).at (i % 64 / 8) (i % 64 % 8)) := by
  rw [show dctbAt (afterFdct s) i
    = wordElem s .dctb (Store.write s.mem.dctb 0 (coefficientsOfYcc s)) i from rfl,
    coefficientsOfYcc_eq, wordElem_write_tabulated _ _ _ _ (by omega)]

theorem dctbAt_afterFdct_of_ge (s : State) {i : Nat} (hi : 192 * numBlocks s ≤ i) :
    dctbAt (afterFdct s) i = dctbAt s i := by
  rw [show dctbAt (afterFdct s) i
    = wordElem s .dctb (Store.write s.mem.dctb 0 (coefficientsOfYcc s)) i from rfl,
    coefficientsOfYcc_eq, wordElem_write_tabulated_of_ge _ _ _ _ (by omega)]
  rfl

/-- The samples of tile `(ty, tx)` (R63, R64). -/
theorem tileSamples_of_tile (s : State) {ty tx : Nat} (htx : tx < blocksWide s) (ch : Nat) :
    tileSamples s (ty * blocksWide s + tx) ch = Grid.ofFn fun y x =>
      ((yccAt s (((8 * ty + y) * width s + (8 * tx + x)) * 3 + ch)).toNat : Int) := by
  have hdiv : (ty * blocksWide s + tx) / blocksWide s = ty := by
    rw [Nat.mul_comm, Nat.mul_add_div (by omega), Nat.div_eq_of_lt htx, Nat.add_zero]
  have hmod : (ty * blocksWide s + tx) % blocksWide s = tx := by
    rw [Nat.mul_comm, Nat.mul_add_mod, Nat.mod_eq_of_lt htx]
  simp only [tileSamples, hdiv, hmod, Nat.add_assoc]

/-- Settles O22: the coefficients of samples are in range, so that the words hold them. -/
theorem fdctTransforms : Obligations.FdctTransforms := by
  intro s h
  refine ⟨afterFdct s, exec_fdct_of_valid h, rfl, ?_, fun i hi => dctbAt_afterFdct_of_ge s hi⟩
  intro ty hty tx htx ch hch r hr c hc
  have htile : ty * blocksWide s + tx < numBlocks s := pixelIndex_lt hty htx
  obtain ⟨hchannel, hcell⟩ := index_of_cell (ty * blocksWide s + tx) hch hr hc
  rw [dctbAt_afterFdct s (cellIndex_lt htile hch hr hc), hchannel, hcell,
    show ((((ty * blocksWide s + tx) * 3 + ch) * 8 + r) * 8 + c) / 64 / 3
      = ty * blocksWide s + tx by omega,
    show (8 * r + c) / 8 = r by omega, show (8 * r + c) % 8 = c by omega,
    tileSamples_of_tile s htx ch]
  obtain ⟨hlo, hhi⟩ := forwardDCT_bounds (b := Grid.ofFn fun y x =>
    ((yccAt s (((8 * ty + y) * width s + (8 * tx + x)) * 3 + ch)).toNat : Int))
    (fun y hy x hx => samples_bounds _ hy hx) hr hc
  exact BitVec.toInt_ofInt_eq_self (by decide) (by omega) (by omega)

end Sys2Proof.Machine
end

section
/-! PROOFS. The encoding macros (`49_orchestrator.md` R277, R278). What the stages after the coefficients
leave is one state, `encoded`; `Codable` says that the table and the payload of the coefficients fit.
`issue_coder` and `codable_of_clean` say that the stages then run to that state, and only then. An image
with room for its table and payload (`Encodable`) is `Codable`, since a run-length stream has at most two
symbols for each coefficient and no code is longer than the table. -/

namespace Sys2Proof.Machine

/-! ### Commands issued in parts -/

theorem issue_append_of_clean {is : List Instr} {s u : State} (h : issue is s = .next u)
    (hu : u.lastdiag = 0#32) (rest : List Instr) : issue (is ++ rest) s = issue rest u := by
  induction is generalizing s with
  | nil => rw [Host.Outcome.next.inj h, List.nil_append]
  | cons i is ih =>
    rw [issue_cons] at h
    rw [List.cons_append, issue_cons]
    split at h
    next hclean => rw [if_pos hclean, ih h]
    next hdiag => exact absurd (Host.Outcome.next.inj h ▸ hu) hdiag

/-- Where commands issued one by one end without a diagnostic, so did the first of them. -/
theorem exists_exec_of_issue_clean {i : Instr} {is : List Instr} {s t : State}
    (h : issue (i :: is) s = .next t) (ht : t.lastdiag = 0#32) :
    ∃ u, exec i s = .next u ∧ u.lastdiag = 0#32 ∧ issue is u = .next t := by
  refine ⟨_, exec_eq_rule i s, ?_⟩
  rw [issue_cons] at h
  split at h
  next hclean => exact ⟨hclean, h⟩
  next hdiag => exact absurd (Host.Outcome.next.inj h ▸ ht) hdiag

/-! ### From the coefficients to the payload -/

/-- The state after `ZIGZAG` and `RLEENC`. -/
def scannedStream (q : State) : State := afterRleenc (afterZigzag q)

/-- The state after `ZIGZAG`, `RLEENC` and the four commands of the Huffman coder. -/
def encoded (q : State) : State := afterHuffman (scannedStream q)

/-- The stages after the coefficients. -/
def coderStages : List Instr := [.zigzag, .rleenc, .hfreq, .htree, .hcodes, .henc]

/-- The coefficients have a stream, and its table and payload fit. -/
structure Codable (q : State) : Prop where
  geometry : GeometryLegal q
  capacities : CapacitiesLegal q.cap
  stream : 1 ≤ regLen (scannedStream q).rleLen
  table : (distinctSymbols (rleSeq (scannedStream q))).length ≤ q.cap.freqCap
  payload : bytesFor (codedBits (scannedStream q)).length ≤ q.cap.payCap

theorem length_zzSeq_afterZigzag {q : State} (h : GeometryLegal q) :
    (zzSeq (afterZigzag q)).length = 192 * numBlocks q := by
  exact (length_zzSeq _).trans ((congrArg Int.toNat (toInt_ofNat_numBlocks h)).trans (by omega))

theorem length_zzSeq_afterZigzag_le {q : State} (h : GeometryLegal q) :
    (zzSeq (afterZigzag q)).length ≤ Config.zzCap :=
  (length_zzSeq_afterZigzag h).trans_le (numBlocks_le h)

theorem rleSeq_scannedStream {q : State} (h : GeometryLegal q) :
    rleSeq (scannedStream q) = encodeRLE (zzSeq (afterZigzag q)) :=
  rleSeq_afterRleenc (length_zzSeq_afterZigzag_le h)

theorem regLen_rleLen_scannedStream {q : State} (h : GeometryLegal q) :
    regLen (scannedStream q).rleLen = 2 * (runs (zzSeq (afterZigzag q))).length :=
  (regLen_rleLen_afterRleenc (length_zzSeq_afterZigzag_le h)).trans (length_encodeRLE _)

theorem regLen_rleLen_scannedStream_le {q : State} (h : GeometryLegal q) :
    regLen (scannedStream q).rleLen ≤ 384 * numBlocks q := by
  have hruns := length_runs_le (zzSeq (afterZigzag q))
  have hlength := length_zzSeq_afterZigzag h
  have hrle := regLen_rleLen_scannedStream h
  omega

/-- Each of the stages runs. -/
theorem Codable.issue_coder {q : State} (h : Codable q) (hvalid : getFlag .qValid q = true) :
    issue coderStages q = .next (encoded q) := by
  have hzz : getFlag .zzValid (afterZigzag q) = true := getFlag_of_or_mask_self rfl
  have hrle : getFlag .rleValid (scannedStream q) = true := getFlag_of_or_mask_self rfl
  rw [coderStages, issue_of_clean (exec_zigzag_of_valid hvalid) rfl,
    issue_of_clean (exec_rleenc_of_valid hzz) rfl]
  refine (issue_huffman hrle h.capacities h.stream).trans (congrArg _ ?_)
  exact (if_neg h.table.not_gt).trans (if_neg h.payload.not_gt)

theorem exec_zigzag_clean {s t : State} (h : exec .zigzag s = .next t) (ht : t.lastdiag = 0#32) :
    t = afterZigzag s := by
  cases ends_of_exec (by decide) h with
  | reported _ d hd => exact absurd ht (diag_lastdiag_ne_zero d s)
  | zigzag => rfl

theorem exec_rleenc_clean {s t : State} (h : exec .rleenc s = .next t) (ht : t.lastdiag = 0#32) :
    t = afterRleenc s := by
  cases ends_of_exec (by decide) h with
  | reported _ d hd => exact absurd ht (diag_lastdiag_ne_zero d s)
  | rleenc => rfl

theorem exec_hfreq_clean {s t : State} (h : exec .hfreq s = .next t) (ht : t.lastdiag = 0#32) :
    t = afterHfreq s ∧ (distinctSymbols (rleSeq s)).length ≤ s.cap.freqCap := by
  cases ends_of_exec (by decide) h with
  | reported _ d hd => exact absurd ht (diag_lastdiag_ne_zero d s)
  | hfreq hfits => exact ⟨rfl, hfits⟩

theorem exec_htree_clean {s t : State} (h : exec .htree s = .next t) (ht : t.lastdiag = 0#32) :
    1 ≤ regLen s.freqN := by
  cases ends_of_exec (by decide) h with
  | reported _ d hd => exact absurd ht (diag_lastdiag_ne_zero d s)
  | htree hentries => exact hentries

theorem length_distinctSymbols_le (s : State) :
    (distinctSymbols (rleSeq s)).length ≤ regLen s.rleLen :=
  calc _ = (rleSeq s).toFinset.card := length_distinctSymbols (rleSeq s)
    _ ≤ (rleSeq s).length := List.toFinset_card_le _
    _ = regLen s.rleLen := length_rleSeq s

/-- The four commands of the Huffman coder run without a diagnostic only on a stream that is not empty
and whose table and payload fit. -/
theorem issue_huffman_clean {s u : State} (hvalid : getFlag .rleValid s = true)
    (hcap : CapacitiesLegal s.cap) (h : issue [.hfreq, .htree, .hcodes, .henc] s = .next u)
    (hu : u.lastdiag = 0#32) : u = afterHuffman s ∧ 1 ≤ regLen s.rleLen
      ∧ (distinctSymbols (rleSeq s)).length ≤ s.cap.freqCap
      ∧ bytesFor (codedBits s).length ≤ s.cap.payCap := by
  obtain ⟨f, hhfreq, hf, hrest⟩ := exists_exec_of_issue_clean h hu
  obtain ⟨rfl, htable⟩ := exec_hfreq_clean hhfreq hf
  obtain ⟨t, hhtree, ht, -⟩ := exists_exec_of_issue_clean hrest hu
  have hstream : 1 ≤ regLen s.rleLen := by
    have hentries := exec_htree_clean hhtree ht
    rw [regLen_freqN_afterHfreq hcap htable] at hentries
    exact hentries.trans (length_distinctSymbols_le s)
  rw [issue_huffman hvalid hcap hstream, if_neg htable.not_gt] at h
  split at h
  next => exact absurd (Host.Outcome.next.inj h ▸ hu) (diag_lastdiag_ne_zero .overflow _)
  next hpayload => exact ⟨(Host.Outcome.next.inj h).symm, hstream, htable, not_lt.1 hpayload⟩

/-- The stages run without a diagnostic only on coefficients whose table and payload fit. -/
theorem codable_of_clean {q u : State} (hgeometry : GeometryLegal q)
    (hcap : CapacitiesLegal q.cap) (h : issue coderStages q = .next u) (hu : u.lastdiag = 0#32) :
    Codable q ∧ u = encoded q := by
  obtain ⟨z, hzigzag, hz, hrest⟩ := exists_exec_of_issue_clean h hu
  obtain rfl := exec_zigzag_clean hzigzag hz
  obtain ⟨r, hrleenc, hr, hhuffman⟩ := exists_exec_of_issue_clean hrest hu
  obtain rfl := exec_rleenc_clean hrleenc hr
  obtain ⟨hencoded, hstream, htable, hpayload⟩ :=
    issue_huffman_clean (s := scannedStream q) (getFlag_of_or_mask_self rfl) hcap hhuffman hu
  exact ⟨⟨hgeometry, hcap, hstream, htable, hpayload⟩, hencoded⟩

/-! ### The encoded state -/

/-- The stages add flags. -/
theorem stage_afterSer_encoded (q : State) :
    (afterSer (encoded q)).stage = q.stage ||| 0xFE0#32 := by
  have hmasks : (afterSer (encoded q)).stage = q.stage ||| 0x20#32 ||| 0x40#32 ||| 0x80#32 ||| 0x100#32
    ||| 0x200#32 ||| 0x400#32 ||| 0x800#32 := rfl
  rw [hmasks]
  simp only [BitVec.or_assoc]
  rfl

theorem getFlag_of_stage_eq {s t : State} {m : Word} (h : t.stage = s.stage ||| m) (f : Flag) :
    getFlag f t = (getFlag f s || m.getLsbD f.bit) := by
  rw [getFlag, h, BitVec.getLsbD_or]
  rfl

theorem stage_encoded (q : State) : (encoded q).stage = q.stage ||| 0x7E0#32 := by
  have hmasks : (encoded q).stage = q.stage ||| 0x20#32 ||| 0x40#32 ||| 0x80#32 ||| 0x100#32
    ||| 0x200#32 ||| 0x400#32 := rfl
  rw [hmasks]
  simp only [BitVec.or_assoc]
  rfl

section
variable {q : State} (h : Codable q)
include h

theorem Codable.regLen_freqN :
    regLen (encoded q).freqN = (distinctSymbols (rleSeq (scannedStream q))).length :=
  regLen_freqN_afterHfreq (s := scannedStream q) h.capacities h.table

theorem Codable.regLen_encBytes :
    regLen (encoded q).encBytes = bytesFor (codedBits (scannedStream q)).length :=
  congrArg Int.toNat (toInt_encBytes_afterHenc (s := huffmanCoded (scannedStream q)) h.capacities
    h.payload)

theorem Codable.one_le_freqN : 1 ≤ regLen (encoded q).freqN :=
  one_le_freqN_afterHfreq (s := scannedStream q) h.capacities h.table h.stream

theorem Codable.lengthsLegal : LengthsLegal (encoded q) := by
  obtain ⟨-, -, hfreqCap, hpayCap⟩ := h.capacities
  have hsequence := length_zzSeq_afterZigzag_le h.geometry
  have hruns := length_runs_le (zzSeq (afterZigzag q))
  have hstream := length_encodeRLE (zzSeq (afterZigzag q))
  have hcap : Config.rleCap = 2 * Config.zzCap := rfl
  refine ⟨?_, ?_, ?_, ?_⟩
  · exact lengthLegal_of_ofNat (numBlocks_le h.geometry) (by decide)
  · exact lengthLegal_of_ofNat (by omega) (by decide)
  · exact lengthLegal_of_ofNat (cap := q.cap.freqCap) h.table (by omega)
  · exact lengthLegal_of_ofNat h.payload hpayCap

theorem Codable.serLegal : SerLegal (encoded q) :=
  ⟨h.geometry, h.lengthsLegal, h.capacities⟩

end

/-- `SER` writes the container when it fits. -/
theorem exec_ser_encoded {q : State}
    (hfits : 24 + 8 * regLen (encoded q).freqN + regLen (encoded q).encBytes ≤ q.cap.contCap) :
    exec .ser (encoded q) = .next (afterSer (encoded q)) := by
  have hflags (f : Flag) (hf : (0x7E0#32).getLsbD f.bit = true) : getFlag f (encoded q) = true := by
    rw [getFlag_of_stage_eq (stage_encoded q), hf, Bool.or_true]
  rw [exec_ser_of_valid (hflags _ rfl) (hflags _ rfl) (hflags _ rfl)]
  exact congrArg _ (if_neg hfits.not_gt)

/-! ### An image with room for its table and payload -/

/-- The capacities have room for the largest table and payload of the coefficients (at most two symbols
for each coefficient, of at most as many bits each). -/
structure HasRoom (q : State) : Prop where
  geometry : GeometryLegal q
  capacities : CapacitiesLegal q.cap
  tile : 1 ≤ numBlocks q
  table : 384 * numBlocks q ≤ q.cap.freqCap
  payload : (384 * numBlocks q) ^ 2 ≤ q.cap.payCap
  container : 24 + 8 * (384 * numBlocks q) + (384 * numBlocks q) ^ 2 ≤ q.cap.contCap

section
variable {q : State} (h : HasRoom q)
include h

theorem HasRoom.one_le_rleLen : 1 ≤ regLen (scannedStream q).rleLen := by
  have hlength := length_zzSeq_afterZigzag h.geometry
  have htile := h.tile
  have hruns : 0 < (runs (zzSeq (afterZigzag q))).length :=
    List.length_pos_iff.2 (runs_ne_nil fun hnil => by
      rw [hnil, List.length_nil] at hlength
      omega)
  rw [regLen_rleLen_scannedStream h.geometry]
  omega

theorem HasRoom.length_table_le :
    (distinctSymbols (rleSeq (scannedStream q))).length ≤ 384 * numBlocks q :=
  (length_distinctSymbols_le _).trans (regLen_rleLen_scannedStream_le h.geometry)

theorem HasRoom.length_payload_le :
    bytesFor (codedBits (scannedStream q)).length ≤ (384 * numBlocks q) ^ 2 := by
  have hbits := length_codedBits_le (s := scannedStream q) h.capacities
    (h.length_table_le.trans h.table) h.one_le_rleLen
  have hstream := regLen_rleLen_scannedStream_le h.geometry
  have hbytes : bytesFor (codedBits (scannedStream q)).length
      ≤ (codedBits (scannedStream q)).length := by unfold bytesFor; omega
  rw [length_rleSeq] at hbits
  rw [Nat.pow_two]
  exact (hbytes.trans hbits).trans (Nat.mul_le_mul hstream hstream)

theorem HasRoom.codable : Codable q :=
  ⟨h.geometry, h.capacities, h.one_le_rleLen, h.length_table_le.trans h.table,
    h.length_payload_le.trans h.payload⟩

theorem HasRoom.container_fits :
    24 + 8 * regLen (encoded q).freqN + regLen (encoded q).encBytes ≤ q.cap.contCap := by
  have htable := h.length_table_le
  have hpayload := h.length_payload_le
  have hcontainer := h.container
  rw [h.codable.regLen_freqN, h.codable.regLen_encBytes]
  omega

end

/-! ### From the pixels to the coefficients -/

/-- The state after `RGB2YCC`, `FDCT` and `QUANT`. -/
def quantizedImage (s : State) : State := afterQuant (afterFdct (afterRgb2ycc s))

theorem stage_quantizedImage (s : State) : (quantizedImage s).stage = s.stage ||| 0xE#32 := by
  have hmasks : (quantizedImage s).stage = s.stage ||| 0x2#32 ||| 0x4#32 ||| 0x8#32 := rfl
  rw [hmasks]
  simp only [BitVec.or_assoc]
  rfl

theorem issue_pixels {s : State} (hloaded : getFlag .rgbLoaded s = true)
    (hquality : 1 ≤ s.quality.toInt ∧ s.quality.toInt ≤ 100) (rest : List Instr) :
    issue (.rgb2ycc :: .fdct :: .quant :: rest) s = issue rest (quantizedImage s) := by
  have hycc : getFlag .yccValid (afterRgb2ycc s) = true := getFlag_of_or_mask_self rfl
  have hdct : getFlag .dctValid (afterFdct (afterRgb2ycc s)) = true := getFlag_of_or_mask_self rfl
  rw [issue_of_clean (exec_rgb2ycc_of_loaded hloaded) rfl,
    issue_of_clean (exec_fdct_of_valid hycc) rfl,
    issue_of_clean (exec_quant_of_valid hdct hquality) rfl, quantizedImage]

/-- The rule of `RGB2YCC`, whatever `LASTDIAG` is; the next two are alike. -/
theorem cmdRgb2ycc_of_loaded {s : State} (h : getFlag .rgbLoaded s = true) :
    cmdRgb2ycc s = { afterRgb2ycc s with lastdiag := s.lastdiag } :=
  requireFlags_of_all (List.forall_mem_singleton.2 h) _

theorem cmdFdct_of_valid {s : State} (h : getFlag .yccValid s = true) :
    cmdFdct s = { afterFdct s with lastdiag := s.lastdiag } :=
  requireFlags_of_all (List.forall_mem_singleton.2 h) _

theorem cmdQuant_of_valid {s : State} (h : getFlag .dctValid s = true)
    (hquality : 1 ≤ s.quality.toInt ∧ s.quality.toInt ≤ 100) :
    cmdQuant s = { afterQuant s with lastdiag := s.lastdiag } := by
  rw [cmdQuant, requireFlags_of_all (List.forall_mem_singleton.2 h),
    requireParam_of_ok ((qualityOk_iff _).2 hquality)]
  rfl

theorem rules_pixels {s : State} (hloaded : getFlag .rgbLoaded s = true)
    (hquality : 1 ≤ s.quality.toInt ∧ s.quality.toInt ≤ 100) :
    cmdQuant (cmdFdct (cmdRgb2ycc s)) = { quantizedImage s with lastdiag := s.lastdiag } := by
  have hrgb2ycc := cmdRgb2ycc_of_loaded hloaded
  have hycc : getFlag .yccValid (cmdRgb2ycc s) = true := by
    rw [hrgb2ycc]
    exact getFlag_of_or_mask_self (s := s) rfl
  have hfdct := cmdFdct_of_valid hycc
  have hdct : getFlag .dctValid (cmdFdct (cmdRgb2ycc s)) = true := by
    rw [hfdct]
    exact getFlag_of_or_mask_self (s := cmdRgb2ycc s) rfl
  have hquality' : 1 ≤ (cmdFdct (cmdRgb2ycc s)).quality.toInt
      ∧ (cmdFdct (cmdRgb2ycc s)).quality.toInt ≤ 100 := by
    rw [hfdct, hrgb2ycc]
    exact hquality
  rw [cmdQuant_of_valid hdct hquality', hfdct, hrgb2ycc]
  rfl

/-- The coefficients of `imageSlots` are those of the image. -/
theorem imageSlots_eq {s : State} (hloaded : getFlag .rgbLoaded s = true)
    (hquality : 1 ≤ s.quality.toInt ∧ s.quality.toInt ≤ 100) :
    imageSlots s = (coefSlots (quantizedImage s)).length := by
  rw [imageSlots, rules_pixels hloaded hquality]
  rfl

/-- What the encoding macros leave as it was. -/
def sourceParts (s : State) : (Word × Word × Word × Word × Word × Word × Word × Word)
    × (Buf 8 × Buf 8) × Capacities × Nat × Nat × List HostAction × List Word :=
  ((s.diagacc, s.quality, s.imgW, s.imgH, s.w, s.h, s.msgLen, s.rleExp), (s.mem.rgb, s.mem.msg), s.cap,
    s.epoch, s.draws, s.host, s.replies)

theorem eq_of_sourceParts {s t : State} (h : sourceParts t = sourceParts s)
    (hlast : t.lastdiag = 0#32) {m : Word} (hstage : t.stage = s.stage ||| m) : t = { s with
      lastdiag := 0#32, stage := s.stage ||| m
      zzLen := t.zzLen, rleLen := t.rleLen, freqN := t.freqN, encBytes := t.encBytes
      contLen := t.contLen, node := t.node, treeN := t.treeN, treeRoot := t.treeRoot, code := t.code
      mem := { t.mem with rgb := s.mem.rgb, msg := s.mem.msg } } := by
  simp only [sourceParts, Prod.mk.injEq] at h
  obtain ⟨⟨hacc, hquality, himgW, himgH, hw, hh, hmsgLen, hrleExp⟩, ⟨hrgb, hmsg⟩, hcap, hepoch, hdraws,
    hhost, hreplies⟩ := h
  rw [← hlast, ← hstage, ← hacc, ← hquality, ← himgW, ← himgH, ← hw, ← hh, ← hmsgLen, ← hrleExp, ← hrgb,
    ← hmsg, ← hcap, ← hepoch, ← hdraws, ← hhost, ← hreplies]

theorem sourceParts_afterSer_encoded (q : State) :
    sourceParts (afterSer (encoded q)) = sourceParts q := rfl

theorem sourceParts_quantizedImage (s : State) : sourceParts (quantizedImage s) = sourceParts s := rfl

/-! ### The macros -/

/-- An encoding macro ends as its stages and `SER` end, when none of them reports and `SUCCESS` is
set. -/
theorem exec_encode_of_clean {m i : Instr} {is : List Instr} {s u t : State}
    (hm : rule m = runConstituents ((i :: is).map rule ++ [successCheck, cmdSer]))
    (hissue : issue (i :: is) s = .next u) (hu : u.lastdiag = 0#32)
    (hsuccess : getFlag .success u = true) (hser : exec .ser u = .next t) (ht : t.lastdiag = 0#32) :
    exec m s = .next t ∧ issue ((i :: is) ++ [.ser]) s = .next t := by
  obtain ⟨u', hissue', hexec⟩ := exec_eq_issue_then_ser hm s
  obtain rfl := Host.Outcome.next.inj (hissue'.symm.trans hissue)
  constructor
  · rw [hexec, if_neg (not_not.2 hu), if_pos hsuccess, hser]
  · rw [issue_append_of_clean hissue hu, issue_of_clean hser ht, issue_nil]

/-- The lengths that an encoding macro leaves. -/
theorem lengths_afterSer_encoded {q : State} (h : HasRoom q) :
    (afterSer (encoded q)).zzLen.toInt = 192 * numBlocks q
      ∧ 1 ≤ (afterSer (encoded q)).freqN.toInt
      ∧ (afterSer (encoded q)).contLen.toInt
        = 24 + 8 * (afterSer (encoded q)).freqN.toInt + (afterSer (encoded q)).encBytes.toInt := by
  have hfreqN := h.codable.one_le_freqN
  obtain ⟨-, -, -, hencBytes, -⟩ := h.codable.lengthsLegal
  have hcontLen := toInt_contLen_afterSer (s := encoded q) h.capacities.2.1 h.container_fits
  unfold regLen at hfreqN hcontLen
  refine ⟨toInt_ofNat_numBlocks h.geometry, ?_, ?_⟩
  · exact (by omega : 1 ≤ (encoded q).freqN.toInt)
  · exact hcontLen.trans (by
      have hn : (afterSer (encoded q)).freqN = (encoded q).freqN := rfl
      have he : (afterSer (encoded q)).encBytes = (encoded q).encBytes := rfl
      rw [hn, he]
      omega)

theorem Encodable.hasRoom {s : State} (h : Encodable s) : HasRoom s :=
  ⟨h.geometry, h.capacities, h.tile, h.table, h.payload, h.container⟩

theorem HasRoom.quantizedImage {s : State} (h : HasRoom s) : HasRoom (quantizedImage s) :=
  ⟨h.geometry, h.capacities, h.tile, h.table, h.payload, h.container⟩

theorem HasRoom.afterCfembed {s : State} (h : HasRoom s) : HasRoom (afterCfembed s) :=
  ⟨h.geometry, h.capacities, h.tile, h.table, h.payload, h.container⟩

/-- Settles O54: the stages run to the encoded state, and the container fits. -/
theorem runencCompletes : Obligations.RunencCompletes := by
  intro s h
  have hroom := h.hasRoom.quantizedImage
  have hvalid : getFlag .qValid (quantizedImage s) = true := getFlag_of_or_mask_self rfl
  have hissue : issue encodeStages s = .next (encoded (quantizedImage s)) :=
    (issue_pixels h.loaded h.quality _).trans (hroom.codable.issue_coder hvalid)
  have hsuccess : getFlag .success (encoded (quantizedImage s)) = true := by
    rw [getFlag_of_stage_eq (stage_encoded _), getFlag_of_stage_eq (stage_quantizedImage s), h.success]
    rfl
  obtain ⟨hexec, hissue⟩ := exec_encode_of_clean (m := .runenc) rfl hissue rfl hsuccess
    (exec_ser_encoded hroom.container_fits) rfl
  refine ⟨_, hexec, hissue, eq_of_sourceParts ?_ rfl ?_, lengths_afterSer_encoded hroom⟩
  · rw [sourceParts_afterSer_encoded, sourceParts_quantizedImage]
  · rw [stage_afterSer_encoded, stage_quantizedImage, BitVec.or_assoc]
    rfl

/-- Settles O55: as `RUNENC`, and the message fits the slots. -/
theorem runencmCompletes : Obligations.RunencmCompletes := by
  intro s h hnonneg hcap hslots
  rw [imageSlots_eq h.loaded h.quality] at hslots
  have hvalid : getFlag .qValid (quantizedImage s) = true := getFlag_of_or_mask_self rfl
  have hembed : exec .cfembed (quantizedImage s) = .next (afterCfembed (quantizedImage s)) := by
    rw [exec_cfembed_of_valid hvalid ⟨hnonneg, hcap⟩]
    exact congrArg _ (if_neg hslots.not_gt)
  have hroom := h.hasRoom.quantizedImage.afterCfembed
  have hstage : (afterCfembed (quantizedImage s)).stage = s.stage ||| 0x1E#32 := by
    have hembedded : (afterCfembed (quantizedImage s)).stage = (quantizedImage s).stage ||| 0x10#32 := rfl
    rw [hembedded, stage_quantizedImage, BitVec.or_assoc]
    rfl
  have hissue : issue encodeMessageStages s = .next (encoded (afterCfembed (quantizedImage s))) := by
    refine (issue_pixels h.loaded h.quality _).trans ((issue_of_clean hembed rfl _).trans ?_)
    exact hroom.codable.issue_coder (by rw [getFlag_of_stage_eq hstage]; exact Bool.or_true _)
  have hsuccess : getFlag .success (encoded (afterCfembed (quantizedImage s))) = true := by
    rw [getFlag_of_stage_eq (stage_encoded _), getFlag_of_stage_eq hstage, h.success]
    rfl
  obtain ⟨hexec, hissue⟩ := exec_encode_of_clean (m := .runencm) rfl hissue rfl hsuccess
    (exec_ser_encoded hroom.container_fits) rfl
  refine ⟨_, hexec, hissue, eq_of_sourceParts ?_ rfl ?_, lengths_afterSer_encoded hroom⟩
  · rw [sourceParts_afterSer_encoded]
    exact sourceParts_quantizedImage s
  · rw [stage_afterSer_encoded, hstage, BitVec.or_assoc]
    rfl

end Sys2Proof.Machine
end

section
/-! PROOFS. The decoding macros (`49_orchestrator.md` R279, R280). The tree that a container's table gives
and the symbols of its payload are those that `HTREE` and `HDEC` compute after `DESER`
(`node_containerTree`, `decodePayload_containerTree`); on a container that decodes all stages up to
`DEZIGZAG` run to one state, `decoded` (`issue_decode`). -/

namespace Sys2Proof.Machine

/-! ### The tree and the payload of a container (R228, R198, R206) -/

/-- The state after `DESER` and `HTREE`. -/
def containerTree (s : State) : State := afterHtree (afterDeser s)

/-- The state after `DESER`, `HTREE` and `HDEC`. -/
def containerStream (s : State) : State := afterHdec (containerTree s)

/-- The state after the stages up to `DEZIGZAG`. -/
def decoded (s : State) : State := afterDezigzag (afterRledec (containerStream s))

theorem encBytes_afterDeser (s : State) :
    regLen (afterDeser s).encBytes = (contPayloadBytes s).toNat :=
  congrArg (fun v : Word => v.toInt.toNat) BitVec.ofInt_toInt

theorem rleExp_afterDeser (s : State) : (afterDeser s).rleExp.toInt = containerSymbolCount s := rfl

/-- The payload after `DESER`. -/
theorem payloadBits_containerTree (s : State) : payloadBits (containerTree s) = containerBits s := by
  have hlength : regLen (containerTree s).encBytes = (contPayloadBytes s).toNat :=
    encBytes_afterDeser s
  rw [payloadBits, containerBits, hlength]
  refine List.flatMap_congr fun j hj => congrArg bitsOfByte ?_
  exact payAt_afterDeser s (List.mem_range.1 hj)

section
variable {s : State} (hcap : CapacitiesLegal s.cap) (hok : containerOk s = true)
include hcap hok

theorem regLen_freqN_afterDeser : regLen (afterDeser s).freqN = contEntries s := by
  obtain ⟨-, hentries, -⟩ := (containerOk_iff s).1 hok
  obtain ⟨-, -, hfreqCap, -⟩ := hcap
  exact congrArg Int.toNat (toInt_ofNat_of_lt (n := contEntries s) (by omega))

/-- The leaves after `DESER`. -/
theorem leafNodes_afterDeser : leafNodes (afterDeser s) = containerLeaves s := by
  rw [leafNodes, containerLeaves, regLen_freqN_afterDeser hcap hok]
  refine List.map_congr_left fun k hk => ?_
  obtain ⟨hsymbol, hcount⟩ := freqEntry_afterDeser s (List.mem_range.1 hk)
  rw [hsymbol, hcount]

theorem node_containerTree : (containerTree s).node = containerPool s :=
  congrArg buildTree (leafNodes_afterDeser hcap hok)

variable (hentries : 1 ≤ contEntries s)
include hentries

/-- The root is the last node. -/
theorem treeRoot_containerTree :
    (containerTree s).treeRoot = some ((containerPool s).length - 1) := by
  have hshape := treeShape_afterHtree (s := afterDeser s)
    ((regLen_freqN_afterDeser hcap hok).symm ▸ hentries)
  have hlast := hshape.root_last
  have hnode : (afterHtree (afterDeser s)).node = containerPool s := node_containerTree hcap hok
  rw [hnode] at hlast
  exact (treeRoot_afterHtree _).trans (congrArg some (by omega))

/-- What `HDEC` decodes, as the statement says it. -/
theorem decodePayload_containerTree : decodePayload (containerTree s)
    = decodeSymbols (containerPool s) ((containerPool s).length - 1) (containerSymbolCount s)
      (containerBits s) ((containerPool s).length - 1) [] := by
  rw [decodePayload, payloadBits_containerTree, node_containerTree hcap hok,
    treeRoot_containerTree hcap hok hentries]
  rfl

end

/-- A decoding that gives the expected number of symbols was not stopped by a missing child. -/
theorem decodeSymbols_stopped (pool : List Node) (root : Nat) (expected : Int) (bits : List Bool)
    (n : Nat) (out : List Word)
    (h : expected ≤ (decodeSymbols pool root expected bits n out).1.length) :
    (decodeSymbols pool root expected bits n out).2 = .stopped := by
  fun_induction decodeSymbols pool root expected bits n out with
  | case1 => rfl
  | case2 => rfl
  | case3 b bits n out hlt hc => exact absurd h hlt
  | case4 b bits n out hlt c hc sym f hleaf ih => exact ih h
  | case5 b bits n out hlt c hc hnode ih => exact ih h

/-! ### The stages up to `DEZIGZAG` -/

section
variable {s : State} (h : ContainerDecodes s)
include h

theorem ContainerDecodes.decodePayload_eq :
    decodePayload (containerTree s) = (containerSymbols s, .stopped) := by
  have hpayload := decodePayload_containerTree h.capacities h.checks h.entries
  rw [hpayload]
  exact Prod.ext rfl (decodeSymbols_stopped _ _ _ _ _ _ h.symbols.ge)

/-- `HDEC` reports nothing. -/
theorem ContainerDecodes.containerStream_eq : containerStream s = hdecWritten (containerTree s) :=
  afterHdec_of_stream h.decodePayload_eq h.symbols.symm

theorem ContainerDecodes.length_lt : (containerSymbols s).length < 2 ^ 31 := by
  have hcap := rleCap_eq
  obtain ⟨-, -, hcount⟩ := h.count
  have hsymbols := h.symbols
  omega

theorem ContainerDecodes.rleLen_eq :
    (containerStream s).rleLen = contWord s (20 + 8 * contEntries s) := by
  refine BitVec.eq_of_toInt_eq ?_
  rw [containerStream, rleLen_afterHdec, h.decodePayload_eq, toInt_ofNat_of_lt h.length_lt]
  exact h.symbols

theorem ContainerDecodes.regLen_rleLen :
    regLen (containerStream s).rleLen = (containerSymbols s).length := by
  rw [containerStream, rleLen_afterHdec, h.decodePayload_eq, regLen, toInt_ofNat_of_lt h.length_lt,
    Int.toNat_natCast]

/-- The stream holds the symbols of the payload. -/
theorem ContainerDecodes.rleAt_eq {i : Nat} (hi : i < (containerSymbols s).length) :
    rleAt (containerStream s) i = (containerSymbols s)[i] := by
  rw [containerStream, rleAt_afterHdec]
  simp only [h.decodePayload_eq, hi, dite_true]

theorem ContainerDecodes.rleSeq_eq : rleSeq (containerStream s) = containerSymbols s := by
  refine List.ext_getElem (by rw [length_rleSeq, h.regLen_rleLen]) fun i hi hi' => ?_
  simp only [rleSeq, List.getElem_map, List.getElem_range]
  exact h.rleAt_eq hi'

theorem ContainerDecodes.zzLen_eq :
    (afterRledec (containerStream s)).zzLen.toInt = expandedLength (containerSymbols s) := by
  rw [toInt_zzLen_afterRledec, h.rleSeq_eq, expandedLength_eq]
  rw [h.rleSeq_eq, ← expandedLength_eq]
  exact h.expansion

theorem ContainerDecodes.exec_rledec :
    exec .rledec (containerStream s) = .next (afterRledec (containerStream s)) := by
  have hvalid : getFlag .rleValid (containerStream s) = true := by
    rw [h.containerStream_eq]
    exact getFlag_of_or_mask_self (s := containerTree s) rfl
  have hexp : (containerStream s).rleExp.toInt = containerSymbolCount s := by
    rw [h.containerStream_eq]
    exact rleExp_afterDeser s
  have hlength : (containerStream s).rleLen.toInt = containerSymbolCount s :=
    congrArg BitVec.toInt h.rleLen_eq
  obtain ⟨hpos, heven, -⟩ := h.count
  have hgood : ¬rleMalformed (containerStream s) = true := by
    rw [rleMalformed_iff (by omega), hexp, hlength]
    omega
  have hfits : ¬Config.zzCap < (expandPairs (rleSeq (containerStream s))).length := by
    rw [h.rleSeq_eq, ← expandedLength_eq]
    exact h.expansion.not_gt
  rw [exec_rledec_of_valid hvalid, if_neg hgood, if_neg hfits]

/-- The stages up to `DEZIGZAG` run. -/
theorem ContainerDecodes.issue_decode :
    issue [.deser, .htree, .hdec, .rledec, .dezigzag] s = .next (decoded s) := by
  have hdeser : exec .deser s = .next (afterDeser s) := by
    rw [exec_deser_of_valid h.declared, if_pos h.checks]
  have hstage : (afterDeser s).stage = s.stage ||| 0x480#32 := by rw [afterDeser_frame]
  have hfreq : getFlag .freqValid (afterDeser s) = true := by
    rw [getFlag_of_stage_eq hstage]
    exact Bool.or_true _
  have hhtree : exec .htree (afterDeser s) = .next (containerTree s) := by
    have hentries := h.entries
    rw [exec_htree_of_valid hfreq, regLen_freqN_afterDeser h.capacities h.checks, if_neg (by omega)]
    rfl
  have htree : getFlag .treeValid (containerTree s) = true := getFlag_of_or_mask_self rfl
  have hbits : getFlag .bitsValid (afterDeser s) = true := by
    rw [getFlag_of_stage_eq hstage]
    exact Bool.or_true _
  have hhdec : exec .hdec (containerTree s) = .next (containerStream s) := by
    have hcap := rleCap_eq
    obtain ⟨-, -, hcount⟩ := h.count
    exact exec_hdec_of_valid htree (getFlag_of_or_mask_of_set (s := afterDeser s) rfl hbits)
      ((rleExp_afterDeser s).trans_le (by omega))
  have hclean : (containerStream s).lastdiag = 0#32 := by rw [h.containerStream_eq]; rfl
  have hzz : getFlag .zzValid (afterRledec (containerStream s)) = true := getFlag_of_or_mask_self rfl
  rw [issue_of_clean hdeser rfl, issue_of_clean hhtree rfl, issue_of_clean hhdec hclean,
    issue_of_clean h.exec_rledec rfl, issue_of_clean (exec_dezigzag_of_valid hzz) rfl, issue_nil, decoded]

theorem ContainerDecodes.stage_decoded : (decoded s).stage = s.stage ||| 0x5E8#32 := by
  have hcoefficients (t : State) :
      (afterDezigzag (afterRledec t)).stage = t.stage ||| 0x20#32 ||| 0x8#32 := rfl
  have hstream (t : State) :
      (hdecWritten (afterHtree t)).stage = t.stage ||| 0x100#32 ||| 0x40#32 := rfl
  rw [decoded, hcoefficients, h.containerStream_eq, containerTree, hstream, afterDeser_frame]
  simp only [BitVec.or_assoc]
  rfl

end

/-! ### What the stages leave as it was -/

/-- What the decoding macros leave as it was, up to `DEZIGZAG` with the pixels. -/
def keptParts (s : State) : (Word × Word × Word × Word × Word) × (Store (List Bool) × Capacities)
    × (Buf 8 × Buf 8) × Nat × Nat × List HostAction × List Word :=
  ((s.diagacc, s.imgW, s.imgH, s.msgLen, s.contLen), (s.code, s.cap), (s.mem.cont, s.mem.msg),
    s.epoch, s.draws, s.host, s.replies)

/-- The registers that a container gives. -/
def headerParts (s : State) : Word × Word × Word × Word × Word × Word :=
  (s.quality, s.h, s.w, s.freqN, s.rleExp, s.encBytes)

/-- The buffers of pixels and of coefficients before quantization. -/
def pixelParts (s : State) : Buf 8 × Buf 8 × Buf 32 := (s.mem.rgb, s.mem.ycc, s.mem.dctb)

/-- The parts above together. -/
def decoderParts (s : State) := (keptParts s, headerParts s, pixelParts s)

theorem decoderParts_afterHtree (s : State) : decoderParts (afterHtree s) = decoderParts s := rfl

theorem decoderParts_hdecWritten (s : State) : decoderParts (hdecWritten s) = decoderParts s := rfl

theorem decoderParts_afterRledec (s : State) : decoderParts (afterRledec s) = decoderParts s := rfl

theorem decoderParts_afterDezigzag (s : State) : decoderParts (afterDezigzag s) = decoderParts s := rfl

/-- The header of a container (R225). -/
def containerHeader (s : State) : Word × Word × Word × Word × Word × Word :=
  (contWord s 0, contWord s 4, contWord s 8, contWord s 12, contWord s (20 + 8 * contEntries s),
    contWord s (16 + 8 * contEntries s))

theorem decoderParts_afterDeser (s : State) :
    decoderParts (afterDeser s) = (keptParts s, containerHeader s, pixelParts s) := by
  rw [afterDeser_frame]
  rfl

theorem ContainerDecodes.decoderParts_decoded {s : State} (h : ContainerDecodes s) :
    decoderParts (decoded s) = (keptParts s, containerHeader s, pixelParts s) := by
  rw [decoded, decoderParts_afterDezigzag, decoderParts_afterRledec, h.containerStream_eq,
    decoderParts_hdecWritten, containerTree, decoderParts_afterHtree, decoderParts_afterDeser]

theorem ContainerDecodes.node_decoded {s : State} (h : ContainerDecodes s) :
    (decoded s).node = containerPool s := by
  have hnode (t : State) : (afterDezigzag (afterRledec t)).node = t.node := rfl
  have hnode' (t : State) : (hdecWritten t).node = t.node := rfl
  rw [decoded, hnode, h.containerStream_eq, hnode', node_containerTree h.capacities h.checks]

theorem ContainerDecodes.rleLen_decoded {s : State} (h : ContainerDecodes s) :
    (decoded s).rleLen = contWord s (20 + 8 * contEntries s) := by
  have hrleLen (t : State) : (afterDezigzag (afterRledec t)).rleLen = t.rleLen := rfl
  rw [decoded, hrleLen, h.rleLen_eq]

/-- Where the parts that the decoding macros keep are kept, the others are what the statement names. -/
theorem eq_of_decodedParts {s t : State} {quality h w freqN rleExp encBytes rleLen stage : Word}
    {node : List Node} (hkept : keptParts t = keptParts s)
    (hheader : headerParts t = (quality, h, w, freqN, rleExp, encBytes)) (hrleLen : t.rleLen = rleLen)
    (hnode : t.node = node) (hlast : t.lastdiag = 0#32) (hstage : t.stage = stage) : t = { s with
      lastdiag := 0#32, stage := stage, quality := quality, h := h, w := w, freqN := freqN
      rleExp := rleExp, encBytes := encBytes, zzLen := t.zzLen, rleLen := rleLen, node := node
      treeN := t.treeN, treeRoot := t.treeRoot
      mem := { t.mem with cont := s.mem.cont, msg := s.mem.msg } } := by
  simp only [keptParts, Prod.mk.injEq] at hkept
  simp only [headerParts, Prod.mk.injEq] at hheader
  obtain ⟨⟨hacc, himgW, himgH, hmsgLen, hcontLen⟩, ⟨hcode, hcap⟩, ⟨hcont, hmsg⟩, hepoch, hdraws, hhost,
    hreplies⟩ := hkept
  obtain ⟨rfl, rfl, rfl, rfl, rfl, rfl⟩ := hheader
  subst hrleLen hnode hstage
  rw [← hlast, ← hacc, ← himgW, ← himgH, ← hmsgLen, ← hcontLen, ← hcode, ← hcap, ← hcont, ← hmsg, ← hepoch,
    ← hdraws, ← hhost, ← hreplies]

/-- Without the stages on pixels the pixels are kept too. -/
theorem memory_of_pixelParts {s t : State} (h : pixelParts t = pixelParts s) :
    ({ t.mem with cont := s.mem.cont, msg := s.mem.msg } : Memory) = { s.mem with
      freq := t.mem.freq, pay := t.mem.pay, rle := t.mem.rle, zz := t.mem.zz, qb := t.mem.qb } := by
  simp only [pixelParts, Prod.mk.injEq] at h
  obtain ⟨hrgb, hycc, hdctb⟩ := h
  simp only [hrgb, hycc, hdctb]

/-! ### `RUNDECM` (R280) -/

theorem ContainerDecodes.rleAt_decoded {s : State} (h : ContainerDecodes s) (i : Nat)
    (hi : i < (containerSymbols s).length) : rleAt (decoded s) i = (containerSymbols s)[i] := by
  have hstream (t : State) : rleAt (afterDezigzag (afterRledec t)) i = rleAt t i := rfl
  rw [decoded, hstream, h.rleAt_eq hi]

theorem issue_singleton (i : Instr) (s : State) : issue [i] s = exec i s := by
  rw [issue_cons, exec_eq_rule, issue_nil, ite_self]

/-- `RUNDECM` ends as `CFEXTRACT` on the decoded state. -/
theorem ContainerDecodes.exec_rundecm {s : State} (h : ContainerDecodes s) :
    exec .rundecm s = exec .cfextract (decoded s) := by
  rw [exec_rundecm_eq_issue, ← issue_singleton .cfextract]
  exact issue_append_of_clean h.issue_decode rfl [.cfextract]

theorem qValid_decoded (s : State) : getFlag .qValid (decoded s) = true :=
  getFlag_of_or_mask_self (s := afterRledec (containerStream s)) rfl

theorem ContainerDecodes.cap_decoded {s : State} (h : ContainerDecodes s) : (decoded s).cap = s.cap := by
  have hparts := h.decoderParts_decoded
  simp only [decoderParts, keptParts, Prod.mk.injEq] at hparts
  obtain ⟨⟨-, ⟨-, hcap⟩, -⟩, -⟩ := hparts
  exact hcap

/-- Settles O57: the stages run to the decoded state, which has coefficients to extract from. -/
theorem rundecmCompletes : Obligations.RundecmCompletes := by
  intro s h
  have hparts := h.decoderParts_decoded
  simp only [decoderParts, Prod.mk.injEq] at hparts
  obtain ⟨hkept, hheader, hpixels⟩ := hparts
  have hexec := exec_cfextract_of_valid (qValid_decoded s)
  refine ⟨decoded s, _, h.exec_rundecm.trans hexec, h.issue_decode, hexec, ?_, h.rleAt_decoded, h.zzLen_eq,
    ?_⟩
  · rw [← memory_of_pixelParts hpixels]
    exact eq_of_decodedParts hkept hheader h.rleLen_decoded h.node_decoded rfl h.stage_decoded
  · refine getFlag_of_or_mask_self (s := decoded s) ?_
    rw [afterExtract_frame]
    rfl

/-! ### `RUNDEC` (R279) -/

/-- The state after the stages of `RUNDEC`. -/
def decodedImage (s : State) : State := afterYcc2rgb (afterIdct (afterDequant (decoded s)))

/-- With a legal quality the stages after `DEZIGZAG` run as well. -/
theorem ContainerDecodes.exec_rundec {s : State} (h : ContainerDecodes s)
    (hquality : 1 ≤ (contWord s 0).toInt ∧ (contWord s 0).toInt ≤ 100) :
    exec .rundec s = .next (decodedImage s) := by
  have hdecoded : (decoded s).quality = contWord s 0 :=
    congrArg (fun p => p.2.1.1) h.decoderParts_decoded
  have hdct : getFlag .dctValid (afterDequant (decoded s)) = true := getFlag_of_or_mask_self rfl
  have hycc : getFlag .yccValid (afterIdct (afterDequant (decoded s))) = true := by
    refine getFlag_of_or_mask_self (s := afterDequant (decoded s)) ?_
    rw [afterIdct_frame]
    rfl
  have hclean : (afterIdct (afterDequant (decoded s))).lastdiag = 0#32 := by rw [afterIdct_frame]
  rw [exec_rundec_eq_issue]
  refine (issue_append_of_clean h.issue_decode rfl [.dequant, .idct, .ycc2rgb]).trans ?_
  rw [issue_of_clean (exec_dequant_of_valid (qValid_decoded s) (hdecoded ▸ hquality)) rfl,
    issue_of_clean (exec_idct_of_valid hdct) hclean,
    issue_of_clean (exec_ycc2rgb_of_valid hycc) rfl, issue_nil, decodedImage]

/-- What the stages on pixels leave as it was. -/
structure KeepsDecoded (s t : State) : Prop where
  kept : keptParts t = keptParts s
  header : headerParts t = headerParts s
  tree : t.node = s.node
  lengths : t.rleLen = s.rleLen ∧ t.zzLen = s.zzLen
  stream : ∀ i, rleAt t i = rleAt s i
  coefficients : ∀ i, qbAt t i = qbAt s i

theorem KeepsDecoded.trans {s t u : State} (h : KeepsDecoded s t) (h' : KeepsDecoded t u) :
    KeepsDecoded s u :=
  ⟨h'.kept.trans h.kept, h'.header.trans h.header, h'.tree.trans h.tree,
    ⟨h'.lengths.1.trans h.lengths.1, h'.lengths.2.trans h.lengths.2⟩,
    fun i => (h'.stream i).trans (h.stream i), fun i => (h'.coefficients i).trans (h.coefficients i)⟩

theorem keepsDecoded_afterDequant (s : State) : KeepsDecoded s (afterDequant s) :=
  ⟨rfl, rfl, rfl, ⟨rfl, rfl⟩, fun _ => rfl, fun _ => rfl⟩

theorem keepsDecoded_afterIdct (s : State) : KeepsDecoded s (afterIdct s) := by
  rw [afterIdct_frame]
  exact ⟨rfl, rfl, rfl, ⟨rfl, rfl⟩, fun _ => rfl, fun _ => rfl⟩

theorem keepsDecoded_afterYcc2rgb (s : State) : KeepsDecoded s (afterYcc2rgb s) :=
  ⟨rfl, rfl, rfl, ⟨rfl, rfl⟩, fun _ => rfl, fun _ => rfl⟩

theorem keepsDecoded_decodedImage (s : State) : KeepsDecoded (decoded s) (decodedImage s) :=
  ((keepsDecoded_afterDequant _).trans (keepsDecoded_afterIdct _)).trans (keepsDecoded_afterYcc2rgb _)

theorem stage_decodedImage (s : State) :
    (decodedImage s).stage = (decoded s).stage ||| 0x7#32 := by
  have hycc2rgb (t : State) : (afterYcc2rgb t).stage = t.stage ||| 0x1#32 := rfl
  have hidct (t : State) : (afterIdct t).stage = t.stage ||| 0x2#32 := by rw [afterIdct_frame]
  have hdequant (t : State) : (afterDequant t).stage = t.stage ||| 0x4#32 := rfl
  rw [decodedImage, hycc2rgb, hidct, hdequant, BitVec.or_assoc, BitVec.or_assoc]
  rfl

/-- Settles O56: the stages run to the decoded image. -/
theorem rundecCompletes : Obligations.RundecCompletes := by
  intro s h hlo hhi
  have hparts := h.decoderParts_decoded
  simp only [decoderParts, Prod.mk.injEq] at hparts
  obtain ⟨hkept, hheader, -⟩ := hparts
  have himage := keepsDecoded_decodedImage s
  obtain ⟨hrleLen, hzzLen⟩ := himage.lengths
  refine ⟨decodedImage s, h.exec_rundec ⟨hlo, hhi⟩, ?_, fun i hi => ?_, ?_⟩
  · refine eq_of_decodedParts (himage.kept.trans hkept) (himage.header.trans hheader)
      (hrleLen.trans h.rleLen_decoded) (himage.tree.trans h.node_decoded) rfl ?_
    rw [stage_decodedImage, h.stage_decoded, BitVec.or_assoc]
    rfl
  · rw [himage.stream, h.rleAt_decoded i hi]
  · rw [hzzLen]
    exact h.zzLen_eq

end Sys2Proof.Machine
end

section
/-! PROOFS. Encoding and then decoding (`49_orchestrator.md` R282, `48_lsb_coef.md` R259). When
an encoding macro ends without a diagnostic, it has written the container of an encoded state
(`encodes_of_runenc`, `encodes_of_runencm`). That container decodes to the stream it was made of
(`containerSymbols_eq`), so that the decoded coefficients are those that were encoded
(`qbAt_decoded`). -/

namespace Sys2Proof.Machine

/-! ### What an encoding macro without a diagnostic has written -/

/-- `t` is the state after `SER` of the encoded coefficients of `q`. -/
structure Encodes (q t : State) : Prop where
  codable : Codable q
  quality : 1 ≤ q.quality.toInt ∧ q.quality.toInt ≤ 100
  result : t = afterSer (encoded q)
  fits : 24 + 8 * regLen (encoded q).freqN + regLen (encoded q).encBytes ≤ q.cap.contCap

theorem exists_stages_of_clean {m i : Instr} {is : List Instr} {s t : State}
    (hm : rule m = runConstituents ((i :: is).map rule ++ [successCheck, cmdSer]))
    (h : exec m s = .next t) (ht : t.lastdiag = 0#32) :
    ∃ u, issue (i :: is) s = .next u ∧ u.lastdiag = 0#32 ∧ exec .ser u = .next t := by
  obtain ⟨u, hissue, hexec⟩ := exec_eq_issue_then_ser hm s
  rw [hexec] at h
  split at h
  next hdiag => exact absurd (Host.Outcome.next.inj h ▸ ht) hdiag
  next hclean =>
    split at h
    next => exact ⟨u, hissue, not_not.1 hclean, h⟩
    next => exact absurd (Host.Outcome.next.inj h ▸ ht) (diag_lastdiag_ne_zero .capacity u)

theorem exec_rgb2ycc_clean {s t : State} (h : exec .rgb2ycc s = .next t) (ht : t.lastdiag = 0#32) :
    t = afterRgb2ycc s := by
  cases ends_of_exec (by decide) h with
  | reported _ d hd => exact absurd ht (diag_lastdiag_ne_zero d s)
  | rgb2ycc => rfl

theorem exec_fdct_clean {s t : State} (h : exec .fdct s = .next t) (ht : t.lastdiag = 0#32) :
    t = afterFdct s := by
  cases ends_of_exec (by decide) h with
  | reported _ d hd => exact absurd ht (diag_lastdiag_ne_zero d s)
  | fdct => rfl

theorem exec_quant_clean {s t : State} (h : exec .quant s = .next t) (ht : t.lastdiag = 0#32) :
    t = afterQuant s ∧ 1 ≤ s.quality.toInt ∧ s.quality.toInt ≤ 100 := by
  have hdct : getFlag .dctValid s = true := by
    by_contra hmissing
    rw [exec_quant_of_not_valid (Bool.eq_false_of_not_eq_true hmissing)] at h
    rw [← Host.Outcome.next.inj h] at ht
    exact absurd ht (diag_lastdiag_ne_zero .precond s)
  have hquality : 1 ≤ s.quality.toInt ∧ s.quality.toInt ≤ 100 := by
    by_contra hbad
    rw [exec_quant_of_bad_quality hdct hbad] at h
    rw [← Host.Outcome.next.inj h] at ht
    exact absurd ht (diag_lastdiag_ne_zero .param s)
  rw [exec_quant_of_valid hdct hquality] at h
  exact ⟨(Host.Outcome.next.inj h).symm, hquality⟩

theorem exec_cfembed_clean {s t : State} (h : exec .cfembed s = .next t) (ht : t.lastdiag = 0#32) :
    t = afterCfembed s ∧ regLen s.msgLen ≤ s.cap.msgCap
      ∧ 8 * (regLen s.msgLen + 1) ≤ (coefSlots s).length := by
  cases ends_of_exec (by decide) h with
  | reported _ d hd => exact absurd ht (diag_lastdiag_ne_zero d s)
  | cfembedFailed => exact absurd ht (diag_lastdiag_ne_zero _ _)
  | cfembed hvalid hlen hfits => exact ⟨rfl, Int.toNat_le.2 hlen.2, hfits⟩

theorem issue_pixels_clean {s u : State} {rest : List Instr}
    (h : issue (.rgb2ycc :: .fdct :: .quant :: rest) s = .next u) (hu : u.lastdiag = 0#32) :
    issue rest (quantizedImage s) = .next u
      ∧ 1 ≤ s.quality.toInt ∧ s.quality.toInt ≤ 100 := by
  obtain ⟨a, hrgb2ycc, ha, hrest⟩ := exists_exec_of_issue_clean h hu
  obtain rfl := exec_rgb2ycc_clean hrgb2ycc ha
  obtain ⟨b, hfdct, hb, hrest⟩ := exists_exec_of_issue_clean hrest hu
  obtain rfl := exec_fdct_clean hfdct hb
  obtain ⟨c, hquant, hc, hrest⟩ := exists_exec_of_issue_clean hrest hu
  obtain ⟨rfl, hquality⟩ := exec_quant_clean hquant hc
  exact ⟨hrest, hquality⟩

theorem encodes_of_coder {q u t : State} (hgeometry : GeometryLegal q) (hcap : CapacitiesLegal q.cap)
    (hquality : 1 ≤ q.quality.toInt ∧ q.quality.toInt ≤ 100)
    (h : issue coderStages q = .next u) (hu : u.lastdiag = 0#32) (hser : exec .ser u = .next t)
    (ht : t.lastdiag = 0#32) : Encodes q t := by
  obtain ⟨hcodable, rfl⟩ := codable_of_clean hgeometry hcap h hu
  obtain ⟨hresult, hfits⟩ := exec_ser_clean hser ht
  exact ⟨hcodable, hquality, hresult, hfits⟩

theorem encodes_of_runenc {s t : State} (hgeometry : GeometryLegal s) (hcap : CapacitiesLegal s.cap)
    (h : exec .runenc s = .next t) (ht : t.lastdiag = 0#32) : Encodes (quantizedImage s) t := by
  obtain ⟨u, hissue, hu, hser⟩ := exists_stages_of_clean (m := .runenc) (i := .rgb2ycc)
    (is := .fdct :: .quant :: coderStages) rfl h ht
  obtain ⟨hcoder, hquality⟩ := issue_pixels_clean hissue hu
  exact encodes_of_coder hgeometry hcap hquality hcoder hu hser ht

theorem encodes_of_runencm {s t : State} (hgeometry : GeometryLegal s) (hcap : CapacitiesLegal s.cap)
    (h : exec .runencm s = .next t) (ht : t.lastdiag = 0#32) :
    Encodes (afterCfembed (quantizedImage s)) t ∧ regLen s.msgLen ≤ s.cap.msgCap
      ∧ 8 * (regLen s.msgLen + 1) ≤ (coefSlots (quantizedImage s)).length := by
  obtain ⟨u, hissue, hu, hser⟩ := exists_stages_of_clean (m := .runencm) (i := .rgb2ycc)
    (is := .fdct :: .quant :: .cfembed :: coderStages) rfl h ht
  obtain ⟨hrest, hquality⟩ := issue_pixels_clean hissue hu
  obtain ⟨e, hembed, he, hcoder⟩ := exists_exec_of_issue_clean hrest hu
  obtain ⟨rfl, hlen, hfits⟩ := exec_cfembed_clean hembed he
  exact ⟨encodes_of_coder hgeometry hcap hquality hcoder hu hser ht, hlen, hfits⟩

/-- A machine with the same container. -/
theorem Encodes.holdsContainer {q t u : State} (h : Encodes q t) (hcap : u.cap = q.cap)
    (hsame : SameContainer t u) : HoldsContainer (encoded q) u := by
  obtain ⟨hdeclared, hlength, hbytes⟩ := hsame
  have hcontLen : t.contLen.toInt
      = 24 + 8 * regLen (encoded q).freqN + regLen (encoded q).encBytes := by
    rw [h.result]
    exact toInt_contLen_afterSer h.codable.capacities.2.1 h.fits
  refine ⟨hdeclared, hcap, hlength ▸ hcontLen, fun i hi => ?_⟩
  rw [hbytes i (by omega), h.result]

/-! ### Decoding the container of an encoded state -/

theorem node_afterHtree (s : State) : (afterHtree s).node = buildTree (leafNodes s) := rfl

theorem numBlocks_afterDezigzag (s : State) : numBlocks (afterDezigzag s) = numBlocks s := rfl

/-- The sequence after `RLEDEC` is the expansion of the stream. -/
theorem zzSeq_afterRledec {s : State} (h : (expandPairs (rleSeq s)).length ≤ Config.zzCap) :
    zzSeq (afterRledec s) = expandPairs (rleSeq s) := by
  have hlength : regLen (afterRledec s).zzLen = (expandPairs (rleSeq s)).length := by
    rw [regLen, toInt_zzLen_afterRledec h, Int.toNat_natCast]
  refine List.ext_getElem (by rw [length_zzSeq, hlength]) fun i hi hi' => ?_
  simp only [zzSeq, List.getElem_map, List.getElem_range]
  exact zzAt_afterRledec s hi'

/-- An element of the sequence, or zero after its end, by the sequence. -/
theorem zzOrZero_eq_getD (s : State) (i : Nat) : zzOrZero s i = (zzSeq s).getD i 0#32 := by
  rw [zzOrZero]
  split
  next hi =>
    rw [List.getD_eq_getElem _ _ (by rwa [length_zzSeq])]
    simp only [zzSeq, List.getElem_map, List.getElem_range]
  next hi => rw [List.getD_eq_default _ _ (by rw [length_zzSeq]; omega)]

/-- A state with the truncated dimensions has the same tiles. -/
theorem numBlocks_of_truncated {s t : State} (hw : t.w.toInt = width8 s) (hh : t.h.toInt = height8 s) :
    numBlocks t = numBlocks s := by
  have hwidth : width t = width8 s := by rw [width, regLen, hw, Int.toNat_natCast]
  have hheight : height t = height8 s := by rw [height, regLen, hh, Int.toNat_natCast]
  have hwide : blocksWide t = blocksWide s := by
    rw [blocksWide, width8, hwidth, blocksWide, width8]
    omega
  have hhigh : blocksHigh t = blocksHigh s := by
    rw [blocksHigh, height8, hheight, blocksHigh, height8]
    omega
  rw [numBlocks, numBlocks, hwide, hhigh]

section
variable {q u : State} (h : Codable q) (hholds : HoldsContainer (encoded q) u)
include h hholds

theorem containerLeaves_eq : containerLeaves u = leafNodes (afterHfreq (scannedStream q)) := by
  have hentries : contEntries u = regLen (afterHfreq (scannedStream q)).freqN :=
    hholds.contEntries_eq h.serLegal
  have htable {i : Nat} (hi : i < 2 * regLen (afterHfreq (scannedStream q)).freqN) :
      contWord u (16 + 4 * i) = freqAt (afterHfreq (scannedStream q)) i := hholds.contWord_table hi
  rw [containerLeaves, leafNodes, hentries]
  refine List.map_congr_left fun k hk => ?_
  have hk := List.mem_range.1 hk
  rw [← htable (i := 2 * k) (by omega), ← htable (i := 2 * k + 1) (by omega)]
  congr 3 <;> omega

theorem containerPool_eq : containerPool u = streamPool (scannedStream q) := by
  rw [containerPool, containerLeaves_eq h hholds, streamPool, node_afterHtree]

/-- The container gives the tree of the stream. -/
theorem containerRoot_eq : (containerPool u).length - 1 = streamRoot (scannedStream q) := by
  have hshape := treeShape_stream (s := scannedStream q) h.capacities h.table h.stream
  have hlast := hshape.root_last
  rw [containerPool_eq h hholds]
  omega

theorem containerBits_eq : containerBits u = payloadBits (encoded q) := by
  rw [containerBits, payloadBits, hholds.contPayloadBytes_eq h.serLegal]
  exact List.flatMap_congr fun j hj =>
    congrArg bitsOfByte (hholds.contAt_payload h.serLegal (List.mem_range.1 hj))

theorem containerSymbolCount_eq :
    containerSymbolCount u = (rleSeq (scannedStream q)).length := by
  obtain ⟨-, ⟨hnonneg, -⟩, -⟩ := h.lengthsLegal
  rw [containerSymbolCount, (hholds.contWord_lengths h.serLegal).2, length_rleSeq]
  exact (Int.toNat_of_nonneg hnonneg).symm

/-- The payload decodes to the stream. -/
theorem containerSymbols_eq : containerSymbols u = rleSeq (scannedStream q) := by
  obtain ⟨padding, hbits⟩ := payloadBits_afterHuffman (s := scannedStream q) h.capacities h.payload
  have hdecode := decodeSymbols_codedBits (s := scannedStream q) h.capacities h.table h.stream padding
  rw [containerSymbols, containerRoot_eq h hholds, containerPool_eq h hholds,
    containerSymbolCount_eq h hholds, containerBits_eq h hholds, encoded, hbits, hdecode]

omit hholds in
/-- The stream expands to the scanned coefficients. -/
theorem expandPairs_scannedStream :
    expandPairs (rleSeq (scannedStream q)) = zzSeq (afterZigzag q) := by
  have hle := length_zzSeq_afterZigzag_le h.geometry
  rw [zzCap_eq] at hle
  rw [rleSeq_scannedStream h.geometry, expandPairs_encodeRLE (by omega)]

theorem containerDecodes_of_codable : ContainerDecodes u := by
  have hstream := h.stream
  have hlength := length_rleSeq (scannedStream q)
  have hruns := regLen_rleLen_scannedStream h.geometry
  have hcount := containerSymbolCount_eq h hholds
  have hsymbols := containerSymbols_eq h hholds
  obtain ⟨-, ⟨-, hle⟩, -⟩ := h.lengthsLegal
  have hrle : (encoded q).rleLen = (scannedStream q).rleLen := rfl
  rw [hrle] at hle
  refine ⟨hholds.declared, hholds.cap ▸ h.capacities, hholds.containerOk_eq_true h.serLegal,
    ?_, ?_, ?_, ?_⟩
  · rw [hholds.contEntries_eq h.serLegal]
    exact h.one_le_freqN
  · unfold regLen at hlength hruns hstream
    omega
  · rw [hsymbols, hcount]
  · rw [hsymbols, expandedLength_eq, expandPairs_scannedStream h]
    exact length_zzSeq_afterZigzag_le h.geometry

/-- The sequence that the container decodes to. -/
theorem zzSeq_containerStream :
    zzSeq (afterRledec (containerStream u)) = zzSeq (afterZigzag q) := by
  have hexpand : expandPairs (rleSeq (containerStream u)) = zzSeq (afterZigzag q) := by
    rw [(containerDecodes_of_codable h hholds).rleSeq_eq, containerSymbols_eq h hholds,
      expandPairs_scannedStream h]
  rw [zzSeq_afterRledec (hexpand ▸ length_zzSeq_afterZigzag_le h.geometry), hexpand]

/-- The registers of the decoded state. -/
theorem header_decoded : (decoded u).quality = q.quality ∧ (decoded u).w.toInt = width8 q
    ∧ (decoded u).h.toInt = height8 q := by
  have hheader : headerParts (decoded u) = headerParts (afterDeser u) := by
    have hparts := (containerDecodes_of_codable h hholds).decoderParts_decoded
    exact congrArg (·.2.1) (hparts.trans (decoderParts_afterDeser u).symm)
  simp only [headerParts, Prod.mk.injEq] at hheader
  obtain ⟨hquality, hh, hw, -⟩ := hheader
  obtain ⟨hquality', -, -, -, hw', hh'⟩ := hholds.registers_afterDeser h.serLegal
  exact ⟨hquality.trans hquality', (congrArg _ hw).trans hw', (congrArg _ hh).trans hh'⟩

theorem numBlocks_decoded : numBlocks (decoded u) = numBlocks q := by
  obtain ⟨-, hw, hh⟩ := header_decoded h hholds
  exact numBlocks_of_truncated hw hh

/-- The decoded coefficients are those that were encoded (R282). -/
theorem qbAt_decoded {i : Nat} (hi : i < 192 * numBlocks q) : qbAt (decoded u) i = qbAt q i := by
  have hblocks : numBlocks (afterRledec (containerStream u)) = numBlocks q := by
    rw [← numBlocks_afterDezigzag]
    exact numBlocks_decoded h hholds
  have hsequence : unscannedAt (afterRledec (containerStream u)) i = unscannedAt (afterZigzag q) i := by
    rw [unscannedAt, unscannedAt, zzOrZero_eq_getD, zzOrZero_eq_getD, zzSeq_containerStream h hholds]
  have hi' : i < 192 * numBlocks (afterRledec (containerStream u)) := by rwa [hblocks]
  rw [decoded, qbAt_afterDezigzag _ hi', hsequence, unscannedAt_afterZigzag h.geometry hi]

/-- The decoded coefficients have the slots of the encoded ones. -/
theorem coefSlots_decoded : coefSlots (decoded u) = coefSlots q := by
  refine (pairwise_coefSlots _).eq_of_mem_iff (pairwise_coefSlots q) fun i => ?_
  rw [mem_coefSlots, mem_coefSlots, numBlocks_decoded h hholds]
  refine and_congr_right fun hi => ?_
  rw [qbAt_decoded h hholds hi]

end

/-! ### The macros together -/

theorem qbAt_afterSer_encoded (q : State) (i : Nat) : qbAt (afterSer (encoded q)) i = qbAt q i := rfl

/-- `RUNDEC` on the container of an encoded state. -/
theorem Encodes.exec_rundec {q t u : State} (h : Encodes q t) (hcap : u.cap = q.cap)
    (hsame : SameContainer t u) :
    ∃ v, exec .rundec u = .next v ∧ v.lastdiag = 0#32 ∧ v.w.toInt = width8 q ∧ v.h.toInt = height8 q
      ∧ v.quality = q.quality ∧ ∀ i < 192 * numBlocks q, qbAt v i = qbAt t i := by
  have hholds := h.holdsContainer hcap hsame
  have hdecodes := containerDecodes_of_codable h.codable hholds
  obtain ⟨hdecoded, hw, hh⟩ := header_decoded h.codable hholds
  have himage := keepsDecoded_decodedImage u
  have hheader := himage.header
  simp only [headerParts, Prod.mk.injEq] at hheader
  obtain ⟨hquality', hh', hw', -⟩ := hheader
  have hfield : contWord u 0 = q.quality := hholds.contWord_header.1
  refine ⟨decodedImage u, hdecodes.exec_rundec (hfield ▸ h.quality), rfl, (congrArg _ hw').trans hw,
    (congrArg _ hh').trans hh, hquality'.trans hdecoded, fun i hi => ?_⟩
  rw [himage.coefficients, qbAt_decoded h.codable hholds hi, h.result, qbAt_afterSer_encoded]

/-- `RUNDECM` on the container of an encoded state in whose coefficients a message was embedded. -/
theorem Encodes.exec_rundecm {p t u : State} (h : Encodes (afterCfembed p) t) (hcap : u.cap = p.cap)
    (hsame : SameContainer t u) (hlen : regLen p.msgLen ≤ p.cap.msgCap)
    (hfits : 8 * (regLen p.msgLen + 1) ≤ (coefSlots p).length) :
    exec .rundecm u = .next (afterExtract (messageBeforeZero p, .terminated) (decoded u)) := by
  have hholds := h.holdsContainer hcap hsame
  have hdecodes := containerDecodes_of_codable h.codable hholds
  have hslots : coefSlots (decoded u) = coefSlots p :=
    (coefSlots_decoded h.codable hholds).trans (carrierChange_afterCfembed hfits).coefSlots_eq
  have hmsgCap : regLen p.msgLen ≤ (decoded u).cap.msgCap := by rwa [hdecodes.cap_decoded, hcap]
  have hextract : extractMessage (decoded u).cap.msgCap (coefBits (decoded u))
      = (messageBeforeZero p, .terminated) :=
    extractMessage_coefBits hmsgCap hfits hslots fun i hi =>
      qbAt_decoded h.codable hholds ((mem_coefSlots p i).1 hi).1
  rw [hdecodes.exec_rundecm, exec_cfextract_of_valid (qValid_decoded u), hextract]

/-- What the extractors leave as it was. -/
theorem afterExtract_keeps (r : List Byte × ExtractEnd) (s : State) : (afterExtract r s).w = s.w
    ∧ (afterExtract r s).h = s.h ∧ (afterExtract r s).quality = s.quality
    ∧ ∀ i, qbAt (afterExtract r s) i = qbAt s i := by
  rw [afterExtract_frame]
  exact ⟨rfl, rfl, rfl, fun _ => rfl⟩

theorem lastdiag_afterExtract_terminated (bytes : List Byte) (s : State) :
    (afterExtract (bytes, .terminated) s).lastdiag = 0#32 := by
  rw [afterExtract_frame]
  rfl

/-- Settles O58: the macro that encoded has written the container of its coefficients. -/
theorem encodeThenDecode : Obligations.EncodeThenDecode := by
  intro s t u hgeometry hcapacities hcap hsame ht
  refine ⟨fun h => ?rundec, fun h => ?rundecm⟩
  case rundec =>
    obtain h | h := h
    · exact (encodes_of_runenc hgeometry hcapacities h ht).exec_rundec hcap hsame
    · exact (encodes_of_runencm hgeometry hcapacities h ht).1.exec_rundec hcap hsame
  case rundecm =>
    obtain ⟨hencodes, hlen, hfits⟩ := encodes_of_runencm hgeometry hcapacities h ht
    have hholds := hencodes.holdsContainer hcap hsame
    obtain ⟨hquality, hw, hh⟩ := header_decoded hencodes.codable hholds
    have hle : (messageBeforeZero (quantizedImage s)).length ≤ regLen s.msgLen :=
      length_messageBeforeZero_le (quantizedImage s)
    obtain ⟨hmsgCap, -⟩ := hcapacities
    obtain ⟨hw', hh', hquality', hqb⟩ :=
      afterExtract_keeps (messageBeforeZero (quantizedImage s), .terminated) (decoded u)
    refine ⟨_, hencodes.exec_rundecm hcap hsame hlen hfits, lastdiag_afterExtract_terminated _ _,
      (congrArg _ hw').trans hw, (congrArg _ hh').trans hh, hquality'.trans hquality, fun i hi => ?_,
      message_afterExtract (by omega) _ _⟩
    rw [hqb, hencodes.result, qbAt_afterSer_encoded]
    exact qbAt_decoded hencodes.codable hholds hi

end Sys2Proof.Machine
end
